-- ==== Sys2Proof/Word.lean ====
section
/-!
DEFINITION. The word types of the F2 and the plainest reading of them (R2, R3, R8).
-/
namespace Sys2Proof

/-- 8 bits. -/
abbrev Byte := BitVec 8
/-- A word, and a cell of a square: 32 bits (R3). -/
abbrev W32 := BitVec 32
/-- A double: 64 bits (R3). -/
abbrev W64 := BitVec 64
/-- A virtual address of the scalar stream (R123, R191). -/
abbrev VAddr := BitVec 56
/-- The 64 bytes of a line, byte `j` in bits `[8j+7 : 8j]` (R3). -/
abbrev LineData := BitVec 512

/-- A finite table keyed by numbers: the key and value pairs whose value is not the default one,
keys rising. Its operations stand in Machine/Store.lean. -/
abbrev FMap (α : Type) := List (Nat × α)

end Sys2Proof
end

