-- ==== Sys2Proof/Syntax.lean ====
section
/-!
DEFINITION. The instructions and the steps of the F2: one constructor for each row of the opcode
table. The first rows are the 32-bit S-form words (R57, R70-R72), then the encodings that are no
instruction and the convoy check (R74, R69), then the 64-bit E-form words (R60-R73), and last the
steps that no word encodes: what engines, the Fold, the walkers, the Drover, Ursol and the host do
on their own.
-/
namespace Sys2Proof

/-- A scalar register number, `x0` to `x31` (R57, R114). -/
abbrev Reg := Fin 32
/-- A mask number, `m0` to `m7` (R142). -/
abbrev MaskNo := Fin 8
/-- A square number (R61). -/
abbrev SqNo := Fin 64

/-- The access sizes `sz` of R59. -/
inductive Size where
  | b | bn | h | hn | w | wn | d
  deriving DecidableEq, Repr, Inhabited

/-- The coherence policies `pol` of R59. -/
inductive Pol where
  | dflt | own | wt | sis | wis
  deriving DecidableEq, Repr, Inhabited

/-- The scopes `scp` of R59 and R247. -/
inductive Scope where
  | plain | hart | svp | stack | pkg | sys
  deriving DecidableEq, Repr, Inhabited

/-- Where an atomic runs (R236). -/
inductive Place where
  | auto | near | far
  deriving DecidableEq, Repr, Inhabited

/-- The atomic operations of R238. -/
inductive AmoOp where
  | swap | add | and | or | xor | min | max | minn | maxn
  deriving DecidableEq, Repr, Inhabited

/-- The rounding modes of R37. -/
inductive Rm where
  | rne | rtz | rdn | rup | rmm
  deriving DecidableEq, Repr, Inhabited

/-- The element types of R29. -/
inductive Ty where
  | i8 | n8 | i16 | n16 | i32 | n32 | i64 | n64
  | fp32 | fp16 | bf16 | e4m3 | e5m2 | o4
  deriving DecidableEq, Repr, Inhabited

/-- The directions of a vector in a square (R61). -/
inductive Dir where
  | row | col | diag
  deriving DecidableEq, Repr, Inhabited

/-- A 13-bit vector operand field (R61): a vector of a square, the next token of a stream record
(`v` says the V half), or a scalar broadcast. -/
inductive VOp where
  | vec (q : SqNo) (dir : Dir) (i : Fin 32)
  | stream (st : Fin 4) (v : Bool)
  | scalar (r : Reg)
  deriving DecidableEq, Repr, Inhabited

/-- The destination of a comparison: a mask, or a vector (R155, R173). -/
inductive CDst where
  | mask (m : MaskNo)
  | vec (v : VOp)
  deriving DecidableEq, Repr, Inhabited

/-- The conditions of VCMP (R155). -/
inductive Cond where
  | eq | ne | lt | ge | gt | le
  deriving DecidableEq, Repr, Inhabited

/-- The conditions of VFCMP (R173). -/
inductive FCond where
  | eq | ne | lt | ge | gt | le | un
  deriving DecidableEq, Repr, Inhabited

/-- The group sizes of R181: 32, 2, 4, 8 and 16 cells, codes 0 to 4. -/
inductive Gs where
  | g32 | g2 | g4 | g8 | g16
  deriving DecidableEq, Repr, Inhabited

/-- The combining operations of VGRED and VSCAN (R183). -/
inductive GOp where
  | sum | max | min | and | or | xor
  deriving DecidableEq, Repr, Inhabited

/-- What every maskable E-form word carries beside its own fields: the convoy bit and the
governing mask (R60). -/
structure EHdr where
  cv : Bool
  msk : MaskNo
  deriving DecidableEq, Repr, Inhabited

/-- The modifiers of a vector load (R241): policy, scope, ascending order, chasing. -/
structure VLdMods where
  pol : Pol
  scp : Scope
  ord : Bool
  chase : Bool
  deriving DecidableEq, Repr, Inhabited

/-- The modifiers of a vector store (R241). -/
structure VStMods where
  pol : Pol
  ord : Bool
  deriving DecidableEq, Repr, Inhabited

/-- A bank: layer `layer` of bank column `col` of stack `stk` (R271). -/
structure BankId where
  stk : Fin 8
  col : Fin 64
  layer : Fin 16
  deriving DecidableEq, Repr, Inhabited

/-- A table tile: tile `t` of stack `stk` (R17). -/
structure TileId where
  stk : Fin 8
  t : Fin 64
  deriving DecidableEq, Repr, Inhabited

/-- A task: its farm slot and its task id (R85, R90). -/
structure TaskId where
  farm : Fin 1024
  tid : Nat
  deriving DecidableEq, Repr, Inhabited

/-- The units that acknowledge a pre-emption (R388): the hart that runs a task, or an engine of
the stack. -/
inductive AckUnit where
  | hart (t : TaskId)
  | tile (t : Fin 64)
  | rowTransfer (t : Fin 64)
  | builder
  | copyEngine
  | crook
  deriving DecidableEq, Repr, Inhabited

/-- An inbound RDMA READ or WRITE (R367, R371): the queue pair it comes through and the rkey it names. -/
structure RkeyUse where
  qp : Fin 4096
  rkey : Nat
  deriving DecidableEq, Repr, Inhabited

/-- An access to the physical region (R372): the queue pair it comes through, and whether it writes. -/
structure RegionUse where
  qp : Fin 4096
  wr : Bool
  deriving DecidableEq, Repr, Inhabited

/-- The units that read and write at a Fold and hold no copies (R214, R219). -/
inductive EngineUnit where
  | shootdown | drover | walker | copy | crook | builder
  | tile (t : Fin 64)
  deriving DecidableEq, Repr, Inhabited

/-- Who sends a request to a home Fold (R219, R225): a coherence agent 0 to 16, or an engine of a
stack, which holds no copies. -/
inductive Requester where
  | agent (a : Fin 17)
  | engine (stk : Fin 8) (unit : EngineUnit)
  deriving DecidableEq, Repr, Inhabited

/-- Where a port stands whose expander takes packets (R14, R15, R367, R369): on a stack (its mesh ports), on the hub (its
ends of the hub links, by column), or at the package's edge (an Ethernet port, with the queue pair of the packet). -/
inductive PortNode where
  | mesh (stk : Fin 8)
  | hub
  | ether (qp : Fin 4096)
  deriving DecidableEq, Repr, Inhabited

/-- A signed firmware image (R404): its 256-byte header and its body. -/
structure FwImage where
  header : List Byte
  body : List Byte
  deriving DecidableEq, Repr, Inhabited

inductive Instr where
  -- S-form, integer registers (R117-R120)
  | add (d a b : Reg) | sub (d a b : Reg) | and (d a b : Reg) | or (d a b : Reg)
  | xor (d a b : Reg) | shl (d a b : Reg) | shr (d a b : Reg) | sra (d a b : Reg)
  | slt (d a b : Reg) | sltn (d a b : Reg) | min (d a b : Reg) | max (d a b : Reg)
  | minn (d a b : Reg) | maxn (d a b : Reg)
  | fshl (d a b : Reg) (k : BitVec 6) | fshr (d a b : Reg) (k : BitVec 6)
  | mul (d a b : Reg) | mulh (d a b : Reg) | mulhn (d a b : Reg)
  | div (d a b : Reg) | divn (d a b : Reg) | rem (d a b : Reg) | remn (d a b : Reg)
  | clz (d a : Reg) | ctz (d a : Reg) | popc (d a : Reg)
  | sext (d a : Reg) (k : BitVec 6) | zext (d a : Reg) (k : BitVec 6)
  -- S-form, immediates (R121, R122)
  | addi (d a : Reg) (imm : BitVec 15) | andi (d a : Reg) (imm : BitVec 15)
  | ori (d a : Reg) (imm : BitVec 15) | xori (d a : Reg) (imm : BitVec 15)
  | shli (d a : Reg) (n : BitVec 6) | shri (d a : Reg) (n : BitVec 6) | srai (d a : Reg) (n : BitVec 6)
  | slti (d a : Reg) (imm : BitVec 15)
  | lih (d : Reg) (imm : BitVec 20)
  -- S-form, branches and jumps (R123-R125)
  | beq (a b : Reg) (off : BitVec 15) | bne (a b : Reg) (off : BitVec 15)
  | blt (a b : Reg) (off : BitVec 15) | bge (a b : Reg) (off : BitVec 15)
  | bltn (a b : Reg) (off : BitVec 15) | bgen (a b : Reg) (off : BitVec 15)
  | jal (d : Reg) (off : BitVec 20) | jalr (d a : Reg) (imm : BitVec 15)
  -- S-form, memory (R238-R240)
  | ld (d a : Reg) (sz : Size) (pol : Pol) (off : BitVec 6)
  | st (d a : Reg) (sz : Size) (pol : Pol) (off : BitVec 6)
  | lda (d a : Reg) (sz : Size) (pol : Pol) (scp : Scope) (off : BitVec 6)
  | stl (d a : Reg) (sz : Size) (pol : Pol) (scp : Scope) (off : BitVec 6)
  | amoSwap (d a : Reg) (sz : Size) (scp : Scope) (pl : Place)
  | amoAdd (d a : Reg) (sz : Size) (scp : Scope) (pl : Place)
  | amoAnd (d a : Reg) (sz : Size) (scp : Scope) (pl : Place)
  | amoOr (d a : Reg) (sz : Size) (scp : Scope) (pl : Place)
  | amoXor (d a : Reg) (sz : Size) (scp : Scope) (pl : Place)
  | amoMin (d a : Reg) (sz : Size) (scp : Scope) (pl : Place)
  | amoMax (d a : Reg) (sz : Size) (scp : Scope) (pl : Place)
  | amoMinn (d a : Reg) (sz : Size) (scp : Scope) (pl : Place)
  | amoMaxn (d a : Reg) (sz : Size) (scp : Scope) (pl : Place)
  | cas (d a b : Reg) (sz : Size) (scp : Scope)
  | casNear (d a b : Reg) (sz : Size) (scp : Scope)
  | casFar (d a b : Reg) (sz : Size) (scp : Scope)
  -- S-form, control words (R126-R130)
  | cwr (d : Reg) (w : BitVec 12) | cww (a : Reg) (w : BitVec 12)
  | cws (a : Reg) (w : BitVec 12) | cwc (a : Reg) (w : BitVec 12)
  -- S-form, traps, fences, strips, tasks
  | trap (k : BitVec 6) | eret
  | fence (scp : Scope) | fenceAcq (scp : Scope) | fenceRel (scp : Scope) | fenceFetch (scp : Scope)
  | tfence | scommit (d : Reg) | sabort (d : Reg) | etrig | exit | yield
  | vsetl (d a b : Reg) | vf (off : BitVec 20)
  -- S-form, launch and completion objects
  | launch (c a b : Reg)
  | wait (e c a : Reg) (wrap : Bool) | poll (e c a : Reg) (wrap : Bool)
  | arrive (e c a b : Reg) | csigSig (c a b : Reg) | csigSet (c a : Reg)
  -- S-form, rows, tables, KV, copies
  | rowact (e c a b : Reg) | rowcls (c a : Reg) | rowcon (w cl : Bool) (c a b : Reg)
  | cbld (c a b : Reg) | tbld (c a b e : Reg) | lka (c a b e : Reg) | aclr (c a : Reg) | adrn (c a b : Reg)
  | kvlook (c a : Reg) | kvins (c a b e : Reg) | kvpin (c a b : Reg) | kvunpin (c a b : Reg)
  | kvapp (c a b e : Reg) | kvsig (c a : Reg)
  | kvbindBind (a b : Reg) | kvbindSave (a b : Reg) | kvbindUnbind (a b : Reg)
  | cpy (c a b e : Reg) | cpys (c a b e : Reg)
  -- encodings that are no instruction, and the check of a convoy
  | illegalEncoding (word : W64) | convoyCheck
  -- E-form, class I
  | stop (cv : Bool)
  | vadd (h : EHdr) (ty : Ty) (d a b : VOp) (sat : Bool)
  | vsub (h : EHdr) (ty : Ty) (d a b : VOp) (sat : Bool)
  | vmul (h : EHdr) (ty : Ty) (d a b : VOp) (sat : Bool)
  | vmulh (h : EHdr) (ty : Ty) (d a b : VOp)
  | vmin (h : EHdr) (ty : Ty) (d a b : VOp) | vmax (h : EHdr) (ty : Ty) (d a b : VOp)
  | vminn (h : EHdr) (ty : Ty) (d a b : VOp) | vmaxn (h : EHdr) (ty : Ty) (d a b : VOp)
  | vand (h : EHdr) (ty : Ty) (d a b : VOp) | vor (h : EHdr) (ty : Ty) (d a b : VOp)
  | vxor (h : EHdr) (ty : Ty) (d a b : VOp)
  | vshl (h : EHdr) (ty : Ty) (d a b : VOp) | vshr (h : EHdr) (ty : Ty) (d a b : VOp)
  | vsra (h : EHdr) (ty : Ty) (d a b : VOp)
  | vfshl (h : EHdr) (ty : Ty) (d a b : VOp) (k : BitVec 6)
  | vfshr (h : EHdr) (ty : Ty) (d a b : VOp) (k : BitVec 6)
  | vpopc (h : EHdr) (ty : Ty) (d a : VOp) | vclz (h : EHdr) (ty : Ty) (d a : VOp)
  | vabs (h : EHdr) (ty : Ty) (d a : VOp)
  | vsatn (h : EHdr) (ty : Ty) (d a : VOp) (m : BitVec 6) (u : Bool)
  | vcmp (h : EHdr) (ty : Ty) (d : CDst) (a b : VOp) (cond : Cond)
  | vsel (h : EHdr) (ty : Ty) (d a b : VOp) | vmov (h : EHdr) (ty : Ty) (d a : VOp)
  | vmovx (h : EHdr) (ty : Ty) (d : VOp) (b : Reg) (e : BitVec 8)
  | vext (cv : Bool) (ty : Ty) (d : Reg) (a : VOp) (e : BitVec 8)
  | vidx (h : EHdr) (ty : Ty) (d a : VOp) (s : BitVec 8)
  | vmand (h : EHdr) (d a b : MaskNo) | vmor (h : EHdr) (d a b : MaskNo) | vmxor (h : EHdr) (d a b : MaskNo)
  | vmnot (h : EHdr) (d a : MaskNo)
  | vmcnt (h : EHdr) (d : Reg) (a : MaskNo) | vmfirst (h : EHdr) (d : Reg) (a : MaskNo)
  -- E-form, class F
  | vfadd (h : EHdr) (ty : Ty) (d a b : VOp) (rm : Rm) | vfsub (h : EHdr) (ty : Ty) (d a b : VOp) (rm : Rm)
  | vfmul (h : EHdr) (ty : Ty) (d a b : VOp) (rm : Rm) | vfma (h : EHdr) (ty : Ty) (d a b : VOp) (rm : Rm)
  | vfmin (h : EHdr) (ty : Ty) (d a b : VOp) | vfmax (h : EHdr) (ty : Ty) (d a b : VOp)
  | vfdiv (h : EHdr) (ty : Ty) (d a b : VOp) (rm : Rm)
  | vfrcp (h : EHdr) (ty : Ty) (d a : VOp) (rm : Rm) | vfrsq (h : EHdr) (ty : Ty) (d a : VOp) (rm : Rm)
  | vfexp2 (h : EHdr) (ty : Ty) (d a : VOp) (rm : Rm) | vflog2 (h : EHdr) (ty : Ty) (d a : VOp) (rm : Rm)
  | vfcmp (h : EHdr) (ty : Ty) (d : CDst) (a b : VOp) (cond : FCond)
  | vfcvt (h : EHdr) (ty : Ty) (d a : VOp) (rm : Rm) (src : Ty) (p : Fin 4)
  | vicvt (h : EHdr) (ty : Ty) (d a : VOp) (rm : Rm) (src : Ty) (p : Fin 4)
  -- E-form, class X
  | vrsum (h : EHdr) (ty : Ty) (d : Reg) (a : VOp) (sat : Bool)
  | vrmax (h : EHdr) (ty : Ty) (d : Reg) (a : VOp) | vrmin (h : EHdr) (ty : Ty) (d : Reg) (a : VOp)
  | vrmaxi (h : EHdr) (ty : Ty) (d : Reg) (a : VOp) (b : Reg)
  | vrmini (h : EHdr) (ty : Ty) (d : Reg) (a : VOp) (b : Reg)
  | vrand (h : EHdr) (ty : Ty) (d : Reg) (a : VOp) | vror (h : EHdr) (ty : Ty) (d : Reg) (a : VOp)
  | vrxor (h : EHdr) (ty : Ty) (d : Reg) (a : VOp)
  | vfrsum (h : EHdr) (ty : Ty) (d : Reg) (a : VOp) (rm : Rm) (wide : Bool)
  | vfrmax (h : EHdr) (ty : Ty) (d : Reg) (a : VOp)
  | vgred (h : EHdr) (ty : Ty) (d a : VOp) (gs : Gs) (op : GOp) (sat : Bool)
  | vshuf (h : EHdr) (ty : Ty) (d a b : VOp) (gs : Gs)
  | vslup (h : EHdr) (ty : Ty) (d a : VOp) (b : Reg) (gs : Gs)
  | vsldn (h : EHdr) (ty : Ty) (d a : VOp) (b : Reg) (gs : Gs)
  | vbcast (h : EHdr) (ty : Ty) (d a : VOp) (b : Reg) (gs : Gs)
  | vcmprs (cv : Bool) (ty : Ty) (d a : VOp) (sel : MaskNo)
  | vexpnd (cv : Bool) (ty : Ty) (d a : VOp) (sel : MaskNo)
  | vscan (h : EHdr) (ty : Ty) (d a : VOp) (gs : Gs) (op : GOp) (excl sat : Bool)
  -- E-form, class P
  | opa (h : EHdr) (ty : Ty) (q : SqNo) (a b : VOp) (alt : Bool)
  | sqz (cv : Bool) (q : SqNo) | sqcp (cv : Bool) (d a : SqNo) (tr : Bool)
  | sqcvt (cv : Bool) (ty : Ty) (d a : SqNo) (rm : Rm)
  -- E-form, class M
  | vld (h : EHdr) (ty : Ty) (d : VOp) (a : Reg) (m : VLdMods)
  | vlds (h : EHdr) (ty : Ty) (d : VOp) (a b : Reg) (m : VLdMods)
  | vldx (h : EHdr) (ty : Ty) (d : VOp) (a : Reg) (b : VOp) (m : VLdMods)
  | vst (h : EHdr) (ty : Ty) (s : VOp) (a : Reg) (m : VStMods)
  | vsts (h : EHdr) (ty : Ty) (s : VOp) (a b : Reg) (m : VStMods)
  | vstx (h : EHdr) (ty : Ty) (s : VOp) (a : Reg) (b : VOp) (m : VStMods)
  | vstb (h : EHdr) (s : VOp) (a : Reg) (b : VOp) (m : VStMods)
  | vamo (h : EHdr) (ty : Ty) (s : VOp) (a : Reg) (b : VOp) (op : AmoOp) (pl : Place) (ord : Bool)
  -- E-form, class K
  | kvhash (cv : Bool) (d : Reg) (a : VOp) (b : Reg) | vsign (cv : Bool) (d a : VOp) (q : SqNo)
  | qkdot (h : EHdr) (d a : VOp) (st : Fin 4) | pvacc (h : EHdr) (q : SqNo) (i : Fin 32) (a : VOp) (st : Fin 4)
  -- steps of the Crook's prefetch, the supervisor core's service and the Drover
  | streamPrefetch (t : TaskId) (st : Fin 4)
  | taskTrapService (stk : Fin 8) (kyrek : Bool) | taskResume (t : TaskId)
  | hostQueueTail (q : Fin 16) (value : W64) | hostRecordCheck (q : Fin 16)
  | launchEnqueue | farmSlotAssign | dependenceSatisfied (slot : Fin 1024) | readyTaskCreate (slot : Fin 1024)
  | taskPlace (stk : Fin 8) | preemptRequest (stk : Fin 8) | preemptAck (stk : Fin 8) (u : AckUnit)
  | preemptComplete (stk : Fin 8) | waitTimeoutPark (t : TaskId) | waitWake (t : TaskId)
  | farmClose (slot : Fin 1024)
  -- steps of the table builder and the tiles
  | cbldExecute (stk : Fin 8) | tbldExecute (stk : Fin 8) | tbldGroupWrite (stk : Fin 8)
  | lkaStart (t : TileId) | lkaComplete (t : TileId) | aclrExecute (t : TileId)
  | adrnStart (t : TileId) | adrnComplete (t : TileId) | versionWaitExpiry (t : TileId)
  -- steps of the DRAM banks
  | rowConsumable (b : BankId) | rowOpenLimit (b : BankId) | refreshPreclose (b : BankId)
  | refreshWindowStart (b : BankId) | refreshWindowEnd (b : BankId) | bankCloseEnd (b : BankId)
  | rowTransfer (stk : Fin 8) (col : Fin 64) | rowclsClose (b : BankId) | foldDramAccess (b : BankId) (row : Fin 32768)
  -- steps of the Fold and the first-level caches
  | gets (r : Fin 17) (line : Nat) (acq : Bool) | geto (r : Fin 17) (line : Nat) (acq : Bool)
  | read (r : Requester) (line : Nat) (words : BitVec 16) (acq : Bool)
  | write (r : Requester) (line : Nat) (en : BitVec 64) (data : LineData)
  | far (r : Requester) (pa : Nat) (sz : Size) (op : AmoOp) (v : W64) (acq : Bool)
  | puto (a : Fin 17) (line : Nat) | marker (a : Fin 17) (line : Nat) | dirtyNotice (a : Fin 17) (fold : Fin 8)
  | invalidation (a : Fin 17) (line : Nat) | pull (a : Fin 17) (line : Nat) | recall (a : Fin 17) (line : Nat)
  | forward (a : Fin 17) (line : Nat) | forcedPublish (a : Fin 17) (line : Nat)
  -- steps of the walkers and of shootdowns
  | pageWalk (stk : Fin 8) | pageWalkResult (stk : Fin 8) | shootdownExecute (stk : Fin 8)
  | shootdownComplete (stk : Fin 8) | hostShootdownDoorbell
  -- steps of the Crook
  | kvLookup (stk : Fin 8) | kvSeal (stk : Fin 8) | kvDemote (stk : Fin 8) | kvPromote (stk : Fin 8)
  | kvAbsent (stk : Fin 8) | kvRemove (stk : Fin 8) | kvPin (stk : Fin 8) | kvUnpin (stk : Fin 8)
  | kvAppend (stk : Fin 8) | kvSign (stk : Fin 8)
  -- steps of the copy engine and of chasing loads
  | copyStart (stk : Fin 8) | copyChunkLand (stk : Fin 8) (n : Nat) (chunk : Nat) | copyEnd (stk : Fin 8) (n : Nat)
  | chaseElementRead (t : TaskId)
  -- steps of the links, the host path and power
  | packetReject (node : PortNode) (port : Fin 4) (len : BitVec 13) (wire : List Byte)
  | linkRetrainFail (stk : Fin 8) (port : Fin 4)
  | rdmaWriteIn (req : RkeyUse) (va : W64) (data : List Byte) | rdmaReadIn (req : RkeyUse) (va : W64) (n : Nat)
  | sendIn (qp : Fin 4096) (payload : List Byte) (imm : W32) | rdmaAtomicIn (qp : Fin 4096)
  | physicalRegionAccess (req : RegionUse) (off : Nat) (n : Nat) (data : List Byte)
  | powerOn (img : FwImage) | recoveryImage (img : FwImage) | thermalTrip | stackReturnToOn (stk : Fin 8)
  -- host commands (R394): the payload's doubles
  | setgrade (args : List W64) | stackstate (args : List W64) | setcap (args : List W64)
  | fencecol (args : List W64) | settrip (args : List W64) | attest (args : List W64)
  | setasiddir (args : List W64) | bindqueue (args : List W64) | qpsetup (args : List W64)
  | setwindow (args : List W64) | setrkey (args : List W64) | setring (args : List W64)
  | homewatch (args : List W64) | homering (args : List W64) | abortfarm (args : List W64)
  | fenceedge (args : List W64) | readcounts (args : List W64) | readlog (args : List W64)
  | physwindow (args : List W64) | unknownHostCommand (code : W32)
  | packageUnpowered | queuePairError (qp : Fin 4096) | linkRetrain (stk : Fin 8) (port : Fin 4) | gradeSwitchEnd
  deriving DecidableEq, Repr

end Sys2Proof
end

