-- ==== Sys2Proof/WellFormed.lean ====
section
/-!
DEFINITION. Which terms of `Instr` are legal encodings word by word: the type sets of R147 and R165,
the operand kinds of R61, R141, R148, R166, R167, R241 and R347, the field ranges their tables give,
and the overlaps R68, R145, R175, R187, R188, R189 and R347 forbid. What a convoy must satisfy (R67)
is in Machine/Block.lean; what a task must hold at that moment (R75) is checked when it runs.
-/
namespace Sys2Proof

/-- Why a term is no legal encoding (R74). -/
inductive IllFormed where
  | badSize | badScope | badDestination | badType | badOperand | badImmediate | badControlWord | overlap
  deriving DecidableEq, Repr

namespace Ty
/-- The element width in bits (R29). -/
def bits : Ty → Nat
  | i8 | n8 | e4m3 | e5m2 => 8
  | i16 | n16 | fp16 | bf16 => 16
  | i32 | n32 | fp32 => 32
  | i64 | n64 => 64
  | o4 => 4
/-- Elements per cell; a 64-bit element counts as one per cell (R29, R143). -/
def perCell : Ty → Nat
  | i8 | n8 | e4m3 | e5m2 => 4
  | i16 | n16 | fp16 | bf16 => 2
  | i32 | n32 | fp32 | i64 | n64 => 1
  | o4 => 8
/-- The set INT of R147, and WID. -/
def isInt : Ty → Bool
  | i8 | n8 | i16 | n16 | i32 | n32 | i64 | n64 => true
  | _ => false
/-- Two's-complement integer types (R32); the set SGN of R147. -/
def isSigned : Ty → Bool
  | i8 | i16 | i32 | i64 => true
  | _ => false
/-- Unsigned integer types; the set UNS of R147. -/
def isUnsigned : Ty → Bool
  | n8 | n16 | n32 | n64 => true
  | _ => false
/-- The set BIT of R147. -/
def isBit : Ty → Bool
  | n32 | n64 => true
  | _ => false
/-- The set FLT of R165. -/
def isFlt : Ty → Bool
  | fp32 | fp16 | bf16 => true
  | _ => false
/-- The set FMT of R165. -/
def isFmt : Ty → Bool
  | fp32 | fp16 | bf16 | e4m3 | e5m2 | o4 => true
  | _ => false
/-- The set PRD of R165. -/
def isPrd : Ty → Bool
  | fp32 | fp16 | bf16 | e4m3 | e5m2 => true
  | _ => false
/-- The set NRW of R165. -/
def isNrw : Ty → Bool
  | fp16 | bf16 | e4m3 | e5m2 => true
  | _ => false
/-- A 64-bit element, a pair of cells (R31). -/
def is64 : Ty → Bool
  | i64 | n64 => true
  | _ => false
end Ty

/-- The vector of a square an operand names: square, direction, index, and how many vectors it
covers (2 for a 64-bit operand, R31). -/
structure VecRef where
  q : SqNo
  dir : Dir
  i : Nat
  n : Nat
  deriving DecidableEq, Repr

/-- The vectors an operand covers under a type; none for a stream or a broadcast. -/
def VOp.ref? (ty : Ty) : VOp → Option VecRef
  | .vec q dir i => some ⟨q, dir, i.val, if ty.is64 then 2 else 1⟩
  | _ => none

/-- Two operands name a common cell (R63). -/
def VecRef.overlaps (x y : VecRef) : Bool :=
  x.q == y.q && (x.dir != y.dir || (x.i < y.i + y.n && y.i < x.i + x.n))

/-- A source that overlaps the destination at all (R68). -/
def overlapAny (d s : Option VecRef) : Bool :=
  match d, s with
  | some d, some s => d.overlaps s
  | _, _ => false

/-- Two vectors of one square in different directions whose one common cell is the same cell, by number, of both (R61). -/
def VecRef.crossesAlike (x y : VecRef) : Bool :=
  x.n == 1 && y.n == 1 && (match x.dir, y.dir with
    | .row, .col | .col, .row => x.i == y.i
    | .row, .diag => y.i == 0
    | .diag, .row => x.i == 0
    | .col, .diag | .diag, .col => true
    | _, _ => false)

/-- A source that overlaps the destination without being equal to it, or crossing it at the same cell of both: the rule's
worked example has row 0 and column 0 legal, where its sentence alone has not (R145; DEDUCED, log entry 52). -/
def overlapUnequal (d s : Option VecRef) : Bool :=
  match d, s with
  | some d, some s => d.overlaps s && d != s && !d.crossesAlike s
  | _, _ => false

namespace VOp
def isVec : VOp → Bool
  | .vec .. => true
  | _ => false
def isStream : VOp → Bool
  | .stream .. => true
  | _ => false
def isScalar : VOp → Bool
  | .scalar _ => true
  | _ => false
/-- A vector or a broadcast: what a field marked vec accepts as a source (R61). -/
def isSrc (v : VOp) : Bool := !v.isStream
/-- A source of the instructions of R148: also a stream, but not under a 64-bit type (R141). -/
def isSrcI (ty : Ty) (v : VOp) : Bool := !(v.isStream && ty.is64)
end VOp

/-- The control words that R127 assigns. -/
def controlWordAssigned (w : BitVec 12) : Bool :=
  let n := w.toNat
  n ≤ 6 || n == 8 || n == 9 || (0x10 ≤ n && n ≤ 0x13) || n == 0x20 || (0x40 ≤ n && n ≤ 0x7F)
    || n == 0x100 || n == 0x101

/-- The first check that fails, if any. -/
def firstFail : List (Bool × IllFormed) → Option IllFormed
  | [] => none
  | (true, _) :: r => firstFail r
  | (false, e) :: _ => some e

/-- Elementwise instruction of R148 with two sources: type, destination, operands, overlap. -/
def chkI2 (tyOk : Bool) (ty : Ty) (d a b : VOp) : Option IllFormed :=
  firstFail [(tyOk, .badType), (d.isVec, .badDestination), (a.isSrcI ty && b.isSrcI ty, .badOperand),
    (!overlapUnequal (d.ref? ty) (a.ref? ty) && !overlapUnequal (d.ref? ty) (b.ref? ty), .overlap)]

/-- Elementwise instruction of R148 with one source. -/
def chkI1 (tyOk : Bool) (ty : Ty) (d a : VOp) : Option IllFormed :=
  firstFail [(tyOk, .badType), (d.isVec, .badDestination), (a.isSrcI ty, .badOperand),
    (!overlapUnequal (d.ref? ty) (a.ref? ty), .overlap)]

/-- Elementwise floating-point instruction with two sources (R166, R168). -/
def chkF2 (ty : Ty) (d a b : VOp) : Option IllFormed :=
  firstFail [(ty.isFlt, .badType), (d.isVec, .badDestination), (a.isSrc && b.isSrc, .badOperand),
    (!overlapUnequal (d.ref? ty) (a.ref? ty) && !overlapUnequal (d.ref? ty) (b.ref? ty), .overlap)]

/-- Elementwise floating-point instruction with one source (R166, R168). -/
def chkF1 (ty : Ty) (d a : VOp) : Option IllFormed :=
  firstFail [(ty.isFlt, .badType), (d.isVec, .badDestination), (a.isSrc, .badOperand),
    (!overlapUnequal (d.ref? ty) (a.ref? ty), .overlap)]

/-- A reduction to a scalar (R177). -/
def chkRed (tyOk : Bool) (a : VOp) : Option IllFormed :=
  firstFail [(tyOk, .badType), (a.isSrc, .badOperand)]

/-- A class X instruction that writes a vector (R182). -/
def chkX (tyOk : Bool) (ty : Ty) (d a : VOp) (b : Option VOp) : Option IllFormed :=
  firstFail [(tyOk, .badType), (d.isVec, .badDestination), (a.isSrc && (b.all VOp.isSrc), .badOperand),
    (!overlapAny (d.ref? ty) (a.ref? ty) && !overlapAny (d.ref? ty) (b.bind (VOp.ref? ty)), .overlap)]

/-- How many times more elements a cell of the denser type holds (R174). -/
def convRatio (ns nd : Nat) : Nat := Nat.max ns nd / Nat.min ns nd

/-- A conversion of R174 and R175: the ratio, the part, 64-bit only with fp32, and the overlap. -/
def chkConv (dstTy srcTy : Ty) (d a : VOp) (p : Fin 4) : Option IllFormed :=
  let r := convRatio srcTy.perCell dstTy.perCell
  firstFail [(r ≤ 4 && p.val < r, .badImmediate),
    ((!dstTy.is64 || srcTy == .fp32) && (!srcTy.is64 || dstTy == .fp32), .badType),
    (d.isVec, .badDestination), (a.isSrc || (srcTy == .e4m3 && dstTy.isFmt), .badOperand),
    (if r == 1 then !overlapUnequal (d.ref? dstTy) (a.ref? srcTy)
      else !overlapAny (d.ref? dstTy) (a.ref? srcTy), .overlap)]

/-- The number of elements a vector holds: 32 cells of a type (R158). -/
def vecElems (ty : Ty) : Nat := 32 * ty.perCell

/-- Operand of OPA: a vector or a broadcast, not in the square it writes (R187). -/
def opaSrcOk (q : SqNo) : VOp → Bool
  | .vec q' _ _ => q' != q
  | .scalar _ => true
  | .stream _ _ => false

/-- PVACC's `a` may not lie in rows i to i + 3 of the square it writes (R347). -/
def pvaccSrcOk (q : SqNo) (i : Fin 32) : VOp → Bool
  | .vec q' .row j => !(q' == q && i.val ≤ j.val && j.val ≤ i.val + 3)
  | .vec _ _ _ => true
  | .scalar _ => true
  | .stream _ _ => false

/-- Why an instruction is not a legal encoding; none when it is. The steps that no word encodes
have nothing to check. -/
def Instr.check : Instr → Option IllFormed
  | .st _ _ sz _ _ => firstFail [(sz == .b || sz == .h || sz == .w || sz == .d, .badSize)]
  | .lda _ _ _ _ scp _ => firstFail [(scp != .plain, .badScope)]
  | .stl _ _ sz _ scp _ =>
    firstFail [(sz == .b || sz == .h || sz == .w || sz == .d, .badSize), (scp != .plain, .badScope)]
  | .amoSwap _ _ sz _ _ | .amoAdd _ _ sz _ _ | .amoAnd _ _ sz _ _ | .amoOr _ _ sz _ _ | .amoXor _ _ sz _ _
  | .amoMin _ _ sz _ _ | .amoMax _ _ sz _ _ | .amoMinn _ _ sz _ _ | .amoMaxn _ _ sz _ _
  | .cas _ _ _ sz _ | .casNear _ _ _ sz _ | .casFar _ _ _ sz _ =>
    firstFail [(sz == .w || sz == .wn || sz == .d, .badSize)]
  | .cwr _ w | .cww _ w | .cws _ w | .cwc _ w => firstFail [(controlWordAssigned w, .badControlWord)]
  | .fence scp | .fenceAcq scp | .fenceRel scp | .fenceFetch scp => firstFail [(scp != .plain, .badScope)]
  | .scommit d | .sabort d => firstFail [(d != 0, .badDestination)]
  | .vadd _ ty d a b _ | .vsub _ ty d a b _ | .vmul _ ty d a b _ | .vmulh _ ty d a b
  | .vand _ ty d a b | .vor _ ty d a b | .vxor _ ty d a b | .vshl _ ty d a b | .vshr _ ty d a b
  | .vsra _ ty d a b => chkI2 ty.isInt ty d a b
  | .vmin _ ty d a b | .vmax _ ty d a b => chkI2 ty.isSigned ty d a b
  | .vminn _ ty d a b | .vmaxn _ ty d a b => chkI2 ty.isUnsigned ty d a b
  | .vfshl _ ty d a b k | .vfshr _ ty d a b k =>
    firstFail [(ty.isInt && k.toNat < ty.bits, .badImmediate)] <|> chkI2 ty.isInt ty d a b
  | .vpopc _ ty d a | .vclz _ ty d a => chkI1 ty.isInt ty d a
  | .vabs _ ty d a => chkI1 ty.isSigned ty d a
  | .vsatn _ ty d a m u =>
    firstFail [(ty.isInt && 1 ≤ m.toNat && m.toNat ≤ ty.bits && (!u || ty.isSigned), .badImmediate)]
      <|> chkI1 ty.isInt ty d a
  | .vcmp _ ty (.vec d) a b _ => chkI2 ty.isInt ty d a b
  | .vcmp _ ty (.mask m) a b _ =>
    firstFail [(ty.isInt && ty.perCell == 1, .badType), (m != 0, .badDestination),
      (a.isSrcI ty && b.isSrcI ty, .badOperand)]
  | .vsel _ ty d a b => chkI2 ty.isBit ty d a b
  | .vmov _ ty (.vec q dir i) (.vec q' dir' i') =>
    firstFail [(ty.isBit, .badType),
      (dir == dir' || !overlapAny (VOp.ref? ty (.vec q dir i)) (VOp.ref? ty (.vec q' dir' i')), .overlap),
      (!overlapUnequal (VOp.ref? ty (.vec q dir i)) (VOp.ref? ty (.vec q' dir' i')), .overlap)]
  | .vmov _ ty d a => chkI1 ty.isBit ty d a
  | .vmovx _ ty d _ e =>
    firstFail [(ty.isInt, .badType), (d.isVec, .badDestination), (e.toNat < vecElems ty, .badImmediate)]
  | .vext _ ty _ a e =>
    firstFail [(ty.isInt, .badType), (a.isSrcI ty, .badOperand), (e.toNat < vecElems ty, .badImmediate)]
  | .vidx _ ty d a _ => chkI1 ty.isInt ty d a
  | .vmand _ d _ _ | .vmor _ d _ _ | .vmxor _ d _ _ | .vmnot _ d _ => firstFail [(d != 0, .badDestination)]
  | .vfadd _ ty d a b _ | .vfsub _ ty d a b _ | .vfmul _ ty d a b _ | .vfma _ ty d a b _
  | .vfmin _ ty d a b | .vfmax _ ty d a b | .vfdiv _ ty d a b _ => chkF2 ty d a b
  | .vfrcp _ ty d a _ | .vfrsq _ ty d a _ | .vfexp2 _ ty d a _ | .vflog2 _ ty d a _ => chkF1 ty d a
  | .vfcmp _ ty (.vec d) a b _ => chkF2 ty d a b
  | .vfcmp _ ty (.mask m) a b _ =>
    firstFail [(ty == .fp32, .badType), (m != 0, .badDestination), (a.isSrc && b.isSrc, .badOperand)]
  | .vfcvt _ ty d a _ src p =>
    firstFail [(ty.isFmt && src.isFmt && ty != src, .badType)] <|> chkConv ty src d a p
  | .vicvt _ ty d a _ src p =>
    firstFail [((ty.isInt && src.isFmt) || (ty.isFmt && src.isInt), .badType), (a.isSrc, .badOperand)]
      <|> chkConv ty src d a p
  | .vrsum _ ty _ a _ | .vrmax _ ty _ a | .vrmin _ ty _ a | .vrand _ ty _ a | .vror _ ty _ a
  | .vrxor _ ty _ a => chkRed ty.isInt a
  | .vrmaxi _ ty _ a _ | .vrmini _ ty _ a _ => chkRed (ty.isInt && !ty.is64) a
  | .vfrsum _ ty _ a _ wide => chkRed (ty.isFlt && (!wide || ty != .fp32)) a
  | .vfrmax _ ty _ a => chkRed ty.isFlt a
  | .vgred _ ty d a _ op sat =>
    firstFail [(ty.isInt || (ty.isFlt && (op == .sum || op == .max || op == .min)), .badType),
      (!sat || (op == .sum && ty.isInt), .badImmediate)] <|> chkX true ty d a none
  | .vshuf _ ty d a b _ => chkX ty.isInt ty d a (some b)
  | .vslup _ ty d a _ _ | .vsldn _ ty d a _ _ | .vbcast _ ty d a _ _ => chkX ty.isInt ty d a none
  | .vcmprs _ ty d a _ | .vexpnd _ ty d a _ => chkX ty.isBit ty d a none
  | .vscan _ ty d a _ op _ sat =>
    firstFail [(!sat || op == .sum, .badImmediate)] <|> chkX ty.isInt ty d a none
  | .opa _ ty q a b alt =>
    firstFail [(ty.isPrd && (!alt || ty == .e4m3 || ty == .e5m2), .badType),
      (opaSrcOk q a && opaSrcOk q b, .badOperand)]
  | .sqcp _ d a _ => firstFail [(d != a, .overlap)]
  | .sqcvt _ ty d a _ => firstFail [(ty.isNrw, .badType), (d != a, .overlap)]
  | .vld _ ty d _ _ | .vlds _ ty d _ _ _ => firstFail [(ty.isBit, .badType), (d.isVec, .badDestination)]
  | .vldx _ ty d _ b _ =>
    firstFail [(ty.isBit, .badType), (d.isVec, .badDestination), (b.isSrc, .badOperand),
      (!overlapUnequal (d.ref? ty) (b.ref? ty), .overlap)]
  | .vst _ ty s _ _ | .vsts _ ty s _ _ _ => firstFail [(ty.isBit, .badType), (s.isSrc, .badOperand)]
  | .vstx _ ty s _ b _ | .vamo _ ty s _ b _ _ _ =>
    firstFail [(ty.isBit, .badType), (s.isSrc && b.isSrc, .badOperand)]
  | .vstb _ s _ b _ => firstFail [(s.isSrc && b.isSrc, .badOperand)]
  | .kvhash _ _ a _ => firstFail [(a.isSrc, .badOperand)]
  | .vsign _ d a q =>
    firstFail [(d.isVec, .badDestination), (a.isSrc, .badOperand),
      (!overlapAny (d.ref? .e4m3) (a.ref? .e4m3) && (match d with | .vec q' _ _ => q' != q | _ => true), .overlap)]
  | .qkdot _ d a _ => firstFail [(d.isVec, .badDestination), (a.isSrc, .badOperand)]
  | .pvacc _ q i a _ => firstFail [(i.val % 4 == 0, .badDestination), (pvaccSrcOk q i a, .badOperand)]
  | _ => none

/-- A legal encoding of the F2, or a step that has no word. -/
abbrev Instr.WellFormed (i : Instr) : Prop := i.check = none

end Sys2Proof
end

