-- ==== Sys2Proof/Decode.lean ====
section
/-!
DEFINITION. The decoder of S-form and E-form words (R57-R73 and the encoding tables of R148, R167,
R241, R266, R298, R330, R347), total on every word and rejecting by name, and after it the encoder
written from the same tables.
-/
namespace Sys2Proof

/-- Why a word is no instruction (R74). -/
inductive DecodeErr where
  /-- a reserved or permanently reserved op7 or op (R70, R73, R76) -/
  | reservedOp
  /-- a reserved fn, fn5, mode or auxiliary value (R71, R72, R264, R266) -/
  | reservedFn
  /-- a reserved sz, pol, scp, rm, ty, condition, group or operation code -/
  | reservedCode
  /-- a field that must be zero is not (R62) -/
  | nonzeroField
  /-- an operand field R61 forbids -/
  | badField
  /-- the fields are each legal but together are not (WellFormed.lean) -/
  | illFormed (why : IllFormed)
  deriving DecidableEq, Repr

/-- `len` bits of `w` from bit `lo` up. -/
def fieldAt (w lo len : Nat) : Nat := w / 2 ^ lo % 2 ^ len

/-- The word whose fields, given as width and value from bit 0 up, are those of the list. -/
def packFields : List (Nat × Nat) → Nat
  | [] => 0
  | (w, v) :: r => v % 2 ^ w + 2 ^ w * packFields r

def bit (b : Bool) : Nat := if b then 1 else 0

/-- Refuse unless a field is zero (R62). -/
def mustZero (n : Nat) : Except DecodeErr Unit := if n = 0 then .ok () else .error .nonzeroField
/-- Refuse unless a condition on a function field holds. -/
def mustFn (b : Bool) : Except DecodeErr Unit := if b then .ok () else .error .reservedFn

/-- The sz codes of R59. -/
def Size.code : Size → Nat
  | .b => 0
  | .bn => 1
  | .h => 2
  | .hn => 3
  | .w => 4
  | .wn => 5
  | .d => 6
def Size.ofCode : Nat → Except DecodeErr Size
  | 0 => .ok .b
  | 1 => .ok .bn
  | 2 => .ok .h
  | 3 => .ok .hn
  | 4 => .ok .w
  | 5 => .ok .wn
  | 6 => .ok .d
  | _ => .error .reservedCode

/-- The pol codes of R59. -/
def Pol.code : Pol → Nat
  | .dflt => 0
  | .own => 1
  | .wt => 2
  | .sis => 3
  | .wis => 4
def Pol.ofCode : Nat → Except DecodeErr Pol
  | 0 => .ok .dflt
  | 1 => .ok .own
  | 2 => .ok .wt
  | 3 => .ok .sis
  | 4 => .ok .wis
  | _ => .error .reservedCode

/-- The scp codes of R59. -/
def Scope.code : Scope → Nat
  | .plain => 0
  | .hart => 1
  | .svp => 2
  | .stack => 3
  | .pkg => 4
  | .sys => 5
def Scope.ofCode : Nat → Except DecodeErr Scope
  | 0 => .ok .plain
  | 1 => .ok .hart
  | 2 => .ok .svp
  | 3 => .ok .stack
  | 4 => .ok .pkg
  | 5 => .ok .sys
  | _ => .error .reservedCode

/-- The placement codes of R72 and R236. -/
def Place.code : Place → Nat
  | .auto => 0
  | .near => 1
  | .far => 2
def Place.ofCode : Nat → Except DecodeErr Place
  | 0 => .ok .auto
  | 1 => .ok .near
  | 2 => .ok .far
  | _ => .error .reservedCode

/-- The atomic operation codes of R238. -/
def AmoOp.code : AmoOp → Nat
  | .swap => 0
  | .add => 1
  | .and => 2
  | .or => 3
  | .xor => 4
  | .min => 5
  | .max => 6
  | .minn => 7
  | .maxn => 8
def AmoOp.ofCode : Nat → Except DecodeErr AmoOp
  | 0 => .ok .swap
  | 1 => .ok .add
  | 2 => .ok .and
  | 3 => .ok .or
  | 4 => .ok .xor
  | 5 => .ok .min
  | 6 => .ok .max
  | 7 => .ok .minn
  | 8 => .ok .maxn
  | _ => .error .reservedCode

/-- The rm codes of R37. -/
def Rm.code : Rm → Nat
  | .rne => 0
  | .rtz => 1
  | .rdn => 2
  | .rup => 3
  | .rmm => 4
def Rm.ofCode : Nat → Except DecodeErr Rm
  | 0 => .ok .rne
  | 1 => .ok .rtz
  | 2 => .ok .rdn
  | 3 => .ok .rup
  | 4 => .ok .rmm
  | _ => .error .reservedCode

/-- The ty codes of R29. -/
def Ty.code : Ty → Nat
  | .i8 => 0
  | .n8 => 1
  | .i16 => 2
  | .n16 => 3
  | .i32 => 4
  | .n32 => 5
  | .i64 => 6
  | .n64 => 7
  | .fp32 => 8
  | .fp16 => 9
  | .bf16 => 10
  | .e4m3 => 11
  | .e5m2 => 12
  | .o4 => 13
def Ty.ofCode : Nat → Except DecodeErr Ty
  | 0 => .ok .i8
  | 1 => .ok .n8
  | 2 => .ok .i16
  | 3 => .ok .n16
  | 4 => .ok .i32
  | 5 => .ok .n32
  | 6 => .ok .i64
  | 7 => .ok .n64
  | 8 => .ok .fp32
  | 9 => .ok .fp16
  | 10 => .ok .bf16
  | 11 => .ok .e4m3
  | 12 => .ok .e5m2
  | 13 => .ok .o4
  | _ => .error .reservedCode

/-- The direction codes of R61. -/
def Dir.code : Dir → Nat
  | .row => 0
  | .col => 1
  | .diag => 2
def Dir.ofCode : Nat → Except DecodeErr Dir
  | 0 => .ok .row
  | 1 => .ok .col
  | 2 => .ok .diag
  | _ => .error .reservedCode

/-- The conditions of R155. -/
def Cond.code : Cond → Nat
  | .eq => 0
  | .ne => 1
  | .lt => 2
  | .ge => 3
  | .gt => 4
  | .le => 5
def Cond.ofCode : Nat → Except DecodeErr Cond
  | 0 => .ok .eq
  | 1 => .ok .ne
  | 2 => .ok .lt
  | 3 => .ok .ge
  | 4 => .ok .gt
  | 5 => .ok .le
  | _ => .error .reservedCode

/-- The conditions of R173. -/
def FCond.code : FCond → Nat
  | .eq => 0
  | .ne => 1
  | .lt => 2
  | .ge => 3
  | .gt => 4
  | .le => 5
  | .un => 6
def FCond.ofCode : Nat → Except DecodeErr FCond
  | 0 => .ok .eq
  | 1 => .ok .ne
  | 2 => .ok .lt
  | 3 => .ok .ge
  | 4 => .ok .gt
  | 5 => .ok .le
  | 6 => .ok .un
  | _ => .error .reservedCode

/-- The group codes of R181. -/
def Gs.code : Gs → Nat
  | .g32 => 0
  | .g2 => 1
  | .g4 => 2
  | .g8 => 3
  | .g16 => 4
def Gs.ofCode : Nat → Except DecodeErr Gs
  | 0 => .ok .g32
  | 1 => .ok .g2
  | 2 => .ok .g4
  | 3 => .ok .g8
  | 4 => .ok .g16
  | _ => .error .reservedCode

/-- The combining codes of R183. -/
def GOp.code : GOp → Nat
  | .sum => 0
  | .max => 1
  | .min => 2
  | .and => 3
  | .or => 4
  | .xor => 5
def GOp.ofCode : Nat → Except DecodeErr GOp
  | 0 => .ok .sum
  | 1 => .ok .max
  | 2 => .ok .min
  | 3 => .ok .and
  | 4 => .ok .or
  | 5 => .ok .xor
  | _ => .error .reservedCode

/-- The float-family index of R165: ty − 0b1000. -/
def Ty.fltIndex (t : Ty) : Nat := t.code - 8
/-- The source type a conversion's 3-bit source field names (R174): a float family index, or an INT
code. -/
def srcOfIndex (flt : Bool) (n : Nat) : Except DecodeErr Ty :=
  if flt then (if n < 6 then Ty.ofCode (8 + n) else .error .reservedCode) else Ty.ofCode n
/-- The 3-bit source field of a conversion. -/
def srcIndex (src : Ty) : Nat := if src.isFmt then src.fltIndex else src.code

/-- The 13-bit operand field of R61. -/
def VOp.code : VOp → Nat
  | .vec q dir i => packFields [(5, i.val), (2, dir.code), (6, q.val)]
  | .stream st v => packFields [(5, bit v), (2, 3), (6, st.val)]
  | .scalar r => packFields [(5, r.val), (2, 3), (6, 63)]
/-- An operand field read as a vector, a stream or a broadcast (R61). -/
def VOp.ofCode (n : Nat) : Except DecodeErr VOp :=
  if fieldAt n 5 2 = 3 then
    if fieldAt n 7 6 = 63 then .ok (.scalar (Fin.ofNat 32 (fieldAt n 0 5)))
    else if fieldAt n 7 6 < 4 ∧ fieldAt n 0 5 < 2 then
      .ok (.stream (Fin.ofNat 4 (fieldAt n 7 6)) (fieldAt n 0 5 == 1))
    else .error .badField
  else do
    let dir ← Dir.ofCode (fieldAt n 5 2)
    .ok (.vec (Fin.ofNat 64 (fieldAt n 7 6)) dir (Fin.ofNat 32 (fieldAt n 0 5)))
/-- A field the tables mark xs or bc: square 63, direction 11 (R148). -/
def scalarField (n : Nat) : Except DecodeErr Reg :=
  if fieldAt n 5 8 = 255 then .ok (Fin.ofNat 32 (fieldAt n 0 5)) else .error .badField
def scalarCode (r : Reg) : Nat := (VOp.scalar r).code
/-- A mask field: bits [12:3] zero (R62). -/
def maskField (n : Nat) : Except DecodeErr MaskNo :=
  if fieldAt n 3 10 = 0 then .ok (Fin.ofNat 8 (fieldAt n 0 3)) else .error .nonzeroField
/-- A whole-square field: bits [6:0] zero (R166). -/
def squareField (n : Nat) : Except DecodeErr SqNo :=
  if fieldAt n 0 7 = 0 then .ok (Fin.ofNat 64 (fieldAt n 7 6)) else .error .badField
def squareCode (q : SqNo) : Nat := q.val * 128
/-- A stream field of one half (R347). -/
def streamField (v : Bool) (n : Nat) : Except DecodeErr (Fin 4) := do
  match ← VOp.ofCode n with
  | .stream st v' => if v' = v then .ok st else .error .badField
  | _ => .error .badField
/-- The destination of a comparison: fn8[4] says whether it is a vector (R155, R173). -/
def cdstField (vector : Bool) (n : Nat) : Except DecodeErr CDst :=
  if vector then (VOp.ofCode n).map .vec else (maskField n).map .mask
def CDst.code : CDst → Nat
  | .mask m => m.val
  | .vec v => v.code
def CDst.isVec : CDst → Bool
  | .vec _ => true
  | .mask _ => false

/-- A word of the S-form, field by field (R57): `a12`, `b17` and so on name where a field starts. LD takes scope
code 0 only, as R238 has it, though R11's example of suffixes gives a load the stack scope (DESIGN CHOICE, log entry 53). -/
def decodeSRaw (w : Nat) : Except DecodeErr Instr := do
  let op := fieldAt w 0 7
  let r7 : Reg := Fin.ofNat 32 (fieldAt w 7 5)
  let r12 : Reg := Fin.ofNat 32 (fieldAt w 12 5)
  let r17 : Reg := Fin.ofNat 32 (fieldAt w 17 5)
  let r22 : Reg := Fin.ofNat 32 (fieldAt w 22 5)
  let r27 : Reg := Fin.ofNat 32 (fieldAt w 27 5)
  let k : BitVec 6 := BitVec.ofNat 6 (fieldAt w 22 6)
  let sel := fieldAt w 28 4
  let fn5 := fieldAt w 27 5
  let imm15 : BitVec 15 := BitVec.ofNat 15 (fieldAt w 17 15)
  let imm20 : BitVec 20 := BitVec.ofNat 20 (fieldAt w 12 20)
  let off6 : BitVec 6 := BitVec.ofNat 6 (fieldAt w 26 6)
  match op with
  | 0x01 =>
    if sel < 14 then mustZero k.toNat
    match sel with
    | 0 => .ok (.add r7 r12 r17)
    | 1 => .ok (.sub r7 r12 r17)
    | 2 => .ok (.and r7 r12 r17)
    | 3 => .ok (.or r7 r12 r17)
    | 4 => .ok (.xor r7 r12 r17)
    | 5 => .ok (.shl r7 r12 r17)
    | 6 => .ok (.shr r7 r12 r17)
    | 7 => .ok (.sra r7 r12 r17)
    | 8 => .ok (.slt r7 r12 r17)
    | 9 => .ok (.sltn r7 r12 r17)
    | 10 => .ok (.min r7 r12 r17)
    | 11 => .ok (.max r7 r12 r17)
    | 12 => .ok (.minn r7 r12 r17)
    | 13 => .ok (.maxn r7 r12 r17)
    | 14 => .ok (.fshl r7 r12 r17 k)
    | _ => .ok (.fshr r7 r12 r17 k)
  | 0x02 =>
    if sel < 10 then mustZero k.toNat
    if 7 ≤ sel then mustFn (sel < 12)
    if 7 ≤ sel then mustZero (fieldAt w 17 5)
    match sel with
    | 0 => .ok (.mul r7 r12 r17)
    | 1 => .ok (.mulh r7 r12 r17)
    | 2 => .ok (.mulhn r7 r12 r17)
    | 3 => .ok (.div r7 r12 r17)
    | 4 => .ok (.divn r7 r12 r17)
    | 5 => .ok (.rem r7 r12 r17)
    | 6 => .ok (.remn r7 r12 r17)
    | 7 => .ok (.clz r7 r12)
    | 8 => .ok (.ctz r7 r12)
    | 9 => .ok (.popc r7 r12)
    | 10 => .ok (.sext r7 r12 k)
    | 11 => .ok (.zext r7 r12 k)
    | _ => .error .reservedFn
  | 0x03 => .ok (.addi r7 r12 imm15)
  | 0x04 => .ok (.andi r7 r12 imm15)
  | 0x05 => .ok (.ori r7 r12 imm15)
  | 0x06 => .ok (.xori r7 r12 imm15)
  | 0x0A => .ok (.slti r7 r12 imm15)
  | 0x07 => do mustZero (fieldAt w 23 9); .ok (.shli r7 r12 (BitVec.ofNat 6 (fieldAt w 17 6)))
  | 0x08 => do mustZero (fieldAt w 23 9); .ok (.shri r7 r12 (BitVec.ofNat 6 (fieldAt w 17 6)))
  | 0x09 => do mustZero (fieldAt w 23 9); .ok (.srai r7 r12 (BitVec.ofNat 6 (fieldAt w 17 6)))
  | 0x0B => .ok (.lih r7 imm20)
  | 0x10 => .ok (.beq r7 r12 imm15)
  | 0x11 => .ok (.bne r7 r12 imm15)
  | 0x12 => .ok (.blt r7 r12 imm15)
  | 0x13 => .ok (.bge r7 r12 imm15)
  | 0x14 => .ok (.bltn r7 r12 imm15)
  | 0x15 => .ok (.bgen r7 r12 imm15)
  | 0x16 => .ok (.jal r7 imm20)
  | 0x17 => .ok (.jalr r7 r12 imm15)
  | 0x18 => do
    mustZero (fieldAt w 23 3)
    let sz ← Size.ofCode (fieldAt w 17 3)
    let pol ← Pol.ofCode (fieldAt w 20 3)
    .ok (.ld r7 r12 sz pol off6)
  | 0x19 => do
    mustZero (fieldAt w 23 3)
    let sz ← Size.ofCode (fieldAt w 17 3)
    let pol ← Pol.ofCode (fieldAt w 20 3)
    .ok (.st r7 r12 sz pol off6)
  | 0x1A => do
    let sz ← Size.ofCode (fieldAt w 17 3)
    let pol ← Pol.ofCode (fieldAt w 20 3)
    let scp ← Scope.ofCode (fieldAt w 23 3)
    .ok (.lda r7 r12 sz pol scp off6)
  | 0x1B => do
    let sz ← Size.ofCode (fieldAt w 17 3)
    let pol ← Pol.ofCode (fieldAt w 20 3)
    let scp ← Scope.ofCode (fieldAt w 23 3)
    .ok (.stl r7 r12 sz pol scp off6)
  | 0x1C => do
    mustZero (fieldAt w 20 3)
    let sz ← Size.ofCode (fieldAt w 17 3)
    let scp ← Scope.ofCode (fieldAt w 23 3)
    let pl ← Place.ofCode (fieldAt w 30 2)
    let o ← AmoOp.ofCode (fieldAt w 26 4)
    match o with
    | .swap => .ok (.amoSwap r7 r12 sz scp pl)
    | .add => .ok (.amoAdd r7 r12 sz scp pl)
    | .and => .ok (.amoAnd r7 r12 sz scp pl)
    | .or => .ok (.amoOr r7 r12 sz scp pl)
    | .xor => .ok (.amoXor r7 r12 sz scp pl)
    | .min => .ok (.amoMin r7 r12 sz scp pl)
    | .max => .ok (.amoMax r7 r12 sz scp pl)
    | .minn => .ok (.amoMinn r7 r12 sz scp pl)
    | .maxn => .ok (.amoMaxn r7 r12 sz scp pl)
  | 0x1D => do
    mustZero (fieldAt w 20 3)
    mustZero (fieldAt w 26 1)
    let sz ← Size.ofCode (fieldAt w 17 3)
    let scp ← Scope.ofCode (fieldAt w 23 3)
    .ok (.cas r7 r12 r27 sz scp)
  | 0x1E => do
    mustZero (fieldAt w 20 3)
    mustZero (fieldAt w 26 1)
    let sz ← Size.ofCode (fieldAt w 17 3)
    let scp ← Scope.ofCode (fieldAt w 23 3)
    .ok (.casNear r7 r12 r27 sz scp)
  | 0x1F => do
    mustZero (fieldAt w 20 3)
    mustZero (fieldAt w 26 1)
    let sz ← Size.ofCode (fieldAt w 17 3)
    let scp ← Scope.ofCode (fieldAt w 23 3)
    .ok (.casFar r7 r12 r27 sz scp)
  | 0x20 => do
    mustZero (fieldAt w 29 1)
    let cw : BitVec 12 := BitVec.ofNat 12 (fieldAt w 17 12)
    match fieldAt w 30 2 with
    | 0 => do mustZero (fieldAt w 12 5); .ok (.cwr r7 cw)
    | 1 => do mustZero (fieldAt w 7 5); .ok (.cww r12 cw)
    | 2 => do mustZero (fieldAt w 7 5); .ok (.cws r12 cw)
    | _ => do mustZero (fieldAt w 7 5); .ok (.cwc r12 cw)
  | 0x21 =>
    match sel with
    | 0 => do mustZero (fieldAt w 7 15); .ok (.trap k)
    | 1 => do mustZero (fieldAt w 7 21); .ok .eret
    | 2 => do
      mustZero (fieldAt w 7 15)
      let scp ← Scope.ofCode (fieldAt w 22 3)
      match fieldAt w 25 3 with
      | 0 => .ok (.fence scp)
      | 1 => .ok (.fenceAcq scp)
      | 2 => .ok (.fenceRel scp)
      | 3 => .ok (.fenceFetch scp)
      | _ => .error .reservedFn
    | 3 => do mustZero (fieldAt w 7 21); .ok .tfence
    | 4 => do mustZero (fieldAt w 12 16); .ok (.scommit r7)
    | 5 => do mustZero (fieldAt w 12 16); .ok (.sabort r7)
    | 6 => do mustZero (fieldAt w 7 21); .ok .etrig
    | 7 => do mustZero (fieldAt w 7 21); .ok .exit
    | 8 => do mustZero (fieldAt w 7 21); .ok .yield
    | 9 => do mustZero (fieldAt w 22 6); .ok (.vsetl r7 r12 r17)
    | _ => .error .reservedFn
  | 0x22 => do mustZero (fieldAt w 7 5); .ok (.vf imm20)
  | 0x28 => do mustFn (fn5 == 0); mustZero (fieldAt w 22 5); .ok (.launch r7 r12 r17)
  | 0x29 =>
    match fn5 with
    | 0 => do mustZero (fieldAt w 18 4); .ok (.wait r22 r7 r12 (fieldAt w 17 1 == 1))
    | 1 => do mustZero (fieldAt w 18 4); .ok (.poll r22 r7 r12 (fieldAt w 17 1 == 1))
    | 2 => .ok (.arrive r22 r7 r12 r17)
    | 3 =>
      match fieldAt w 22 5 with
      | 0 => .ok (.csigSig r7 r12 r17)
      | 1 => do mustZero (fieldAt w 17 5); .ok (.csigSet r7 r12)
      | _ => .error .reservedFn
    | _ => .error .reservedFn
  | 0x2A =>
    match fn5 with
    | 0 => .ok (.rowact r22 r7 r12 r17)
    | 1 => do mustZero (fieldAt w 17 10); .ok (.rowcls r7 r12)
    | _ => do
      mustFn (4 ≤ fn5 && fn5 < 8)
      mustZero (fieldAt w 22 5)
      .ok (.rowcon (fieldAt w 28 1 == 1) (fieldAt w 27 1 == 1) r7 r12 r17)
  | 0x2B =>
    match fn5 with
    | 0 => do mustZero (fieldAt w 22 5); .ok (.cbld r7 r12 r17)
    | 1 => .ok (.tbld r7 r12 r17 r22)
    | 2 => .ok (.lka r7 r12 r17 r22)
    | 3 => do mustZero (fieldAt w 17 10); .ok (.aclr r7 r12)
    | 4 => do mustZero (fieldAt w 22 5); .ok (.adrn r7 r12 r17)
    | _ => .error .reservedFn
  | 0x2C =>
    match fn5 with
    | 0 => do mustZero (fieldAt w 17 10); .ok (.kvlook r7 r12)
    | 1 => .ok (.kvins r7 r12 r17 r22)
    | 2 => do mustZero (fieldAt w 22 5); .ok (.kvpin r7 r12 r17)
    | 3 => do mustZero (fieldAt w 22 5); .ok (.kvunpin r7 r12 r17)
    | 4 => .ok (.kvapp r7 r12 r17 r22)
    | 5 => do mustZero (fieldAt w 17 10); .ok (.kvsig r7 r12)
    | 6 => do mustZero (fieldAt w 22 5); mustZero (fieldAt w 7 5); .ok (.kvbindBind r12 r17)
    | _ => .error .reservedFn
  | 0x2D =>
    match fn5 with
    | 0 => .ok (.cpy r7 r12 r17 r22)
    | 1 => .ok (.cpys r7 r12 r17 r22)
    | _ => .error .reservedFn
  | _ => .error .reservedOp

/-- Refuse a term that is no legal encoding (WellFormed.lean). -/
def checked (i : Instr) : Except DecodeErr Instr :=
  match i.check with
  | none => .ok i
  | some e => .error (.illFormed e)

/-- The instruction an S-form word encodes (R57, R70-R72). -/
def decodeS (w : Nat) : Except DecodeErr Instr := do checked (← decodeSRaw w)

/-- A word of the E-form, field by field (R60, R73 and the tables of R148, R167, R241, R347). -/
def decodeERaw (w : Nat) : Except DecodeErr Instr := do
  let op := fieldAt w 0 9
  let cv := fieldAt w 9 1 == 1
  let mk := fieldAt w 10 3
  let h : EHdr := ⟨cv, Fin.ofNat 8 mk⟩
  let tyc := fieldAt w 13 4
  let dstc := fieldAt w 17 13
  let ac := fieldAt w 30 13
  let bc := fieldAt w 43 13
  let fn8 := fieldAt w 56 8
  match op with
  | 0x001 => do mustZero (w / 1024); .ok (.stop cv)
  | 0x010 => do
    let ty ← Ty.ofCode tyc
    mustZero (fieldAt fn8 1 7)
    let d ← VOp.ofCode dstc
    let a ← VOp.ofCode ac
    let b ← VOp.ofCode bc
    .ok (.vadd h ty d a b ((fieldAt fn8 0 1) == 1))
  | 0x011 => do
    let ty ← Ty.ofCode tyc
    mustZero (fieldAt fn8 1 7)
    let d ← VOp.ofCode dstc
    let a ← VOp.ofCode ac
    let b ← VOp.ofCode bc
    .ok (.vsub h ty d a b ((fieldAt fn8 0 1) == 1))
  | 0x012 => do
    let ty ← Ty.ofCode tyc
    mustZero (fieldAt fn8 1 7)
    let d ← VOp.ofCode dstc
    let a ← VOp.ofCode ac
    let b ← VOp.ofCode bc
    .ok (.vmul h ty d a b ((fieldAt fn8 0 1) == 1))
  | 0x013 => do
    let ty ← Ty.ofCode tyc
    mustZero (fieldAt fn8 0 8)
    let d ← VOp.ofCode dstc
    let a ← VOp.ofCode ac
    let b ← VOp.ofCode bc
    .ok (.vmulh h ty d a b)
  | 0x014 => do
    let ty ← Ty.ofCode tyc
    mustZero (fieldAt fn8 0 8)
    let d ← VOp.ofCode dstc
    let a ← VOp.ofCode ac
    let b ← VOp.ofCode bc
    .ok (.vmin h ty d a b)
  | 0x015 => do
    let ty ← Ty.ofCode tyc
    mustZero (fieldAt fn8 0 8)
    let d ← VOp.ofCode dstc
    let a ← VOp.ofCode ac
    let b ← VOp.ofCode bc
    .ok (.vmax h ty d a b)
  | 0x016 => do
    let ty ← Ty.ofCode tyc
    mustZero (fieldAt fn8 0 8)
    let d ← VOp.ofCode dstc
    let a ← VOp.ofCode ac
    let b ← VOp.ofCode bc
    .ok (.vminn h ty d a b)
  | 0x017 => do
    let ty ← Ty.ofCode tyc
    mustZero (fieldAt fn8 0 8)
    let d ← VOp.ofCode dstc
    let a ← VOp.ofCode ac
    let b ← VOp.ofCode bc
    .ok (.vmaxn h ty d a b)
  | 0x018 => do
    let ty ← Ty.ofCode tyc
    mustZero (fieldAt fn8 0 8)
    let d ← VOp.ofCode dstc
    let a ← VOp.ofCode ac
    let b ← VOp.ofCode bc
    .ok (.vand h ty d a b)
  | 0x019 => do
    let ty ← Ty.ofCode tyc
    mustZero (fieldAt fn8 0 8)
    let d ← VOp.ofCode dstc
    let a ← VOp.ofCode ac
    let b ← VOp.ofCode bc
    .ok (.vor h ty d a b)
  | 0x01A => do
    let ty ← Ty.ofCode tyc
    mustZero (fieldAt fn8 0 8)
    let d ← VOp.ofCode dstc
    let a ← VOp.ofCode ac
    let b ← VOp.ofCode bc
    .ok (.vxor h ty d a b)
  | 0x01B => do
    let ty ← Ty.ofCode tyc
    mustZero (fieldAt fn8 0 8)
    let d ← VOp.ofCode dstc
    let a ← VOp.ofCode ac
    let b ← VOp.ofCode bc
    .ok (.vshl h ty d a b)
  | 0x01C => do
    let ty ← Ty.ofCode tyc
    mustZero (fieldAt fn8 0 8)
    let d ← VOp.ofCode dstc
    let a ← VOp.ofCode ac
    let b ← VOp.ofCode bc
    .ok (.vshr h ty d a b)
  | 0x01D => do
    let ty ← Ty.ofCode tyc
    mustZero (fieldAt fn8 0 8)
    let d ← VOp.ofCode dstc
    let a ← VOp.ofCode ac
    let b ← VOp.ofCode bc
    .ok (.vsra h ty d a b)
  | 0x01E => do
    let ty ← Ty.ofCode tyc
    mustZero (fieldAt fn8 6 2)
    let d ← VOp.ofCode dstc
    let a ← VOp.ofCode ac
    let b ← VOp.ofCode bc
    .ok (.vfshl h ty d a b (BitVec.ofNat 6 (fieldAt fn8 0 6)))
  | 0x01F => do
    let ty ← Ty.ofCode tyc
    mustZero (fieldAt fn8 6 2)
    let d ← VOp.ofCode dstc
    let a ← VOp.ofCode ac
    let b ← VOp.ofCode bc
    .ok (.vfshr h ty d a b (BitVec.ofNat 6 (fieldAt fn8 0 6)))
  | 0x020 => do
    let ty ← Ty.ofCode tyc
    mustZero (fieldAt fn8 0 8)
    let d ← VOp.ofCode dstc
    let a ← VOp.ofCode ac
    mustZero bc
    .ok (.vpopc h ty d a)
  | 0x021 => do
    let ty ← Ty.ofCode tyc
    mustZero (fieldAt fn8 0 8)
    let d ← VOp.ofCode dstc
    let a ← VOp.ofCode ac
    mustZero bc
    .ok (.vclz h ty d a)
  | 0x022 => do
    let ty ← Ty.ofCode tyc
    mustZero (fieldAt fn8 0 8)
    let d ← VOp.ofCode dstc
    let a ← VOp.ofCode ac
    mustZero bc
    .ok (.vabs h ty d a)
  | 0x023 => do
    let ty ← Ty.ofCode tyc
    mustZero (fieldAt fn8 7 1)
    let d ← VOp.ofCode dstc
    let a ← VOp.ofCode ac
    mustZero bc
    .ok (.vsatn h ty d a (BitVec.ofNat 6 (fieldAt fn8 0 6)) ((fieldAt fn8 6 1) == 1))
  | 0x024 => do
    let ty ← Ty.ofCode tyc
    mustZero (fieldAt fn8 5 3)
    let cond ← Cond.ofCode (fieldAt fn8 0 4)
    let d ← cdstField ((fieldAt fn8 4 1) == 1) dstc
    let a ← VOp.ofCode ac
    let b ← VOp.ofCode bc
    .ok (.vcmp h ty d a b cond)
  | 0x025 => do
    let ty ← Ty.ofCode tyc
    mustZero (fieldAt fn8 0 8)
    let d ← VOp.ofCode dstc
    let a ← VOp.ofCode ac
    let b ← VOp.ofCode bc
    .ok (.vsel h ty d a b)
  | 0x026 => do
    let ty ← Ty.ofCode tyc
    mustZero (fieldAt fn8 0 8)
    let d ← VOp.ofCode dstc
    let a ← VOp.ofCode ac
    mustZero bc
    .ok (.vmov h ty d a)
  | 0x027 => do
    let ty ← Ty.ofCode tyc
    let d ← VOp.ofCode dstc
    mustZero ac
    let b ← scalarField bc
    .ok (.vmovx h ty d b (BitVec.ofNat 8 (fieldAt fn8 0 8)))
  | 0x028 => do
    mustZero mk
    let ty ← Ty.ofCode tyc
    let d ← scalarField dstc
    let a ← VOp.ofCode ac
    mustZero bc
    .ok (.vext cv ty d a (BitVec.ofNat 8 (fieldAt fn8 0 8)))
  | 0x029 => do
    let ty ← Ty.ofCode tyc
    let d ← VOp.ofCode dstc
    let a ← VOp.ofCode ac
    mustZero bc
    .ok (.vidx h ty d a (BitVec.ofNat 8 (fieldAt fn8 0 8)))
  | 0x030 => do
    mustZero tyc
    mustZero (fieldAt fn8 0 8)
    let d ← maskField dstc
    let a ← maskField ac
    let b ← maskField bc
    .ok (.vmand h d a b)
  | 0x031 => do
    mustZero tyc
    mustZero (fieldAt fn8 0 8)
    let d ← maskField dstc
    let a ← maskField ac
    let b ← maskField bc
    .ok (.vmor h d a b)
  | 0x032 => do
    mustZero tyc
    mustZero (fieldAt fn8 0 8)
    let d ← maskField dstc
    let a ← maskField ac
    let b ← maskField bc
    .ok (.vmxor h d a b)
  | 0x033 => do
    mustZero tyc
    mustZero (fieldAt fn8 0 8)
    let d ← maskField dstc
    let a ← maskField ac
    mustZero bc
    .ok (.vmnot h d a)
  | 0x034 => do
    mustZero tyc
    mustZero (fieldAt fn8 0 8)
    let d ← scalarField dstc
    let a ← maskField ac
    mustZero bc
    .ok (.vmcnt h d a)
  | 0x035 => do
    mustZero tyc
    mustZero (fieldAt fn8 0 8)
    let d ← scalarField dstc
    let a ← maskField ac
    mustZero bc
    .ok (.vmfirst h d a)
  | 0x040 => do
    let ty ← Ty.ofCode tyc
    mustZero (fieldAt fn8 3 5)
    let rm ← Rm.ofCode (fieldAt fn8 0 3)
    let d ← VOp.ofCode dstc
    let a ← VOp.ofCode ac
    let b ← VOp.ofCode bc
    .ok (.vfadd h ty d a b rm)
  | 0x041 => do
    let ty ← Ty.ofCode tyc
    mustZero (fieldAt fn8 3 5)
    let rm ← Rm.ofCode (fieldAt fn8 0 3)
    let d ← VOp.ofCode dstc
    let a ← VOp.ofCode ac
    let b ← VOp.ofCode bc
    .ok (.vfsub h ty d a b rm)
  | 0x042 => do
    let ty ← Ty.ofCode tyc
    mustZero (fieldAt fn8 3 5)
    let rm ← Rm.ofCode (fieldAt fn8 0 3)
    let d ← VOp.ofCode dstc
    let a ← VOp.ofCode ac
    let b ← VOp.ofCode bc
    .ok (.vfmul h ty d a b rm)
  | 0x043 => do
    let ty ← Ty.ofCode tyc
    mustZero (fieldAt fn8 3 5)
    let rm ← Rm.ofCode (fieldAt fn8 0 3)
    let d ← VOp.ofCode dstc
    let a ← VOp.ofCode ac
    let b ← VOp.ofCode bc
    .ok (.vfma h ty d a b rm)
  | 0x046 => do
    let ty ← Ty.ofCode tyc
    mustZero (fieldAt fn8 3 5)
    let rm ← Rm.ofCode (fieldAt fn8 0 3)
    let d ← VOp.ofCode dstc
    let a ← VOp.ofCode ac
    let b ← VOp.ofCode bc
    .ok (.vfdiv h ty d a b rm)
  | 0x044 => do
    let ty ← Ty.ofCode tyc
    mustZero (fieldAt fn8 0 8)
    let d ← VOp.ofCode dstc
    let a ← VOp.ofCode ac
    let b ← VOp.ofCode bc
    .ok (.vfmin h ty d a b)
  | 0x045 => do
    let ty ← Ty.ofCode tyc
    mustZero (fieldAt fn8 0 8)
    let d ← VOp.ofCode dstc
    let a ← VOp.ofCode ac
    let b ← VOp.ofCode bc
    .ok (.vfmax h ty d a b)
  | 0x047 => do
    let ty ← Ty.ofCode tyc
    mustZero (fieldAt fn8 3 5)
    let rm ← Rm.ofCode (fieldAt fn8 0 3)
    let d ← VOp.ofCode dstc
    let a ← VOp.ofCode ac
    mustZero bc
    .ok (.vfrcp h ty d a rm)
  | 0x048 => do
    let ty ← Ty.ofCode tyc
    mustZero (fieldAt fn8 3 5)
    let rm ← Rm.ofCode (fieldAt fn8 0 3)
    let d ← VOp.ofCode dstc
    let a ← VOp.ofCode ac
    mustZero bc
    .ok (.vfrsq h ty d a rm)
  | 0x049 => do
    let ty ← Ty.ofCode tyc
    mustZero (fieldAt fn8 3 5)
    let rm ← Rm.ofCode (fieldAt fn8 0 3)
    let d ← VOp.ofCode dstc
    let a ← VOp.ofCode ac
    mustZero bc
    .ok (.vfexp2 h ty d a rm)
  | 0x04A => do
    let ty ← Ty.ofCode tyc
    mustZero (fieldAt fn8 3 5)
    let rm ← Rm.ofCode (fieldAt fn8 0 3)
    let d ← VOp.ofCode dstc
    let a ← VOp.ofCode ac
    mustZero bc
    .ok (.vflog2 h ty d a rm)
  | 0x04B => do
    let ty ← Ty.ofCode tyc
    mustZero (fieldAt fn8 5 3)
    let fcond ← FCond.ofCode (fieldAt fn8 0 4)
    let d ← cdstField ((fieldAt fn8 4 1) == 1) dstc
    let a ← VOp.ofCode ac
    let b ← VOp.ofCode bc
    .ok (.vfcmp h ty d a b fcond)
  | 0x04C => do
    let ty ← Ty.ofCode tyc
    let rm ← Rm.ofCode (fieldAt fn8 0 3)
    let srcF ← srcOfIndex true (fieldAt fn8 3 3)
    let d ← VOp.ofCode dstc
    let a ← VOp.ofCode ac
    mustZero bc
    .ok (.vfcvt h ty d a rm srcF (Fin.ofNat 4 (fieldAt fn8 6 2)))
  | 0x04D => do
    let ty ← Ty.ofCode tyc
    let rm ← Rm.ofCode (fieldAt fn8 0 3)
    let srcI ← srcOfIndex ty.isInt (fieldAt fn8 3 3)
    let d ← VOp.ofCode dstc
    let a ← VOp.ofCode ac
    mustZero bc
    .ok (.vicvt h ty d a rm srcI (Fin.ofNat 4 (fieldAt fn8 6 2)))
  | 0x050 => do
    let ty ← Ty.ofCode tyc
    mustZero (fieldAt fn8 1 7)
    let d ← scalarField dstc
    let a ← VOp.ofCode ac
    mustZero bc
    .ok (.vrsum h ty d a ((fieldAt fn8 0 1) == 1))
  | 0x051 => do
    let ty ← Ty.ofCode tyc
    mustZero (fieldAt fn8 0 8)
    let d ← scalarField dstc
    let a ← VOp.ofCode ac
    mustZero bc
    .ok (.vrmax h ty d a)
  | 0x052 => do
    let ty ← Ty.ofCode tyc
    mustZero (fieldAt fn8 0 8)
    let d ← scalarField dstc
    let a ← VOp.ofCode ac
    mustZero bc
    .ok (.vrmin h ty d a)
  | 0x055 => do
    let ty ← Ty.ofCode tyc
    mustZero (fieldAt fn8 0 8)
    let d ← scalarField dstc
    let a ← VOp.ofCode ac
    mustZero bc
    .ok (.vrand h ty d a)
  | 0x056 => do
    let ty ← Ty.ofCode tyc
    mustZero (fieldAt fn8 0 8)
    let d ← scalarField dstc
    let a ← VOp.ofCode ac
    mustZero bc
    .ok (.vror h ty d a)
  | 0x057 => do
    let ty ← Ty.ofCode tyc
    mustZero (fieldAt fn8 0 8)
    let d ← scalarField dstc
    let a ← VOp.ofCode ac
    mustZero bc
    .ok (.vrxor h ty d a)
  | 0x059 => do
    let ty ← Ty.ofCode tyc
    mustZero (fieldAt fn8 0 8)
    let d ← scalarField dstc
    let a ← VOp.ofCode ac
    mustZero bc
    .ok (.vfrmax h ty d a)
  | 0x053 => do
    let ty ← Ty.ofCode tyc
    mustZero (fieldAt fn8 0 8)
    let d ← scalarField dstc
    let a ← VOp.ofCode ac
    let b ← scalarField bc
    .ok (.vrmaxi h ty d a b)
  | 0x054 => do
    let ty ← Ty.ofCode tyc
    mustZero (fieldAt fn8 0 8)
    let d ← scalarField dstc
    let a ← VOp.ofCode ac
    let b ← scalarField bc
    .ok (.vrmini h ty d a b)
  | 0x058 => do
    let ty ← Ty.ofCode tyc
    mustZero (fieldAt fn8 4 4)
    let rm ← Rm.ofCode (fieldAt fn8 0 3)
    let d ← scalarField dstc
    let a ← VOp.ofCode ac
    mustZero bc
    .ok (.vfrsum h ty d a rm ((fieldAt fn8 3 1) == 1))
  | 0x05A => do
    let ty ← Ty.ofCode tyc
    mustZero (fieldAt fn8 7 1)
    let gs ← Gs.ofCode (fieldAt fn8 0 3)
    let gop ← GOp.ofCode (fieldAt fn8 3 3)
    let d ← VOp.ofCode dstc
    let a ← VOp.ofCode ac
    mustZero bc
    .ok (.vgred h ty d a gs gop ((fieldAt fn8 6 1) == 1))
  | 0x060 => do
    let ty ← Ty.ofCode tyc
    mustZero (fieldAt fn8 3 5)
    let gs ← Gs.ofCode (fieldAt fn8 0 3)
    let d ← VOp.ofCode dstc
    let a ← VOp.ofCode ac
    let b ← VOp.ofCode bc
    .ok (.vshuf h ty d a b gs)
  | 0x061 => do
    let ty ← Ty.ofCode tyc
    mustZero (fieldAt fn8 3 5)
    let gs ← Gs.ofCode (fieldAt fn8 0 3)
    let d ← VOp.ofCode dstc
    let a ← VOp.ofCode ac
    let b ← scalarField bc
    .ok (.vslup h ty d a b gs)
  | 0x062 => do
    let ty ← Ty.ofCode tyc
    mustZero (fieldAt fn8 3 5)
    let gs ← Gs.ofCode (fieldAt fn8 0 3)
    let d ← VOp.ofCode dstc
    let a ← VOp.ofCode ac
    let b ← scalarField bc
    .ok (.vsldn h ty d a b gs)
  | 0x063 => do
    let ty ← Ty.ofCode tyc
    mustZero (fieldAt fn8 3 5)
    let gs ← Gs.ofCode (fieldAt fn8 0 3)
    let d ← VOp.ofCode dstc
    let a ← VOp.ofCode ac
    let b ← scalarField bc
    .ok (.vbcast h ty d a b gs)
  | 0x064 => do
    mustZero mk
    let ty ← Ty.ofCode tyc
    mustZero (fieldAt fn8 0 8)
    let d ← VOp.ofCode dstc
    let a ← VOp.ofCode ac
    let b ← maskField bc
    .ok (.vcmprs cv ty d a b)
  | 0x065 => do
    mustZero mk
    let ty ← Ty.ofCode tyc
    mustZero (fieldAt fn8 0 8)
    let d ← VOp.ofCode dstc
    let a ← VOp.ofCode ac
    let b ← maskField bc
    .ok (.vexpnd cv ty d a b)
  | 0x066 => do
    let ty ← Ty.ofCode tyc
    let gs ← Gs.ofCode (fieldAt fn8 0 3)
    let gop ← GOp.ofCode (fieldAt fn8 3 3)
    let d ← VOp.ofCode dstc
    let a ← VOp.ofCode ac
    mustZero bc
    .ok (.vscan h ty d a gs gop ((fieldAt fn8 6 1) == 1) ((fieldAt fn8 7 1) == 1))
  | 0x070 => do
    let ty ← Ty.ofCode tyc
    mustZero (fieldAt fn8 1 7)
    let d ← squareField dstc
    let a ← VOp.ofCode ac
    let b ← VOp.ofCode bc
    .ok (.opa h ty d a b ((fieldAt fn8 0 1) == 1))
  | 0x071 => do
    mustZero mk
    mustZero tyc
    mustZero (fieldAt fn8 0 8)
    let d ← squareField dstc
    mustZero ac
    mustZero bc
    .ok (.sqz cv d)
  | 0x072 => do
    mustZero mk
    mustZero tyc
    mustZero (fieldAt fn8 1 7)
    let d ← squareField dstc
    let a ← squareField ac
    mustZero bc
    .ok (.sqcp cv d a ((fieldAt fn8 0 1) == 1))
  | 0x073 => do
    mustZero mk
    let ty ← Ty.ofCode tyc
    mustZero (fieldAt fn8 3 5)
    let rm ← Rm.ofCode (fieldAt fn8 0 3)
    let d ← squareField dstc
    let a ← squareField ac
    mustZero bc
    .ok (.sqcvt cv ty d a rm)
  | 0x080 => do
    let ty ← Ty.ofCode tyc
    let pol ← Pol.ofCode (fieldAt fn8 0 3)
    let scp ← Scope.ofCode (fieldAt fn8 3 3)
    let d ← VOp.ofCode dstc
    let a ← scalarField ac
    mustZero bc
    .ok (.vld h ty d a ⟨pol, scp, ((fieldAt fn8 6 1) == 1), ((fieldAt fn8 7 1) == 1)⟩)
  | 0x081 => do
    let ty ← Ty.ofCode tyc
    let pol ← Pol.ofCode (fieldAt fn8 0 3)
    let scp ← Scope.ofCode (fieldAt fn8 3 3)
    let d ← VOp.ofCode dstc
    let a ← scalarField ac
    let b ← scalarField bc
    .ok (.vlds h ty d a b ⟨pol, scp, ((fieldAt fn8 6 1) == 1), ((fieldAt fn8 7 1) == 1)⟩)
  | 0x082 => do
    let ty ← Ty.ofCode tyc
    let pol ← Pol.ofCode (fieldAt fn8 0 3)
    let scp ← Scope.ofCode (fieldAt fn8 3 3)
    let d ← VOp.ofCode dstc
    let a ← scalarField ac
    let b ← VOp.ofCode bc
    .ok (.vldx h ty d a b ⟨pol, scp, ((fieldAt fn8 6 1) == 1), ((fieldAt fn8 7 1) == 1)⟩)
  | 0x084 => do
    let ty ← Ty.ofCode tyc
    mustZero (fieldAt fn8 7 1)
    let pol ← Pol.ofCode (fieldAt fn8 0 3)
    mustZero (fieldAt fn8 3 3)
    let d ← VOp.ofCode dstc
    let a ← scalarField ac
    mustZero bc
    .ok (.vst h ty d a ⟨pol, ((fieldAt fn8 6 1) == 1)⟩)
  | 0x085 => do
    let ty ← Ty.ofCode tyc
    mustZero (fieldAt fn8 7 1)
    let pol ← Pol.ofCode (fieldAt fn8 0 3)
    mustZero (fieldAt fn8 3 3)
    let d ← VOp.ofCode dstc
    let a ← scalarField ac
    let b ← scalarField bc
    .ok (.vsts h ty d a b ⟨pol, ((fieldAt fn8 6 1) == 1)⟩)
  | 0x086 => do
    let ty ← Ty.ofCode tyc
    mustZero (fieldAt fn8 7 1)
    let pol ← Pol.ofCode (fieldAt fn8 0 3)
    mustZero (fieldAt fn8 3 3)
    let d ← VOp.ofCode dstc
    let a ← scalarField ac
    let b ← VOp.ofCode bc
    .ok (.vstx h ty d a b ⟨pol, ((fieldAt fn8 6 1) == 1)⟩)
  | 0x087 => do
    if tyc ≠ 5 then .error .reservedCode
    mustZero (fieldAt fn8 7 1)
    let pol ← Pol.ofCode (fieldAt fn8 0 3)
    mustZero (fieldAt fn8 3 3)
    let d ← VOp.ofCode dstc
    let a ← scalarField ac
    let b ← VOp.ofCode bc
    .ok (.vstb h d a b ⟨pol, ((fieldAt fn8 6 1) == 1)⟩)
  | 0x088 => do
    let ty ← Ty.ofCode tyc
    mustZero (fieldAt fn8 7 1)
    let aop ← AmoOp.ofCode (fieldAt fn8 0 4)
    let pl ← Place.ofCode (fieldAt fn8 4 2)
    let d ← VOp.ofCode dstc
    let a ← scalarField ac
    let b ← VOp.ofCode bc
    .ok (.vamo h ty d a b aop pl ((fieldAt fn8 6 1) == 1))
  | 0x090 => do
    mustZero mk
    if tyc ≠ 5 then .error .reservedCode
    mustZero (fieldAt fn8 0 8)
    let d ← scalarField dstc
    let a ← VOp.ofCode ac
    let b ← scalarField bc
    .ok (.kvhash cv d a b)
  | 0x091 => do
    mustZero mk
    if tyc ≠ 11 then .error .reservedCode
    mustZero (fieldAt fn8 0 8)
    let d ← VOp.ofCode dstc
    let a ← VOp.ofCode ac
    let b ← squareField bc
    .ok (.vsign cv d a b)
  | 0x092 => do
    if tyc ≠ 11 then .error .reservedCode
    mustZero (fieldAt fn8 0 8)
    let d ← VOp.ofCode dstc
    let a ← VOp.ofCode ac
    let b ← streamField false bc
    .ok (.qkdot h d a b)
  | 0x093 => do
    if tyc ≠ 11 then .error .reservedCode
    mustZero (fieldAt fn8 0 8)
    let pd ← VOp.ofCode dstc
    let a ← VOp.ofCode ac
    let b ← streamField true bc
    match pd with
    | .vec q .row i => .ok (.pvacc h q i a b)
    | _ => .error .badField
  | _ => .error .reservedOp

/-- The instruction an E-form word encodes (R60-R64, R73). -/
def decodeE (w : Nat) : Except DecodeErr Instr := do checked (← decodeERaw w)

/-- Format SA (R57, R71). -/
def sa (op : Nat) (d a b : Reg) (k sel : Nat) : Option (Nat × Nat) :=
  some (32, packFields [(7, op), (5, d.val), (5, a.val), (5, b.val), (6, k), (4, sel)])
/-- Formats SI and SB (R57). -/
def si (op : Nat) (d a : Reg) (imm : Nat) : Option (Nat × Nat) :=
  some (32, packFields [(7, op), (5, d.val), (5, a.val), (15, imm)])
/-- Formats SL and SJ (R57). -/
def sl (op : Nat) (d : Reg) (imm : Nat) : Option (Nat × Nat) :=
  some (32, packFields [(7, op), (5, d.val), (20, imm)])
/-- Format SM (R57). -/
def sm (op : Nat) (d a : Reg) (sz pol scp off : Nat) : Option (Nat × Nat) :=
  some (32, packFields [(7, op), (5, d.val), (5, a.val), (3, sz), (3, pol), (3, scp), (6, off)])
/-- Format SE (R57). -/
def se (op : Nat) (c a b e : Reg) (fn5 : Nat) : Option (Nat × Nat) :=
  some (32, packFields [(7, op), (5, c.val), (5, a.val), (5, b.val), (5, e.val), (5, fn5)])
/-- An E-form word (R60). -/
def ew (op : Nat) (cv : Bool) (mk ty d a b fn8 : Nat) : Option (Nat × Nat) :=
  some (64, packFields [(9, op), (1, bit cv), (3, mk), (4, ty), (13, d), (13, a), (13, b), (8, fn8)])

/-- The word of an instruction, with its length in bits; none for a step that no word encodes. -/
def encode : Instr → Option (Nat × Nat)
  | .add d a b => sa 0x01 d a b 0 0
  | .sub d a b => sa 0x01 d a b 0 1
  | .and d a b => sa 0x01 d a b 0 2
  | .or d a b => sa 0x01 d a b 0 3
  | .xor d a b => sa 0x01 d a b 0 4
  | .shl d a b => sa 0x01 d a b 0 5
  | .shr d a b => sa 0x01 d a b 0 6
  | .sra d a b => sa 0x01 d a b 0 7
  | .slt d a b => sa 0x01 d a b 0 8
  | .sltn d a b => sa 0x01 d a b 0 9
  | .min d a b => sa 0x01 d a b 0 10
  | .max d a b => sa 0x01 d a b 0 11
  | .minn d a b => sa 0x01 d a b 0 12
  | .maxn d a b => sa 0x01 d a b 0 13
  | .fshl d a b k => sa 0x01 d a b k.toNat 14
  | .fshr d a b k => sa 0x01 d a b k.toNat 15
  | .mul d a b => sa 0x02 d a b 0 0
  | .mulh d a b => sa 0x02 d a b 0 1
  | .mulhn d a b => sa 0x02 d a b 0 2
  | .div d a b => sa 0x02 d a b 0 3
  | .divn d a b => sa 0x02 d a b 0 4
  | .rem d a b => sa 0x02 d a b 0 5
  | .remn d a b => sa 0x02 d a b 0 6
  | .clz d a => sa 0x02 d a 0 0 7
  | .ctz d a => sa 0x02 d a 0 0 8
  | .popc d a => sa 0x02 d a 0 0 9
  | .sext d a k => sa 0x02 d a 0 k.toNat 10
  | .zext d a k => sa 0x02 d a 0 k.toNat 11
  | .addi d a imm => si 0x03 d a imm.toNat
  | .andi d a imm => si 0x04 d a imm.toNat
  | .ori d a imm => si 0x05 d a imm.toNat
  | .xori d a imm => si 0x06 d a imm.toNat
  | .slti d a imm => si 0x0A d a imm.toNat
  | .shli d a n => si 0x07 d a n.toNat
  | .shri d a n => si 0x08 d a n.toNat
  | .srai d a n => si 0x09 d a n.toNat
  | .lih d imm => sl 0x0B d imm.toNat
  | .beq a b off => si 0x10 a b off.toNat
  | .bne a b off => si 0x11 a b off.toNat
  | .blt a b off => si 0x12 a b off.toNat
  | .bge a b off => si 0x13 a b off.toNat
  | .bltn a b off => si 0x14 a b off.toNat
  | .bgen a b off => si 0x15 a b off.toNat
  | .jal d off => sl 0x16 d off.toNat
  | .jalr d a imm => si 0x17 d a imm.toNat
  | .ld d a sz pol off => sm 0x18 d a sz.code pol.code 0 off.toNat
  | .st d a sz pol off => sm 0x19 d a sz.code pol.code 0 off.toNat
  | .lda d a sz pol scp off => sm 0x1A d a sz.code pol.code scp.code off.toNat
  | .stl d a sz pol scp off => sm 0x1B d a sz.code pol.code scp.code off.toNat
  | .amoSwap d a sz scp pl => sm 0x1C d a sz.code 0 scp.code (packFields [(4, 0), (2, pl.code)])
  | .amoAdd d a sz scp pl => sm 0x1C d a sz.code 0 scp.code (packFields [(4, 1), (2, pl.code)])
  | .amoAnd d a sz scp pl => sm 0x1C d a sz.code 0 scp.code (packFields [(4, 2), (2, pl.code)])
  | .amoOr d a sz scp pl => sm 0x1C d a sz.code 0 scp.code (packFields [(4, 3), (2, pl.code)])
  | .amoXor d a sz scp pl => sm 0x1C d a sz.code 0 scp.code (packFields [(4, 4), (2, pl.code)])
  | .amoMin d a sz scp pl => sm 0x1C d a sz.code 0 scp.code (packFields [(4, 5), (2, pl.code)])
  | .amoMax d a sz scp pl => sm 0x1C d a sz.code 0 scp.code (packFields [(4, 6), (2, pl.code)])
  | .amoMinn d a sz scp pl => sm 0x1C d a sz.code 0 scp.code (packFields [(4, 7), (2, pl.code)])
  | .amoMaxn d a sz scp pl => sm 0x1C d a sz.code 0 scp.code (packFields [(4, 8), (2, pl.code)])
  | .cas d a b sz scp => sm 0x1D d a sz.code 0 scp.code (packFields [(1, 0), (5, b.val)])
  | .casNear d a b sz scp => sm 0x1E d a sz.code 0 scp.code (packFields [(1, 0), (5, b.val)])
  | .casFar d a b sz scp => sm 0x1F d a sz.code 0 scp.code (packFields [(1, 0), (5, b.val)])
  | .cwr d w => si 0x20 d 0 (packFields [(12, w.toNat), (1, 0), (2, 0)])
  | .cww a w => si 0x20 0 a (packFields [(12, w.toNat), (1, 0), (2, 1)])
  | .cws a w => si 0x20 0 a (packFields [(12, w.toNat), (1, 0), (2, 2)])
  | .cwc a w => si 0x20 0 a (packFields [(12, w.toNat), (1, 0), (2, 3)])
  | .trap k => sa 0x21 0 0 0 k.toNat 0
  | .eret => sa 0x21 0 0 0 0 1
  | .fence scp => sa 0x21 0 0 0 (packFields [(3, scp.code), (3, 0)]) 2
  | .fenceAcq scp => sa 0x21 0 0 0 (packFields [(3, scp.code), (3, 1)]) 2
  | .fenceRel scp => sa 0x21 0 0 0 (packFields [(3, scp.code), (3, 2)]) 2
  | .fenceFetch scp => sa 0x21 0 0 0 (packFields [(3, scp.code), (3, 3)]) 2
  | .tfence => sa 0x21 0 0 0 0 3
  | .scommit d => sa 0x21 d 0 0 0 4
  | .sabort d => sa 0x21 d 0 0 0 5
  | .etrig => sa 0x21 0 0 0 0 6
  | .exit => sa 0x21 0 0 0 0 7
  | .yield => sa 0x21 0 0 0 0 8
  | .vsetl d a b => sa 0x21 d a b 0 9
  | .vf off => sl 0x22 0 off.toNat
  | .launch c a b => se 0x28 c a b 0 0
  | .wait e c a wrap => se 0x29 c a (Fin.ofNat 32 (bit wrap)) e 0
  | .poll e c a wrap => se 0x29 c a (Fin.ofNat 32 (bit wrap)) e 1
  | .arrive e c a b => se 0x29 c a b e 2
  | .csigSig c a b => se 0x29 c a b 0 3
  | .csigSet c a => se 0x29 c a 0 1 3
  | .rowact e c a b => se 0x2A c a b e 0
  | .rowcls c a => se 0x2A c a 0 0 1
  | .rowcon w cl c a b => se 0x2A c a b 0 (4 + 2 * bit w + bit cl)
  | .cbld c a b => se 0x2B c a b 0 0
  | .tbld c a b e => se 0x2B c a b e 1
  | .lka c a b e => se 0x2B c a b e 2
  | .aclr c a => se 0x2B c a 0 0 3
  | .adrn c a b => se 0x2B c a b 0 4
  | .kvlook c a => se 0x2C c a 0 0 0
  | .kvins c a b e => se 0x2C c a b e 1
  | .kvpin c a b => se 0x2C c a b 0 2
  | .kvunpin c a b => se 0x2C c a b 0 3
  | .kvapp c a b e => se 0x2C c a b e 4
  | .kvsig c a => se 0x2C c a 0 0 5
  | .kvbindBind a b => se 0x2C 0 a b 0 6
  | .kvbindSave a b => se 0x2C 0 a b 0 6
  | .kvbindUnbind a b => se 0x2C 0 a b 0 6
  | .cpy c a b e => se 0x2D c a b e 0
  | .cpys c a b e => se 0x2D c a b e 1
  | .vadd h ty d a b sat => ew 0x010 h.cv (h.msk.val) ty.code (d.code) (a.code) (b.code) (packFields [(1, bit sat), (7, 0)])
  | .vsub h ty d a b sat => ew 0x011 h.cv (h.msk.val) ty.code (d.code) (a.code) (b.code) (packFields [(1, bit sat), (7, 0)])
  | .vmul h ty d a b sat => ew 0x012 h.cv (h.msk.val) ty.code (d.code) (a.code) (b.code) (packFields [(1, bit sat), (7, 0)])
  | .vmulh h ty d a b => ew 0x013 h.cv (h.msk.val) ty.code (d.code) (a.code) (b.code) (0)
  | .vmin h ty d a b => ew 0x014 h.cv (h.msk.val) ty.code (d.code) (a.code) (b.code) (0)
  | .vmax h ty d a b => ew 0x015 h.cv (h.msk.val) ty.code (d.code) (a.code) (b.code) (0)
  | .vminn h ty d a b => ew 0x016 h.cv (h.msk.val) ty.code (d.code) (a.code) (b.code) (0)
  | .vmaxn h ty d a b => ew 0x017 h.cv (h.msk.val) ty.code (d.code) (a.code) (b.code) (0)
  | .vand h ty d a b => ew 0x018 h.cv (h.msk.val) ty.code (d.code) (a.code) (b.code) (0)
  | .vor h ty d a b => ew 0x019 h.cv (h.msk.val) ty.code (d.code) (a.code) (b.code) (0)
  | .vxor h ty d a b => ew 0x01A h.cv (h.msk.val) ty.code (d.code) (a.code) (b.code) (0)
  | .vshl h ty d a b => ew 0x01B h.cv (h.msk.val) ty.code (d.code) (a.code) (b.code) (0)
  | .vshr h ty d a b => ew 0x01C h.cv (h.msk.val) ty.code (d.code) (a.code) (b.code) (0)
  | .vsra h ty d a b => ew 0x01D h.cv (h.msk.val) ty.code (d.code) (a.code) (b.code) (0)
  | .vfshl h ty d a b k6 => ew 0x01E h.cv (h.msk.val) ty.code (d.code) (a.code) (b.code) (packFields [(6, k6.toNat), (2, 0)])
  | .vfshr h ty d a b k6 => ew 0x01F h.cv (h.msk.val) ty.code (d.code) (a.code) (b.code) (packFields [(6, k6.toNat), (2, 0)])
  | .vpopc h ty d a => ew 0x020 h.cv (h.msk.val) ty.code (d.code) (a.code) (0) (0)
  | .vclz h ty d a => ew 0x021 h.cv (h.msk.val) ty.code (d.code) (a.code) (0) (0)
  | .vabs h ty d a => ew 0x022 h.cv (h.msk.val) ty.code (d.code) (a.code) (0) (0)
  | .vsatn h ty d a k6 u => ew 0x023 h.cv (h.msk.val) ty.code (d.code) (a.code) (0) (packFields [(6, k6.toNat), (1, bit u), (1, 0)])
  | .vcmp h ty d a b cond => ew 0x024 h.cv (h.msk.val) ty.code (d.code) (a.code) (b.code) (packFields [(4, cond.code), (1, bit d.isVec), (3, 0)])
  | .vsel h ty d a b => ew 0x025 h.cv (h.msk.val) ty.code (d.code) (a.code) (b.code) (0)
  | .vmov h ty d a => ew 0x026 h.cv (h.msk.val) ty.code (d.code) (a.code) (0) (0)
  | .vmovx h ty d b e8 => ew 0x027 h.cv (h.msk.val) ty.code (d.code) (0) (scalarCode b) (packFields [(8, e8.toNat)])
  | .vext cv ty d a e8 => ew 0x028 cv 0 ty.code (scalarCode d) (a.code) (0) (packFields [(8, e8.toNat)])
  | .vidx h ty d a e8 => ew 0x029 h.cv (h.msk.val) ty.code (d.code) (a.code) (0) (packFields [(8, e8.toNat)])
  | .vmand h d a b => ew 0x030 h.cv (h.msk.val) 0 (d.val) (a.val) (b.val) (0)
  | .vmor h d a b => ew 0x031 h.cv (h.msk.val) 0 (d.val) (a.val) (b.val) (0)
  | .vmxor h d a b => ew 0x032 h.cv (h.msk.val) 0 (d.val) (a.val) (b.val) (0)
  | .vmnot h d a => ew 0x033 h.cv (h.msk.val) 0 (d.val) (a.val) (0) (0)
  | .vmcnt h d a => ew 0x034 h.cv (h.msk.val) 0 (scalarCode d) (a.val) (0) (0)
  | .vmfirst h d a => ew 0x035 h.cv (h.msk.val) 0 (scalarCode d) (a.val) (0) (0)
  | .vfadd h ty d a b rm => ew 0x040 h.cv (h.msk.val) ty.code (d.code) (a.code) (b.code) (packFields [(3, rm.code), (5, 0)])
  | .vfsub h ty d a b rm => ew 0x041 h.cv (h.msk.val) ty.code (d.code) (a.code) (b.code) (packFields [(3, rm.code), (5, 0)])
  | .vfmul h ty d a b rm => ew 0x042 h.cv (h.msk.val) ty.code (d.code) (a.code) (b.code) (packFields [(3, rm.code), (5, 0)])
  | .vfma h ty d a b rm => ew 0x043 h.cv (h.msk.val) ty.code (d.code) (a.code) (b.code) (packFields [(3, rm.code), (5, 0)])
  | .vfdiv h ty d a b rm => ew 0x046 h.cv (h.msk.val) ty.code (d.code) (a.code) (b.code) (packFields [(3, rm.code), (5, 0)])
  | .vfmin h ty d a b => ew 0x044 h.cv (h.msk.val) ty.code (d.code) (a.code) (b.code) (0)
  | .vfmax h ty d a b => ew 0x045 h.cv (h.msk.val) ty.code (d.code) (a.code) (b.code) (0)
  | .vfrcp h ty d a rm => ew 0x047 h.cv (h.msk.val) ty.code (d.code) (a.code) (0) (packFields [(3, rm.code), (5, 0)])
  | .vfrsq h ty d a rm => ew 0x048 h.cv (h.msk.val) ty.code (d.code) (a.code) (0) (packFields [(3, rm.code), (5, 0)])
  | .vfexp2 h ty d a rm => ew 0x049 h.cv (h.msk.val) ty.code (d.code) (a.code) (0) (packFields [(3, rm.code), (5, 0)])
  | .vflog2 h ty d a rm => ew 0x04A h.cv (h.msk.val) ty.code (d.code) (a.code) (0) (packFields [(3, rm.code), (5, 0)])
  | .vfcmp h ty d a b fcond => ew 0x04B h.cv (h.msk.val) ty.code (d.code) (a.code) (b.code) (packFields [(4, fcond.code), (1, bit d.isVec), (3, 0)])
  | .vfcvt h ty d a rm srcF p => ew 0x04C h.cv (h.msk.val) ty.code (d.code) (a.code) (0) (packFields [(3, rm.code), (3, srcIndex srcF), (2, p.val)])
  | .vicvt h ty d a rm srcI p => ew 0x04D h.cv (h.msk.val) ty.code (d.code) (a.code) (0) (packFields [(3, rm.code), (3, srcIndex srcI), (2, p.val)])
  | .vrsum h ty d a sat => ew 0x050 h.cv (h.msk.val) ty.code (scalarCode d) (a.code) (0) (packFields [(1, bit sat), (7, 0)])
  | .vrmax h ty d a => ew 0x051 h.cv (h.msk.val) ty.code (scalarCode d) (a.code) (0) (0)
  | .vrmin h ty d a => ew 0x052 h.cv (h.msk.val) ty.code (scalarCode d) (a.code) (0) (0)
  | .vrand h ty d a => ew 0x055 h.cv (h.msk.val) ty.code (scalarCode d) (a.code) (0) (0)
  | .vror h ty d a => ew 0x056 h.cv (h.msk.val) ty.code (scalarCode d) (a.code) (0) (0)
  | .vrxor h ty d a => ew 0x057 h.cv (h.msk.val) ty.code (scalarCode d) (a.code) (0) (0)
  | .vfrmax h ty d a => ew 0x059 h.cv (h.msk.val) ty.code (scalarCode d) (a.code) (0) (0)
  | .vrmaxi h ty d a b => ew 0x053 h.cv (h.msk.val) ty.code (scalarCode d) (a.code) (scalarCode b) (0)
  | .vrmini h ty d a b => ew 0x054 h.cv (h.msk.val) ty.code (scalarCode d) (a.code) (scalarCode b) (0)
  | .vfrsum h ty d a rm wide => ew 0x058 h.cv (h.msk.val) ty.code (scalarCode d) (a.code) (0) (packFields [(3, rm.code), (1, bit wide), (4, 0)])
  | .vgred h ty d a gs gop sat => ew 0x05A h.cv (h.msk.val) ty.code (d.code) (a.code) (0) (packFields [(3, gs.code), (3, gop.code), (1, bit sat), (1, 0)])
  | .vshuf h ty d a b gs => ew 0x060 h.cv (h.msk.val) ty.code (d.code) (a.code) (b.code) (packFields [(3, gs.code), (5, 0)])
  | .vslup h ty d a b gs => ew 0x061 h.cv (h.msk.val) ty.code (d.code) (a.code) (scalarCode b) (packFields [(3, gs.code), (5, 0)])
  | .vsldn h ty d a b gs => ew 0x062 h.cv (h.msk.val) ty.code (d.code) (a.code) (scalarCode b) (packFields [(3, gs.code), (5, 0)])
  | .vbcast h ty d a b gs => ew 0x063 h.cv (h.msk.val) ty.code (d.code) (a.code) (scalarCode b) (packFields [(3, gs.code), (5, 0)])
  | .vcmprs cv ty d a b => ew 0x064 cv 0 ty.code (d.code) (a.code) (b.val) (0)
  | .vexpnd cv ty d a b => ew 0x065 cv 0 ty.code (d.code) (a.code) (b.val) (0)
  | .vscan h ty d a gs gop excl sat => ew 0x066 h.cv (h.msk.val) ty.code (d.code) (a.code) (0) (packFields [(3, gs.code), (3, gop.code), (1, bit excl), (1, bit sat)])
  | .opa h ty d a b alt => ew 0x070 h.cv (h.msk.val) ty.code (squareCode d) (a.code) (b.code) (packFields [(1, bit alt), (7, 0)])
  | .sqz cv d => ew 0x071 cv 0 0 (squareCode d) (0) (0) (0)
  | .sqcp cv d a tr => ew 0x072 cv 0 0 (squareCode d) (squareCode a) (0) (packFields [(1, bit tr), (7, 0)])
  | .sqcvt cv ty d a rm => ew 0x073 cv 0 ty.code (squareCode d) (squareCode a) (0) (packFields [(3, rm.code), (5, 0)])
  | .vld h ty d a ⟨pol, scp, ord, chase⟩ => ew 0x080 h.cv (h.msk.val) ty.code (d.code) (scalarCode a) (0) (packFields [(3, pol.code), (3, scp.code), (1, bit ord), (1, bit chase)])
  | .vlds h ty d a b ⟨pol, scp, ord, chase⟩ => ew 0x081 h.cv (h.msk.val) ty.code (d.code) (scalarCode a) (scalarCode b) (packFields [(3, pol.code), (3, scp.code), (1, bit ord), (1, bit chase)])
  | .vldx h ty d a b ⟨pol, scp, ord, chase⟩ => ew 0x082 h.cv (h.msk.val) ty.code (d.code) (scalarCode a) (b.code) (packFields [(3, pol.code), (3, scp.code), (1, bit ord), (1, bit chase)])
  | .vst h ty d a ⟨pol, ord⟩ => ew 0x084 h.cv (h.msk.val) ty.code (d.code) (scalarCode a) (0) (packFields [(3, pol.code), (3, 0), (1, bit ord), (1, 0)])
  | .vsts h ty d a b ⟨pol, ord⟩ => ew 0x085 h.cv (h.msk.val) ty.code (d.code) (scalarCode a) (scalarCode b) (packFields [(3, pol.code), (3, 0), (1, bit ord), (1, 0)])
  | .vstx h ty d a b ⟨pol, ord⟩ => ew 0x086 h.cv (h.msk.val) ty.code (d.code) (scalarCode a) (b.code) (packFields [(3, pol.code), (3, 0), (1, bit ord), (1, 0)])
  | .vstb h d a b ⟨pol, ord⟩ => ew 0x087 h.cv (h.msk.val) 5 (d.code) (scalarCode a) (b.code) (packFields [(3, pol.code), (3, 0), (1, bit ord), (1, 0)])
  | .vamo h ty d a b aop pl ord => ew 0x088 h.cv (h.msk.val) ty.code (d.code) (scalarCode a) (b.code) (packFields [(4, aop.code), (2, pl.code), (1, bit ord), (1, 0)])
  | .kvhash cv d a b => ew 0x090 cv 0 5 (scalarCode d) (a.code) (scalarCode b) (0)
  | .vsign cv d a b => ew 0x091 cv 0 11 (d.code) (a.code) (squareCode b) (0)
  | .qkdot h d a b => ew 0x092 h.cv (h.msk.val) 11 (d.code) (a.code) ((VOp.stream b false).code) (0)
  | .pvacc h q i a b => ew 0x093 h.cv (h.msk.val) 11 ((VOp.vec q .row i).code) (a.code) ((VOp.stream b true).code) (0)
  | .stop cv => ew 0x001 cv 0 0 0 0 0 0
  | _ => none

/-- The instruction the decoder reads from an instruction whose bits are `w`, numbered as
spec/opcode_table.json numbers them: 32 bits are an S-form word, 64 an E-form word (R56). -/
def decodeTableWord (nbits w : Nat) : Option Instr :=
  if nbits = 32 then (decodeS (w % 2 ^ 32)).toOption
  else if nbits = 64 then (decodeE (w % 2 ^ 64)).toOption
  else none

/-- What a word that is read back from an instruction's encoding decodes to: the three uses of
KVBIND share one word, and the decoder names the first (R342). -/
def Instr.canonical : Instr → Instr
  | .kvbindSave a b => .kvbindBind a b
  | .kvbindUnbind a b => .kvbindBind a b
  | i => i

end Sys2Proof
end

