-- ==== Sys2Proof/Machine/Convoy.lean ====
section
/-!
DEFINITION. What a convoy is made of: the unit class, destination and stream operands of each E-form
instruction, and the limits a convoy keeps (R65-R69).
-/
namespace Sys2Proof.Machine
open Sys2Proof

/-- More words than the 2^53 that fill the address space never lie behind one another (R191). -/
def convoyFuel : Nat := 2 ^ 53

/-- The unit classes of R67. -/
inductive UnitClass where
  | i | f | x | p | m | k
  deriving DecidableEq, Repr

/-- The destination of an E-form instruction as R67 compares it. -/
inductive EDst where
  | none
  | vecs (v : VecRef)
  | square (q : SqNo)
  | mask (m : MaskNo)
  | scalar (r : Reg)
  deriving DecidableEq, Repr

def EDst.ofVec : Option VecRef → EDst
  | some v => .vecs v
  | Option.none => .none

def EDst.ofCmp (ty : Ty) : CDst → EDst
  | .vec v => EDst.ofVec (v.ref? ty)
  | .mask m => .mask m

/-- Two destinations clash (R67): overlapping vectors (R63), one mask, one scalar register. -/
def EDst.clash : EDst → EDst → Bool
  | .vecs v, .vecs w => v.overlaps w
  | .vecs v, .square q => v.q == q
  | .square q, .vecs v => v.q == q
  | .square q, .square r => q == r
  | .mask m, .mask n => m == n
  | .scalar r, .scalar t => r == t
  | _, _ => false

/-- The unit class of an E-form instruction; none for STOP and for what is no E-form instruction. -/
def unitClass : Instr → Option UnitClass
  | .vmov _ _ (.vec _ dir _) (.vec _ dir' _) => some (if dir = dir' then .i else .x)
  | .vmov _ _ _ _ => some .i
  | .vadd _ _ _ _ _ _ | .vsub _ _ _ _ _ _ | .vmul _ _ _ _ _ _ | .vmulh _ _ _ _ _ | .vmin _ _ _ _ _
  | .vmax _ _ _ _ _ | .vminn _ _ _ _ _ | .vmaxn _ _ _ _ _ | .vand _ _ _ _ _ | .vor _ _ _ _ _
  | .vxor _ _ _ _ _ | .vshl _ _ _ _ _ | .vshr _ _ _ _ _ | .vsra _ _ _ _ _ | .vfshl _ _ _ _ _ _
  | .vfshr _ _ _ _ _ _ | .vpopc _ _ _ _ | .vclz _ _ _ _ | .vabs _ _ _ _ | .vsatn _ _ _ _ _ _
  | .vcmp _ _ _ _ _ _ | .vsel _ _ _ _ _ | .vmovx _ _ _ _ _ | .vext _ _ _ _ _ | .vidx _ _ _ _ _
  | .vmand _ _ _ _ | .vmor _ _ _ _ | .vmxor _ _ _ _ | .vmnot _ _ _ | .vmcnt _ _ _ | .vmfirst _ _ _ => some .i
  | .vfadd _ _ _ _ _ _ | .vfsub _ _ _ _ _ _ | .vfmul _ _ _ _ _ _ | .vfma _ _ _ _ _ _ | .vfmin _ _ _ _ _
  | .vfmax _ _ _ _ _ | .vfdiv _ _ _ _ _ _ | .vfrcp _ _ _ _ _ | .vfrsq _ _ _ _ _ | .vfexp2 _ _ _ _ _
  | .vflog2 _ _ _ _ _ | .vfcmp _ _ _ _ _ _ | .vfcvt _ _ _ _ _ _ _ | .vicvt _ _ _ _ _ _ _ => some .f
  | .vrsum _ _ _ _ _ | .vrmax _ _ _ _ | .vrmin _ _ _ _ | .vrmaxi _ _ _ _ _ | .vrmini _ _ _ _ _
  | .vrand _ _ _ _ | .vror _ _ _ _ | .vrxor _ _ _ _ | .vfrsum _ _ _ _ _ _ | .vfrmax _ _ _ _
  | .vgred _ _ _ _ _ _ _ | .vshuf _ _ _ _ _ _ | .vslup _ _ _ _ _ _ | .vsldn _ _ _ _ _ _ | .vbcast _ _ _ _ _ _
  | .vcmprs _ _ _ _ _ | .vexpnd _ _ _ _ _ | .vscan _ _ _ _ _ _ _ _ => some .x
  | .opa _ _ _ _ _ _ | .sqz _ _ | .sqcp _ _ _ _ | .sqcvt _ _ _ _ _ => some .p
  | .vld _ _ _ _ _ | .vlds _ _ _ _ _ _ | .vldx _ _ _ _ _ _ | .vst _ _ _ _ _ | .vsts _ _ _ _ _ _
  | .vstx _ _ _ _ _ _ | .vstb _ _ _ _ _ | .vamo _ _ _ _ _ _ _ _ => some .m
  | .kvhash _ _ _ _ | .vsign _ _ _ _ | .qkdot _ _ _ _ | .pvacc _ _ _ _ _ => some .k
  | _ => none

/-- The destination of an E-form instruction. -/
def edest : Instr → EDst
  | .vadd _ ty d _ _ _ | .vsub _ ty d _ _ _ | .vmul _ ty d _ _ _ | .vmulh _ ty d _ _ | .vmin _ ty d _ _
  | .vmax _ ty d _ _ | .vminn _ ty d _ _ | .vmaxn _ ty d _ _ | .vand _ ty d _ _ | .vor _ ty d _ _
  | .vxor _ ty d _ _ | .vshl _ ty d _ _ | .vshr _ ty d _ _ | .vsra _ ty d _ _ | .vfshl _ ty d _ _ _
  | .vfshr _ ty d _ _ _ | .vpopc _ ty d _ | .vclz _ ty d _ | .vabs _ ty d _ | .vsatn _ ty d _ _ _
  | .vsel _ ty d _ _ | .vmov _ ty d _ | .vmovx _ ty d _ _ | .vidx _ ty d _ _ | .vfadd _ ty d _ _ _
  | .vfsub _ ty d _ _ _ | .vfmul _ ty d _ _ _ | .vfma _ ty d _ _ _ | .vfmin _ ty d _ _ | .vfmax _ ty d _ _
  | .vfdiv _ ty d _ _ _ | .vfrcp _ ty d _ _ | .vfrsq _ ty d _ _ | .vfexp2 _ ty d _ _ | .vflog2 _ ty d _ _
  | .vfcvt _ ty d _ _ _ _ | .vicvt _ ty d _ _ _ _ | .vgred _ ty d _ _ _ _ | .vshuf _ ty d _ _ _
  | .vslup _ ty d _ _ _ | .vsldn _ ty d _ _ _ | .vbcast _ ty d _ _ _ | .vcmprs _ ty d _ _
  | .vexpnd _ ty d _ _ | .vscan _ ty d _ _ _ _ _ | .vld _ ty d _ _ | .vlds _ ty d _ _ _ | .vldx _ ty d _ _ _ => EDst.ofVec (d.ref? ty)
  | .vcmp _ ty d _ _ _ | .vfcmp _ ty d _ _ _ => EDst.ofCmp ty d
  | .vext _ _ d _ _ | .vmcnt _ d _ | .vmfirst _ d _ | .vrsum _ _ d _ _ | .vrmax _ _ d _ | .vrmin _ _ d _
  | .vrmaxi _ _ d _ _ | .vrmini _ _ d _ _ | .vrand _ _ d _ | .vror _ _ d _ | .vrxor _ _ d _
  | .vfrsum _ _ d _ _ _ | .vfrmax _ _ d _ | .kvhash _ d _ _ => .scalar d
  | .vmand _ d _ _ | .vmor _ d _ _ | .vmxor _ d _ _ | .vmnot _ d _ => .mask d
  | .opa _ _ q _ _ _ | .sqz _ q => .square q
  | .sqcp _ d _ _ | .sqcvt _ _ d _ _ => .square d
  | .vsign _ d _ _ | .qkdot _ d _ _ => EDst.ofVec (d.ref? .e4m3)
  | .pvacc _ q i _ _ => .vecs ⟨q, .row, i.val, 4⟩
  | _ => .none

/-- How many of an instruction's operand fields name a stream record (R67). -/
def streamFields : Instr → Nat
  | .vadd _ _ _ a b _ | .vsub _ _ _ a b _ | .vmul _ _ _ a b _ | .vmulh _ _ _ a b | .vmin _ _ _ a b
  | .vmax _ _ _ a b | .vminn _ _ _ a b | .vmaxn _ _ _ a b | .vand _ _ _ a b | .vor _ _ _ a b
  | .vxor _ _ _ a b | .vshl _ _ _ a b | .vshr _ _ _ a b | .vsra _ _ _ a b | .vfshl _ _ _ a b _
  | .vfshr _ _ _ a b _ | .vcmp _ _ _ a b _ | .vsel _ _ _ a b | .vfadd _ _ _ a b _ | .vfsub _ _ _ a b _
  | .vfmul _ _ _ a b _ | .vfma _ _ _ a b _ | .vfmin _ _ _ a b | .vfmax _ _ _ a b | .vfdiv _ _ _ a b _
  | .vfcmp _ _ _ a b _ | .vshuf _ _ _ a b _ | .opa _ _ _ a b _ => (if a.isStream then 1 else 0) + (if b.isStream then 1 else 0)
  | .vpopc _ _ _ a | .vclz _ _ _ a | .vabs _ _ _ a | .vsatn _ _ _ a _ _ | .vmov _ _ _ a | .vext _ _ _ a _
  | .vidx _ _ _ a _ | .vfrcp _ _ _ a _ | .vfrsq _ _ _ a _ | .vfexp2 _ _ _ a _ | .vflog2 _ _ _ a _
  | .vfcvt _ _ _ a _ _ _ | .vicvt _ _ _ a _ _ _ | .vrsum _ _ _ a _ | .vrmax _ _ _ a | .vrmin _ _ _ a
  | .vrmaxi _ _ _ a _ | .vrmini _ _ _ a _ | .vrand _ _ _ a | .vror _ _ _ a | .vrxor _ _ _ a
  | .vfrsum _ _ _ a _ _ | .vfrmax _ _ _ a | .vgred _ _ _ a _ _ _ | .vslup _ _ _ a _ _ | .vsldn _ _ _ a _ _
  | .vbcast _ _ _ a _ _ | .vcmprs _ _ _ a _ | .vexpnd _ _ _ a _ | .vscan _ _ _ a _ _ _ _ | .kvhash _ _ a _
  | .vsign _ _ a _ => (if a.isStream then 1 else 0)
  | .vldx _ _ _ _ b _ => (if b.isStream then 1 else 0)
  | .vst _ _ s _ _ | .vsts _ _ s _ _ _ => (if s.isStream then 1 else 0)
  | .vstx _ _ s _ b _ | .vstb _ s _ b _ | .vamo _ _ s _ b _ _ _ => (if s.isStream then 1 else 0) + (if b.isStream then 1 else 0)
  | .qkdot _ _ _ _ | .pvacc _ _ _ _ _ => 1
  | _ => 0

/-- The instruction writes memory (R67). -/
def writesMemory : Instr → Bool
  | .vst .. | .vsts .. | .vstx .. | .vstb .. | .vamo .. => true
  | _ => false

/-- The scalar register an E-form instruction writes (R102). -/
def scalarDest (i : Instr) : Option Reg :=
  match edest i with
  | .scalar r => some r
  | _ => none

/-- How many of a list are of a class. -/
def countClass (is : List Instr) (c : UnitClass) : Nat := (is.filter fun i => unitClass i == some c).length

/-- The instructions of a convoy so far keep its limits (R67). -/
def withinLimits (is : List Instr) : Bool :=
  is.length ≤ 8 && countClass is .i ≤ 2 && countClass is .f ≤ 2 && countClass is .x ≤ 1 && countClass is .p ≤ 1
    && countClass is .m ≤ 2 && (is.filter writesMemory).length ≤ 1 && countClass is .k ≤ 1
    && is.foldl (fun n i => n + streamFields i) 0 ≤ 1

/-- A convoy whose earlier words are legal takes one more (R67). -/
def joinsConvoy (is : List Instr) (i : Instr) : Bool :=
  withinLimits (is ++ [i]) && is.all fun j => !(edest j).clash (edest i)

/-- The first offending word of a convoy, with its place (R69); none for a legal one. -/
def offending : List Instr → Nat → List W64 → Option (Nat × W64)
  | _, _, [] => none
  | is, n, w :: r =>
    match decodeE w.toNat with
    | .ok i => if joinsConvoy is i then offending (is ++ [i]) (n + 1) r else some (n, w)
    | .error _ => some (n, w)

/-- The word is a STOP by its operation code (R65). -/
def isStopOp (w : W64) : Bool := w.toNat % 2 ^ 9 == 1

/-- The word starts a convoy (R66). -/
def startsConvoy (w : W64) : Bool := w.getLsbD 9

end Sys2Proof.Machine
end

