-- ==== Sys2Proof/Config.lean ====
section
/-!
DEFINITION. What the manual leaves open for a part, as constants without a body (no proof can see a
value of theirs), and the fixed figures of the package.
-/
namespace Sys2Proof.Config

/-- FREE VALUE: the rank that decides the order of the unordered elements of one vector instruction
which name common bytes (R244, R253); the first argument is State's free counter (log entry 3). -/
opaque unorderedRank : Nat → Nat → Nat
/-- FREE VALUE: a byte that a remote party answers to an RDMA READ, by the free counter and its place
in the answer (R368; log entry 4). -/
opaque remoteByte : Nat → Nat → Byte
/-- FREE VALUE: whether a remote party accepts an access, by the free counter (R368; log entry 4). -/
opaque remoteAccepts : Nat → Bool
/-- The digest of Kyrek's root public key in Ursol's ROM (R403); the manual gives no value (log entry 5). -/
opaque romKeyDigest : List Byte
/-- The minimum firmware version in the fuses (R403); the manual gives no value (log entry 5). -/
opaque fusedMinVersion : Nat
/-- What the secret half of the part's identity key pair is made from, at manufacture (R405; log entry 5). -/
opaque identitySeed : Nat
/-- FREE VALUE: what a signature with the identity key draws its nonce from, by the message and the try (R403, R405;
log entry 5). -/
opaque identityNonce : List Byte → Nat → Nat
/-- FREE VALUE: the number Ursol gives a new rkey, by the free counter (R371, R372, R394; log entry 6). -/
opaque rkeyValue : Nat → W32
/-- FREE VALUE: the service Kyrek firmware gives a software trap's code k may change the registers of
the parked task; which services a part's firmware has is not in the manual (R440; log entry 7). -/
opaque softwareService : Nat → Nat → W64 → W64
/-- FREE VALUE: the free blocks of memory that Kyrek firmware has for a KV block it brings in, in the order in which it
takes them, by the free counter: each a number of 4 KiB pages (R336; log entry 7). -/
opaque freeBlocks : Nat → List Nat
/-- The rkey of the hub region, which Ursol registers for the host (R370); the manual gives no value
(log entry 6). -/
opaque hubRkey : W32
/-- FREE VALUE: a byte of a watch-ring entry, by the entry's number, its contents as a list of numbers, and the byte's number: the manual gives the entry's contents but no layout (R392;
log entry 10). -/
opaque ringByte : Nat → List Nat → Nat → Byte
/-- FREE VALUE: a byte of a strip buffer image, in the part's own format, by the free counter and the byte's number
(R378, R384; log entry 8). -/
opaque bufferByte : Nat → Nat → Byte
/-- The double of DRAM in which the hub counts the watch ring's entries, by its number (R394); the manual gives no value
(log entry 10). -/
opaque ringCountDouble : Fin (2 ^ 36)

end Sys2Proof.Config
end

