-- ==== Sys2Proof/Machine/State.lean ====
section
/-!
DEFINITION. The state of an F2 package as plain data: every piece of state the manual names, the
schedule that says which agent moves next, and the state right after power is applied.
-/
namespace Sys2Proof.Machine
open Sys2Proof

/-! ## Cores -/

/-- Which core a `Core` is: none, a stack's supervisor core, or the hart that runs a task. -/
inductive CoreId where
  | none
  | sup (s : Fin 8)
  | task (t : TaskId)
  deriving DecidableEq, Repr, Inhabited

/-- A stream record st0-st3 (R341). -/
structure StreamRec where
  bound : Bool := false
  sig : Bool := false
  clr : Bool := false
  dgid : W32 := 0
  skip : W32 := 0
  qsig : BitVec 256 := 0
  rad : BitVec 9 := 0
  fin : BitVec 24 := 0
  cur : W64 := 0
  deriving DecidableEq, Repr, Inhabited

/-- The running block of a task (R102, R104, R105): where it started, the address of the next E-form
word, the words of the checked convoy that have not run (R69), and the registers VF captured. -/
structure Block where
  start : VAddr
  bpc : VAddr
  words : List W64
  bc : FMap W64
  deriving DecidableEq, Repr, Inhabited

/-- The policy an access really has (R217). -/
inductive EffPol where
  | nc | own | wt | sis | wis
  deriving DecidableEq, Repr, Inhabited

/-- Where a translated address leads (R192, R205, R217). -/
inductive Target where
  | scratch (off : Nat)
  | mem (pa : Nat) (pol : EffPol)
  | remote (pa : Nat)
  | control (pa : Nat)
  deriving DecidableEq, Repr, Inhabited

/-- Bytes of one buffered element that lie together; none for a byte that a younger scalar store of
the hart has overwritten (R239, R248; log entry 14). -/
structure BufPart where
  va : Nat
  tgt : Target
  vals : List (Option Byte)
  deriving DecidableEq, Repr, Inhabited

/-- What a buffered element does when SCOMMIT performs it (R244). -/
inductive BufKind where
  | store
  | amo (op : AmoOp) (pl : Place)
  deriving DecidableEq, Repr, Inhabited

/-- One entry of the strip buffer (R384): the vector instruction it came from, its cell, its policy
code, its parts, whether the instruction asked for ascending order, and whether a shootdown made it
stale (R208). -/
structure BufElem where
  seq : Nat
  cell : Nat
  ord : Bool
  kind : BufKind
  pol : Pol
  parts : List BufPart
  stale : Bool := false
  deriving DecidableEq, Repr, Inhabited

/-- An arrival bank of the scratchpad (R361). -/
structure ArrivalBank where
  armed : Bool := false
  ap : Nat := 65536
  deriving DecidableEq, Repr, Inhabited

/-- A hart watchpoint (R391): `kind` bit 0 watches loads, bit 1 stores; the range is 2^lg bytes. -/
structure Watch where
  lg : BitVec 6 := 0
  kind : BitVec 2 := 0
  va : VAddr := 0
  deriving DecidableEq, Repr, Inhabited

/-- The step trap that is still due (R390): the engine operation just issued in step-join mode, awaited before it,
by its number, the stepped instruction, the operation's object. -/
structure JoinOp where
  seq : Nat
  ipc : VAddr
  obj : Option W64
  deriving DecidableEq, Repr, Inhabited

/-- An unsatisfied WAIT at the pc (R100, R267): how long its core's clock has run meanwhile, in thousandths of a
compute cycle (R396), on which object, for which count. -/
structure Waiting where
  age : Nat
  pa : Nat
  target : W32
  wrap : Bool
  deriving DecidableEq, Repr, Inhabited

/-- The part of a core only a supervisor core has (R128, R132). -/
structure SupPart where
  svec : VAddr := 0
  inh : Bool := false
  halted : Bool := false
  deriving DecidableEq, Repr, Inhabited

/-- The part of a core only a task on a hart has. -/
structure TaskPart where
  stk : Fin 8 := 0
  cluster : Fin 8 := 0
  hw : BitVec 2 := 0
  vl : BitVec 6 := 32
  vstart : BitVec 5 := 0
  tmask : Byte := 0
  frec : W64 := 0
  strip : W32 := 0
  held : Bool := false
  sbase : W64 := BitVec.allOnes 64
  m : FMap W32 := []
  /-- bits 63:56 of an entry address that lies above the address range, for the range fault of the first fetch
  (R86, R97, R191); 0 otherwise -/
  entryHigh : Byte := 0
  sq : Nat := 0
  scr : Nat := 0
  stg : Nat := 0
  cells : FMap W32 := []
  scratch : FMap Byte := []
  dirty : FMap Bool := []
  streams : FMap StreamRec := []
  block : Option Block := none
  buf : List BufElem := []
  aps : FMap ArrivalBank := []
  watches : FMap Watch := []
  step : Bool := false
  sjoin : Bool := false
  triggered : Bool := false
  waiting : Option Waiting := none
  /-- a watched access of the instruction that is running, for the trap after it (R391) -/
  watchHit : Option Nat := none
  joinOp : Option JoinOp := none
  /-- where the schedule limits the tokens that an element instruction takes in a step (R354), their number; 0 between two
  steps of one that has taken some of its tokens -/
  quota : Option Nat := none
  deriving DecidableEq, Repr, Inhabited

/-- A core: the scalar stream's state (R114, R123, R128), and what only a supervisor core or only a
task has. -/
structure Core where
  id : CoreId := .none
  x : FMap W64 := []
  pc : VAddr := 0
  asid : BitVec 14 := 0
  flags : Byte := 0
  epc : VAddr := 0
  cause : BitVec 17 := 0
  info : W64 := 0
  sup : SupPart := {}
  task : TaskPart := {}
  deriving DecidableEq, Repr, Inhabited

/-- What makes a parked task ready again (R377, R267, R100): the first update of the resume object
after the park, an update that satisfies its WAIT, or nothing more; and whether the Fold has reported
the update. -/
inductive Wake where
  | resume (pa : Nat) (signalled : Bool)
  | waitObj (pa : Nat) (target : W32) (wrap : Bool) (met : Bool)
  | ready
  deriving DecidableEq, Repr, Inhabited

/-- A parked or pre-empted task: its context lies in its frame (R378). `buf` is what the strip buffer image in
frame pages 2-9 stands for, and `image` the bytes of it (R384; log entry 8). `held` and `flags` are its held base
and flags at the save, for an end without a restore; `scratch` its scratchpad as saved, from which its copies
still read (R138); `watchHit` a watched access of an instruction that has not completed (R391); `victim` that it
was pre-empted (R388). -/
structure Parked where
  t : TaskId
  stk : Fin 8
  wake : Wake
  buf : List BufElem
  aps : FMap ArrivalBank
  triggered : Bool
  held : Option W64
  flags : Byte
  joinOp : Option JoinOp
  image : List Byte := []
  scratch : FMap Byte := []
  watchHit : Option Nat := none
  /-- of the block it was in: where the block starts, and its next word -/
  block : Option (VAddr × VAddr) := none
  victim : Bool := false
  deriving DecidableEq, Repr, Inhabited

/-- A task that ends as EXIT does and waits for its engine operations (R110, R377, R378, R386, R393): its flags and
held base, where it is not resident, its scratchpad, which its copies still read and write, and whether it was
pre-empted. -/
structure Ending where
  t : TaskId
  flags : Byte
  held : Option W64
  scratch : FMap Byte := []
  victim : Bool := false
  deriving DecidableEq, Repr, Inhabited

/-- An entry of a stack's service queue (R376): the parked task and the address of its frame. -/
structure SvcEntry where
  t : TaskId
  frame : W64
  deriving DecidableEq, Repr, Inhabited

/-! ## Memory and coherence -/

/-- The modes of a line in a first-level cache (R220). -/
inductive LineMode where
  | o | t | u
  deriving DecidableEq, Repr, Inhabited

/-- A copy of a line in an agent's first-level cache (R220), kept under the key 32·line + agent: `valid` per word, `odirty` owner-dirty
per word, `noticed` words whose notice was sent since they became owner-dirty (R221; log entry 47), `sdirty` sis-dirty
per byte. -/
structure CacheLine where
  mode : LineMode
  valid : BitVec 16
  odirty : BitVec 16
  noticed : BitVec 16
  sdirty : BitVec 64
  data : LineData
  deriving DecidableEq, Repr, Inhabited

/-- A directory entry (R223). -/
structure DirEntry where
  apc : BitVec 2 := 0
  la : BitVec 5 := 31
  nr : BitVec 5 := 31
  own : BitVec 5 := 31
  shr : BitVec 17 := 0
  dirty : BitVec 16 := 0
  /-- the words the Fold holds poisoned, as the DRAM delivered them (R227) -/
  poison : BitVec 16 := 0
  /-- the Fold holds bytes of the line that the DRAM does not: it is written back when it is evicted (R216, R273) -/
  changed : Bool := false
  deriving DecidableEq, Repr, Inhabited

/-- A dirty notice on its way to its home (R221). -/
structure Notice where
  agent : Nat
  line : Nat
  word : Nat
  deriving DecidableEq, Repr, Inhabited

/-- An atomic read-modify-write (R238, R240). -/
inductive AtomOp where
  | amo (op : AmoOp) (v : W64)
  | cas (expected new : W64)
  deriving DecidableEq, Repr, Inhabited

/-- The requests that reach a home (R225). -/
inductive ReqKind where
  | getS
  | getO (atomic : Bool)
  | read (words : BitVec 16)
  | write (en : BitVec 64) (data : LineData)
  | far (off : Nat) (size : Nat) (op : AtomOp)
  | marker
  deriving DecidableEq, Repr, Inhabited

/-- What home asks of an agent for a request (R222, R225, R230). -/
inductive HomeMsg where
  | inv (a : Nat)
  | pull (a : Nat) (words : BitVec 16)
  | recall (a : Nat)
  | fwd (a : Nat) (en : BitVec 64) (data : LineData)
  | publish (a : Nat)
  deriving DecidableEq, Repr, Inhabited

/-- A request a home is handling (R225, R226, R231): `who` is the agent number, or the number of an engine, 32 and
above (`engineNo`; log entry 11); `asks` are the messages not yet acknowledged; `applied` says home has done its part and
only forwards are due. -/
structure HomeReq where
  who : Nat
  line : Nat
  kind : ReqKind
  asks : List HomeMsg
  applied : Bool
  deriving DecidableEq, Repr, Inhabited

/-- Which TLB of a stack holds an entry (R200). -/
inductive TlbUnit where
  | svp
  | tile (t : Fin 64)
  | stack
  deriving DecidableEq, Repr, Inhabited

/-- A TLB entry (R200): one leaf, with the level it was found at and its page-table entry. -/
structure TlbEntry where
  stk : Fin 8
  unit : TlbUnit
  asid : BitVec 14
  level : Nat
  vbase : Nat
  pte : W64
  deriving DecidableEq, Repr, Inhabited

/-- A pointer entry of a walk cache (R201): the entry read at `level` for the address bits above it. -/
structure WalkEntry where
  stk : Fin 8
  asid : BitVec 14
  level : Nat
  prefix64k : Nat
  table : Nat
  deriving DecidableEq, Repr, Inhabited

/-- A miss at a stack's walker (R203), for every unit that joined it. -/
structure Miss where
  stk : Fin 8
  asid : BitVec 14
  va64k : Nat
  units : List TlbUnit
  deriving DecidableEq, Repr, Inhabited

/-- A shootdown record waiting at a port (R208, R212): its address and ASID, or the
32 bytes of a host's record, which the lowest-numbered stack in the on state takes. -/
structure ShootReq where
  stk : Fin 8
  va : W64
  asid : BitVec 14
  host : Option (List Byte)
  deriving DecidableEq, Repr, Inhabited

/-- A shootdown whose steps are done and whose completion is due (R208). -/
structure ShootDone where
  stk : Fin 8
  cobj : Nat
  status : BitVec 16
  progress : Nat
  fidx : W32
  /-- the ASID of the object and whether its page makes its update NC (R208, R217, R392) -/
  asid : BitVec 14
  nc : Bool
  deriving DecidableEq, Repr, Inhabited

/-- A home watchpoint (R392). -/
structure HomeWatch where
  line : Nat := 0
  mask : BitVec 16 := 0
  reads : Bool := false
  deriving DecidableEq, Repr, Inhabited

/-- An entry of the home watch ring (R392): the line, its watched words and their value at home, who asked, whether
a dirty notice made it, which carries no value, and the ASID of an engine's write. -/
structure HomeHit where
  line : Nat
  words : BitVec 16
  who : Nat
  notice : Bool
  value : LineData := 0
  asid : Option (BitVec 14) := none
  qp : Option Nat := none
  deriving DecidableEq, Repr, Inhabited

/-- Memory and everything that translates and keeps it coherent. -/
structure MemSys where
  /-- home memory: what every DRAM byte holds at its home Fold (R205; log entry 9) -/
  cells : List Host.Cell := []
  /-- 64-bit words of DRAM with an uncorrectable error (R227, R284), by address / 8 -/
  bad : List Nat := []
  /-- 64-bit words of DRAM with a single-bit error, which every read of the DRAM corrects (R284, R291) -/
  weak : List Nat := []
  /-- corrected and uncorrectable words that Fold reads of the DRAM have met (R291), by 64·s + t -/
  corrected : FMap Nat := []
  uncorrectable : FMap Nat := []
  /-- the lines that the Folds' fills, write-backs and NC accesses have still to reach in the DRAM's banks, in order
  (R273; log entry 46) -/
  dramWork : List Nat := []
  lines : FMap CacheLine := []
  /-- words of a copy, under its key, that home delivered poisoned (R227) -/
  poison : FMap (BitVec 16) := []
  dir : FMap DirEntry := []
  notices : List Notice := []
  reqs : List HomeReq := []
  tlb : List TlbEntry := []
  walkCache : List WalkEntry := []
  walkQ : List Miss := []
  walks : List Miss := []
  /-- misses that wait in their own unit for a place at their walker (R203) -/
  walkWait : List Miss := []
  shootQ : List ShootReq := []
  shootDone : List ShootDone := []
  /-- home watchpoints by 16·s + slot, the ring's base and size, and the hits appended to the ring
  (R392; log entry 10) -/
  watch : FMap HomeWatch := []
  ring : Option (Nat × Nat) := none
  hits : List HomeHit := []
  /-- how many of the hits have been written into the ring -/
  ringDone : Nat := 0
  deriving DecidableEq, Repr, Inhabited

/-! ## DRAM rows, tiles, engines -/

/-- What an engine operation carries from its issue (R254, R261, R381): who issued it and from which
stack, under which ASID, the instruction's address, word and operand values, and its object. -/
structure OpHdr where
  core : CoreId := .none
  stk : Fin 8 := 0
  asid : BitVec 14 := 0
  ipc : VAddr := 0
  word : W32 := 0
  va : W64 := 0
  vb : W64 := 0
  ve : W64 := 0
  obj : Option Nat := none
  objVa : W64 := 0
  /-- the object's page makes its updates NC (R217, R218) -/
  objNc : Bool := false
  /-- the engine the operation is for -/
  eng : EngineUnit := .copy
  /-- arrival number, unique among operations -/
  seq : Nat := 0
  deriving DecidableEq, Repr, Inhabited

/-- The states of a bank (R274). -/
inductive BankSt where
  | idle | act | open | close | ref
  deriving DecidableEq, Repr, Inhabited

/-- A bank (R271); `tIn` is when it entered its state, `objs` the ROWACTs to signal when the row
becomes consumable (R281). -/
structure Bank where
  st : BankSt := .idle
  row : Nat := 0
  asid : Option (BitVec 14) := none
  tAct : Nat := 0
  tag : BitVec 16 := 0
  lost : Bool := false
  closing : Bool := false
  tIn : Nat := 0
  objs : List OpHdr := []
  deriving DecidableEq, Repr, Inhabited

/-- An accepted ROWCON that has not transferred (R284), or an accepted ROWCLS whose close has not
begun (R287), in arrival order. -/
structure RowCmd where
  hdr : OpHdr
  bank : BankId
  tag : BitVec 16
  close : Bool
  /-- the slot a ROWCON fills; none for a ROWCLS -/
  slot : Option (Fin 4)
  /-- when the tile accepted it -/
  since : Nat
  /-- the row of its activation -/
  row : Nat
  deriving DecidableEq, Repr, Inhabited

/-- The DRAM side of the stacks. -/
structure Dram where
  banks : FMap Bank := []
  /-- activations, by stack and layer, with their instants (R276) -/
  acts : List (Nat × Nat) := []
  cmds : List RowCmd := []
  /-- until when a column's vertical bus is taken (R271), by 64·s + t -/
  busUntil : FMap Nat := []
  /-- columns whose bus a Fold access used last, for the alternation of R273 -/
  busFold : FMap Bool := []
  /-- the transfer under way on a column's bus, by 64·s + t: its command's arrival number and when it began (R284) -/
  begun : FMap (Nat × Nat) := []
  /-- since when a held ROWCON, by its arrival number, finds all that it waits for but the bus (R284) -/
  couldAt : FMap Nat := []
  /-- when an LKA last let go of a row slot (R285), by 4·(64·s + t) + slot -/
  slotFreed : FMap Nat := []
  /-- corrected and uncorrectable counts of row transfers and of errors that came and went, by 64·s + t (R291) -/
  corrected : FMap Nat := []
  uncorrectable : FMap Nat := []
  deriving DecidableEq, Repr, Inhabited

/-- A command that a tile holds (R300, R307, R310), in arrival order. `waited` counts the ns an LKA
or ADRN has been held while its task was resident (R311). -/
inductive TileOp where
  | lka | aclr | adrn
  | reserve (lo n : Nat)
  deriving DecidableEq, Repr, Inhabited

structure TileCmd where
  tile : TileId
  op : TileOp
  hdr : OpHdr
  waited : Nat := 0
  deriving DecidableEq, Repr, Inhabited

/-- A started LKA or ADRN (R315, R317): how it will end and the bytes it will write: accumulator
bytes of the tile, and cells of the issuer's squares. -/
structure TileRun where
  tile : TileId
  op : TileOp
  hdr : OpHdr
  blk : Nat
  status : BitVec 16
  progress : Nat
  fidx : W32
  sat : Bool
  setTag : Bool
  acc : List (Nat × Byte)
  cells : List (Nat × W32)
  deriving DecidableEq, Repr, Inhabited

/-- The tiles of the package, one table for each kind of contents (R20, R272, R293, R294). Keys:
tables by 2^18·tile + 256·bank + byte; slots by 2^13·tile + 2^11·slot + byte; accumulators by
2^14·tile + 2^10·block + byte. A tag is 0 for none, else the ASID + 1. -/
structure Tiles where
  tables : FMap Byte := []
  tableTag : FMap Nat := []
  slots : FMap Byte := []
  slotPoison : FMap Bool := []
  slotTag : FMap Nat := []
  /-- the physical address [38:11] of the row a slot was last filled from (R319) -/
  slotRow : FMap Nat := []
  acc : FMap Byte := []
  ver : FMap (BitVec 16) := []
  accTag : FMap Nat := []
  /-- codebook entries by 128·s + 16·slot + k, and tags by 8·s + slot (R302) -/
  codebook : FMap Byte := []
  codebookTag : FMap Nat := []
  /-- 64-bit words of table, slot and accumulator SRAM with an uncorrectable error (R319), by byte
  number / 8 -/
  badTable : List Nat := []
  badSlot : List Nat := []
  badAcc : List Nat := []
  cmds : List TileCmd := []
  runs : List TileRun := []
  deriving DecidableEq, Repr, Inhabited

/-- A TBLD being built (R305): the next group to write, whether an entry clamped, its codebook. -/
structure TbldRun where
  hdr : OpHdr
  next : Nat
  sat : Bool
  /-- the codebook's bytes as they stood when the TBLD reached the head of the queue -/
  code : List Byte := []
  deriving DecidableEq, Repr, Inhabited

/-- The table builder's queue (R300): CBLD or TBLD. -/
structure BuildCmd where
  tbld : Bool
  hdr : OpHdr
  deriving DecidableEq, Repr, Inhabited

/-- A copy (R355-R358): its rows; the chunks landed, by number, and their bytes; how it failed, if it did:
the status of its lowest failed chunk, that chunk, how many of its bytes were written, the chunks that
failed, and the chunks that were in flight at the first failure (R360); whether it writes its issuer's
scratchpad; whether it has given up its place because that issuer is not resident (R138); the RDMA windows
it has written (R368). -/
structure CopyCmd where
  hdr : OpHdr
  rows : Nat
  rlen : Nat
  dstr : W64
  sstr : W64
  landed : List Nat := []
  got : Nat := 0
  fail : Option (Nat × Nat) := none
  stop : Nat := 0
  failed : List Nat := []
  flight : List Nat := []
  scratch : Bool := false
  paused : Bool := false
  wins : List Nat := []
  deriving DecidableEq, Repr, Inhabited

/-- The KV engine operations (R330). -/
inductive KvOp where
  | look | ins | pin | unpin | app | sig
  deriving DecidableEq, Repr, Inhabited

/-- A KV descriptor (R322). -/
structure KvDesc where
  ptab : W64 := 0
  stab : W64 := 0
  sigb : W64 := 0
  proj : W64 := 0
  lgsz : Nat := 0
  nl : Nat := 0
  nh : Nat := 0
  nseq : Nat := 0
  deriving DecidableEq, Repr, Inhabited

/-- A sequence's record (R324). -/
structure SeqDesc where
  list : W64
  tail : Nat
  nb : Nat
  cap : Nat
  len : Nat
  ttok : List Nat
  deriving DecidableEq, Repr, Inhabited

/-- A lookup record (R332). -/
structure LookRec where
  tok : W64
  out : W64
  pred : Nat
  nblk : Nat
  pin : Bool
  deriving DecidableEq, Repr, Inhabited

/-- How far a command of the Crook has come (R328, R331): not begun; before block n of a lookup with its predecessor, or
with the entry that the tag comparison found and its state and gen; a seal that has probed, or has claimed its slot;
a promotion that has checked its copy; before id k of a pin or unpin; before a pair of a signature, with the block's
address, the matrix and the flags so far. -/
inductive KvProg where
  | start
  | look (l : LookRec) (pred n : Nat)
  | matched (l : LookRec) (n id state gen : Nat)
  | probed (q : SeqDesc) (pred : Nat) (found free : Option Nat)
  | claimed (q : SeqDesc) (pred id : Nat)
  | checked (good : Bool)
  | pins (k : Nat)
  | sign (pa : Nat) (rows : List Nat) (n : Nat) (flags : Byte)
  deriving DecidableEq, Repr, Inhabited

/-- A Crook command, with the rows KVAPP captured at issue (R338), how far it has come, and the descriptor it read when it
began (R322). -/
structure KvCmd where
  op : KvOp
  hdr : OpHdr
  kRow : List Byte := []
  vRow : List Byte := []
  prog : KvProg := .start
  desc : KvDesc := {}
  deriving DecidableEq, Repr, Inhabited

/-- A token the Crook holds in KV staging (R343). -/
structure Staged where
  t : TaskId
  st : Fin 4
  pos : Nat
  v : Bool
  data : List Byte
  deriving DecidableEq, Repr, Inhabited

/-- The engines of the stacks, by stack index. -/
structure Engines where
  buildQ : FMap (List BuildCmd) := []
  buildRun : FMap (Option TbldRun) := []
  /-- TBLDs of pre-empted tasks, set aside for a command of higher priority (R388) -/
  buildAside : FMap (List TbldRun) := []
  copyQ : FMap (List CopyCmd) := []
  copyRun : FMap (List CopyCmd) := []
  kvQ : FMap (List KvCmd) := []
  staging : List Staged := []
  launches : List OpHdr := []
  deriving DecidableEq, Repr, Inhabited

/-! ## The Drover -/

/-- A launch record (R84). -/
structure LaunchRec where
  entry : W64
  args : W64
  iters : Nat
  slen : Nat
  poolw : W32
  done : W64
  trig : W64
  sbase : W64
  frame : W64
  dobj : List W64
  dval : List W32
  ssz : Nat
  tps : Nat
  xlo : Nat
  xhi : Nat
  ylo : Nat
  yhi : Nat
  prio : Nat
  asid : BitVec 14
  hw : BitVec 2
  smaxb : Nat
  se16 : Bool
  sa32 : Bool
  /-- every reserved field is zero -/
  clean : Bool
  deriving DecidableEq, Repr, Inhabited

/-- The states of a farm in a slot (R90); QUEUED is a record in a ring, FREE an empty slot. -/
inductive FarmSt where
  | waiting | checking | running | closing
  deriving DecidableEq, Repr, Inhabited

/-- A fault record of a task's frame that has been used (R381): the place, when it was written, the
object it names, and whether it has been delivered. -/
structure RecMark where
  tid : Nat
  k : Fin 8
  seq : Nat
  obj : Option W64
  status : BitVec 16
  delivered : Bool
  deriving DecidableEq, Repr, Inhabited

/-- A farm (R90-R101). -/
structure Farm where
  lrec : LaunchRec
  queue : Nat
  prio : Nat
  st : FarmSt
  /-- the translated dependence objects, their values, which are satisfied, and the numbers of those
  whose home could not be reached when the farm took its slot (R91) -/
  deps : List (Option Nat × W32 × Bool)
  unreg : List Nat := []
  donePa : Option Nat
  trigPa : Option Nat
  /-- done and trig lie in pages that make their updates NC (R217, R218) -/
  doneNc : Bool := false
  trigNc : Bool := false
  /-- inherited priority, kept until FREE (R98) -/
  inherited : Nat
  nextBase : Nat := 0
  committed : Nat := 0
  discarded : List Nat := []
  nextTid : Nat := 0
  triggered : List Nat := []
  ended : List Nat := []
  trigSignalled : Bool := false
  flags : Byte := 0
  /-- the first task that ended with an undelivered engine fault record (R101) -/
  faultTask : Option Nat := none
  frameLost : Bool := false
  aborted : Bool := false
  /-- the fault records of its tasks' frames, and the counts of those not recorded (R381) -/
  recs : List RecMark := []
  lost : FMap Nat := []
  deriving DecidableEq, Repr, Inhabited

/-- A ready task (R95, R99): new, or parked before. -/
structure Ready where
  t : TaskId
  resumed : Bool
  deriving DecidableEq, Repr, Inhabited

/-- Clusters of a parked task lent to a sibling (R100). -/
structure Loan where
  stk : Fin 8
  first : Nat
  width : Nat
  owner : TaskId
  borrower : TaskId
  deriving DecidableEq, Repr, Inhabited

/-- A pre-emption in progress (R388): for which task, and the acknowledgements still due; or one that the host's abort of the
victims' farm asked for (R393). -/
structure Preempt where
  stk : Fin 8
  cause : TaskId
  first : Nat
  width : Nat
  victims : List TaskId
  due : List AckUnit
  abort : Bool := false
  deriving DecidableEq, Repr, Inhabited

/-- A launch queue (R87): its ASID and ceiling when bound, its records in order; `checked` says that
the head of a host queue has passed its checks (R88). -/
structure Queue where
  bound : Option (BitVec 14 × Nat) := none
  recs : List LaunchRec := []
  checked : Bool := false
  deriving DecidableEq, Repr, Inhabited

/-- The Drover (R84-R113). -/
structure Drover where
  queues : FMap Queue := []
  farms : FMap Farm := []
  ready : List Ready := []
  /-- the queue served last at each priority (R89) -/
  lastServed : FMap Nat := []
  /-- valid rectangle route entries (R93), by their number -/
  routes : FMap Bool := []
  loans : List Loan := []
  preempts : List Preempt := []
  /-- tasks that end once their engine operations have completed (R110) -/
  ending : List Ending := []
  /-- the hub region: slot bytes, tails and heads of the host queues, the shootdown record (R370) -/
  hub : FMap Byte := []
  tails : FMap W32 := []
  heads : FMap W32 := []
  deriving DecidableEq, Repr, Inhabited

/-! ## Ursol, links and the outside -/

/-- The power states of a stack (R397). -/
inductive StackSt where
  | gate | idle | selfRefresh | on
  deriving DecidableEq, Repr, Inhabited

/-- What Ursol has done since power was applied (R28, R404). -/
inductive Boot where
  | unpowered | powered | recovery | up
  deriving DecidableEq, Repr, Inhabited

/-- The states of a RoCEv2 queue pair (R394). -/
inductive QpSt where
  | reset | init | rtr | rts | error
  deriving DecidableEq, Repr, Inhabited

structure Qp where
  st : QpSt := .reset
  dest : W64 := 0
  gidHi : W64 := 0
  gidLo : W64 := 0
  port : Nat := 0
  mtu : Nat := 1024
  sendPsn : W64 := 0
  recvPsn : W64 := 0
  f2f : Bool := false
  deriving DecidableEq, Repr, Inhabited

/-- An RDMA window binding (R368). -/
structure Window where
  valid : Bool := false
  port : Nat := 0
  qp : Nat := 0
  base : W64 := 0
  rkey : W32 := 0
  notify : Bool := false
  deriving DecidableEq, Repr, Inhabited

/-- An rkey granted to the host (R371). -/
structure Rkey where
  asid : BitVec 14 := 0
  base : Nat := 0
  len : Nat := 0
  rd : Bool := false
  wr : Bool := false
  deriving DecidableEq, Repr, Inhabited

/-- A receive ring (R371): the next buffer to fill and how many are free. -/
structure Ring where
  asid : BitVec 14 := 0
  base : W64 := 0
  bufSize : Nat := 64
  bufs : Nat := 0
  next : Nat := 0
  free : Nat := 0
  cobj : W64 := 0
  deriving DecidableEq, Repr, Inhabited

/-- The entries of Ursol's event log that the manual names. -/
inductive LogEntry where
  | overrun (queue : Nat)
  | hostRecordDropped (queue : Nat)
  | unreachable (addr : W64)
  | frameUnusable (addr : W64)
  | badAction (addr : W64)
  | badShootdown (va : W64)
  | noStackForShootdown
  | supHalted (stk : Nat)
  | service (cause : BitVec 17) (epc : VAddr) (info : W64)
  | trip
  | bootFailed
  deriving DecidableEq, Repr, Inhabited

/-- What the package sends to the outside (R1, R367-R371, R394). A WRITE is cut into packets at the path MTU, and so
are a READ's answers (R368); `ext` says that its packets carry the Brustan extension header (R369). -/
inductive OutMsg where
  | answer (code : Nat) (status : Nat) (payload : List Byte)
  | logAnswer (entries : List LogEntry)
  | unsolicited (imm : W32)
  | rdmaWrite (window : Nat) (addr : W64) (packets : List (List Byte)) (ext : Bool)
  | rdmaRead (window : Nat) (addr : W64) (n : Nat) (mtu : Nat) (ext : Bool)
  | send (window : Nat) (imm : W32) (ext : Bool)
  | readReply (data : List Byte) (ext : Bool)
  | ack (ext : Bool)
  | nakRemoteAccess (ext : Bool)
  | nakInvalidRequest (qp : Nat) (ext : Bool)
  | rnrNak (qp : Nat) (ext : Bool)
  deriving DecidableEq, Repr, Inhabited

/-- The precision cap (R401). -/
structure Cap where
  maxb : Nat := 4
  e16 : Bool := true
  a32 : Bool := true
  deriving DecidableEq, Repr, Inhabited

/-- Ursol, the links and the power state (R394-R406). -/
structure Ursol where
  boot : Boot := .powered
  grade : Fin 4 := 0
  /-- the clock switch of a SETGRADE is in progress (R396) -/
  switching : Bool := false
  hold : Bool := false
  trip : Nat := 95
  /-- the highest sensor reading, an input (R399) -/
  temp : Nat := 25
  cap : Cap := {}
  stackSts : FMap StackSt := []
  /-- stacks told to come back to on: the instant they may be there (R397); 0 for none -/
  waking : FMap Nat := []
  asidDir : Nat := 0
  physRegion : Option W32 := none
  fenced : FMap Bool := []
  edgeFenced : FMap Bool := []
  edgeDown : FMap Bool := []
  qps : FMap (Option Qp) := []
  windows : FMap Window := []
  rkeys : FMap (Option Rkey) := []
  rings : FMap (Option Ring) := []
  rejects : FMap Nat := []
  log : List LogEntry := []
  fwVersion : W64 := 0
  fwDigest : List Byte := []
  out : List OutMsg := []
  deriving DecidableEq, Repr, Inhabited

/-! ## The schedule -/

/-- Which stream of a core moves (R102). -/
inductive Stream where
  | scalar | element
  deriving DecidableEq, Repr, Inhabited

/-- The SRAMs of a tile whose words carry check bits (R315, R319). -/
inductive SramPart where
  | table | slot | acc
  deriving DecidableEq, Repr, Inhabited

/-- One move of the package: a core's stream, a step of the opcode table's second part, or one of the
things the manual lets happen at any time without a row of their own: a TLB drops an entry (R200), a
walker is asked ahead of an access (R203), a first-level cache or a Fold evicts a line (R216, R222), a Crook performs one unit of
its command and no more (R328, R331), an element stream takes at most n tokens of a stream read and pauses (R354), a
DRAM or SRAM word goes bad or gets a single-bit error (R227, R284, R291, R319), a transient error is corrected (R291), a running task reads a pool
page with an uncorrectable error (R375, code 0x0025), a sensor reads a temperature (R399). -/
inductive Move where
  | core (c : CoreId) (s : Stream)
  | step (i : Instr)
  | tlbDrop (n : Nat)
  | walkRequest (m : Miss)
  | evictCopy (a : Fin 17) (line : Nat)
  | evictHome (line : Nat)
  | crookUnit (k : Fin 8)
  | tokens (c : CoreId) (n : Nat)
  | badWord (pa8 : Nat)
  | weakWord (pa8 : Nat)
  | correctedWord (col : Nat)
  | badSram (part : SramPart) (word : Nat)
  | badPool (t : TaskId) (page : Nat)
  | temperature (c : Nat)
  deriving DecidableEq, Repr

/-- A move and the ns that pass before it. -/
structure Turn where
  dt : Nat
  move : Move
  deriving DecidableEq, Repr

/-- The state of the package. `core` is the core whose turn it is, `others` every other core. `sched`
is an input: what moves next, first entry first; with none left the current core moves on. `now` is
the time in ns since power was applied, `tick0` when Ursol released the stacks from reset (R129).
`free` counts the free values taken, `seq` the operations issued. -/
structure State where
  core : Core
  others : List Core
  parked : List Parked
  service : FMap (List SvcEntry)
  mem : MemSys
  dram : Dram
  tiles : Tiles
  eng : Engines
  drover : Drover
  ursol : Ursol
  sched : List Turn
  now : Nat
  tick0 : Option Nat
  free : Nat
  seq : Nat
  deriving DecidableEq, Repr

/-- Why the machine stops with a fault. -/
inductive Fault where
  /-- Raised by `step` when the schedule names a core that does not exist at that moment; safe: no
  hardware makes such a move, and the model stops. -/
  | noSuchCore
  deriving DecidableEq, Repr

/-- Why a step has no meaning. -/
inductive Refusal where
  /-- Raised by an arm of `exec` whose instruction has no meaning yet; safe: the model stops. -/
  | notModelled (mnemonic : String)
  deriving DecidableEq, Repr

/-- The supervisor core of a stack at reset (R128; log entry 1). -/
def supReset (s : Fin 8) : Core := { id := .sup s }

/-- The package right after power is applied, before Ursol has done anything (R28): no stack is on,
no memory byte is listed, nothing runs. -/
def State.reset : State where
  core := {}
  others := [supReset 0, supReset 1, supReset 2, supReset 3, supReset 4, supReset 5, supReset 6, supReset 7]
  parked := []
  service := []
  mem := {}
  dram := {}
  tiles := {}
  eng := {}
  drover := {}
  ursol := {}
  sched := []
  now := 0
  tick0 := none
  free := 0
  seq := 0

end Sys2Proof.Machine
end

