-- ==== Sys2Proof/Machine/Store.lean ====
section
/-!
DEFINITION. Finite tables and byte strings: the one place where tables are read and written, where
bytes are put together little-endian (R3), and where the canonical form of memory is stated.
-/
namespace Sys2Proof.Machine
open Sys2Proof

/-- The value a table lists for a key. -/
def flook {α : Type} : FMap α → Nat → Option α
  | [], _ => none
  | (j, v) :: r, k => if j = k then some v else flook r k

/-- The value of a key: the listed one, or the default. -/
def fget {α : Type} (m : FMap α) (k : Nat) (d : α) : α := (flook m k).getD d

/-- List a value under a key, keys rising. -/
def finsert {α : Type} : FMap α → Nat → α → FMap α
  | [], k, v => [(k, v)]
  | (j, u) :: r, k, v =>
    if k < j then (k, v) :: (j, u) :: r
    else if k = j then (k, v) :: r
    else (j, u) :: finsert r k v

/-- List nothing under a key. -/
def ferase {α : Type} (m : FMap α) (k : Nat) : FMap α := m.filter fun p => p.1 != k

/-- Give a key a value; the default value is not listed. -/
def fset {α : Type} [DecidableEq α] (m : FMap α) (k : Nat) (v d : α) : FMap α :=
  if v = d then ferase m k else finsert m k v

/-- The canonical form of a table of bytes: keys strictly rising, no listed zero. -/
def FMap.wf : FMap Byte → Bool
  | [] => true
  | [(_, v)] => v != 0
  | (j, v) :: (k, u) :: r => v != 0 && j < k && FMap.wf ((k, u) :: r)

/-- The canonical form of home memory. -/
abbrev Memory.wf (m : List Host.Cell) : Bool := FMap.wf m

/-- The n bytes of a number, lowest first (R3). -/
def bytesOf (n v : Nat) : List Byte := (List.range n).map fun i => BitVec.ofNat 8 (v / 2 ^ (8 * i))

/-- The number a byte string holds, lowest byte first (R3). -/
def natOf : List Byte → Nat
  | [] => 0
  | b :: r => b.toNat + 256 * natOf r

/-- n bytes of a byte table from an address on. -/
def readBytes (m : FMap Byte) (a n : Nat) : List Byte := (List.range n).map fun i => fget m (a + i) 0

/-- Write bytes into a byte table from an address on. -/
def writeBytes (m : FMap Byte) (a : Nat) : List Byte → FMap Byte
  | [] => m
  | b :: r => writeBytes (fset m a b 0) (a + 1) r

/-- Replace the first element that satisfies a test. -/
def replaceFirst {α : Type} (p : α → Bool) (f : α → α) : List α → List α
  | [] => []
  | x :: r => if p x then f x :: r else x :: replaceFirst p f r

/-- Remove the first element that satisfies a test. -/
def removeFirst {α : Type} (p : α → Bool) : List α → List α
  | [] => []
  | x :: r => if p x then r else x :: removeFirst p r

/-- Bits `[hi:lo]` of a double, as a number (R2). -/
def bitsOf (v : W64) (hi lo : Nat) : Nat := v.toNat / 2 ^ lo % 2 ^ (hi + 1 - lo)

/-- A double read as a two's-complement number. -/
def sint (v : W64) : Int := v.toInt

/-- The low `n` bits of a number read as two's complement (R8). -/
def sextN (v n : Nat) : Int :=
  let u := v % 2 ^ n
  if 2 * u < 2 ^ n then (u : Int) else (u : Int) - (2 ^ n : Nat)

/-- A number modulo 2^n, as a natural number (R8). -/
def modN (v : Int) (n : Nat) : Nat := (v % ((2 ^ n : Nat) : Int)).toNat

/-- sats of R8: clamp to the signed range of n bits. -/
def satS (v : Int) (n : Nat) : Int :=
  let hi : Int := ((2 ^ (n - 1) : Nat) : Int) - 1
  let lo : Int := -((2 ^ (n - 1) : Nat) : Int)
  if v < lo then lo else if hi < v then hi else v

/-- satn of R8: clamp to the unsigned range of n bits. -/
def satN (v : Int) (n : Nat) : Int :=
  let hi : Int := ((2 ^ n : Nat) : Int) - 1
  if v < 0 then 0 else if hi < v then hi else v

/-- Count the ones among the low n bits. -/
def popCount (v n : Nat) : Nat := ((List.range n).filter fun i => v.testBit i).length

/-- Zero bits above the highest one among n bits; n for zero. -/
def leadingZeros (v n : Nat) : Nat :=
  let u := v % 2 ^ n
  if u = 0 then n else n - 1 - Nat.log2 u

/-- Zero bits below the lowest one among n bits; n for zero. -/
def trailingZeros (v n : Nat) : Nat :=
  ((List.range n).takeWhile fun i => !v.testBit i).length

/-- rne(v / 2^k) of R8: the nearest integer, ties to even. -/
def rneShift (v : Int) (k : Nat) : Int :=
  let d : Int := ((2 ^ k : Nat) : Int)
  let q := v / d
  let r := v % d
  if 2 * r < d then q else if d < 2 * r then q + 1 else if q % 2 = 0 then q else q + 1

end Sys2Proof.Machine
end

