-- ==== Sys2Proof/Machine/Coherence.lean ====
section
/-!
DEFINITION. Lines, words and the Fold: first-level copies, the directory, the transition table of
R225, acquires, releases and the narrow-release marker (R214-R237).
-/
namespace Sys2Proof.Machine
open Sys2Proof

/-! ## Lines and masks -/

/-- The line of an address (R3). -/
def lineOf (pa : Nat) : Nat := pa / 64

/-- The bytes of a set of words. -/
def bytesOfWords (w : BitVec 16) : BitVec 64 :=
  BitVec.ofNat 64 ((List.range 16).foldl (fun acc i => if w.getLsbD i then acc + 15 * 2 ^ (4 * i) else acc) 0)

/-- The words that hold a byte of a set. -/
def wordsTouched (en : BitVec 64) : BitVec 16 :=
  BitVec.ofNat 16 ((List.range 16).foldl (fun acc i => if en.toNat / 2 ^ (4 * i) % 16 != 0 then acc + 2 ^ i else acc) 0)

/-- The words all of whose bytes are in a set. -/
def wordsCovered (en : BitVec 64) : BitVec 16 :=
  BitVec.ofNat 16 ((List.range 16).foldl (fun acc i => if en.toNat / 2 ^ (4 * i) % 16 == 15 then acc + 2 ^ i else acc) 0)

/-- The bits of a set of bytes. -/
def maskOfBytes (en : BitVec 64) : LineData :=
  BitVec.ofNat 512 ((List.range 64).foldl (fun acc i => if en.getLsbD i then acc + 255 * 2 ^ (8 * i) else acc) 0)

/-- `new` in the bytes of a set, `old` elsewhere. -/
def mergeLine (old new : LineData) (en : BitVec 64) : LineData :=
  (old &&& ~~~ maskOfBytes en) ||| (new &&& maskOfBytes en)

/-- The byte set of an access of `n` bytes at offset `off` of its line. -/
def accessBytes (off n : Nat) : BitVec 64 := BitVec.ofNat 64 ((2 ^ n - 1) * 2 ^ off)

/-- A value placed at an offset of a line. -/
def placed (off v : Nat) : LineData := BitVec.ofNat 512 (v * 2 ^ (8 * off))

/-- `n` bytes at offset `off` of a line, as a number. -/
def sliceLine (d : LineData) (off n : Nat) : Nat := d.toNat / 2 ^ (8 * off) % 2 ^ (8 * n)

/-! ## Home memory -/

/-- What home holds for a line. -/
def homeLine (ms : MemSys) (line : Nat) : LineData := BitVec.ofNat 512 (natOf (readBytes ms.cells (line * 64) 64))

/-- The home watchpoints that fire: those of the line's Fold that watch one of the words (R392). -/
def watchersOf (ms : MemSys) (line : Nat) (words : BitVec 16) (rd : Bool) : List HomeWatch :=
  (ms.watch.filter fun w => w.2.line == line && w.1 / 16 == line / 2 ^ 30 % 8 && (w.2.mask &&& words) != 0 && (!rd || w.2.reads)).map (·.2)

/-- Every home watchpoint that watches one of the words appends an entry to the watch ring, with the words it watches of
those applied (R392). -/
def watchApply (ms : MemSys) (line : Nat) (words : BitVec 16) (who : Nat) (notice rd : Bool) : MemSys :=
  if ms.ring.isSome then
    { ms with hits := ms.hits ++ (watchersOf ms line words rd).map fun w =>
        { line := line, words := words &&& w.mask, who := who, notice := notice
          value := if notice then 0 else homeLine ms line &&& maskOfBytes (bytesOfWords (words &&& w.mask)) } }
  else ms

/-! ## Copies and the directory -/

/-- Where the copy of agent `a`, below 32, is listed. -/
def copyKey (a line : Nat) : Nat := 32 * line + a

/-- An agent's copy of a line. The engines, from 32 on, hold none (R214). -/
def findCopy (ms : MemSys) (a line : Nat) : Option CacheLine := if a < 32 then flook ms.lines (copyKey a line) else none

/-- The number of an engine of a stack as a requester at a Fold: 32 and above, with the stack in its low three bits
(R219; log entry 11). -/
def engineNo (k : EngineUnit) (s : Fin 8) : Nat :=
  32 + s.val + 8 * (match k with
    | .shootdown => 0
    | .drover => 1
    | .walker => 2
    | .copy => 3
    | .crook => 4
    | .builder => 5
    | .tile t => 6 + t.val)

/-- The words of an agent's copy that home delivered poisoned (R227). -/
def poisonOf (ms : MemSys) (a line : Nat) : BitVec 16 := fget ms.poison (copyKey a line) 0

/-- Words arrive from home, or are written whole: poisoned as `bad` says, or clean. -/
def setPoison (ms : MemSys) (a line : Nat) (words bad : BitVec 16) : MemSys :=
  { ms with poison := fset ms.poison (copyKey a line) ((poisonOf ms a line &&& ~~~ words) ||| (bad &&& words)) 0 }

def dropCopy (ms : MemSys) (a line : Nat) : MemSys :=
  { ms with lines := ferase ms.lines (copyKey a line), poison := ferase ms.poison (copyKey a line) }

/-- Keep a copy; a T or U copy with nothing left in it is dropped. -/
def putCopy (ms : MemSys) (a line : Nat) (c : CacheLine) : MemSys :=
  if c.mode != .o && c.valid == 0 && c.sdirty == 0 then dropCopy ms a line
  else { ms with lines := finsert ms.lines (copyKey a line) c }

/-- The directory entry of a line, as allocated when there is none (R223). -/
def dirOf (ms : MemSys) (line : Nat) : DirEntry := fget ms.dir line {}

/-- The words of a line that home would deliver poisoned (R227): those of a Fold that holds the line, an owner's dirty
words as the owner has them; all of a line that a DRAM read finds with an uncorrectable word. -/
def homePoison (ms : MemSys) (line : Nat) : BitVec 16 :=
  match flook ms.dir line with
  | some e => match findCopy ms e.own.toNat line with
    | some c => (e.poison &&& ~~~ c.odirty) ||| (poisonOf ms e.own.toNat line &&& c.odirty)
    | none => e.poison
  | none => if ms.bad.any fun w => w / 8 == line then BitVec.allOnes 16 else 0

/-- A line has a word that home would deliver poisoned (R227). -/
def linePoisoned (ms : MemSys) (line : Nat) : Bool := homePoison ms line != 0

/-- The words of the Fold's own copy of a line are poisoned as `bad` says. -/
def setHomePoison (ms : MemSys) (line : Nat) (words bad : BitVec 16) : MemSys :=
  match flook ms.dir line with
  | some e => { ms with dir := finsert ms.dir line { e with poison := (e.poison &&& ~~~ words) ||| (bad &&& words) } }
  | none => ms

/-- The bank column a line lies in: 64·s + t (R205). -/
def lineColumn (line : Nat) : Nat := 64 * (line / 2 ^ 30 % 8) + line / 32 % 64

/-- n more in a column's error count. -/
def countMore (m : FMap Nat) (col n : Nat) : FMap Nat := if n = 0 then m else finsert m col (fget m col 0 + n)

/-- How many words of a list lie in a line. -/
def wordsIn (ws : List Nat) (line : Nat) : Nat := (ws.filter fun w => w / 8 == line).length

/-- A Fold's access to the DRAM for a line: its bank has still to serve it (R273). -/
def dramAccess (ms : MemSys) (line : Nat) : MemSys := { ms with dramWork := ms.dramWork ++ [line] }

/-- A Fold read of the DRAM counts the words of a line that it finds with errors (R291). -/
def countRead (ms : MemSys) (line : Nat) : MemSys :=
  { dramAccess ms line with
    corrected := countMore ms.corrected (lineColumn line) (wordsIn (ms.weak.filter fun w => !ms.bad.contains w) line)
    uncorrectable := countMore ms.uncorrectable (lineColumn line) (wordsIn ms.bad line) }

/-- Keep a directory entry; a line that had none is read from the DRAM, and the Fold keeps it as it was delivered
(R227). -/
def putDir (ms : MemSys) (line : Nat) (e : DirEntry) : MemSys :=
  match flook ms.dir line with
  | some old => { ms with dir := finsert ms.dir line { e with poison := old.poison, changed := old.changed } }
  | none => { countRead ms line with dir := finsert ms.dir line { e with poison := homePoison ms line, changed := false } }

/-- Home reads a line for a request that it answers poisoned (R227); an NC one leaves no entry (R218). -/
def fillLine (ms : MemSys) (line : Nat) (nc : Bool) : MemSys :=
  if (flook ms.dir line).isSome then ms
  else if nc then countRead ms line
  else putDir ms line {}

/-- Whether the Fold that holds a line has bytes for it that the DRAM lacks. -/
def setChanged (ms : MemSys) (line : Nat) (ch : Bool) : MemSys :=
  match flook ms.dir line with
  | some e => { ms with dir := finsert ms.dir line { e with changed := ch } }
  | none => ms

/-- "Apply" of R225: write the enabled bytes at home; a word written whole is clean. -/
def applyHome (ms : MemSys) (line : Nat) (en : BitVec 64) (d : LineData) (who : Nat) : MemSys :=
  watchApply (setChanged (setHomePoison { ms with cells := (List.range 64).foldl (fun c i =>
      if en.getLsbD i then fset c (line * 64 + i) (BitVec.ofNat 8 (d.toNat / 2 ^ (8 * i))) 0 else c) ms.cells } line (wordsCovered en) 0) line
      (en != 0 || (dirOf ms line).changed))
    line (wordsTouched en) who false false

/-- The lines an agent holds sis-dirty bytes in (R229). -/
def sisLines (ms : MemSys) (a : Nat) : List Nat :=
  (ms.lines.filter fun p => p.1 % 32 == a && p.2.sdirty != 0).map fun p => p.1 / 32

/-- The tracked sharers of a line, R left out (R225). -/
def sharersBut (e : DirEntry) (r : Nat) : List Nat :=
  (List.range 17).filter fun k => e.shr.getLsbD k && k != r

/-- Drop the notices of a word set that are still on their way (R232). -/
def dropNotices (ms : MemSys) (a line : Nat) (words : BitVec 16) : MemSys :=
  { ms with notices := ms.notices.filter fun n => !(n.agent == a && n.line == line && words.getLsbD n.word) }

/-- A notice reaches home: OR it into the dirty mask (R221). -/
def deliverNotice (ms : MemSys) (n : Notice) : MemSys :=
  let e := dirOf ms n.line
  if e.own.toNat == n.agent then
    watchApply (putDir ms n.line { e with dirty := e.dirty ||| BitVec.ofNat 16 (2 ^ n.word) })
      n.line (BitVec.ofNat 16 (2 ^ n.word)) n.agent true false
  else ms

/-- Every notice of an agent reaches its home (R229, step 2). -/
def deliverNotices (ms : MemSys) (a : Nat) : MemSys :=
  (ms.notices.filter fun n => n.agent == a).foldl deliverNotice
    { ms with notices := ms.notices.filter fun n => n.agent != a }

/-- The Fold that is home to a line (R3, R205). -/
def foldOf (line : Nat) : Nat := line / 2 ^ 30 % 8

/-- A message of an agent reaches a Fold: its earlier notices to that Fold are there first (R221, R231). -/
def noticesArrive (ms : MemSys) (a line : Nat) : MemSys :=
  (ms.notices.filter fun n => n.agent == a && foldOf n.line == foldOf line).foldl deliverNotice
    { ms with notices := ms.notices.filter fun n => !(n.agent == a && foldOf n.line == foldOf line) }

/-- Words of an owner's copy go home, poisoned ones as such. -/
def returnWords (ms : MemSys) (a line : Nat) (w : BitVec 16) (d : LineData) : MemSys :=
  setHomePoison (applyHome ms line (bytesOfWords w) d a) line w (poisonOf ms a line)

/-- The words of the aligned doubles that hold one of a set. -/
def wholeDoubles (w : BitVec 16) : BitVec 16 := w ||| (w &&& 0x5555) <<< 1 ||| (w &&& 0xAAAA) >>> 1

/-- The owner returns dirty words among `words` and keeps the line (R225); it will send a notice again
when it next marks one of them (R221, R250; log entry 47). With a word it returns the other dirty word of its aligned
double: no request may find half of an aligned 8-byte store at home (R204, R239, R258; DEDUCED, log entry 37). -/
def doPull (ms : MemSys) (a line : Nat) (words : BitVec 16) : MemSys :=
  match findCopy ms a line with
  | some c =>
    let w := c.odirty &&& wholeDoubles words
    let ms := returnWords ms a line w c.data
    let ms := putCopy ms a line { c with odirty := c.odirty &&& ~~~ w, noticed := c.noticed &&& ~~~ w }
    let e := dirOf ms line
    dropNotices (putDir ms line { e with dirty := e.dirty &&& ~~~ (words ||| w) }) a line w
  | none => ms

/-- The owner returns all dirty words and drops the line (R225). -/
def doRecall (ms : MemSys) (a line : Nat) : MemSys :=
  match findCopy ms a line with
  | some c => dropNotices (dropCopy (returnWords ms a line c.odirty c.data) a line) a line (BitVec.allOnes 16)
  | none => ms

/-- A sharer removes the clean words of its copy; sis-dirty bytes stay as U (R222). -/
def doInvalidate (ms : MemSys) (a line : Nat) : MemSys :=
  match findCopy ms a line with
  | some c => if c.mode == .o then ms else setPoison (putCopy ms a line { c with mode := .u, valid := 0 }) a line (BitVec.allOnes 16) 0
  | none => ms

/-- An agent drops the clean copy it has of some words that are about to change at home by its own atomic, so
that no later load of it reads them as they were (R248). -/
def dropWords (ms : MemSys) (a line : Nat) (words : BitVec 16) : MemSys :=
  match findCopy ms a line with
  | some c => if c.mode == .o then ms else putCopy ms a line { c with valid := c.valid &&& ~~~ words }
  | none => ms

/-- The owner applies bytes written at home and keeps the line (R225); a word written whole is no
longer owner-dirty (R232). -/
def doForward (ms : MemSys) (a line : Nat) (en : BitVec 64) (d : LineData) : MemSys :=
  match findCopy ms a line with
  | some c =>
    if c.mode == .o then
      dropNotices (setPoison (putCopy ms a line { c with
          data := mergeLine c.data d en
          odirty := c.odirty &&& ~~~ wordsCovered en
          noticed := c.noticed &&& ~~~ wordsCovered en }) a line (wordsCovered en) 0)
        a line (wordsCovered en)
    else ms
  | none => ms

/-! ## Requests at home (R225) -/

/-- apc of R237. -/
def trainApc (e : DirEntry) (up : Bool) : BitVec 2 :=
  if up then (if e.apc = 3 then 3 else e.apc + 1) else (if e.apc = 0 then 0 else e.apc - 1)

/-- The agent number home records for a requester: 31 for an engine (R214; log entry 11). -/
def recorded (who : Nat) : BitVec 5 := if who < 31 then BitVec.ofNat 5 who else 31

/-- The new value an atomic writes, given the old one, or none (R238, R240). -/
def atomNew (n old : Nat) : AtomOp → Option Nat
  | .amo op v =>
    let w := 8 * n
    let v := v.toNat % 2 ^ w
    some (match op with
      | .swap => v
      | .add => (old + v) % 2 ^ w
      | .and => old &&& v
      | .or => old ||| v
      | .xor => old ^^^ v
      | .min => if sextN old w ≤ sextN v w then old else v
      | .max => if sextN old w ≤ sextN v w then v else old
      | .minn => Nat.min old v
      | .maxn => Nat.max old v)
  | .cas e new => if old = e.toNat % 2 ^ (8 * n) then some (new.toNat % 2 ^ (8 * n)) else none

/-- The pull a Far needs of the owner of its word: of a word home knows to be dirty, and of one whose notice is
still on its way, so that atomics stay atomic toward what the owner has done (R225, R234; log entry 37). -/
def farPulls (ms : MemSys) (line off n : Nat) : List HomeMsg :=
  let e := dirOf ms line
  let o := e.own.toNat
  let w := wordsTouched (accessBytes off n)
  if o != 31 && ((e.dirty &&& w) != 0 || ms.notices.any fun n => n.agent == o && n.line == line && w.getLsbD n.word) then [.pull o w] else []

/-- What home must ask of other agents before it acts on a request (R225). A CAS that does not match asks nothing
of the sharers: its effect at home is a read's (R240). -/
def homeAsks (ms : MemSys) (who line : Nat) (k : ReqKind) : List HomeMsg :=
  let e := dirOf ms line
  let o := e.own.toNat
  match k with
  | .getS => if o != 31 && o != who then [.pull o (BitVec.allOnes 16)] else []
  | .getO _ => if o != 31 then (if o == who then [] else [.recall o]) else (sharersBut e who).map .inv
  | .read w => if o != 31 && o != who && (e.dirty &&& w) != 0 then [.pull o (e.dirty &&& w)] else []
  | .write en _ =>
    if o == 31 then (sharersBut e who).map .inv
    else if o != who && (e.dirty &&& wordsTouched en) != 0 then [.pull o (e.dirty &&& wordsTouched en)] else []
  | .far off n op => farPulls ms line off n ++
      if o == 31 && (atomNew n (sliceLine (homeLine ms line) off n) op).isSome then (sharersBut e 99).map .inv else []
  | .marker => []

/-- An agent answers a message of home, its earlier notices ahead of the answer (R221, R231); a forwarded word's
own notice is ignored (R232). Publishing is `forcePublish` below. -/
def answerAsk (line : Nat) (ms : MemSys) : HomeMsg → MemSys
  | .inv a => doInvalidate (noticesArrive ms a line) a line
  | .pull a w => doPull (noticesArrive ms a line) a line w
  | .recall a => doRecall (noticesArrive ms a line) a line
  | .fwd a en d => noticesArrive (doForward ms a line en d) a line
  | .publish _ => ms

/-- The copy a GetS gives an agent: T, or still U where it holds sis-dirty bytes (R220). -/
def installShared (ms : MemSys) (who line : Nat) : MemSys :=
  let d := homeLine ms line
  let own := match findCopy ms who line with
    | some c => wordsCovered c.sdirty
    | none => 0
  setPoison (match findCopy ms who line with
  | some c =>
    if c.sdirty != 0 then putCopy ms who line { c with mode := .u, valid := BitVec.allOnes 16, data := mergeLine d c.data c.sdirty }
    else putCopy ms who line ⟨.t, BitVec.allOnes 16, 0, 0, 0, d⟩
  | none => putCopy ms who line ⟨.t, BitVec.allOnes 16, 0, 0, 0, d⟩) who line (BitVec.allOnes 16) (homePoison ms line &&& ~~~ own)

/-- The notices of a set of words, oldest last in the list of those on their way (R221). -/
def sendNotices (ms : MemSys) (a line : Nat) (words : BitVec 16) : MemSys :=
  { ms with notices := ms.notices ++ ((List.range 16).filter fun i => words.getLsbD i).map fun i => ⟨a, line, i⟩ }

/-- The copy a GetO gives an agent: O, its sis-dirty bytes laid over home's data, whose words become
owner-dirty with their notices sent (R220). -/
def installOwned (ms : MemSys) (who line : Nat) : MemSys :=
  let d := homeLine ms line
  let own := match findCopy ms who line with
    | some c => wordsCovered c.sdirty
    | none => 0
  setPoison (match findCopy ms who line with
  | some c =>
    let w := wordsTouched c.sdirty
    sendNotices (putCopy ms who line ⟨.o, BitVec.allOnes 16, w, w, 0, mergeLine d c.data c.sdirty⟩) who line w
  | none => putCopy ms who line ⟨.o, BitVec.allOnes 16, 0, 0, 0, d⟩) who line (BitVec.allOnes 16) (homePoison ms line &&& ~~~ own)

/-- A Far performed at home: the new value of the word, if it has one, is written and, with an owner, forwarded;
the counts of R237 are trained. -/
def farAct (ms : MemSys) (who line off n : Nat) (new : Option Nat) : MemSys × List HomeMsg :=
  let e := dirOf ms line
  let o := e.own.toNat
  let e := { e with apc := trainApc e (e.la != recorded who), la := recorded who }
  match new with
  | some v =>
    let ms := applyHome (putDir ms line e) line (accessBytes off n) (placed off v) who
    (putDir ms line { e with shr := if o == 31 then 0 else e.shr },
      if o == 31 then [] else [.fwd o (accessBytes off n) (placed off v)])
  | none => (putDir ms line e, [])

/-- Home's own part of a request once every ask is acknowledged (R225), and the forward then due. -/
def homeAct (ms : MemSys) (who line : Nat) (k : ReqKind) : MemSys × List HomeMsg :=
  let e := dirOf ms line
  let o := e.own.toNat
  match k with
  | .getS =>
    let ms := if o != 31 && o != who then
        let ms := match findCopy ms o line with
          | some c => putCopy ms o line { c with mode := .t, odirty := 0, noticed := 0 }
          | none => ms
        putDir ms line { e with own := 31, dirty := 0, shr := BitVec.ofNat 17 (2 ^ o ||| 2 ^ who) }
      else putDir ms line { e with shr := e.shr ||| BitVec.ofNat 17 (2 ^ who) }
    (installShared ms who line, [])
  | .getO atomic =>
    let e := if atomic then { e with apc := trainApc e (o != 31 && o != who) } else e
    (installOwned (putDir ms line { e with la := recorded who, own := BitVec.ofNat 5 who, shr := 0, dirty := 0 }) who line, [])
  | .read w => (watchApply (putDir ms line e) line w who false true, [])
  | .write en d =>
    -- a line that the Fold does not hold is read from the DRAM first (R227)
    let ms := applyHome (putDir ms line e) line en d who
    if o == 31 then (putDir ms line { e with shr := e.shr &&& BitVec.ofNat 17 (2 ^ who) }, [])
    else if o == who then (putDir ms line { e with dirty := e.dirty &&& ~~~ wordsCovered en }, [])
    else (putDir ms line e, [.fwd o en d])
  | .far off n op => farAct ms who line off n (atomNew n (sliceLine (homeLine ms line) off n) op)
  | .marker => (putDir ms line { e with nr := recorded who }, [])

/-- A request from arrival to completion, every ask answered and every forward acknowledged (R225,
R226). -/
def runReq (ms : MemSys) (who line : Nat) (k : ReqKind) : MemSys :=
  let ms := noticesArrive ms who line
  let ms := (homeAsks ms who line k).foldl (answerAsk line) ms
  let r := homeAct ms who line k
  r.2.foldl (answerAsk line) r.1

/-- What an NC request has done at a home that holds the line: what it wrote, it writes to the DRAM too, which lacks then what
it lacked before, and the words that were pulled (R218). -/
def ncThrough (old ms : MemSys) (line : Nat) (wrote pulled : Bool) : MemSys :=
  if wrote then setChanged (dramAccess ms line) line ((dirOf old line).changed || pulled) else ms

/-- A Read or Write that is NC: home allocates no entry for a line it does not hold (R218, R227). -/
def runReqNc (ms : MemSys) (who line : Nat) (k : ReqKind) : MemSys :=
  match flook ms.dir line with
  | some _ =>
    ncThrough ms (runReq ms who line k) line (k matches .write ..)
      ((homeAsks (noticesArrive ms who line) who line k).any fun m => m matches .pull ..)
  | none =>
    let ms := runReq ms who line k
    { ms with dir := ferase ms.dir line }

/-! ## Publishing (R229, R230) and requests already under way (R226, R231)

A Write or a Marker of a line waits, like any request, for what is under way on that line. `dr` is the operation
that ends it; below it is `drainLine`. -/

/-- Publish an agent's sis-dirty bytes of one line as a Write (R229). -/
def publishLine (dr : MemSys → Nat → MemSys) (a : Nat) (ms : MemSys) (line : Nat) : MemSys :=
  let ms := dr ms line
  match findCopy ms a line with
  | some c =>
    if c.sdirty == 0 then ms
    else
      let ms := runReq ms a line (.write c.sdirty c.data)
      match findCopy ms a line with
      | some c' => putCopy ms a line { c' with sdirty := 0 }
      | none => ms
  | none => ms

/-- The lines on which a request of an agent is under way. -/
def pendingLines (ms : MemSys) (a : Nat) : List Nat := (ms.reqs.filter fun r => r.who == a).map fun r => r.line

/-- What an agent has asked and noticed is acknowledged: its requests under way end, and then its notices arrive, those
too that a request of its own sent as it ended (R229, step 2). -/
def settleAgent (dr : MemSys → Nat → MemSys) (ms : MemSys) (a : Nat) : MemSys :=
  deliverNotices ((pendingLines ms a).foldl dr ms) a

/-- Publish every sis-dirty byte of an agent, line by line (R229, step 1). -/
def publishLines (dr : MemSys → Nat → MemSys) (ms : MemSys) (a : Nat) : MemSys := (sisLines ms a).foldl (publishLine dr a) ms

/-- Publish every sis-dirty byte of an agent, once its notices and its earlier requests are acknowledged (R229,
R252). -/
def publishAll (dr : MemSys → Nat → MemSys) (ms : MemSys) (a : Nat) : MemSys := publishLines dr (settleAgent dr ms a) a

/-- No line of a list carries a marker. -/
def unmark (ms : MemSys) (ls : List Nat) : MemSys :=
  { ms with dir := ms.dir.map fun p => (p.1, if ls.contains p.1 then { p.2 with nr := 31 } else p.2) }

/-- The forced publish of an agent: its sis-dirty bytes go home, and the lines they touch carry no marker after
(R230). -/
def forcedPublishBy (dr : MemSys → Nat → MemSys) (ms : MemSys) (a : Nat) : MemSys :=
  let ms := settleAgent dr ms a
  unmark (publishLines dr ms a) (sisLines ms a)

/-- Answer every ask of a request under way and finish it; what home asks once a publish it forced is complete it
asks then. -/
def finishReq (dr : MemSys → Nat → MemSys) (ms : MemSys) (r : HomeReq) : MemSys :=
  let ms := r.asks.foldl (fun ms m => match m with
    | .publish a =>
      let ms := forcedPublishBy dr ms a
      (homeAsks ms r.who r.line r.kind).foldl (answerAsk r.line) ms
    | m => answerAsk r.line ms m) ms
  if r.applied then ms else
    let p := homeAct ms r.who r.line r.kind
    p.2.foldl (answerAsk r.line) p.1

/-- End what is under way on a line, oldest first, unless it is one of the lines being ended already. -/
def drainN : Nat → List Nat → MemSys → Nat → MemSys
  | 0, _, ms, _ => ms
  | n + 1, busy, ms, line =>
    if busy.contains line then ms
    else match ms.reqs.find? fun r => r.line == line with
      | none => ms
      | some r =>
        let ms := { ms with reqs := removeFirst (fun r => r.line == line) ms.reqs }
        drainN n busy (finishReq (drainN n (line :: busy)) ms r) line

/-- Later requests for a busy line wait: what is under way on a line ends first (R231). -/
def drainLine (ms : MemSys) (line : Nat) : MemSys := drainN ms.reqs.length [] ms line

/-- The forced publish of an agent for a request on a line, which stays as it is (R230). -/
def forcedPublishOf (ms : MemSys) (a line : Nat) : MemSys :=
  forcedPublishBy (fun m l => drainN m.reqs.length [line] m l) ms a

/-- Before home answers an acquiring request of `who` to a line whose marker names another agent, it
forces that agent's publish (R230). -/
def forcePublish (ms : MemSys) (who line : Nat) : MemSys :=
  let n := (dirOf ms line).nr.toNat
  if n != 31 && n != who then forcedPublishOf ms n line else ms

/-! ## Acquires and releases (R228, R229) -/

/-- Clear the markers that name an agent. -/
def clearMarkers (ms : MemSys) (a : Nat) : MemSys :=
  { ms with dir := ms.dir.map fun p => (p.1, if p.2.nr.toNat == a then { p.2 with nr := 31 } else p.2) }

/-- A release at .stack or wider (R229). -/
def releaseWide (ms : MemSys) (a : Nat) : MemSys := clearMarkers (publishAll drainLine ms a) a

/-- Set the marker of a line, forcing another agent's publish first (R229). -/
def markLine (a : Nat) (ms : MemSys) (line : Nat) : MemSys := runReq (forcePublish (drainLine ms line) a line) a line .marker

/-- A release at .hart or .svp: a Marker for every line with sis-dirty bytes (R229). -/
def releaseNarrow (ms : MemSys) (a : Nat) : MemSys := (sisLines ms a).foldl (markLine a) ms

/-- Scopes of .stack and wider (R228, R229). -/
def scopeWide : Scope → Bool
  | .stack | .pkg | .sys => true
  | _ => false

/-- An agent holds sis-dirty bytes of a line. -/
def hasSisDirty (ms : MemSys) (a line : Nat) : Bool :=
  match findCopy ms a line with
  | some c => c.sdirty != 0
  | none => false

/-- A release of an agent at a scope (R229); nothing for plain. -/
def releaseAt (ms : MemSys) (a : Nat) (s : Scope) : MemSys :=
  if scopeWide s then releaseWide ms a else if s == .plain then ms else releaseNarrow ms a

/-- At .stack or wider the clean words of every U line of an agent go (R228). -/
def dropClean (ms : MemSys) (a : Nat) (s : Scope) : MemSys :=
  if scopeWide s then
    { ms with
      lines := (ms.lines.map fun p =>
        if p.1 % 32 == a && p.2.mode == .u then (p.1, { p.2 with valid := 0 }) else p).filter fun p =>
          !(p.1 % 32 == a && (flook ms.lines p.1).all fun c => c.mode == .u && c.sdirty == 0)
      poison := ms.poison.filter fun p => !(p.1 % 32 == a && ((flook ms.lines p.1).all fun c => c.mode == .u)) }
  else ms

/-- An acquire of an agent at a scope (R228); nothing for plain. What the agent has asked and noticed is acknowledged
first, so that no reader elsewhere misses a write that a load of this agent has read from its own copy (R257; DEDUCED, log
entry 47). -/
def acquireAt (ms : MemSys) (a : Nat) (s : Scope) : MemSys :=
  if s == .plain then ms else dropClean (settleAgent drainLine ms a) a s

/-- A full fence of an agent: a release and an acquire (R265). What the acquire waits for is acknowledged before the
release, which asks for nothing that stays under way. -/
def fenceAt (ms : MemSys) (a : Nat) (s : Scope) : MemSys :=
  if s == .plain then ms else dropClean (releaseAt (settleAgent drainLine ms a) a s) a s

/-! ## Requests as steps of their own (R226, R231) -/

/-- What home asks first for a request that arrives as a step of its own: the forced publish, for an acquiring
request and for a Marker (R229, R230), or else what R225 gives. -/
def asksFor (ms : MemSys) (who line : Nat) (k : ReqKind) (acq : Bool) : List HomeMsg :=
  let n := (dirOf ms line).nr.toNat
  if (acq || k matches .marker) && n != 31 && n != who then [.publish n] else homeAsks ms who line k

/-- A request arrives as a step of its own: it completes at once, or it waits for what it asked. -/
def arriveReq (ms : MemSys) (who line : Nat) (k : ReqKind) (acq : Bool) : MemSys :=
  let ms := noticesArrive (drainLine ms line) who line
  let asks := asksFor ms who line k acq
  if asks.isEmpty then
    let p := homeAct ms who line k
    if p.2.isEmpty then p.1 else { p.1 with reqs := p.1.reqs ++ [⟨who, line, k, p.2, true⟩] }
  else { ms with reqs := ms.reqs ++ [⟨who, line, k, asks, false⟩] }

/-- A request whose asks are all acknowledged goes on: home acts, or the request is complete. -/
def settleReqs (ms : MemSys) : MemSys :=
  match ms.reqs.find? (fun r => r.asks.isEmpty) with
  | none => ms
  | some r =>
    let ms := { ms with reqs := removeFirst (fun r => r.asks.isEmpty) ms.reqs }
    if r.applied then ms else
      let p := homeAct ms r.who r.line r.kind
      if p.2.isEmpty then p.1 else { p.1 with reqs := p.1.reqs ++ [⟨r.who, r.line, r.kind, p.2, true⟩] }

/-- An agent answers the ask of a request under way on a line that a test picks. -/
def answerReq (ms : MemSys) (line : Nat) (p : HomeMsg → Bool) : MemSys :=
  match ms.reqs.find? (fun r => r.line == line && r.asks.any p) with
  | none => ms
  | some r =>
    match r.asks.find? p with
    | none => ms
    | some m =>
      let strike := fun (r : HomeReq) => { r with asks := removeFirst p r.asks }
      let ms := { ms with reqs := replaceFirst (fun r => r.line == line && r.asks.any p) strike ms.reqs }
      settleReqs (match m with
        | .publish a =>
          let ms := forcedPublishOf ms a line
          let more := homeAsks ms r.who line r.kind
          { ms with reqs := replaceFirst (fun r => r.line == line) (fun r => { r with asks := more }) ms.reqs }
        | m => answerAsk line ms m)

/-! ## Accesses of an agent -/

/-- Every byte of an access can be read from a copy. -/
def copyHolds (c : CacheLine) (en : BitVec 64) : Bool :=
  c.mode == .o || ((bytesOfWords c.valid ||| c.sdirty) &&& en) == en

/-- What an agent reads of a line: home's bytes under its own sis-dirty ones (R239). -/
def overlaid (ms : MemSys) (a line : Nat) : LineData :=
  match findCopy ms a line with
  | some c => if c.mode == .o then c.data else mergeLine (homeLine ms line) c.data c.sdirty
  | none => homeLine ms line

/-- Keep the words a Read delivered as a U copy (R220). -/
def installRead (ms : MemSys) (a line : Nat) (words : BitVec 16) : MemSys :=
  match findCopy ms a line with
  | some c =>
    if c.mode == .u then
      setPoison (putCopy ms a line { c with
        valid := c.valid ||| words
        data := mergeLine c.data (homeLine ms line) (bytesOfWords words &&& ~~~ c.sdirty) }) a line words (homePoison ms line &&& ~~~ wordsCovered c.sdirty)
    else ms
  | none =>
    setPoison (putCopy ms a line ⟨.u, words, 0, 0, 0, homeLine ms line &&& maskOfBytes (bytesOfWords words)⟩) a line words (homePoison ms line)

/-- A load of a policy is served by the copy without asking home (R217, R225, R228). -/
def loadHits (c : CacheLine) (en : BitVec 64) (p : EffPol) (acq : Bool) : Bool :=
  c.mode == .o || (copyHolds c en && ((c.mode == .t && (p == .wis || acq) && p != .own) || (p == .sis && !acq)))

/-- Bring a line into the state a load of a policy needs; `acq` marks an acquiring request (R217,
R220, R225, R228, R230). -/
def loadLine (ms : MemSys) (a line : Nat) (en : BitVec 64) (p : EffPol) (acq : Bool) : MemSys :=
  let ms := drainLine ms line
  let w := wordsTouched en
  match findCopy ms a line with
  | some c =>
    if loadHits c en p acq then ms
    else
      let ms := if acq then forcePublish ms a line else ms
      match p with
      | .own => runReq ms a line (.getO false)
      | .wis => runReq ms a line .getS
      | .nc => runReqNc ms a line (.read w)
      | _ => installRead (runReq ms a line (.read w)) a line w
  | none =>
    let ms := if acq then forcePublish ms a line else ms
    match p with
    | .own => runReq ms a line (.getO false)
    | .wis => runReq ms a line .getS
    | .nc => runReqNc ms a line (.read w)
    | _ => installRead (runReq ms a line (.read w)) a line w

/-- The value of a load, its line being in place, comes from the copy (R217, R228, R233). -/
def copyServes (ms : MemSys) (a line : Nat) (en : BitVec 64) (p : EffPol) (acq : Bool) : Bool :=
  match findCopy ms a line with
  | some c => c.mode == .o || ((p == .sis || p == .wis || c.mode == .t) && !(acq && c.mode == .u) && copyHolds c en)
  | none => false

/-- The value a load returns once its line is in place: from the copy where it serves the access,
from home under the agent's sis-dirty bytes otherwise (R233, R239). -/
def loadedValue (ms : MemSys) (a pa n : Nat) (p : EffPol) (acq : Bool) : Nat :=
  let off := pa % 64
  match findCopy ms a (lineOf pa) with
  | some c =>
    if copyServes ms a (lineOf pa) (accessBytes off n) p acq then sliceLine c.data off n
    else sliceLine (overlaid ms a (lineOf pa)) off n
  | none => sliceLine (homeLine ms (lineOf pa)) off n

/-- A load of an agent: `n` bytes that lie in one line (R239). -/
def agentLoad (ms : MemSys) (a pa n : Nat) (p : EffPol) (acq : Bool) : MemSys × Nat :=
  let ms := loadLine ms a (lineOf pa) (accessBytes (pa % 64) n) p acq
  (ms, loadedValue ms a pa n p acq)

/-- Write into an owned line: the words become owner-dirty, with a notice the first time (R220, R221). -/
def writeOwned (ms : MemSys) (a line : Nat) (en : BitVec 64) (d : LineData) : MemSys :=
  match findCopy ms a line with
  | some c =>
    let w := wordsTouched en
    setPoison (sendNotices (putCopy ms a line { c with data := mergeLine c.data d en, odirty := c.odirty ||| w, noticed := c.noticed ||| w })
      a line (w &&& ~~~ c.noticed)) a line (wordsCovered en) 0
  | none => ms

/-- The requester's own copy takes the bytes of its Write and keeps its mode (R220): they go home, so a word
written whole is not owner-dirty, and no byte of it is sis-dirty any more (DESIGN CHOICE, log entry 53). -/
def ownCopyTakes (ms : MemSys) (a line : Nat) (en : BitVec 64) (d : LineData) : MemSys :=
  match findCopy ms a line with
  | some c => dropNotices (setPoison (putCopy ms a line { c with
      data := mergeLine c.data d en
      sdirty := c.sdirty &&& ~~~ en
      odirty := c.odirty &&& ~~~ wordsCovered en
      noticed := c.noticed &&& ~~~ wordsCovered en }) a line (wordsCovered en) 0) a line (wordsCovered en)
  | none => ms

/-- Home has the whole words of a Write: the owner will give notice again when it next marks one (log entry 47). -/
def forgetNotices (ms : MemSys) (a line : Nat) (words : BitVec 16) : MemSys :=
  match findCopy ms a line with
  | some c => putCopy ms a line { c with noticed := c.noticed &&& ~~~ words }
  | none => ms

/-- A Write of an agent. An owned line under any policy but .wt has its words marked owner-dirty besides (R220). -/
def writeThrough (ms : MemSys) (a line : Nat) (en : BitVec 64) (d : LineData) (p : EffPol) : MemSys :=
  let owned : Bool := match findCopy ms a line with
    | some c => c.mode == .o && p != .wt
    | none => false
  let ms := if owned then writeOwned ms a line en d else ownCopyTakes ms a line en d
  let ms := if p == .nc then runReqNc ms a line (.write en d) else runReq ms a line (.write en d)
  if owned then forgetNotices ms a line (wordsCovered en) else ms

/-- A store under .sis: the bytes become sis-dirty in a U line, or owner-dirty in an owned one (R220). -/
def writeSis (ms : MemSys) (a line : Nat) (en : BitVec 64) (d : LineData) : MemSys :=
  match findCopy ms a line with
  | some c =>
    if c.mode == .o then writeOwned ms a line en d
    else setPoison (putCopy ms a line { c with mode := .u, sdirty := c.sdirty ||| en, data := mergeLine c.data d en }) a line (wordsCovered en) 0
  | none => putCopy ms a line ⟨.u, 0, 0, 0, en, d &&& maskOfBytes en⟩

/-- A store of an agent into one line (R220, R239). -/
def agentStore (ms : MemSys) (a pa n v : Nat) (p : EffPol) : MemSys :=
  let line := lineOf pa
  let en := accessBytes (pa % 64) n
  let d := placed (pa % 64) (v % 2 ^ (8 * n))
  let ms := drainLine ms line
  match p with
  | .own =>
    let ms := match findCopy ms a line with
      | some c => if c.mode == .o then ms else runReq ms a line (.getO false)
      | none => runReq ms a line (.getO false)
    writeOwned ms a line en d
  | .sis => writeSis ms a line en d
  | .wt | .wis | .nc => writeThrough ms a line en d p

/-- A whole Far at home on a drained line: the requester's earlier notices are there, the owner returns the word,
the sharers and the requester's own clean copy of it go, and the value f gives, if any, is written (R225, R231,
R248). The new state and the old value. -/
def farPerform (ms : MemSys) (who line off n : Nat) (f : Nat → Option Nat) : MemSys × Nat :=
  let w := wordsTouched (accessBytes off n)
  let ms := noticesArrive ms who line
  let ms := (farPulls ms line off n).foldl (answerAsk line) ms
  let old := sliceLine (homeLine ms line) off n
  let e := dirOf ms line
  let ms := if e.own.toNat == 31 && (f old).isSome then ((sharersBut e 99).map HomeMsg.inv).foldl (answerAsk line) ms else ms
  let r := farAct ms who line off n (f old)
  (dropWords (r.2.foldl (answerAsk line) r.1) who line w, old)

/-- An NC Far (R218, R236): home allocates no entry for a line it does not hold. -/
def farNc (ms : MemSys) (who line off n : Nat) (f : Nat → Option Nat) (nc : Bool) : MemSys × Nat :=
  let r := farPerform ms who line off n f
  if !nc then r
  else if (flook ms.dir line).isNone then ({ r.1 with dir := ferase r.1.dir line }, r.2)
  else (ncThrough ms r.1 line (f r.2).isSome !(farPulls (noticesArrive ms who line) line off n).isEmpty, r.2)

/-- An atomic of an agent, near or far (R236, R237, R240): the new state and the old value. `seen` lays over the
word what only the atomic's own hart sees of it: its buffered bytes (R248). -/
def agentAtomic (ms : MemSys) (a pa n : Nat) (op : AtomOp) (pl : Place) (p : EffPol) (acq : Bool) (seen : Nat → Nat) : MemSys × Nat :=
  let line := lineOf pa
  let off := pa % 64
  let ms := drainLine ms line
  let owned := match findCopy ms a line with
    | some c => c.mode == .o
    | none => false
  let near := p != .nc && (match pl with
    | .near => true
    | .far => false
    | .auto => owned || (dirOf ms line).apc.toNat ≤ 1)
  if near then
    let ms := if owned then ms else runReq (if acq then forcePublish ms a line else ms) a line (.getO true)
    let old := seen (sliceLine (overlaid ms a line) off n)
    match atomNew n old op with
    | some new => (writeOwned ms a line (accessBytes off n) (placed off new), old)
    | none => (ms, old)
  else
    -- an agent's own sis-dirty bytes of the word reach home before its atomic does (R248)
    let ms := match findCopy ms a line with
      | some c => if (c.sdirty &&& accessBytes off n) != 0 then publishLine drainLine a ms line else ms
      | none => ms
    let ms := if acq then forcePublish ms a line else ms
    let r := farNc ms a line off n (fun old => atomNew n (seen old) op) (p == .nc)
    (r.1, seen r.2)

/-! ## Accesses of engines and the host (R219) -/

/-- The pieces of a byte range that lie in one line each: address and length. -/
def linePieces (pa : Nat) : Nat → Nat → List (Nat × Nat)
  | 0, _ => []
  | _, 0 => []
  | fuel + 1, n =>
    let k := Nat.min n (64 - pa % 64)
    (pa, k) :: linePieces (pa + k) fuel (n - k)

/-- The pieces of a range of `n` bytes. -/
def piecesOf (pa n : Nat) : List (Nat × Nat) := linePieces pa (n / 64 + 2) n

/-- A request that is NC, or is not (R218). -/
def runReqAs (nc : Bool) (ms : MemSys) (who line : Nat) (k : ReqKind) : MemSys :=
  if nc then runReqNc ms who line k else runReq ms who line k

/-- A Read of an engine or of the host, byte range of any length (R219): the bytes at home once dirty
words have been pulled. -/
def engineRead (ms : MemSys) (who pa n : Nat) (nc : Bool := false) : MemSys × List Byte :=
  let ms := (piecesOf pa n).foldl (fun ms p =>
    let ms := drainLine ms (lineOf p.1)
    runReqAs nc ms who (lineOf p.1) (.read (wordsTouched (accessBytes (p.1 % 64) p.2)))) ms
  (ms, readBytes ms.cells pa n)

/-- A Write of an engine or of the host (R219); a requester that holds a copy keeps it, with the bytes (R226). -/
def engineWrite (ms : MemSys) (who pa : Nat) (bs : List Byte) (nc : Bool := false) : MemSys :=
  (piecesOf pa bs.length).foldl (fun ms p =>
    let ms := drainLine ms (lineOf p.1)
    let chunk := (bs.drop (p.1 - pa)).take p.2
    let en := accessBytes (p.1 % 64) p.2
    let d := placed (p.1 % 64) (natOf chunk)
    runReqAs nc (ownCopyTakes ms who (lineOf p.1) en d) who (lineOf p.1) (.write en d)) ms

/-- A change of `n` bytes of one line made as one Far at home (R262, R268, R328): dirty words are
pulled, sharers invalidated, an owner takes the new bytes. Home takes a line it does not hold into the Fold unless the
update is NC (R218). The new state and the old value. -/
def farUpdate (ms : MemSys) (who pa n : Nat) (f : Nat → Nat) (nc : Bool := false) : MemSys × Nat :=
  farNc (drainLine ms (lineOf pa)) who (lineOf pa) (pa % 64) n (fun old => some (f old % 2 ^ (8 * n))) nc

/-- What a read at home gives after pulling an owner's dirty words, made as an acquiring request when
`acq` (R267), and as NC through an NC page (R217, R218). -/
def homeRead (ms : MemSys) (who pa n : Nat) (acq : Bool) (nc : Bool := false) : MemSys × List Byte :=
  let ms := drainLine ms (lineOf pa)
  engineRead (if acq then forcePublish ms who (lineOf pa) else ms) who pa n nc

/-- A fetch of an agent: from a line that it owns, else a Read at home whose words it keeps no copy of (R77, R225), NC
through an NC page (R218, R227). -/
def agentFetch (ms : MemSys) (a pa n : Nat) (nc : Bool) : MemSys × Nat :=
  let line := lineOf pa
  let ms := drainLine ms line
  let owned : Bool := match findCopy ms a line with
    | some c => c.mode == .o
    | none => false
  let ms := if owned then ms else runReqAs nc ms a line (.read (wordsTouched (accessBytes (pa % 64) n)))
  (ms, loadedValue ms a pa n .nc false)

/-- The line of a piece is a poisoned line (R227): an engine or the host that reads there gets no byte of it, whichever word
is the bad one (log entry 40). -/
def piecePoisoned (ms : MemSys) (p : Nat × Nat) : Bool := linePoisoned ms (lineOf p.1)

/-- Home reads the first poisoned line of some pieces for a request that it answers poisoned (R227). -/
def meetPoison (ms : MemSys) (ps : List (Nat × Nat)) (nc : Bool := false) : MemSys :=
  match ps.find? (piecePoisoned ms) with
  | some p => fillLine (drainLine ms (lineOf p.1)) (lineOf p.1) nc
  | none => ms

/-- An atomic of an agent meets a poisoned word: in a line it owns, else at home (R227, R236). -/
def atomicPoisoned (ms : MemSys) (a pa n : Nat) : Bool :=
  let bad := match findCopy ms a (lineOf pa) with
    | some c => if c.mode == .o then poisonOf ms a (lineOf pa) else homePoison ms (lineOf pa)
    | none => homePoison ms (lineOf pa)
  (bad &&& wordsTouched (accessBytes (pa % 64) n)) != 0

/-- The entries that a watch ring has gained by accesses through a queue pair name it (R392). -/
def tagQp (old ms : MemSys) (who qp : Nat) : MemSys :=
  { ms with hits := ms.hits.take old.hits.length ++
      (ms.hits.drop old.hits.length).map fun h => if h.who == who && !h.notice then { h with qp := some qp } else h }

/-- The entries that a watch ring has gained by writes of an engine name the ASID of the engine's write (R392). -/
def tagHits (old ms : MemSys) (who : Nat) (asid : BitVec 14) : MemSys :=
  { ms with hits := ms.hits.take old.hits.length ++
      (ms.hits.drop old.hits.length).map fun h => if h.who == who && !h.notice then { h with asid := some asid } else h }

/-! ## Evictions (R216, R222, R225) -/

/-- An owner returns its dirty words and drops the line (PutO of R225), its earlier notices ahead (R221). -/
def doPutO (ms : MemSys) (a line : Nat) : MemSys :=
  match findCopy ms a line with
  | some c =>
    if c.mode == .o then
      let ms := noticesArrive ms a line
      let ms := dropCopy (returnWords ms a line c.odirty c.data) a line
      let e := dirOf ms line
      putDir ms line { e with own := 31, dirty := 0 }
    else ms
  | none => ms

/-- A first-level cache evicts a line: PutO, or publish and drop (R222). -/
def evictCopy (ms : MemSys) (a line : Nat) : MemSys :=
  let ms := drainLine ms line
  match findCopy ms a line with
  | some c => if c.mode == .o then doPutO ms a line else dropCopy (publishLine drainLine a ms line) a line
  | none => ms

/-- The entry of a line goes; what the DRAM lacks of it is written back (R216, R273). -/
def dropEntry (ms : MemSys) (line : Nat) : MemSys :=
  { (if (dirOf ms line).changed then dramAccess ms line else ms) with dir := ferase ms.dir line }

/-- A Fold evicts a line (R216): the owner's copy comes back, tracked sharers are invalidated, the
marker rule is applied (R230), and the entry goes. -/
def evictHome (ms : MemSys) (line : Nat) : MemSys :=
  let ms := forcePublish (drainLine ms line) 99 line
  let e := dirOf ms line
  let ms := if e.own.toNat == 31 then ms else answerAsk line ms (.recall e.own.toNat)
  dropEntry (((sharersBut e 99).map HomeMsg.inv).foldl (answerAsk line) ms) line

/-! ## Sizes (R16, R21, R214, R246) -/

/-- The lines an agent's copy store has: 256 KiB, 32 KiB or 1 MiB (R214). -/
def copyPlaces (a : Nat) : Nat := if a < 8 then 4096 else if a < 16 then 512 else 16384

/-- The lines a Fold's cache has: 32 MiB (R216, R246). -/
def foldPlaces : Nat := 524288

/-- The lines an agent holds, lowest first. -/
def heldLines (ms : MemSys) (a : Nat) : List Nat := (ms.lines.filter fun p => p.1 % 32 == a).map fun p => p.1 / 32

/-- The lines of a Fold, lowest first. -/
def foldLines (ms : MemSys) (k : Nat) : List Nat := (ms.dir.filter fun p => foldOf p.1 == k).map fun p => p.1

/-- An agent evicts what its store has no place for (R222; which lines is log entry 49). -/
def trimCopies (ms : MemSys) (a : Nat) : MemSys :=
  let ls := heldLines ms a
  (ls.take (ls.length - copyPlaces a)).foldl (fun ms l => evictCopy ms a l) ms

/-- A Fold evicts what its cache has no place for (R216; log entry 49). An eviction may force a publish, whose
Writes take places of their own, so it looks again, at most as often as there are lines to publish. -/
def trimFold : Nat → MemSys → Nat → MemSys
  | 0, ms, _ => ms
  | n + 1, ms, k =>
    let ls := foldLines ms k
    if ls.length ≤ foldPlaces then ms
    else trimFold n ((ls.take (ls.length - foldPlaces)).foldl evictHome ms) k

/-- Every store and cache holds what it has places for. -/
def MemSys.fits (ms : MemSys) : Bool :=
  ((List.range 17).all fun a => (heldLines ms a).length ≤ copyPlaces a) && (List.range 8).all fun k => (foldLines ms k).length ≤ foldPlaces

/-- Evictions that the sizes of the stores and caches ask for. -/
def MemSys.trim (ms : MemSys) : MemSys :=
  if ms.fits then ms
  else
    let ms := (List.range 17).foldl trimCopies ms
    (List.range 8).foldl (fun ms k => trimFold (ms.lines.length + 1) ms k) ms

end Sys2Proof.Machine
end

