-- ==== Sys2Proof/Machine/Translate.lean ====
section
/-!
DEFINITION. The physical map, the ASID directory, page-table entries, walks and TLBs, and the
checks of a translation in their order (R191-R206, R217).
-/
namespace Sys2Proof.Machine
open Sys2Proof

/-! ## The physical map (R205) -/

/-- The base of RDMA window 0, which is no window: DRAM lies below it. -/
def dramEnd : Nat := 2 ^ 39
/-- The base of the control space. -/
def controlBase : Nat := 511 * 2 ^ 39

def isDram (pa : Nat) : Bool := pa < dramEnd
def isRdma (pa : Nat) : Bool := dramEnd ≤ pa && pa < controlBase
def isControl (pa : Nat) : Bool := controlBase ≤ pa

/-- The stack a DRAM address lies on. -/
def stackOf (pa : Nat) : Nat := pa / 2 ^ 36 % 8
/-- 64·s + t of the bank column of a DRAM address. -/
def columnOf (pa : Nat) : Nat := 64 * stackOf pa + pa / 2 ^ 11 % 64

def stackState (u : Ursol) (s : Nat) : StackSt := fget u.stackSts s .gate
/-- The stack runs harts and engines (R397). -/
def isOn (u : Ursol) (s : Nat) : Bool := stackState u s == .on
/-- The stack answers requests homed at it (R397, R398). -/
def serves (u : Ursol) (s : Nat) : Bool := stackState u s == .on || stackState u s == .idle
def isFenced (u : Ursol) (pa : Nat) : Bool := fget u.fenced (columnOf pa) false
/-- A hardware update at this address is performed (R398, R439). -/
def reachable (u : Ursol) (pa : Nat) : Bool := isDram pa && serves u (stackOf pa) && !isFenced u pa

/-! ## Faults and accesses -/

/-- The access kinds, with their codes in a frame's detail (R198, R379). -/
inductive AccKind where
  | load | store | atomic | fetch | engineRead | engineWrite | frame
  deriving DecidableEq, Repr

def AccKind.code : AccKind → Nat
  | .load => 0
  | .store => 1
  | .atomic => 2
  | .fetch => 3
  | .engineRead | .engineWrite => 4
  | .frame => 5

/-- The access needs write rights. -/
def AccKind.writes : AccKind → Bool
  | .store | .atomic | .engineWrite | .frame => true
  | _ => false

/-- A memory fault: its cause code (R375), the address it carries, the table level (R199). -/
structure MemFault where
  code : Nat
  va : W64
  level : Nat := 0
  deriving DecidableEq, Repr, Inhabited

/-- Who translates: the engine where it is one, the stack, the TLB that serves it, the ASID, whether it is a hart or an engine a
hart issued, the scratchpad pages its window reaches, and whether it writes KV pages all the same, as the
Crook does (R198, R322). -/
structure XCtx where
  stk : Fin 8
  unit : TlbUnit
  asid : BitVec 14
  hart : Bool
  scr : Nat
  kv : Bool := false
  eng : EngineUnit := .copy
  deriving DecidableEq, Repr

/-! ## Page-table entries (R196-R198) -/

def ptePa (e : W64) : Nat := bitsOf e 47 13 * 2 ^ 13
def pteLeaf (e : W64) : Bool := e.getLsbD 1
def pteRights (e : W64) : Nat := bitsOf e 3 2
def pteRow (e : W64) : Bool := e.getLsbD 5
def pteNc (e : W64) : Bool := e.getLsbD 6
def pteRemote (e : W64) : Bool := e.getLsbD 7
def pteKv (e : W64) : Bool := e.getLsbD 8
def pteDflt (e : W64) : Nat := bitsOf e 11 9

/-- The size of a leaf at a level (R195). -/
def leafSize (level : Nat) : Nat := 2 ^ (16 + 10 * level)

/-- An entry with V = 1 is malformed at a level (R197). -/
def pteMalformed (e : W64) (level : Nat) : Bool :=
  let pa := ptePa e
  bitsOf e 63 48 != 0 || e.getLsbD 12 || e.getLsbD 4 ||
  if pteLeaf e then
    level == 3 || pteRights e == 0 || pteDflt e == 0 || 4 < pteDflt e || pa % leafSize level != 0 ||
    if pteRemote e then pteRow e || pteKv e || !isRdma pa
    else isRdma pa || (isControl pa && (!pteNc e || pteRow e || pteKv e))
  else level == 0 || bitsOf e 11 2 != 0 || !isDram pa

/-- The rights and attributes of a leaf allow an access (R198, R240). -/
def pteAllows (e : W64) (pa : Nat) (c : XCtx) (k : AccKind) : Bool :=
  !(isControl pa && c.hart) &&
  (let noKv := pteKv e && c.hart && !c.kv
   match k with
   | .load | .engineRead => true
   | .fetch => pteRights e == 3
   | .store | .engineWrite | .frame => pteRights e == 2 && !noKv
   | .atomic => pteRights e == 2 && !noKv && !pteRemote e)

/-- The effective policy of an access through a leaf that is not REMOTE (R217). -/
def effPol (e : W64) (p : Pol) : EffPol :=
  if pteNc e || pteRow e || pteKv e then .nc
  else match p with
    | .own => .own
    | .wt => .wt
    | .sis => .sis
    | .wis => .wis
    | .dflt => if pteDflt e == 1 then .own else if pteDflt e == 2 then .wt else if pteDflt e == 3 then .sis else .wis

/-! ## Walks (R193-R204) -/

/-- What a walker's read of one double at the Fold gives: the double, nothing where the column is fenced (R439), a
poisoned answer (R227, R398). -/
inductive WalkRead where
  | value (v : W64)
  | fenced
  | poisoned
  deriving DecidableEq, Repr

/-- A walker of a stack reads a double as a Read of R225 (R204, R219; log entry 12). -/
def walkRead (ms : MemSys) (u : Ursol) (stk : Fin 8) (pa : Nat) : MemSys × WalkRead :=
  if isFenced u pa then (ms, .fenced)
  else if !serves u (stackOf pa) || piecePoisoned ms (pa, 8) then
    (if serves u (stackOf pa) then meetPoison ms [(pa, 8)] else ms, .poisoned)
  else
    let r := engineRead ms (engineNo .walker stk) pa 8
    (r.1, .value (BitVec.ofNat 64 (natOf r.2)))

/-- The root table of an ASID, or why there is none (R193, R439). A directory entry in a fenced column is an unusable one,
0x000A: R439 names the cause of a fenced table entry only (DESIGN CHOICE, log entry 53). -/
def asidRoot (ms : MemSys) (u : Ursol) (stk : Fin 8) (asid : BitVec 14) (va : W64) : MemSys × Except MemFault Nat :=
  let a := u.asidDir + 32 * asid.toNat
  let p := walkRead ms u stk a
  let q := walkRead p.1 u stk (a + 8)
  let r := walkRead q.1 u stk (a + 24)
  (r.1, match p.2, q.2, r.2 with
  | .value e, .value r1, .value r3 =>
    if !e.getLsbD 0 || bitsOf e 63 48 != 0 || bitsOf e 12 1 != 0 || r1 != 0 || r3 != 0 || !isDram (ptePa e) then
      .error ⟨0x000A, va, 0⟩
    else .ok (ptePa e)
  | .poisoned, _, _ => .error ⟨0x000F, va, 0⟩
  | _, .poisoned, _ => .error ⟨0x000F, va, 0⟩
  | _, _, .poisoned => .error ⟨0x000F, va, 0⟩
  | _, _, _ => .error ⟨0x000A, va, 0⟩)

/-- The pointer a walk cache holds for a level (R201). -/
def walkCached (ms : MemSys) (stk : Fin 8) (asid : BitVec 14) (level va : Nat) : Option Nat :=
  (ms.walkCache.find? fun w => w.stk == stk && w.asid == asid && w.level == level
    && w.prefix64k == va / leafSize level).map fun w => w.table

/-- What a walk answers: the state its reads leave, a leaf with its level or a fault, and the pointer entries it
read. -/
structure Walked where
  ms : MemSys
  res : Except MemFault (Nat × W64)
  ptrs : List WalkEntry

/-- A walk from a table of a level down to a leaf (R195, R197, R199), with the pointer entries it
read. -/
def walkFrom (u : Ursol) (stk : Fin 8) (asid : BitVec 14) (va : W64) : Nat → MemSys → Nat → List WalkEntry → Walked
  | 0, ms, table, acc =>
    let r := walkRead ms u stk (table + 8 * (va.toNat / leafSize 0 % 1024))
    match r.2 with
    | .poisoned => ⟨r.1, .error ⟨0x000F, va, 0⟩, acc⟩
    | .fenced => ⟨r.1, .error ⟨0x000C, va, 0⟩, acc⟩
    | .value e =>
      if !e.getLsbD 0 then ⟨r.1, .error ⟨0x000B, va, 0⟩, acc⟩
      else if pteMalformed e 0 then ⟨r.1, .error ⟨0x000C, va, 0⟩, acc⟩
      else ⟨r.1, .ok (0, e), acc⟩
  | level + 1, ms, table, acc =>
    match walkCached ms stk asid (level + 1) va.toNat with
    | some t => walkFrom u stk asid va level ms t acc
    | none =>
      let r := walkRead ms u stk (table + 8 * (va.toNat / leafSize (level + 1) % 1024))
      match r.2 with
      | .poisoned => ⟨r.1, .error ⟨0x000F, va, level + 1⟩, acc⟩
      | .fenced => ⟨r.1, .error ⟨0x000C, va, level + 1⟩, acc⟩
      | .value e =>
        if !e.getLsbD 0 then ⟨r.1, .error ⟨0x000B, va, level + 1⟩, acc⟩
        else if pteMalformed e (level + 1) then ⟨r.1, .error ⟨0x000C, va, level + 1⟩, acc⟩
        else if pteLeaf e then ⟨r.1, .ok (level + 1, e), acc⟩
        else walkFrom u stk asid va level r.1 (ptePa e)
          (acc ++ [⟨stk, asid, level + 1, va.toNat / leafSize (level + 1), ptePa e⟩])

/-- A whole walk: the directory, then the tables. -/
def walk (ms : MemSys) (u : Ursol) (stk : Fin 8) (asid : BitVec 14) (va : W64) : Walked :=
  let r := asidRoot ms u stk asid va
  match r.2 with
  | .error f => ⟨r.1, .error f, []⟩
  | .ok root => walkFrom u stk asid va 3 r.1 root []

/-! ## TLBs (R200, R201) -/

/-- The entries a TLB has. -/
def tlbSize : TlbUnit → Nat
  | .svp => 512
  | .tile _ => 16
  | .stack => 8192

def tlbFind (ms : MemSys) (stk : Fin 8) (unit : TlbUnit) (asid : BitVec 14) (va : Nat) : Option TlbEntry :=
  ms.tlb.find? fun e => e.stk == stk && e.unit == unit && e.asid == asid && e.vbase == va / leafSize e.level

/-- Hold a leaf in a TLB, newest first; a full one gives up its oldest entry (R200; log entry 13). -/
def tlbFill (ms : MemSys) (e : TlbEntry) : MemSys :=
  let kept := (ms.tlb.filter fun t => t.stk == e.stk && t.unit == e.unit && t != e).take (tlbSize e.unit - 1)
  { ms with tlb := e :: kept ++ ms.tlb.filter fun t => !(t.stk == e.stk && t.unit == e.unit) }

/-- Hold pointer entries in a stack's walk cache, at most 256 (R201). -/
def walkCacheFill (ms : MemSys) (stk : Fin 8) (ws : List WalkEntry) : MemSys :=
  let old := ms.walkCache.filter fun w => w.stk == stk && !ws.contains w
  { ms with walkCache := (ws ++ old).take 256 ++ ms.walkCache.filter fun w => w.stk != stk }

/-! ## The walkers (R201, R203, R213) -/

/-- Two misses share a walk: same stack, ASID and 64 KiB piece. -/
def Miss.same (m n : Miss) : Bool := m.stk == n.stk && m.asid == n.asid && m.va64k == n.va64k

/-- The walks of a stack that run. -/
def running (ms : MemSys) (k : Fin 8) : Nat := (ms.walks.filter fun m => m.stk == k).length

/-- The outstanding misses of a stack: queued or running. -/
def outstanding (ms : MemSys) (k : Fin 8) : Nat := (ms.walkQ.filter fun m => m.stk == k).length + running ms k

/-- Join a walk that is queued or running. -/
def joinMiss (m : Miss) (l : List Miss) : List Miss :=
  l.map fun q => if m.same q then { q with units := q.units ++ m.units } else q

/-- A miss at its stack's walker: it joins the walk of its piece and takes no place, takes one of 256 places, or waits in
its unit for one. -/
def admitMiss (ms : MemSys) (m : Miss) : MemSys :=
  if ms.walkQ.any m.same || ms.walks.any m.same then
    { ms with walkQ := joinMiss m ms.walkQ, walks := joinMiss m ms.walks }
  else if outstanding ms m.stk < 256 then { ms with walkQ := ms.walkQ ++ [m] }
  else { ms with walkWait := ms.walkWait ++ [m] }

/-- A place has come free: what waits at a stack's walker asks again, oldest first. -/
def admitWaiting (ms : MemSys) (k : Fin 8) : MemSys :=
  (ms.walkWait.filter fun m => m.stk == k).foldl admitMiss { ms with walkWait := ms.walkWait.filter fun m => m.stk != k }

/-- A walk reads its tables and ends: its result goes to every unit that joined it. Pointer entries and a leaf are
held, a fault is not (R201); a stack that is not on holds none (R398). -/
def runWalk (ms : MemSys) (u : Ursol) (stk : Fin 8) (asid : BitVec 14) (va : W64) (units : List TlbUnit) : MemSys × Except MemFault TlbEntry :=
  let r := walk ms u stk asid va
  if !isOn u stk.val then
    (r.ms, r.res.map fun l => ⟨stk, .stack, asid, l.1, va.toNat / leafSize l.1, l.2⟩)
  else
    let ms := if r.ptrs.isEmpty then r.ms else walkCacheFill r.ms stk r.ptrs
    match r.res with
    | .error f => (ms, .error f)
    | .ok (level, pte) =>
      let e : TlbEntry := ⟨stk, .stack, asid, level, va.toNat / leafSize level, pte⟩
      ((units.filter fun t => t != .stack).foldl (fun ms t => tlbFill ms { e with unit := t }) (tlbFill ms e), .ok e)

/-- The oldest running walk of a stack ends, and a miss that waits takes its place. -/
def finishWalk (ms : MemSys) (u : Ursol) (stk : Fin 8) : MemSys :=
  match ms.walks.find? fun m => m.stk == stk with
  | none => ms
  | some m =>
    let ms := { ms with walks := removeFirst (fun m => m.stk == stk) ms.walks }
    admitWaiting (runWalk ms u stk m.asid (BitVec.ofNat 64 (m.va64k * 65536)) m.units).1 stk

/-- The oldest queued walk of a stack starts while fewer than 32 run. -/
def startWalk (ms : MemSys) (stk : Fin 8) : MemSys :=
  match ms.walkQ.find? fun m => m.stk == stk with
  | none => ms
  | some m =>
    if running ms stk < 32 then
      { ms with walkQ := removeFirst (fun m => m.stk == stk) ms.walkQ, walks := ms.walks ++ [m] }
    else ms

/-- An access that misses waits for its own walk to start: every walk queued before it has started, and fewer than
32 run. -/
def awaitWalker : Nat → MemSys → Ursol → Fin 8 → MemSys
  | 0, ms, _, _ => ms
  | n + 1, ms, u, k =>
    if 32 ≤ running ms k then awaitWalker n (finishWalk ms u k) u k
    else if ms.walkQ.any fun m => m.stk == k then awaitWalker n (startWalk ms k) u k
    else ms

/-- A miss of an access at its stack's walker: it joins the walk of its piece, or its own walk runs (R203). -/
def walkMiss (ms : MemSys) (u : Ursol) (c : XCtx) (va : W64) : MemSys × Except MemFault TlbEntry :=
  let ms := awaitWalker (2 * (ms.walkQ.length + ms.walkWait.length) + 2) ms u c.stk
  let same := fun (m : Miss) => m.stk == c.stk && m.asid == c.asid && m.va64k == va.toNat / 65536
  match ms.walks.find? same with
  | some m => runWalk { ms with walks := removeFirst same ms.walks } u c.stk c.asid va (c.unit :: m.units)
  | none => runWalk ms u c.stk c.asid va [c.unit]

/-- The leaf that serves an address, from the unit's TLB, the stack TLB or a walk (R200-R203). -/
def lookupLeaf (ms : MemSys) (u : Ursol) (c : XCtx) (va : W64) : MemSys × Except MemFault TlbEntry :=
  match tlbFind ms c.stk c.unit c.asid va.toNat with
  | some e => (ms, .ok e)
  | none =>
    match tlbFind ms c.stk .stack c.asid va.toNat with
    | some e => (tlbFill ms { e with unit := c.unit }, .ok { e with unit := c.unit })
    | none =>
      let r := if isOn u c.stk.val then walkMiss ms u c va else runWalk ms u c.stk c.asid va []
      (r.1, r.2.map fun e => { e with unit := c.unit })

/-- An address lies in an NC, ROW or KV page: its accesses are NC (R217, R218). -/
def ncAt (ms : MemSys) (u : Ursol) (c : XCtx) (va : W64) : Bool :=
  match (lookupLeaf ms u c va).2 with
  | .ok e => effPol e.pte .dflt == .nc
  | .error _ => false

/-- The physical address a leaf gives (R195). -/
def leafPa (e : TlbEntry) (va : W64) : Nat := ptePa e.pte + va.toNat % leafSize e.level

/-! ## The checks in order (R199) -/

/-- The base of the scratchpad window (R192). -/
def scratchBase : Nat := 0x00FFFFFFFFC00000

/-- A translated address: scratchpad byte, or physical address with its page-table entry. -/
inductive Xl where
  | scratch (off : Nat)
  | leaf (pa : Nat) (pte : W64)
  deriving DecidableEq, Repr

/-- A translation, rights and attributes included (R199). -/
def translate (ms : MemSys) (u : Ursol) (c : XCtx) (va : W64) (k : AccKind) : MemSys × Except MemFault Xl :=
  if 2 ^ 56 ≤ va.toNat then (ms, .error ⟨0x0008, va, 0⟩)
  else if scratchBase ≤ va.toNat then
    if c.scr * 4096 ≤ va.toNat - scratchBase then (ms, .error ⟨0x0009, va, 0⟩)
    else if k == .fetch then (ms, .error ⟨0x000D, va, 0⟩)
    else (ms, .ok (.scratch (va.toNat - scratchBase)))
  else
    let r := lookupLeaf ms u c va
    match r.2 with
    | .error f => (r.1, .error f)
    | .ok e =>
      if pteAllows e.pte (leafPa e va) c k then (r.1, .ok (.leaf (leafPa e va) e.pte))
      else (r.1, .error ⟨0x000D, va, 0⟩)

/-- Where a translated access goes (R217). -/
def targetOf (p : Pol) : Xl → Target
  | .scratch o => .scratch o
  | .leaf pa e => if pteRemote e then .remote pa else if isControl pa then .control pa else .mem pa (effPol e p)

/-- The checks at the home of an access (R398, R439): fenced column, stack not serving, a word read at home that it
would deliver poisoned (R227). -/
def homeCheck (ms : MemSys) (u : Ursol) (va : W64) (pa : Nat) (words : BitVec 16) : Option MemFault :=
  if isFenced u pa then some ⟨0x0013, va, 0⟩
  else if !serves u (stackOf pa) then some ⟨0x000F, va, 0⟩
  else if (homePoison ms (lineOf pa) &&& words) != 0 then some ⟨0x000F, va, 0⟩
  else none

end Sys2Proof.Machine
end

