-- ==== Sys2Proof/Machine/Access.lean ====
section
/-!
DEFINITION. Registers and cores of the state, and the accesses of a core and of an engine to virtual
addresses: scratchpad, home memory, RDMA windows and the control space (R192, R206, R217, R239,
R240, R368).
-/
namespace Sys2Proof.Machine
open Sys2Proof

/-- What a step answers. -/
abbrev Out := Host.Outcome State Fault Refusal

/-! ## Cores and registers -/

/-- Read a scalar register; x0 reads as zero (R57, R114). -/
def Core.reg (c : Core) (r : Reg) : W64 := if r = 0 then 0 else fget c.x r.val 0

/-- Write a scalar register; a write to x0 is discarded (R57, R114). -/
def Core.setReg (c : Core) (r : Reg) (v : W64) : Core :=
  if r = 0 then c else { c with x := fset c.x r.val v 0 }

def CoreId.isTask : CoreId → Bool
  | .task _ => true
  | _ => false
def CoreId.isSup : CoreId → Bool
  | .sup _ => true
  | _ => false

/-- The stack a core belongs to. -/
def Core.stack (c : Core) : Fin 8 :=
  match c.id with
  | .sup s => s
  | _ => c.task.stk

/-- The coherence agent of a core (R214). -/
def Core.agent (c : Core) : Nat :=
  match c.id with
  | .sup s => 8 + s.val
  | _ => c.task.stk.val

/-- How a core translates (R192, R194, R200). -/
def Core.xctx (c : Core) : XCtx :=
  match c.id with
  | .sup s => { stk := s, unit := .stack, asid := c.asid, hart := false, scr := 0 }
  | _ => { stk := c.task.stk, unit := .svp, asid := c.asid, hart := true, scr := c.task.scr }

/-- How an engine of a stack translates for a task or a supervisor core (R194, R200). -/
def engineCtx (s : Fin 8) (asid : BitVec 14) (hart : Bool) (scr : Nat) (eng : EngineUnit := .shootdown) : XCtx :=
  { stk := s, unit := .stack, asid := asid, hart := hart, scr := scr, eng := eng }

/-- The number of an engine as a requester at a Fold. -/
def XCtx.engineNo (c : XCtx) : Nat := Machine.engineNo c.eng c.stk

/-- Every core of the package. -/
def State.cores (s : State) : List Core := s.core :: s.others

/-- The core with an id. -/
def State.findCore (s : State) (i : CoreId) : Option Core := s.cores.find? fun c => c.id == i

/-- Change the core with an id. -/
def State.mapCore (s : State) (i : CoreId) (f : Core → Core) : State :=
  if s.core.id = i then { s with core := f s.core }
  else { s with others := s.others.map fun c => if c.id = i then f c else c }

/-- Make the core with an id the current one; none when there is no such core. -/
def State.focus (s : State) (i : CoreId) : Option State :=
  if s.core.id = i then some s
  else match s.others.find? fun c => c.id == i with
    | none => none
    | some c =>
      let rest := s.others.filter fun c => c.id != i
      some { s with core := c, others := if s.core.id = .none then rest else rest ++ [s.core] }

/-! ## Scratchpad (R137, R139) -/

/-- The dirty mark of scratchpad page k is kept under 64 + k, that of square q under q. -/
def markScratch (d : FMap Bool) (off n : Nat) : FMap Bool :=
  if n = 0 then d else fset (fset d (64 + off / 4096) true false) (64 + (off + n - 1) / 4096) true false

def TaskPart.writeScratch (t : TaskPart) (off : Nat) (bs : List Byte) : TaskPart :=
  { t with scratch := writeBytes t.scratch off bs, dirty := markScratch t.dirty off bs.length }

/-! ## RDMA windows (R368) -/

/-- The window of a physical address is bound and its queue pair can be used: R368 names the error state as the one that
stops an access, so a queue pair in the reset, init or ready-to-receive state sends, and one that was never set up stops it
(DESIGN CHOICE, log entry 51). -/
def windowUsable (u : Ursol) (pa : Nat) : Bool :=
  let w := fget u.windows (pa / 2 ^ 39) {}
  w.valid && match fget u.qps w.qp none with
    | some q => q.st != .error
    | none => false

/-- The remote address an access to a window goes to. -/
def remoteAddr (u : Ursol) (pa : Nat) : W64 :=
  (fget u.windows (pa / 2 ^ 39) {}).base + BitVec.ofNat 64 (pa % 2 ^ 39)

/-- The queue pair a window uses. -/
def windowQp (u : Ursol) (pa : Nat) : Qp := (fget u.qps (fget u.windows (pa / 2 ^ 39) {}).qp none).getD {}

/-- The payloads of the packets a message is cut into at a path MTU (R368); an empty message is one packet. -/
def packetsOf (mtu : Nat) : Nat → List Byte → List (List Byte)
  | 0, bs => [bs]
  | fuel + 1, bs => if bs.length ≤ mtu then [bs] else bs.take mtu :: packetsOf mtu fuel (bs.drop mtu)

def State.send (s : State) (m : OutMsg) : State := { s with ursol := { s.ursol with out := s.ursol.out ++ [m] } }

def State.log (s : State) (e : LogEntry) : State := { s with ursol := { s.ursol with log := s.ursol.log ++ [e] } }

/-- An RDMA READ: the bytes the remote end gives, or none where it refuses (FREE VALUE, log entry 4). -/
def State.remoteRead (s : State) (pa n : Nat) : State × Option (List Byte) :=
  if windowUsable s.ursol pa then
    let q := windowQp s.ursol pa
    let s' := { s.send (.rdmaRead (pa / 2 ^ 39) (remoteAddr s.ursol pa) n q.mtu q.f2f) with free := s.free + 1 }
    (s', if Config.remoteAccepts s.free then some ((List.range n).map (Config.remoteByte s.free)) else none)
  else (s, none)

/-- An RDMA WRITE, and whether the remote end acknowledges it (FREE VALUE, log entry 4). -/
def State.remoteWrite (s : State) (pa : Nat) (bs : List Byte) : State × Bool :=
  if windowUsable s.ursol pa then
    let q := windowQp s.ursol pa
    ({ s.send (.rdmaWrite (pa / 2 ^ 39) (remoteAddr s.ursol pa) (packetsOf q.mtu bs.length bs) q.f2f) with free := s.free + 1 },
      Config.remoteAccepts s.free)
  else (s, false)

/-! ## The control space (R206, R208) -/

/-- The shootdown port an address is, if any. -/
def portOf (pa : Nat) : Option (Fin 8) :=
  let o := pa - controlBase
  if o % 0x10000 = 0 then (if h : o / 0x10000 < 8 then some ⟨o / 0x10000, h⟩ else none) else none

/-- The records waiting in a port's queue. -/
def portCount (ms : MemSys) (p : Fin 8) : Nat := (ms.shootQ.filter fun r => r.stk == p && r.host.isNone).length

/-- What a load of the control space returns. -/
def controlRead (ms : MemSys) (pa n : Nat) : Nat :=
  match portOf pa with
  | some p => portCount ms p % 2 ^ (8 * n)
  | none => 0

/-! ## Forwarding from the strip buffer (R239, R243) -/

/-- Where the bytes of a target lie, in one numbering of memory and scratchpad. -/
def Target.loc : Target → Nat
  | .scratch o => 2 ^ 60 + o
  | .mem pa _ => pa
  | .remote pa => pa
  | .control pa => pa

/-- The byte a buffered part holds for a location. -/
def BufPart.byteAt (p : BufPart) (loc : Nat) : Option Byte :=
  if p.tgt.loc ≤ loc then (p.vals[loc - p.tgt.loc]?).join else none

/-- The byte a buffered element holds for a location; a VAMO element forwards nothing. -/
def BufElem.byteAt (e : BufElem) (loc : Nat) : Option Byte :=
  match e.kind with
  | .store => e.parts.findSome? fun p => p.byteAt loc
  | .amo .. => none

/-- The youngest buffered byte of a location. -/
def bufByte (buf : List BufElem) (loc : Nat) : Option Byte := buf.reverse.findSome? fun e => e.byteAt loc

/-- The bytes of a load, buffered ones in front. -/
def forwardBytes (buf : List BufElem) (loc n v : Nat) : Nat :=
  if buf.isEmpty then v
  else natOf ((List.range n).map fun i => (bufByte buf (loc + i)).getD (BitVec.ofNat 8 (v / 2 ^ (8 * i))))

/-- A part after a younger scalar store to n bytes from a location on (log entry 14). -/
def BufPart.hide (p : BufPart) (loc n : Nat) : BufPart :=
  { p with vals := (List.range p.vals.length).map fun i =>
      if loc ≤ p.tgt.loc + i && p.tgt.loc + i < loc + n then none else (p.vals[i]?).join }

def hideBuf (buf : List BufElem) (loc n : Nat) : List BufElem :=
  buf.map fun e => match e.kind with
    | .store => { e with parts := e.parts.map fun p => p.hide loc n }
    | .amo .. => e

/-! ## Watchpoints (R391) -/

/-- A watchpoint of the task watches a byte of an access. -/
def Core.watched (c : Core) (va n : Nat) (store : Bool) : Bool :=
  c.task.watches.any fun w =>
    w.2.kind.getLsbD (if store then 1 else 0) &&
      (let size := 2 ^ w.2.lg.toNat
       let base := w.2.va.toNat / size * size
       va < base + size && base < va + n)

/-- Note a watched access, for the trap after the instruction. -/
def Core.watch (c : Core) (va n : Nat) (store : Bool) : Core :=
  if c.id.isTask && c.task.watchHit.isNone && c.watched va n store then
    { c with task := { c.task with watchHit := some va } }
  else c

/-! ## Accesses of a core -/

/-- Translate an access of the current core up to its target: R199, then alignment (R239). -/
def accessTarget (s : State) (va : W64) (n : Nat) (k : AccKind) (pol : Pol) : MemSys × Except MemFault Target :=
  let r := translate s.mem s.ursol s.core.xctx va k
  (r.1, match r.2 with
    | .error f => .error f
    | .ok x => if va.toNat % n ≠ 0 then .error ⟨0x000E, va, 0⟩ else .ok (targetOf pol x))

/-- A copy of the agent serves an access that reads. -/
def copyHits (ms : MemSys) (a pa n : Nat) (k : AccKind) (p : EffPol) (acq : Bool) : Bool :=
  match findCopy ms a (lineOf pa) with
  | some c => if k == .atomic then c.mode == .o else loadHits c (accessBytes (pa % 64) n) p acq
  | none => false

/-- What an access that reads finds at its home: what is under way on the line ends first (R231), and an acquiring
request that no copy serves forces the publish it waits for (R230). -/
def homeReady (ms : MemSys) (u : Ursol) (a pa n : Nat) (k : AccKind) (p : EffPol) (acq : Bool) : MemSys :=
  if k != .store && reachable u pa then
    let ms := drainLine ms (lineOf pa)
    if acq && !copyHits ms a pa n k p acq then forcePublish ms a (lineOf pa) else ms
  else ms

/-- Check an access at its target: the home's state (R227, R398, R439), or the window (R368). A copy serves the access with
the words as home delivered them, poisoned ones too (R227). -/
def checkTarget (s : State) (ms : MemSys) (va : W64) (n : Nat) (k : AccKind) (acq : Bool) (t : Target) : MemSys × Except MemFault Target :=
  match t with
  | .mem pa p =>
    let ms := homeReady ms s.ursol s.core.agent pa n k p acq
    let reads := k != .store
    let w := wordsTouched (accessBytes (pa % 64) n)
    let hit := copyHits ms s.core.agent pa n k p acq
    let sick := reads && hit && (poisonOf ms s.core.agent (lineOf pa) &&& w) != 0
    match if sick then some ⟨0x000F, va, 0⟩ else homeCheck ms s.ursol va pa (if reads && !hit then w else 0) with
    | some f => (if reachable s.ursol pa && reads && !hit then meetPoison ms [(pa, n)] (p == .nc) else ms, .error f)
    | none => (ms, .ok (.mem pa p))
  | .remote pa => (ms, if windowUsable s.ursol pa then .ok (.remote pa) else .error ⟨0x0026, va, 0⟩)
  | t => (ms, .ok t)

/-- Translate an access of the current core and check it up to its target, in the order of R199, R239 and the state of its
home. -/
def checkAccess (s : State) (va : W64) (n : Nat) (k : AccKind) (pol : Pol) (acq : Bool) : MemSys × Except MemFault Target :=
  let r := accessTarget s va n k pol
  match r.2 with
  | .error f => (r.1, .error f)
  | .ok t => checkTarget s r.1 va n k acq t

/-- The value an access reads at a checked target. -/
def readTarget (s : State) (va : W64) (n : Nat) (acq : Bool) : Target → State × Except MemFault Nat
  | .scratch o => (s, .ok (forwardBytes s.core.task.buf (2 ^ 60 + o) n (natOf (readBytes s.core.task.scratch o n))))
  | .mem pa p =>
    let r := agentLoad s.mem s.core.agent pa n p acq
    ({ s with mem := r.1 }, .ok (forwardBytes s.core.task.buf pa n r.2))
  | .remote pa =>
    let r := s.remoteRead pa n
    (r.1, match r.2 with
      | some bs => .ok (forwardBytes s.core.task.buf pa n (natOf bs))
      | none => .error ⟨0x0026, va, 0⟩)
  | .control pa => (s, .ok (controlRead s.mem pa n))

/-- A load of the current core (R239): the value, zero-extended. -/
def coreLoad (s : State) (va : W64) (n : Nat) (pol : Pol) (acq : Bool) : State × Except MemFault Nat :=
  let r := checkAccess s va n .load pol acq
  let s := { s with mem := r.1 }
  match r.2 with
  | .error f => (s, .error f)
  | .ok t =>
    let r := readTarget s va n acq t
    ({ r.1 with core := r.1.core.watch va.toNat n false }, r.2)

/-- The strip buffer holds every byte of a load. -/
def bufHolds (buf : List BufElem) (loc n : Nat) : Bool := (List.range n).all fun i => (bufByte buf (loc + i)).isSome

/-- The load of a vector element: where the hart's strip buffer holds all its bytes it reads those instead, and asks no
home (R243). -/
def elementLoad (s : State) (va : W64) (n : Nat) (pol : Pol) (acq : Bool) : State × Except MemFault Nat :=
  let r := accessTarget s va n .load pol
  match r.2 with
  | .ok t =>
    if bufHolds s.core.task.buf t.loc n then
      ({ s with mem := r.1, core := s.core.watch va.toNat n false }, .ok (forwardBytes s.core.task.buf t.loc n 0))
    else coreLoad s va n pol acq
  | .error _ => coreLoad s va n pol acq

/-- How a store ends: done, a fault, or it waits for a place in a full shootdown port (R208). -/
inductive StoreEnd where
  | done
  | wait
  | fault (f : MemFault)
  deriving DecidableEq, Repr

/-- Write n bytes at a checked target. -/
def writeTarget (s : State) (va : W64) (n v : Nat) : Target → State × StoreEnd
  | .scratch o => ({ s with core := { s.core with task := s.core.task.writeScratch o (bytesOf n v) } }, .done)
  | .mem pa p => ({ s with mem := agentStore s.mem s.core.agent pa n v p }, .done)
  | .remote pa =>
    let r := s.remoteWrite pa (bytesOf n v)
    (r.1, if r.2 then .done else .fault ⟨0x0026, va, 0⟩)
  | .control pa =>
    match portOf pa with
    | some p =>
      if n ≠ 8 then (s, .done)
      else if 16 ≤ portCount s.mem p then (s, .wait)
      else
        let ms := releaseWide s.mem s.core.agent
        ({ s with mem := { ms with shootQ := ms.shootQ ++ [⟨p, BitVec.ofNat 64 v, s.core.asid, none⟩] } }, .done)
    | none => (s, .done)

/-- A store of the current core (R239): the low n bytes of a number. -/
def coreStore (s : State) (va : W64) (n v : Nat) (pol : Pol) : State × StoreEnd :=
  let r := checkAccess s va n .store pol false
  let s := { s with mem := r.1 }
  match r.2 with
  | .error f => (s, .fault f)
  | .ok t =>
    let r := writeTarget s va n v t
    match r.2 with
    | .done =>
      let c := r.1.core
      let c := { c with task := { c.task with buf := hideBuf c.task.buf t.loc n } }
      ({ r.1 with core := c.watch va.toNat n true }, .done)
    | e => (r.1, e)

/-- An atomic at a checked target: the old value (R240), with the hart's own buffered bytes over it (R248). In the
control space it writes nothing (R206; log entry 26). -/
def atomicTarget (s : State) (n : Nat) (op : AtomOp) (pl : Place) (acq : Bool) (t : Target) : State × Nat :=
  let seen := forwardBytes s.core.task.buf t.loc n
  match t with
  | .scratch o =>
    let old := seen (natOf (readBytes s.core.task.scratch o n))
    match atomNew n old op with
    | some new => ({ s with core := { s.core with task := s.core.task.writeScratch o (bytesOf n new) } }, old)
    | none => (s, old)
  | .mem pa p =>
    let r := agentAtomic s.mem s.core.agent pa n op pl p acq seen
    ({ s with mem := r.1 }, r.2)
  | .remote _ => (s, 0)
  | .control pa => (s, controlRead s.mem pa n)

/-- An atomic of the current core (R240), its release and acquire apart. Buffered bytes it has written over are
older than it (log entry 14); a CAS that does not match has written nothing. -/
def coreAtomic (s : State) (va : W64) (n : Nat) (op : AtomOp) (pl : Place) (acq : Bool) : State × Except MemFault Nat :=
  let r := checkAccess s va n .atomic .dflt acq
  let s := { s with mem := r.1 }
  match r.2 with
  | .error f => (s, .error f)
  | .ok t =>
    let r := atomicTarget s n op pl acq t
    let c := r.1.core
    let c := if (atomNew n r.2 op).isSome then { c with task := { c.task with buf := hideBuf c.task.buf t.loc n } } else c
    ({ r.1 with core := (c.watch va.toNat n false).watch va.toNat n true }, .ok r.2)

/-! ## Instruction fetch (R56, R77, R192) -/

/-- Fetch n bytes of an instruction word: through the agent's own copies, else at home, keeping no
copy (R77, R265; log entry 15). Fetches fill the TLBs like any access. A pc that is not a multiple of the word's
length, which only ERET leaves, is an alignment fault of the fetch (DESIGN CHOICE, log entry 49); a word fetched from
the control space reads as a load of it, 0 (log entry 26). -/
def coreFetch (s : State) (va : VAddr) (n : Nat) : State × Except MemFault Nat :=
  let r := checkAccess s (va.setWidth 64) n .fetch .wt false
  let s := { s with mem := r.1 }
  match r.2 with
  | .error f => (s, .error f)
  | .ok t =>
    match t with
    | .mem pa p =>
      let r := agentFetch s.mem s.core.agent pa n (p == .nc)
      ({ s with mem := r.1 }, .ok r.2)
    | .remote pa =>
      let r := s.remoteRead pa n
      (r.1, match r.2 with
        | some bs => .ok (natOf bs)
        | none => .error ⟨0x0026, va.setWidth 64, 0⟩)
    | _ => (s, .ok 0)

/-! ## Accesses of engines by virtual address (R219, R378) -/

/-- The pieces of a range that lie in one 2 KiB slice each, so in one bank column (R205): address and length. -/
def pagePieces (va : Nat) : Nat → Nat → List (Nat × Nat)
  | 0, _ => []
  | _, 0 => []
  | fuel + 1, n =>
    let k := Nat.min n (2048 - va % 2048)
    (va, k) :: pagePieces (va + k) fuel (n - k)

/-- Translate every piece of a range for an engine: the targets with their lengths. -/
def engineTargets (ms : MemSys) (u : Ursol) (c : XCtx) (k : AccKind) : List (Nat × Nat) → MemSys × Except MemFault (List (Target × Nat))
  | [] => (ms, .ok [])
  | (va, n) :: rest =>
    let v := BitVec.ofNat 64 va
    let r := translate ms u c v k
    match r.2 with
    | .error f => (r.1, .error f)
    | .ok x =>
      let t := targetOf .wt x
      let bad := match t with
        | .mem pa _ => homeCheck r.1 u v pa 0
        | .remote pa => if windowUsable u pa then none else some ⟨0x0026, v, 0⟩
        | _ => none
      match bad with
      | some f => (r.1, .error f)
      | none =>
        let r := engineTargets r.1 u c k rest
        (r.1, r.2.map fun l => (t, n) :: l)

/-- Read the checked targets of an engine access: the bytes, or the cause of a poisoned line or of a
refusal. Of the control space an engine reads zeros (R206; log entry 26). -/
def engineReadTargets (s : State) (who : Nat) : List (Target × Nat) → State × Except Nat (List Byte)
  | [] => (s, .ok [])
  | (t, n) :: rest =>
    let r : State × Except Nat (List Byte) := match t with
      | .mem pa p =>
        if (piecesOf pa n).any (piecePoisoned s.mem) then
          ({ s with mem := meetPoison s.mem (piecesOf pa n) (p == .nc) }, .error 0x000F)
        else
          let r := engineRead s.mem who pa n (p == .nc)
          ({ s with mem := r.1 }, .ok r.2)
      | .remote pa =>
        let r := s.remoteRead pa n
        (r.1, match r.2 with
          | some bs => .ok bs
          | none => .error 0x0026)
      | .control pa => (s, .ok (bytesOf n (if n ≤ 8 then controlRead s.mem pa n else 0)))
      | .scratch _ => (s, .ok (List.replicate n 0))
    match r.2 with
    | .error e => (r.1, .error e)
    | .ok bs =>
      let q := engineReadTargets r.1 who rest
      (q.1, q.2.map (bs ++ ·))

/-- Write bytes to checked targets; false where a remote end refuses. -/
def engineWriteTargets (s : State) (who : Nat) (bs : List Byte) : List (Target × Nat) → State × Bool
  | [] => (s, true)
  | (t, n) :: rest =>
    let r : State × Bool := match t with
      | .mem pa p => ({ s with mem := engineWrite s.mem who pa (bs.take n) (p == .nc) }, true)
      | .remote pa => s.remoteWrite pa (bs.take n)
      | _ => (s, true)
    if r.2 then engineWriteTargets r.1 who (bs.drop n) rest else r

/-- An engine reads n bytes at a virtual address: every page is checked first. -/
def engineLoad (s : State) (c : XCtx) (va : W64) (n : Nat) : State × Except MemFault (List Byte) :=
  let r := engineTargets s.mem s.ursol c .engineRead (pagePieces va.toNat (n / 2048 + 2) n)
  let s := { s with mem := r.1 }
  match r.2 with
  | .error f => (s, .error f)
  | .ok ts =>
    let r := engineReadTargets s c.engineNo ts
    (r.1, match r.2 with
      | .ok bs => .ok bs
      | .error e => .error ⟨e, va, 0⟩)

/-- An engine writes bytes at a virtual address: every page is checked before any byte is written. -/
def engineStore (s : State) (c : XCtx) (k : AccKind) (va : W64) (bs : List Byte) : State × Except MemFault Unit :=
  let r := engineTargets s.mem s.ursol c k (pagePieces va.toNat (bs.length / 2048 + 2) bs.length)
  let s := { s with mem := r.1 }
  match r.2 with
  | .error f => (s, .error f)
  | .ok ts =>
    let r := engineWriteTargets s c.engineNo bs ts
    ({ r.1 with mem := tagHits s.mem r.1.mem c.engineNo c.asid }, if r.2 then .ok () else .error ⟨0x0026, va, 0⟩)

end Sys2Proof.Machine
end

