-- ==== Sys2Proof/Machine/Place.lean ====
section
/-!
DEFINITION. What the Drover knows of farms, slots, pool pages and priorities: queries that change
nothing (R82-R99, R134, R441).
-/
namespace Sys2Proof.Machine
open Sys2Proof

/-! ## Pool words and shares (R134, R378) -/

def poolSq (w : W32) : Nat := w.toNat % 128
def poolScr (w : W32) : Nat := w.toNat / 2 ^ 8 % 1024
def poolStg (w : W32) : Nat := w.toNat / 2 ^ 18 % 1024
/-- The pages of a share. -/
def poolShare (w : W32) : Nat := poolSq w + poolScr w + poolStg w
/-- A pool word is legal (R134). -/
def poolLegal (w : W32) : Bool :=
  w.toNat / 2 ^ 28 == 0 && !w.getLsbD 7 && poolSq w ≤ 64 && poolShare w ≤ 1024

/-- The size of a task's frame (R378). -/
def frameSize (w : W32) : Nat := 40960 + 4096 * (poolSq w + poolScr w)

/-! ## Farms -/

def State.farm? (s : State) (slot : Nat) : Option Farm := flook s.drover.farms slot
/-- The farm in a slot; an empty record where the slot is free. -/
def State.farm (s : State) (slot : Nat) : Farm := (s.farm? slot).getD default
def State.setFarm (s : State) (slot : Nat) (f : Farm) : State :=
  { s with drover := { s.drover with farms := finsert s.drover.farms slot f } }
/-- Change the farm in a slot, if there is one. -/
def State.mapFarm (s : State) (slot : Nat) (g : Farm → Farm) : State :=
  match s.farm? slot with
  | some f => s.setFarm slot (g f)
  | none => s

/-- The stacks of a rectangle in ascending order (R85). -/
def LaunchRec.rect (r : LaunchRec) : List Nat :=
  (List.range 8).filter fun s => r.xlo ≤ s % 2 && s % 2 ≤ r.xhi && r.ylo ≤ s / 2 && s / 2 ≤ r.yhi

/-- The number of tasks of a farm (R85). -/
def LaunchRec.tasks (r : LaunchRec) : Nat := r.tps * r.rect.length

/-- The stack task i runs on (R85). -/
def LaunchRec.stackOfTask (r : LaunchRec) (i : Nat) : Fin 8 := Fin.ofNat 8 ((r.rect[i / r.tps]?).getD 0)

/-- The clusters of a slot of a width code (R82). -/
def hwWidth (hw : BitVec 2) : Nat := 8 / 2 ^ hw.toNat

/-- The address of a task's frame (R84, R378). -/
def LaunchRec.frameOf (r : LaunchRec) (tid : Nat) : W64 := r.frame + BitVec.ofNat 64 (tid * frameSize r.poolw)

def State.frameVa (s : State) (t : TaskId) : W64 := (s.farm t.farm.val).lrec.frameOf t.tid

/-! ## Priorities (R98) -/

/-- The effective priority of a farm: its own, or one it inherited and keeps. -/
def Farm.eff (f : Farm) : Nat := Nat.max f.prio f.inherited

/-- A waiting farm's used dependence names a done or trig object of another (R98). -/
def Farm.waitsOn (g f : Farm) : Bool :=
  g.st == .waiting && g.deps.any fun d => d.1.isSome && (d.1 == f.donePa || (f.trigPa.isSome && d.1 == f.trigPa))

/-- One round of inheritance over all farms. -/
def inheritOnce (fs : FMap Farm) : FMap Farm :=
  fs.map fun p => (p.1, { p.2 with inherited := fs.foldl (fun m g => if g.2.waitsOn p.2 then Nat.max m g.2.eff else m) p.2.inherited })

/-- Inheritance through chains of farms. -/
def inheritAll : Nat → FMap Farm → FMap Farm
  | 0, fs => fs
  | n + 1, fs => inheritAll n (inheritOnce fs)

def State.inherit (s : State) : State :=
  { s with drover := { s.drover with farms := inheritAll s.drover.farms.length s.drover.farms } }

def State.prioOf (s : State) (t : TaskId) : Nat := (s.farm t.farm.val).eff

/-! ## Slots and pool of a stack -/

/-- The running tasks of a stack. -/
def State.running (s : State) (stk : Fin 8) : List Core := s.cores.filter fun c => c.id.isTask && c.task.stk == stk

def Core.taskId (c : Core) : TaskId :=
  match c.id with
  | .task t => t
  | _ => default

/-- The pool pages a task holds. -/
def TaskPart.share (t : TaskPart) : Nat := t.sq + t.scr + t.stg

def State.poolFree (s : State) (stk : Fin 8) : Nat :=
  1024 - (s.running stk).foldl (fun n c => n + c.task.share) 0

/-- A cluster of a stack belongs to a running task or is lent (R82, R100). -/
def State.clusterUsed (s : State) (stk : Fin 8) (k : Nat) : Bool :=
  ((s.running stk).any fun c => c.task.cluster.val ≤ k && k < c.task.cluster.val + hwWidth c.task.hw) ||
  (s.drover.loans.any fun l => l.stk == stk && l.first ≤ k && k < l.first + l.width)

/-- The lowest aligned group of w clusters none of which a test refuses (R82, R95). -/
def groupWhere (w : Nat) (bad : Nat → Bool) : Option Nat :=
  (List.range 8).find? fun c => c % w == 0 && (List.range w).all fun j => !bad (c + j)

/-! ## Ready tasks (R95, R99, R441) -/

/-- Insert after every element of at least its own rank. -/
def insertByRank {α : Type} (rank : α → Nat) (x : α) : List α → List α
  | [] => [x]
  | y :: r => if rank y < rank x then x :: y :: r else y :: insertByRank rank x r

/-- Highest rank first, otherwise in the order given. -/
def sortByRank {α : Type} (rank : α → Nat) (l : List α) : List α := l.foldl (fun acc x => insertByRank rank x acc) []

/-- The stack of a ready task. -/
def State.readyStack (s : State) (r : Ready) : Fin 8 := (s.farm r.t.farm.val).lrec.stackOfTask r.t.tid

/-- The ready tasks of a stack in the order of R99. -/
def State.readyOn (s : State) (stk : Fin 8) : List Ready :=
  sortByRank (fun r => s.prioOf r.t) (s.drover.ready.filter fun r => s.readyStack r == stk)

/-- The farm of a task has a strip left to claim (R96). -/
def Farm.stripLeft (f : Farm) : Bool := !f.aborted && f.nextBase < f.lrec.iters

def State.needOf (s : State) (t : TaskId) : Nat := poolShare (s.farm t.farm.val).lrec.poolw
def State.widthOf (s : State) (t : TaskId) : Nat := hwWidth (s.farm t.farm.val).lrec.hw

/-- A ready task stands before another in the order of R99. -/
def State.standsBefore (s : State) (stk : Fin 8) (t u : TaskId) : Bool :=
  match (s.readyOn stk).find? fun r => r.t == t || r.t == u with
  | some r => r.t == t
  | none => false

/-- The group of clusters a ready task would take now: free, and not being freed for a task above it in the order
of R99 (R441). -/
def State.slotFor (s : State) (stk : Fin 8) (t : TaskId) : Option Nat :=
  groupWhere (s.widthOf t) fun k =>
    s.clusterUsed stk k ||
    s.drover.preempts.any fun p => p.stk == stk && p.cause != t && !s.standsBefore stk t p.cause && p.first ≤ k && k < p.first + p.width

/-- A ready task has work: a new one of a farm without a strip left would retire (R95). -/
def State.hasWork (s : State) (r : Ready) : Bool := r.resumed || (s.farm r.t.farm.val).stripLeft

/-- What a ready task does next, if anything: a new one without a strip retires, one that fits is
placed at a cluster. -/
inductive Placement where
  | retire (r : Ready)
  | seat (r : Ready) (cluster : Nat)
  deriving DecidableEq, Repr

/-- The first ready task that can go, in order; `holds` are the priorities and pages of tasks above
it that wait for pool (R441). -/
def State.nextOf (s : State) (stk : Fin 8) : List Ready → List (Nat × Nat) → Option Placement
  | [], _ => none
  | r :: rest, holds =>
    if !s.hasWork r then some (.retire r)
    else
      let p := s.prioOf r.t
      let need := s.needOf r.t
      let held := holds.foldl (fun n h => if p < h.1 then n + h.2 else n) 0
      let freeing := s.drover.preempts.any fun q => q.stk == stk && q.cause == r.t
      let fits : Bool := need + held ≤ s.poolFree stk
      match if freeing then none else s.slotFor stk r.t with
      | some c => if fits then some (.seat r c) else s.nextOf stk rest (holds ++ [(p, need)])
      | none => s.nextOf stk rest (if freeing && !fits then holds ++ [(p, need)] else holds)

def State.nextPlacement (s : State) (stk : Fin 8) : Option Placement :=
  if isOn s.ursol stk.val then s.nextOf stk (s.readyOn stk) [] else none

/-- A pre-emption is freeing one of these clusters for a ready task (R99, R441). -/
def State.beingFreed (s : State) (stk : Fin 8) (first width : Nat) : Bool :=
  s.drover.preempts.any fun p => p.stk == stk && p.first < first + width && first < p.first + p.width

/-- A ready task of a stack fits now (R100). -/
def State.anyFits (s : State) (stk : Fin 8) : Bool :=
  isOn s.ursol stk.val && (s.nextOf stk ((s.readyOn stk).filter s.hasWork) []).isSome

/-- YIELD's condition (R111): a ready task of equal or higher priority on the stack finds no slot, and would find
one with the clusters the task gives up, those lent to it among them (R100). -/
def State.yieldWanted (s : State) (c : Core) : Bool :=
  let stk := c.task.stk
  let without : State := { s with
    core := if s.core.id = c.id then {} else s.core
    others := s.others.filter fun d => d.id != c.id
    drover := { s.drover with loans := s.drover.loans.filter fun l => l.borrower != c.taskId } }
  (s.readyOn stk).any fun r =>
    s.hasWork r && s.prioOf c.taskId ≤ s.prioOf r.t && (s.slotFor stk r.t).isNone && (without.slotFor stk r.t).isSome

end Sys2Proof.Machine
end

