-- ==== Sys2Proof/Machine/Chunk.lean ====
section
/-!
DEFINITION. The chunks of a copy: how it is cut, which may be in flight, and what of it still writes its issuer's
scratchpad (R138, R355, R358).
-/
namespace Sys2Proof.Machine
open Sys2Proof

/-- ceil(a / b). -/
def ceilDiv (a b : Nat) : Nat := (a + b - 1) / b

/-! ## Rows and chunks (R355, R358) -/

/-- Bytes of one row in one 4 KiB block of destination addresses: the row, the offset in it, where from
and where to. -/
structure Chunk where
  row : Nat
  off : Nat
  dst : W64
  src : W64
  len : Nat
  deriving DecidableEq, Repr

/-- Where a row's destination starts. -/
def CopyCmd.rowDst (c : CopyCmd) (r : Nat) : W64 := c.hdr.va + BitVec.ofNat 64 r * c.dstr
def CopyCmd.rowSrc (c : CopyCmd) (r : Nat) : W64 := c.hdr.vb + BitVec.ofNat 64 r * c.sstr

/-- The bytes of a copy. -/
def CopyCmd.total (c : CopyCmd) : Nat := c.rows * c.rlen

/-- The chunks of a row. -/
def CopyCmd.chunksOf (c : CopyCmd) (r : Nat) : Nat := ceilDiv ((c.rowDst r).toNat % 4096 + c.rlen) 4096

/-- Chunk i of a row. -/
def CopyCmd.rowChunk (c : CopyCmd) (r i : Nat) : Chunk :=
  let d := (c.rowDst r).toNat % 4096
  let off := 4096 * i - d
  ⟨r, off, c.rowDst r + BitVec.ofNat 64 off, c.rowSrc r + BitVec.ofNat 64 off, Nat.min c.rlen (4096 * (i + 1) - d) - off⟩

/-- Chunk k of a copy, its rows counted from r on. -/
def CopyCmd.chunkFrom (c : CopyCmd) : Nat → Nat → Nat → Option Chunk
  | 0, _, _ => none
  | n + 1, r, k => if k < c.chunksOf r then some (c.rowChunk r k) else c.chunkFrom n (r + 1) (k - c.chunksOf r)

def CopyCmd.chunk (c : CopyCmd) (k : Nat) : Option Chunk := c.chunkFrom c.rows 0 k

/-- Every chunk, in row order. -/
def CopyCmd.chunks (c : CopyCmd) : List Chunk :=
  (List.range c.rows).flatMap fun r => (List.range (c.chunksOf r)).map (c.rowChunk r)

/-- An address in the scratchpad window (R192). -/
def inScratch (a : W64) : Bool := scratchBase ≤ a.toNat && a.toNat < 2 ^ 56

/-! ## Chunks in flight (R138, R358) -/

/-- Chunk m has neither landed nor failed. -/
def CopyCmd.isOpen (c : CopyCmd) (m : Nat) : Bool := !c.landed.contains m && !c.failed.contains m

/-- The open chunks with their numbers. -/
def CopyCmd.openChunks (c : CopyCmd) : List (Chunk × Nat) := c.chunks.zipIdx.filter fun q => c.isOpen q.2

/-- The open chunk into the scratchpad with the lowest destination: they complete in ascending order (R358). -/
def CopyCmd.lowestScratch (c : CopyCmd) : Option Nat :=
  ((c.openChunks.filter fun q => inScratch q.1.dst).foldl (fun (m : Option (Chunk × Nat)) q => match m with
    | some p => if q.1.dst.toNat < p.1.dst.toNat then some q else m
    | none => some q) none).map (·.2)

/-- The chunks in flight now, at most eight: the next one into the scratchpad, where the copy has a place and its
issuer is resident, and the first others in row order (R138, R358). -/
def CopyCmd.inFlight (c : CopyCmd) (res : Bool) : List Nat :=
  let scratch := if res && !c.paused then c.lowestScratch.toList else []
  scratch ++ ((c.openChunks.filter fun q => !inScratch q.1.dst).map (·.2)).take (8 - scratch.length)

/-- A chunk of the copy that may still start writes its issuer's scratchpad (R138). -/
def CopyCmd.scratchLeft (c : CopyCmd) : Bool :=
  c.openChunks.any fun q => inScratch q.1.dst && (c.fail.isNone || c.flight.contains q.2)

end Sys2Proof.Machine
end

