-- ==== Sys2Proof/Machine/Objects.lean ====
section
/-!
DEFINITION. Completion objects and fault records: the layout, the one atomic update at home, the
check at issue, and how an engine operation ends (R259-R263, R268, R269, R381, R398).
-/
namespace Sys2Proof.Machine
open Sys2Proof

/-- The fields of a completion object (R259). -/
structure Obj where
  count : Nat
  status : Nat
  flags : Nat
  rsv : Nat
  progress : Nat
  fidx : Nat
  deriving DecidableEq, Repr, Inhabited

/-- The object a 128-bit value is. -/
def Obj.ofNat (v : Nat) : Obj :=
  ⟨v % 2 ^ 32, v / 2 ^ 32 % 2 ^ 16, v / 2 ^ 48 % 2 ^ 8, v / 2 ^ 56 % 2 ^ 8, v / 2 ^ 64 % 2 ^ 32, v / 2 ^ 96 % 2 ^ 32⟩

/-- The 128-bit value of an object, every field cut to its width. -/
def Obj.toNat (o : Obj) : Nat :=
  o.count % 2 ^ 32 + (o.status % 2 ^ 16) * 2 ^ 32 + (o.flags % 2 ^ 8) * 2 ^ 48 + (o.rsv % 2 ^ 8) * 2 ^ 56
    + (o.progress % 2 ^ 32) * 2 ^ 64 + (o.fidx % 2 ^ 32) * 2 ^ 96

/-- fidx for none (R259). -/
def noIndex : Nat := 0xFFFFFFFF

/-- The common update of an ending operation (R262). -/
def Obj.complete (status progress fidx : Nat) (flags : Byte) (o : Obj) : Obj :=
  { o with count := o.count + 1, status := status, flags := o.flags ||| flags.toNat, progress := progress, fidx := fidx }

/-- count and status only: a LAUNCH object, and a trig signalled with a status (R101). -/
def Obj.report (status : Nat) (o : Obj) : Obj := { o with count := o.count + 1, status := status }

/-- count only: a trig signalled in RUNNING or CLOSING (R101). -/
def Obj.bump (o : Obj) : Obj := { o with count := o.count + 1 }

/-- ARRIVE (R268). -/
def Obj.arrive (inc flags : Nat) (o : Obj) : Obj := { o with count := (o.count + inc) % 2 ^ 32, flags := o.flags ||| flags % 256 }

/-- CSIG.sig (R269). -/
def Obj.sig (status flags : Nat) (o : Obj) : Obj :=
  { o with count := o.count + 1, status := status % 2 ^ 16, flags := o.flags ||| flags % 256 }

/-- CSIG.set (R269). -/
def Obj.set (count : Nat) (o : Obj) : Obj := ⟨count % 2 ^ 32, 0, 0, o.rsv, 0, noIndex⟩

/-- One atomic update at home by a requester (R262), NC through an NC page (R217, R218): the new state and the old
contents. -/
def objFar (ms : MemSys) (who pa : Nat) (f : Obj → Obj) (nc : Bool := false) : MemSys × Obj :=
  let r := farUpdate ms who pa 16 (fun v => (f (Obj.ofNat v)).toNat) nc
  (r.1, Obj.ofNat r.2)

/-- A hardware update, not performed where the home cannot take it (R398, R439). -/
def State.objUpdate (s : State) (who pa : Nat) (f : Obj → Obj) (nc : Bool := false) : State :=
  if reachable s.ursol pa then { s with mem := (objFar s.mem who pa f nc).1 } else s

/-- An engine's update of an object, under the ASID of its operation (R262, R392). -/
def State.objUpdateAs (s : State) (who : Nat) (asid : BitVec 14) (pa : Nat) (f : Obj → Obj) (nc : Bool) : State :=
  let t := s.objUpdate who pa f nc
  { t with mem := tagHits s.mem t.mem who asid }

/-- What a check of an object at issue finds (R261). -/
inductive ObjCheck where
  | ok (pa : Nat)
  | operand
  | fault (f : MemFault)
  deriving DecidableEq, Repr

/-- The check of a completion object at issue (R261), and of a resume object. -/
def objCheck (ms : MemSys) (u : Ursol) (c : XCtx) (va : W64) : MemSys × ObjCheck :=
  if va.toNat % 16 ≠ 0 || (scratchBase ≤ va.toNat && va.toNat < 2 ^ 56) then (ms, .operand)
  else
    let r := translate ms u c va .store
    match r.2 with
    | .error f => (r.1, .fault f)
    | .ok (.scratch _) => (r.1, .operand)
    | .ok (.leaf pa e) =>
      if pteRemote e || pteKv e || isControl pa then (r.1, .fault ⟨0x000D, va, 0⟩) else (r.1, .ok pa)

/-- The count at home, for the Fold's reports to the Drover (R91). -/
def objCount (ms : MemSys) (pa : Nat) : Nat := natOf (readBytes ms.cells pa 4)

/-- The count satisfies a target (R267). -/
def countReached (cnt t : Nat) (wrap : Bool) : Bool :=
  if wrap then (cnt + 2 ^ 32 - t) % 2 ^ 32 < 2 ^ 31 else t ≤ cnt

/-! ## Fault records (R381) -/

/-- The units that write fault records, with their codes. -/
inductive UnitCode where
  | drover | tile | builder | copy | crook
  deriving DecidableEq, Repr

def UnitCode.code : UnitCode → Nat
  | .drover => 0
  | .tile => 1
  | .builder => 2
  | .copy => 3
  | .crook => 4

/-- The 64 bytes of a fault record. -/
def recordBytes (h : OpHdr) (unit : UnitCode) (status progress fidx : Nat) : List Byte :=
  bytesOf 8 h.ipc.toNat ++ bytesOf 1 unit.code ++ bytesOf 1 0 ++ bytesOf 2 status ++ bytesOf 4 h.word.toNat ++
  bytesOf 8 h.va.toNat ++ bytesOf 8 h.vb.toNat ++ bytesOf 8 h.ve.toNat ++
  bytesOf 8 (if h.obj.isSome then h.objVa.toNat else 0) ++ bytesOf 4 progress ++ bytesOf 4 fidx ++ bytesOf 8 0

/-- How the package writes a task's frame: engine writes under the farm's ASID (R378). -/
def State.frameCtx (s : State) (t : TaskId) : XCtx :=
  engineCtx ((s.farm t.farm.val).lrec.stackOfTask t.tid) (s.farm t.farm.val).lrec.asid false 0 .drover

/-- Write bytes at an offset of a task's frame; false where the frame cannot take them. -/
def State.frameWrite (s : State) (t : TaskId) (off : Nat) (bs : List Byte) : State × Bool :=
  let r := engineStore s (s.frameCtx t) .frame (s.frameVa t + BitVec.ofNat 64 off) bs
  (r.1, match r.2 with
    | .ok _ => true
    | .error _ => false)

/-- Read bytes at an offset of a task's frame. -/
def State.frameRead (s : State) (t : TaskId) (off n : Nat) : State × Option (List Byte) :=
  let r := engineLoad s (s.frameCtx t) (s.frameVa t + BitVec.ofNat 64 off) n
  (r.1, match r.2 with
    | .ok bs => some bs
    | .error _ => none)

/-- The undelivered records of a task. -/
def Farm.undelivered (f : Farm) (tid : Nat) : List RecMark := f.recs.filter fun m => m.tid == tid && !m.delivered

/-- The first free record of a task's frame. -/
def Farm.freeRecord (f : Farm) (tid : Nat) : Option (Fin 8) :=
  (List.finRange 8).find? fun k => !(f.undelivered tid).any fun m => m.k == k

/-- A fault of an engine operation is recorded in its task's frame (R381); false where the frame
cannot take the record. -/
def State.writeRecord (s : State) (t : TaskId) (h : OpHdr) (unit : UnitCode) (status progress fidx : Nat) : State × Bool :=
  let f := s.farm t.farm.val
  match f.freeRecord t.tid with
  | none =>
    let n := fget f.lost t.tid 0 + 1
    let s := s.mapFarm t.farm.val fun f => { f with lost := finsert f.lost t.tid n }
    s.frameWrite t 0x1B0 (bytesOf 8 n)
  | some k =>
    let m : RecMark := ⟨t.tid, k, s.seq, if h.obj.isSome then some h.objVa else none, BitVec.ofNat 16 status, false⟩
    let s := { s with seq := s.seq + 1 }
    let s := s.mapFarm t.farm.val fun f => { f with recs := (f.recs.filter fun o => !(o.tid == t.tid && o.k == k)) ++ [m] }
    s.frameWrite t (0x300 + 64 * k.val) (recordBytes h unit status progress fidx)

/-- The oldest undelivered record that an observation of an object delivers, or, with none, the
oldest of all (R382). -/
def Farm.oldestRecord (f : Farm) (tid : Nat) (obj : Option W64) : Option RecMark :=
  (f.undelivered tid).find? fun m => match obj with
    | some o => m.obj == some o
    | none => true

end Sys2Proof.Machine
end

