-- ==== Sys2Proof/Machine/Frame.lean ====
section
/-!
DEFINITION. The context frame: its layout, the coding of pool pages, saving a task's context and
restoring it (R341, R378-R380, R391).
-/
namespace Sys2Proof.Machine
open Sys2Proof

/-! ## Coded pool pages (R380) -/

/-- How many words at the head of a list equal w. -/
def runLen (w : W32) : List W32 → Nat
  | [] => 0
  | v :: r => if v = w then runLen w r + 1 else 0

/-- The words up to the next two equal ones. -/
def literalRun : List W32 → List W32
  | [] => []
  | [w] => [w]
  | w :: v :: r => if w = v then [] else w :: literalRun (v :: r)

def wordsBytes (ws : List W32) : List Byte := ws.flatMap fun w => bytesOf 4 w.toNat

/-- The tokens of a list of words. -/
def codeWords : Nat → List W32 → List Byte
  | 0, _ => []
  | _, [] => []
  | fuel + 1, w :: r =>
    let n := runLen w r + 1
    if 2 ≤ n then
      if w = 0 then
        let k := Nat.min n 64
        BitVec.ofNat 8 (0x7F + k) :: codeWords fuel ((w :: r).drop k)
      else
        let k := Nat.min n 65
        BitVec.ofNat 8 (0xBE + k) :: bytesOf 4 w.toNat ++ codeWords fuel ((w :: r).drop k)
    else
      let l := (literalRun (w :: r)).take 128
      BitVec.ofNat 8 (l.length - 1) :: wordsBytes l ++ codeWords fuel ((w :: r).drop l.length)

/-- n words of a byte string; none where it is cut off. -/
def takeWords : Nat → List Byte → Option (List W32 × List Byte)
  | 0, bs => some ([], bs)
  | n + 1, a :: b :: c :: d :: r =>
    match takeWords n r with
    | some (ws, r') => some (BitVec.ofNat 32 (natOf [a, b, c, d]) :: ws, r')
    | none => none
  | _ + 1, _ => none

/-- The words a token sequence produces; none for one that is cut off. -/
def decodeWords : Nat → List Byte → Option (List W32)
  | 0, _ => none
  | _, [] => some []
  | fuel + 1, t :: r =>
    let n := t.toNat
    if n < 0x80 then
      match takeWords (n + 1) r with
      | some (ws, r') => (decodeWords fuel r').map (ws ++ ·)
      | none => none
    else if n < 0xC0 then (decodeWords fuel r).map (List.replicate (n - 0x7F) 0 ++ ·)
    else
      match takeWords 1 r with
      | some (ws, r') => (decodeWords fuel r').map (List.replicate (n - 0xBE) (ws.headD 0) ++ ·)
      | none => none

/-! ## Stream records (R341) -/

/-- The 64-byte form of a stream record; of an unbound one, zeros (R342). -/
def StreamRec.bytes (r : StreamRec) : List Byte :=
  if r.bound then
    bytesOf 8 r.cur.toNat ++ bytesOf 8 (r.fin.toNat + r.rad.toNat * 2 ^ 24) ++ bytesOf 32 r.qsig.toNat ++
    bytesOf 4 r.skip.toNat ++ bytesOf 4 r.dgid.toNat ++
    bytesOf 8 (1 + (if r.sig then 2 else 0) + (if r.clr then 4 else 0))
  else List.replicate 64 0

/-- The record in 64 bytes at an offset of a byte string. -/
def StreamRec.ofNat (v : Nat) : StreamRec where
  cur := BitVec.ofNat 64 v
  fin := BitVec.ofNat 24 (v / 2 ^ 64)
  rad := BitVec.ofNat 9 (v / 2 ^ 88)
  qsig := BitVec.ofNat 256 (v / 2 ^ 128)
  skip := BitVec.ofNat 32 (v / 2 ^ 384)
  dgid := BitVec.ofNat 32 (v / 2 ^ 416)
  bound := v.testBit 448
  sig := v.testBit 449
  clr := v.testBit 450

/-- A reserved bit of the 64-byte form is set. -/
def streamReserved (v : Nat) : Bool := v / 2 ^ 97 % 2 ^ 31 != 0 || v / 2 ^ 451 % 2 ^ 61 != 0

/-! ## Watchpoints in the frame (R391) -/

def Watch.toNat (w : Watch) : Nat := w.va.toNat + w.kind.toNat * 2 ^ 112 + w.lg.toNat * 2 ^ 114

def Watch.ofNat (v : Nat) : Watch := ⟨BitVec.ofNat 6 (v / 2 ^ 114), BitVec.ofNat 2 (v / 2 ^ 112), BitVec.ofNat 56 v⟩

def watchReserved (v : Nat) : Bool := v / 2 ^ 56 % 2 ^ 56 != 0 || v / 2 ^ 120 % 2 ^ 8 != 0

/-! ## Saving (R379) -/

/-- The words of pool page k in the directory's order: squares, then scratchpad pages (R378). -/
def TaskPart.pageWords (t : TaskPart) (k : Nat) : List W32 :=
  if k < t.sq then (List.range 1024).map fun i => fget t.cells (1024 * k + i) 0
  else (List.range 1024).map fun i => BitVec.ofNat 32 (natOf (readBytes t.scratch (4096 * (k - t.sq) + 4 * i) 4))

/-- The dirty mark of a page in the directory's order (R139). -/
def TaskPart.pageDirty (t : TaskPart) (k : Nat) : Bool :=
  if k < t.sq then fget t.dirty k false else fget t.dirty (64 + (k - t.sq)) false

/-- A page's image and its directory entry (R378, R380). -/
def pageImage (ws : List W32) : List Byte × Nat :=
  let c := codeWords 1024 ws
  if 4096 < c.length then (wordsBytes ws, 2 ^ 31 + 2 ^ 30 + 4096) else (c, 2 ^ 31 + c.length)

/-- The header's fields as hardware writes them at a save, by offset: the resume pc, with the bits of an entry address
above the address range, the fault's level and kind, the records never used. -/
def headerFields (c : Core) (resume : VAddr) (level kind lost : Nat) (unused : List Nat) : List (Nat × List Byte) :=
  let t := c.task
  let d := fun v => bytesOf 8 v
  let blk := t.block
  [(0x000, d 0 ++ ((List.range 31).flatMap fun i => d (fget c.x (i + 1) 0).toNat)),
   (0x100, d (resume.toNat + 2 ^ 56 * t.entryHigh.toNat) ++ d ((blk.map fun (b : Block) => b.bpc.toNat).getD 0) ++ d t.vl.toNat ++ d t.vstart.toNat ++
      d c.flags.toNat ++ d t.tmask.toNat ++ d c.epc.toNat ++ d c.cause.toNat ++ d c.info.toNat ++ d t.frec.toNat),
   (0x150, (List.range 7).flatMap fun i => bytesOf 4 (fget t.m (i + 1) 0).toNat),
   (0x170, d (if t.held then t.sbase.toNat else 2 ^ 64 - 1) ++ bytesOf 4 t.strip.toNat),
   (0x180, d (kind % 8 + 16 * (level % 4)) ++ d 0),
   (0x1A0, d 0 ++ d t.buf.length ++ d lost ++ d ((if t.step then 1 else 0) + (if t.sjoin then 2 else 0))),
   (0x1C0, (List.range 4).flatMap fun i => bytesOf 16 (fget t.watches i {}).toNat),
   (0x200, (List.range 4).flatMap fun i => (fget t.streams i {}).bytes)] ++
  (unused.map fun k => (0x300 + 64 * k, List.replicate 64 0)) ++
  [(0x500, (List.range 32).flatMap fun i => d (if i = 0 then 0 else ((blk.map fun (b : Block) => fget b.bc i 0).getD 0).toNat)),
   (0x600, List.replicate 0xA00 0)]

/-- Write segments of a frame, one after another. -/
def State.frameWrites (s : State) (t : TaskId) : List (Nat × List Byte) → State × Bool
  | [] => (s, true)
  | (off, bs) :: rest =>
    let r := s.frameWrite t off bs
    if r.2 then State.frameWrites r.1 t rest else r

/-- The strip buffer image of some entries, 16 bytes for each, in the part's own format (FREE VALUE, log entry 8). -/
def bufferImage (free : Nat) (buf : List BufElem) : List Byte := (List.range (16 * buf.length)).map (Config.bufferByte free)

/-- Save a task's context into its frame (R378, R379, R384): the header, the pool directory, the strip buffer image
and the images of the dirty pages. -/
def State.saveFrame (s : State) (t : TaskId) (c : Core) (resume : VAddr) (level kind : Nat) : State × Bool :=
  let f := s.farm t.farm.val
  let unused := (List.range 8).filter fun k => !f.recs.any fun m => m.tid == t.tid && m.k.val == k
  let n := c.task.sq + c.task.scr
  let dirty := (List.range n).filter c.task.pageDirty
  let images := dirty.map fun k => (k, pageImage (c.task.pageWords k))
  let entry := fun k => match images.find? (fun p => p.1 == k) with
    | some p => p.2.2
    | none => 0
  let r := s.frameWrites t (headerFields c resume level kind (fget f.lost t.tid 0) unused ++
    (if n = 0 then [] else [(0x1000, (List.range n).flatMap fun k => bytesOf 4 (entry k))]) ++
    (if c.task.buf.isEmpty then [] else [(0x2000, bufferImage s.free c.task.buf)]) ++
    images.map fun p => (0xA000 + 4096 * p.1, p.2.1))
  (if c.task.buf.isEmpty then r.1 else { r.1 with free := r.1.free + 1 }, r.2)

/-! ## Restoring (R378, R379) -/

/-- n bytes at an offset of a byte string, as a number. -/
def numAt (bs : List Byte) (off n : Nat) : Nat := natOf ((bs.drop off).take n)

/-- The header holds only what R379 allows: reserved fields zero, control words in range, positions
aligned and below 2^56. -/
def headerOk (h : List Byte) : Bool :=
  let d := numAt h
  d 0 8 == 0 && d 0x110 8 ≤ 32 && d 0x118 8 < 32 && d 0x120 8 < 256 && d 0x128 8 < 256 &&
  d 0x130 8 < 2 ^ 56 && d 0x138 8 < 2 ^ 17 && d 0x180 8 < 64 && !(d 0x180 8).testBit 3 && d 0x188 8 < 4 && d 0x1B8 8 < 4 &&
  ((List.range 4).all fun i => !watchReserved (d (0x1C0 + 16 * i) 16)) &&
  ((List.range 4).all fun i => !streamReserved (d (0x200 + 64 * i) 64)) &&
  d 0x148 8 / 2 ^ 56 % 2 ^ 7 == 0 && ((List.range 8).all fun k => d (0x338 + 64 * k) 8 == 0 && d (0x309 + 64 * k) 1 < 2) &&
  d 0x100 8 % 4 == 0 && d 0x100 8 < 2 ^ 56 && d 0x108 8 % 8 == 0 && d 0x108 8 < 2 ^ 56 &&
  (h.drop 0x600).all fun b => b == 0

/-- The words of a saved page from its directory entry and its image's bytes. -/
def pageOf (e : Nat) (img : List Byte) : Option (List W32) :=
  if e.testBit 30 then (takeWords 1024 img).map fun p => p.1
  else match decodeWords 1025 img with
    | some ws => if ws.length = 1024 then some ws else none
    | none => none

/-- A directory entry is well formed (R378). -/
def entryOk (e : Nat) : Bool :=
  e / 2 ^ 13 % 2 ^ 17 == 0 && (!e.testBit 31 || (1 ≤ e % 2 ^ 13 && e % 2 ^ 13 ≤ 4096 && (!e.testBit 30 || e % 2 ^ 13 == 4096)))

/-- How reading a frame ends: a context, contents that fail the restore, or no frame. -/
inductive Restored where
  | context (c : Core) (action : Nat)
  | bad
  | unusable
  deriving DecidableEq, Repr

/-- List words under keys from a start on. -/
def putWords (m : FMap W32) (k : Nat) : List W32 → FMap W32
  | [] => m
  | w :: r => putWords (fset m k w 0) (k + 1) r

/-- Put a restored page into the pool, with its dirty mark (R139). -/
def TaskPart.putPage (t : TaskPart) (k : Nat) (ws : List W32) : TaskPart :=
  if k < t.sq then { t with cells := putWords t.cells (1024 * k) ws, dirty := fset t.dirty k true false }
  else { t with
    scratch := writeBytes t.scratch (4096 * (k - t.sq)) (wordsBytes ws)
    dirty := fset t.dirty (64 + (k - t.sq)) true false }

/-- Read the saved pages of a frame back into the pool. -/
def State.restorePages (s : State) (t : TaskId) (dir : List Byte) (p : TaskPart) : List Nat → State × Option (Option TaskPart)
  | [] => (s, some (some p))
  | k :: rest =>
    let e := numAt dir (4 * k) 4
    if !entryOk e then (s, some none)
    else if !e.testBit 31 then State.restorePages s t dir p rest
    else
      let r := s.frameRead t (0xA000 + 4096 * k) (e % 2 ^ 13)
      match r.2 with
      | none => (r.1, none)
      | some img =>
        match pageOf e img with
        | none => (r.1, some none)
        | some ws => State.restorePages r.1 t dir (p.putPage k ws) rest

/-- The core a header describes, on the slot the task is placed on. -/
def coreOfHeader (h : List Byte) (t : TaskId) (asid : BitVec 14) (p : TaskPart) : Core :=
  let d := numAt h
  let bpc := d 0x108 8
  { id := .task t
    x := (List.range 31).foldl (fun m i => fset m (i + 1) (BitVec.ofNat 64 (d (8 * (i + 1)) 8)) 0) []
    pc := BitVec.ofNat 56 (d 0x100 8)
    asid := asid
    flags := BitVec.ofNat 8 (d 0x120 8)
    epc := BitVec.ofNat 56 (d 0x130 8)
    cause := BitVec.ofNat 17 (d 0x138 8)
    info := BitVec.ofNat 64 (d 0x140 8)
    task := { p with
      vl := BitVec.ofNat 6 (d 0x110 8)
      vstart := BitVec.ofNat 5 (d 0x118 8)
      tmask := BitVec.ofNat 8 (d 0x128 8)
      frec := BitVec.ofNat 64 (d 0x148 8)
      m := (List.range 7).foldl (fun m i => fset m (i + 1) (BitVec.ofNat 32 (d (0x150 + 4 * i) 4)) 0) []
      sbase := BitVec.ofNat 64 (d 0x170 8)
      strip := BitVec.ofNat 32 (d 0x178 4)
      held := d 0x170 8 != 2 ^ 64 - 1
      step := (d 0x1B8 8).testBit 0
      sjoin := (d 0x1B8 8).testBit 1
      watches := (List.range 4).foldl (fun m i => fset m i (Watch.ofNat (d (0x1C0 + 16 * i) 16)) {}) []
      streams := (List.range 4).foldl (fun m i => fset m i (StreamRec.ofNat (d (0x200 + 64 * i) 64)) {}) []
      block := if bpc = 0 then none else
        some ⟨BitVec.ofNat 56 bpc, BitVec.ofNat 56 bpc, [],
          (List.range 31).foldl (fun m i => fset m (i + 1) (BitVec.ofNat 64 (d (0x508 + 8 * i) 8)) 0) []⟩ } }

/-- A block that a frame restores began where it began before the park, unless firmware has moved its next word (R102,
R379). -/
def Block.resumed (b : Block) (kept : Option (VAddr × VAddr)) : Block :=
  match kept with
  | some q => if q.2 = b.bpc then { b with start := q.1 } else b
  | none => b

/-- The strip buffer image that a frame holds: as saved, changed, or not readable (R384; log entry 8). -/
def State.imageStands (s : State) (t : TaskId) (image : List Byte) : State × Option Bool :=
  if image.isEmpty then (s, some true)
  else
    let r := s.frameRead t 0x2000 image.length
    (r.1, r.2.map fun bs => bs == image)

/-- Read a task's context back from its frame into a slot's part p, whose share is set; `image` is the strip buffer
image that was saved. -/
def State.restoreFrame (s : State) (t : TaskId) (p : TaskPart) (image : List Byte) : State × Restored :=
  let n := p.sq + p.scr
  let r := s.frameRead t 0 4096
  match r.2 with
  | none => (r.1, .unusable)
  | some h =>
    let q := r.1.frameRead t 0x1000 (4 * n)
    match q.2 with
    | none => (q.1, .unusable)
    | some dir =>
      if !headerOk h then (q.1, .bad)
      else
        let b := q.1.imageStands t image
        match b.2 with
        | none => (b.1, .unusable)
        | some false => (b.1, .bad)
        | some true =>
          let g := b.1.restorePages t dir p (List.range n)
          match g.2 with
          | none => (g.1, .unusable)
          | some none => (g.1, .bad)
          | some (some p) => (g.1, .context (coreOfHeader h t (s.farm t.farm.val).lrec.asid p) (numAt h 0x188 8))

end Sys2Proof.Machine
end

