-- ==== Sys2Proof/Machine/Ops.lean ====
section
/-!
DEFINITION. What every instruction's step shares: taking an exception and returning from one, parking,
retiring, strips, triggers and the end of a task (R96, R100, R101, R109, R110, R131, R132, R374-R391).
-/
namespace Sys2Proof.Machine
open Sys2Proof

/-! ## Engine operations in flight -/

/-- Every engine operation in flight, by its header. -/
def State.opHdrs (s : State) : List OpHdr :=
  s.dram.cmds.map (·.hdr) ++ s.dram.banks.flatMap (fun (b : Nat × Bank) => b.2.objs) ++ s.tiles.cmds.map (·.hdr) ++ s.tiles.runs.map (·.hdr) ++
  s.eng.buildQ.flatMap (fun (q : Nat × List BuildCmd) => q.2.map (·.hdr)) ++
  s.eng.buildRun.flatMap (fun (q : Nat × Option TbldRun) => q.2.toList.map (·.hdr)) ++
  s.eng.buildAside.flatMap (fun (q : Nat × List TbldRun) => q.2.map (·.hdr)) ++
  s.eng.copyQ.flatMap (fun (q : Nat × List CopyCmd) => q.2.map (·.hdr)) ++ s.eng.copyRun.flatMap (fun (q : Nat × List CopyCmd) => q.2.map (·.hdr)) ++
  s.eng.kvQ.flatMap (fun (q : Nat × List KvCmd) => q.2.map (·.hdr)) ++ s.eng.launches

/-- A task has engine operations that have not completed. -/
def State.opsPending (s : State) (t : TaskId) : Bool := s.opHdrs.any fun h => h.core == .task t

/-! ## Strips and triggers -/

/-- The Drover's number as a requester at a home (R219). -/
def droverAgent : Nat := engineNo .drover 0

/-- An update the Drover makes to an object it translated when the farm took its slot; skipped and
logged where it cannot be made (R101). -/
def State.signalObject (s : State) (asid : BitVec 14) (pa : Option Nat) (va : W64) (f : Obj → Obj) (nc : Bool) : State :=
  match pa with
  | some p => if reachable s.ursol p then s.objUpdateAs droverAgent asid p f nc else s.log (.unreachable va)
  | none => s.log (.unreachable va)

/-- Signal trig, at most once (R101, R109). -/
def State.signalTrig (s : State) (slot : Nat) (status : Option Nat) : State :=
  let f := s.farm slot
  if f.trigSignalled then s
  else
    let s := s.mapFarm slot fun f => { f with trigSignalled := true }
    if f.lrec.trig = 0 then s
    else s.signalObject f.lrec.asid f.trigPa f.lrec.trig (fun o => match status with
      | some c => o.report c
      | none => o.bump) f.trigNc

/-- Signal trig once every task of the farm is triggered: a release at .sys that covers what each of its
tasks had performed when it came to count as triggered, by ETRIG or by an end or a discard (R92, R109). -/
def State.trigCheck (s : State) (slot : Nat) : State :=
  let f := s.farm slot
  if f.st == .running && f.triggered.length == f.lrec.tasks && !f.trigSignalled then
    ({ s with mem := f.lrec.rect.foldl releaseWide s.mem }).signalTrig slot (if f.aborted then some 0x0401 else none)
  else s

/-- A task counts as triggered (R109). -/
def State.markTriggered (s : State) (t : TaskId) : State :=
  if (s.farm t.farm.val).triggered.contains t.tid then s
  else (s.mapFarm t.farm.val fun f => { f with triggered := f.triggered ++ [t.tid] }).trigCheck t.farm.val

/-- A strip base is reported as discarded (R101, R386 step 2). -/
def State.reportDiscard (s : State) (t : TaskId) (base : W64) : State :=
  (s.mapFarm t.farm.val fun f => { f with discarded := f.discarded ++ [base.toNat] }).markTriggered t

/-- Clusters lent to a task go back at its strip boundary when their owner is ready (R100); an owner that has been placed
on another slot is not ready, and the loan runs on (DESIGN CHOICE, log entry 49). -/
def State.returnLoans (s : State) (t : TaskId) : State :=
  { s with drover := { s.drover with
      loans := s.drover.loans.filter fun l => !(l.borrower == t && s.drover.ready.any fun r => r.t == l.owner) } }

/-- Claim the farm's next strip: base and length (R96). -/
def State.claimStrip (s : State) (t : TaskId) : State × Option (Nat × Nat) :=
  let s := s.returnLoans t
  let f := s.farm t.farm.val
  if f.stripLeft then
    (s.mapFarm t.farm.val fun f => { f with nextBase := f.nextBase + f.lrec.slen },
      some (f.nextBase, Nat.min f.lrec.slen (f.lrec.iters - f.nextBase)))
  else (s, none)

/-! ## Leaving the SVP -/

/-- A task is no longer resident: its core and its staging go, its copies with chunks left into its scratchpad give
up their places, loans to it end, and a pre-emption waits for it no more (R100, R138, R139, R389). -/
def State.dropCore (s : State) (t : TaskId) : State :=
  { s with
    eng := { s.eng with
      staging := s.eng.staging.filter fun g => g.t != t
      copyRun := s.eng.copyRun.map fun (q : Nat × List CopyCmd) =>
        (q.1, q.2.map fun c => { c with paused := c.paused || (c.scratch && c.hdr.core == .task t && c.scratchLeft) }) }
    core := if s.core.id = .task t then {} else s.core
    others := s.others.filter fun c => c.id != .task t
    drover := { s.drover with
      loans := s.drover.loans.filter fun l => l.borrower != t
      preempts := s.drover.preempts.map fun p => { p with due := p.due.filter fun u => u != .hart t } } }

/-- Started ADRNs of a task that leaves have written their cells (R138). -/
def applyCells (p : TaskPart) (cells : List (Nat × W32)) : TaskPart :=
  { p with
    cells := cells.foldl (fun m c => fset m c.1 c.2 0) p.cells
    dirty := cells.foldl (fun m c => fset m (c.1 / 1024) true false) p.dirty }

/-- Write the cells of a task's started ADRNs into its squares now. -/
def State.landAdrn (s : State) (t : TaskId) : State :=
  let mine := s.tiles.runs.filter fun r => r.hdr.core == .task t
  if mine.isEmpty then s
  else
    let s := s.mapCore (.task t) fun c => { c with task := mine.foldl (fun p r => applyCells p r.cells) c.task }
    { s with tiles := { s.tiles with
        runs := s.tiles.runs.map fun r => if r.hdr.core == .task t then { r with cells := [] } else r } }

/-- Save a resident task into its frame and free its slot and pool (R138, R376, R388); one that cannot be saved keeps
them until it ends (R378). -/
def State.unseat (s : State) (t : TaskId) (resume : VAddr) (level kind : Nat) : State × Bool :=
  let s := s.landAdrn t
  match s.findCore (.task t) with
  | none => (s, false)
  | some c =>
    let r := s.saveFrame t c resume level kind
    if r.2 then (r.1.dropCore t, true) else (r.1, false)

/-- What is kept of a task beside its frame; `free` is the counter as its save found it. -/
def parkedOf (free : Nat) (t : TaskId) (c : Core) (w : Wake) : Parked where
  t := t
  stk := c.task.stk
  wake := w
  buf := c.task.buf
  aps := c.task.aps
  triggered := c.task.triggered
  held := if c.task.held then some c.task.sbase else none
  flags := c.flags
  joinOp := c.task.joinOp
  image := bufferImage free c.task.buf
  scratch := c.task.scratch
  watchHit := c.task.watchHit
  block := c.task.block.map fun b => (b.start, b.bpc)

/-- Clusters a parked task gave up are lent to a running sibling when no ready task takes them, nor will when a
pre-emption that frees them is complete (R100). -/
def State.lend (s : State) (t : TaskId) (stk : Fin 8) (first width : Nat) : State :=
  if s.anyFits stk || s.beingFreed stk first width then s
  else
    if (List.range width).any fun k => s.clusterUsed stk (first + k) then s
    else
      let sibs := sortByRank (fun c => 8 - c.task.cluster.val) ((s.running stk).filter fun c => c.taskId.farm == t.farm && c.id != .task t)
      match sibs with
      | [] => s
      | c :: _ => { s with drover := { s.drover with loans := s.drover.loans ++ [⟨stk, first, width, t, c.taskId⟩] } }

/-! ## The end of a task (R110) -/

/-- A task ends: its flags and its held strip are reported, it counts as exited and triggered, and
nothing of it stays anywhere (R110, R378, R382). -/
def State.endTask (s : State) (t : TaskId) (flags : Byte) (held : Option W64) : State :=
  if (s.farm t.farm.val).ended.contains t.tid then s else
  let close := fun (f : Farm) => { f with
    flags := f.flags ||| flags
    discarded := f.discarded ++ held.toList.map (·.toNat)
    ended := f.ended ++ [t.tid]
    triggered := if f.triggered.contains t.tid then f.triggered else f.triggered ++ [t.tid]
    faultTask := if f.faultTask.isNone && !(f.undelivered t.tid).isEmpty then some t.tid else f.faultTask }
  let s := (s.mapFarm t.farm.val close).dropCore t
  let s := { s with
    parked := s.parked.filter fun p => p.t != t
    service := s.service.map fun (q : Nat × List SvcEntry) => (q.1, q.2.filter fun e => e.t != t)
    drover := { s.drover with
      ready := s.drover.ready.filter fun r => r.t != t
      ending := s.drover.ending.filter fun e => e.t != t } }
  s.trigCheck t.farm.val

/-- A task waits for its engine operations to end. -/
def State.isEnding (s : State) (t : TaskId) : Bool := s.drover.ending.any fun e => e.t == t

/-- A task ends as EXIT does (R110): at once, or, while engine operations of it have not completed, when they have.
A resident one keeps its slot and pool until then; of one that is not, `scratch` is its scratchpad. One that was pre-empted
and has not been placed again since goes on as a victim (R388). -/
def State.endAsExit (s : State) (t : TaskId) (flags : Byte) (held : Option W64) (scratch : FMap Byte) (victim : Bool := false) : State :=
  if s.isEnding t || (s.farm t.farm.val).ended.contains t.tid then s
  else if s.opsPending t then
    { s with
      parked := s.parked.filter fun p => p.t != t
      service := s.service.map fun (q : Nat × List SvcEntry) => (q.1, q.2.filter fun e => e.t != t)
      drover := { s.drover with
        ready := s.drover.ready.filter fun r => r.t != t
        ending := s.drover.ending ++ [({
          t := t, flags := flags, held := held, scratch := if (s.findCore (.task t)).isSome then [] else scratch
          victim := victim || s.parked.any fun p => p.t == t && p.victim } : Ending)] } }
  else s.endTask t flags held

/-- The tasks whose last engine operation has completed end (R110). -/
def State.endDue (s : State) : State :=
  s.drover.ending.foldl (fun s e => if s.opsPending e.t then s else s.endTask e.t e.flags e.held) s

/-- A task that ends gives up its slot and pool to a pre-emption; what its copies still read and write is kept. -/
def State.leaveEnding (s : State) (t : TaskId) : State :=
  match s.findCore (.task t) with
  | none => s
  | some c =>
    ({ s with drover := { s.drover with ending := s.drover.ending.map fun (e : Ending) => if e.t == t then { e with scratch := c.task.scratch } else e } }).dropCore t

/-- The scratchpad that a copy of a task reads: of a task that is not resident, as it was when it left (R138). -/
def State.scratchOf (s : State) (id : CoreId) : FMap Byte :=
  match s.findCore id with
  | some c => c.task.scratch
  | none =>
    match s.parked.find? fun p => id == .task p.t with
    | some p => p.scratch
    | none => ((s.drover.ending.find? fun e => id == .task e.t).map (·.scratch)).getD []

/-- A copy writes bytes into its issuer's scratchpad. -/
def State.writeScratchOf (s : State) (id : CoreId) (off : Nat) (bs : List Byte) : State :=
  let s := s.mapCore id fun c => { c with task := c.task.writeScratch off bs }
  let put := fun (e : Ending) => if id == CoreId.task e.t then { e with scratch := writeBytes e.scratch off bs } else e
  if (s.findCore id).isSome then s else { s with drover := { s.drover with ending := s.drover.ending.map put } }

/-- The held base of a task, if it holds a strip. -/
def TaskPart.heldBase (p : TaskPart) : Option W64 := if p.held then some p.sbase else none

/-- A task's frame cannot be used: the farm's done object will say so, and Ursol logs it (R101, R378). -/
def State.frameFails (s : State) (t : TaskId) : State :=
  (s.log (.frameUnusable (s.frameVa t))).mapFarm t.farm.val fun f => { f with frameLost := true }

/-- A frame that cannot be used ends its task, as EXIT does (R378). -/
def State.frameUnusable (s : State) (t : TaskId) (flags : Byte) (held : Option W64) (scratch : FMap Byte := []) (victim : Bool := false) : State :=
  (s.frameFails t).endAsExit t flags held scratch victim

/-- End a task whose frame took no record, wherever it is (R381). -/
def State.endLost (s : State) (t : TaskId) : State :=
  match s.findCore (.task t) with
  | some c => s.frameUnusable t c.flags c.task.heldBase
  | none =>
    match s.parked.find? fun p => p.t == t with
    | some p => s.frameUnusable t p.flags p.held p.scratch
    | none => s.frameFails t

/-! ## Taking an exception (R132, R375, R376) -/

/-- An exception: its code, the info word, the address of the instruction, the scalar resume pc, the
detail of a memory fault, and the fault record an engine fault delivers. -/
structure TrapInfo where
  code : Nat
  info : W64
  epc : VAddr
  resume : VAddr
  level : Nat := 0
  kind : Nat := 0
  frec : Option W64 := none
  deriving DecidableEq, Repr

/-- The trap words of a core (R128): frec is valid only after a delivered record. -/
def Core.trapWords (c : Core) (t : TrapInfo) : Core :=
  { c with
    epc := t.epc
    cause := BitVec.ofNat 17 (t.code % 2 ^ 16 + if t.frec.isSome then 2 ^ 16 else 0)
    info := t.info
    task := { c.task with frec := match t.frec with
      | some a => BitVec.ofNat 64 (2 ^ 63 + a.toNat % 2 ^ 56)
      | none => 0 } }

/-- A trap on a supervisor core enters its handler, or halts the core inside one (R132). -/
def State.supTrap (s : State) (k : Fin 8) (t : TrapInfo) : State :=
  let c := s.core
  if c.sup.inh then
    ({ s with core := { c with sup := { c.sup with halted := true } } }).log (.supHalted k.val)
  else
    { s with core := { c with
        epc := t.epc
        cause := BitVec.ofNat 17 (t.code % 2 ^ 16)
        info := t.info
        pc := c.sup.svec
        sup := { c.sup with inh := true } } }

/-- The physical address of a task's resume object, which takes the object's writes, and whether they are NC (R217,
R377). -/
def State.resumeObject (s : State) (t : TaskId) : State × Option (Nat × Bool) :=
  let va := s.frameVa t + 0x190
  let r := translate s.mem s.ursol (s.frameCtx t) va .frame
  let s := { s with mem := r.1 }
  match r.2 with
  | .ok (.leaf pa e) => (s, if !pteRemote e && reachable s.ursol pa then some (pa, effPol e .dflt == .nc) else none)
  | _ => (s, none)

/-- A parked task joins its stack's service queue; the queue is linked through the frames (R376). -/
def State.enqueueService (s : State) (t : TaskId) (stk : Fin 8) : State :=
  let q := fget s.service stk.val []
  let s := match q.getLast? with
    | some e => (s.frameWrite e.t 0x1A0 (bytesOf 8 (s.frameVa t).toNat)).1
    | none => s
  { s with service := finsert s.service stk.val (q ++ [⟨t, s.frameVa t⟩]) }

/-- A hart trap parks its task (R376, R377): a release at .stack, the context in the frame, the resume
object as CSIG.set with count 0 leaves it, the service queue. -/
def State.parkTrap (s : State) (t : TaskId) (i : TrapInfo) : State :=
  let c := s.core.trapWords i
  let free := s.free
  let s := { s with core := c, mem := releaseWide s.mem c.agent }
  let r := s.unseat t i.resume i.level i.kind
  if r.2 then
    let o := r.1.resumeObject t
    match o.2 with
    | none => o.1.frameUnusable t c.flags c.task.heldBase c.task.scratch
    | some (pa, nc) =>
      let s := o.1.objUpdateAs droverAgent c.asid pa (Obj.set 0) nc
      let s := { s with parked := s.parked ++ [parkedOf free t c (.resume pa false)] }
      (s.enqueueService t c.task.stk).lend t c.task.stk c.task.cluster.val (hwWidth c.task.hw)
  else r.1.frameUnusable t c.flags c.task.heldBase

/-- TAKING AN EXCEPTION, on whichever core is current. -/
def State.takeTrap (s : State) (i : TrapInfo) : State :=
  match s.core.id with
  | .sup k => s.supTrap k i
  | .task t => s.parkTrap t i
  | .none => s

/-- RETURN FROM AN EXCEPTION on a supervisor core (R132). The pc takes any epc; one that is no multiple of 4 faults at the
fetch that follows (DESIGN CHOICE, log entry 49). -/
def State.returnFromTrap (s : State) : State :=
  { s with core := { s.core with pc := s.core.epc, sup := { s.core.sup with inh := false } } }

/-! ## Exceptions of a scalar and of an element instruction -/

/-- A precise trap at the scalar instruction at the pc, which runs again after it. -/
def State.trapAt (s : State) (code : Nat) (info : W64) : State :=
  s.takeTrap { code := code, info := info, epc := s.core.pc, resume := s.core.pc }

/-- A precise memory fault of the scalar instruction at the pc (R199, R375). -/
def State.memTrap (s : State) (f : MemFault) (k : AccKind) : State :=
  s.takeTrap { code := f.code, info := f.va, epc := s.core.pc, resume := s.core.pc, level := f.level, kind := k.code }

/-- The address of the running block's next word. -/
def Core.bpc (c : Core) : VAddr :=
  match c.task.block with
  | some b => b.bpc
  | none => 0

/-- A precise trap at the element instruction that runs (R103, R245). -/
def State.trapE (s : State) (code : Nat) (info : W64) : State :=
  s.takeTrap { code := code, info := info, epc := s.core.bpc, resume := s.core.pc }

def State.memTrapE (s : State) (f : MemFault) (k : AccKind) : State :=
  s.takeTrap { code := f.code, info := f.va, epc := s.core.bpc, resume := s.core.pc, level := f.level, kind := k.code }

/-- The word of the element instruction that runs (R75). -/
def Core.eword (c : Core) : W64 :=
  match c.task.block with
  | some b => b.words.headD 0
  | none => 0

/-- The illegal-operand trap of an element instruction (R75). -/
def State.operandE (s : State) : State := s.trapE 0x0002 s.core.eword

/-! ## Retiring -/

/-- A scalar instruction retires and the scalar stream goes to `next`; a watched access (R391) or single
step (R390) traps after it. -/
def retire (s : State) (next : VAddr) : Out :=
  let c := s.core
  if c.id.isTask then
    match c.task.watchHit with
    | some a =>
      .next (({ s with core := { c with task := { c.task with watchHit := none } } }).takeTrap
        { code := 0x0022, info := BitVec.ofNat 64 a, epc := c.pc, resume := next })
    | none =>
      if c.task.step && c.task.joinOp.isNone then
        .next (s.takeTrap { code := 0x0021, info := next.setWidth 64, epc := c.pc, resume := next })
      else .next { s with core := { c with pc := next } }
  else .next { s with core := { c with pc := next } }

/-- Retire to the word after this one (R123). -/
def retireNext (s : State) : Out := retire s (s.core.pc + 4)

/-- Write a scalar register and retire. -/
def retireWith (s : State) (d : Reg) (v : W64) : Out := retireNext { s with core := s.core.setReg d v }

/-- The block moves past the element instruction that has completed, and vstart is 0 (R144). -/
def TaskPart.pastWord (p : TaskPart) : TaskPart :=
  { p with vstart := 0, block := p.block.map fun b => { b with bpc := b.bpc + 8, words := b.words.tail } }

/-- An element instruction has completed for all its cells. -/
def retireE (s : State) : Out :=
  let c := s.core
  let c' := { c with task := c.task.pastWord }
  match c.task.watchHit with
  | some a =>
    .next (({ s with core := { c' with task := { c'.task with watchHit := none } } }).takeTrap
      { code := 0x0022, info := BitVec.ofNat 64 a, epc := c.bpc, resume := c.pc })
  | none =>
    if c.task.step then
      .next (({ s with core := c' }).takeTrap
        { code := 0x0021, info := (c.bpc + 8).setWidth 64, epc := c.bpc, resume := c.pc })
    else .next { s with core := c' }

/-! ## Discarding a strip (R386) -/

/-- The registers of a task at entry with a strip (R97). -/
def entryRegs (f : Farm) (tid base : Nat) : FMap W64 :=
  [(2, f.lrec.sbase + BitVec.ofNat 64 ((tid + 1) * f.lrec.ssz)), (3, f.lrec.args), (4, BitVec.ofNat 64 base),
   (5, BitVec.ofNat 64 tid)].filter fun p => p.2 != 0

/-- The current task's strip is dropped and reported: steps 1 and 2 of R386. -/
def State.dropStrip (s : State) (t : TaskId) : State :=
  let p := s.core.task
  let s := { s with core := { s.core with task := { p with buf := [], held := false, strip := 0, sbase := BitVec.allOnes 64, triggered := true } } }
  match p.heldBase with
  | some b => s.reportDiscard t b
  | none => s

/-- The current task claims its next strip and starts again at entry, or ends with none left: step 3
of R386, cause, epc and info apart. -/
def State.restart (s : State) (t : TaskId) : State :=
  let r := s.claimStrip t
  match r.2 with
  | none => r.1.endAsExit t r.1.core.flags none []
  | some (base, len) =>
    let f := r.1.farm t.farm.val
    let c := r.1.core
    { r.1 with
      eng := { r.1.eng with staging := r.1.eng.staging.filter fun g => g.t != t }
      core := { c with
        x := entryRegs f t.tid base
        pc := f.lrec.entry.setWidth 56
        task := { c.task with
          entryHigh := (f.lrec.entry >>> 56).setWidth 8
          vl := 32, vstart := 0, streams := [], block := none, waiting := none, joinOp := none, watchHit := none
          strip := BitVec.ofNat 32 len, sbase := BitVec.ofNat 64 base, held := true } } }

/-- A full buffer or a failed SCOMMIT discards the strip with its cause (R386, codes 0x0023, 0x0024). -/
def State.discardWith (s : State) (code : Nat) (epc : VAddr) : State :=
  match s.core.id with
  | .task t =>
    let c := s.core.trapWords { code := code, info := s.core.task.sbase, epc := epc, resume := epc }
    (({ s with core := c }).dropStrip t).restart t
  | _ => s

/-! ## Waiting for a block (R102) -/

/-- A block of the current task is running. -/
def Core.inBlock (c : Core) : Bool := c.task.block.isSome

/-- An instruction that waits for the running block before it acts (R102). -/
def afterBlock (s : State) (k : Out) : Out := if s.core.inBlock then .next s else k

/-- Instructions a supervisor core does not have (R116): the word traps as illegal. -/
def State.illegal (s : State) (word : W64) : State := s.trapAt 0x0001 word

end Sys2Proof.Machine
end

