-- ==== Sys2Proof/Machine/Scalar.lean ====
section
/-!
DEFINITION. Integer instructions of the scalar stream, branches and jumps, and when they may run
ahead of a block (R102, R114-R125).
-/
namespace Sys2Proof.Machine
open Sys2Proof

/-! ## Running ahead of a block (R102) -/

/-- The scalar registers the words of a block write, from an address on to its STOP; none where a word
cannot be fetched or read. -/
def blockDests (s : State) : Nat → VAddr → Option (List Reg)
  | 0, _ => none
  | fuel + 1, a =>
    match (coreFetch s a 8).2 with
    | .error _ => none
    | .ok w =>
      if isStopOp (BitVec.ofNat 64 w) then some []
      else match decodeE w with
        | .error _ => none
        | .ok i => (blockDests s fuel (a + 8)).map ((scalarDest i).toList ++ ·)

/-- A scalar instruction that names these registers may retire while the block runs (R102, R390). -/
def mayRunAhead (s : State) (b : Block) (rs : List Reg) : Bool :=
  !s.core.task.step && match blockDests s convoyFuel b.start with
    | some ds => ds.all fun d => !rs.contains d
    | none => false

/-- An instruction of op7 0x01 to 0x0B, a branch or a jump: it runs when no block does, or ahead of it. -/
def scalarRuns (s : State) (rs : List Reg) (k : Out) : Out :=
  match s.core.task.block with
  | none => k
  | some b => if mayRunAhead s b rs then k else .next s

/-- The word of an instruction, for the info of a trap (R74, R75). -/
def wordOf (i : Instr) : Nat :=
  match encode i with
  | some p => p.2
  | none => 0

/-! ## Integer operations (R118, R119) -/

/-- Division toward zero, read as two's complement (R119). -/
def divS (a b : W64) : W64 := if b = 0 then BitVec.allOnes 64 else a.sdiv b
def remS (a b : W64) : W64 := if b = 0 then a else a.srem b
def divN (a b : W64) : W64 := if b = 0 then BitVec.allOnes 64 else a / b
def remN (a b : W64) : W64 := if b = 0 then a else a % b

/-- The amount of a register shift (R118). -/
def shiftAmount (b : W64) : Nat := b.toNat % 64

/-- The 128 bits of two doubles, the first on top. -/
def cat128 (a b : W64) : Nat := a.toNat * 2 ^ 64 + b.toNat

def fshlVal (k : BitVec 6) (a b : W64) : W64 := BitVec.ofNat 64 (cat128 a b * 2 ^ k.toNat / 2 ^ 64)
def fshrVal (k : BitVec 6) (a b : W64) : W64 := BitVec.ofNat 64 (cat128 a b / 2 ^ k.toNat)
def mulhVal (a b : W64) : W64 := BitVec.ofInt 64 (a.toInt * b.toInt / ((2 ^ 64 : Nat) : Int))
def mulhnVal (a b : W64) : W64 := BitVec.ofNat 64 (a.toNat * b.toNat / 2 ^ 64)
def sextVal (k : BitVec 6) (a : W64) : W64 := BitVec.ofInt 64 (sextN a.toNat (k.toNat + 1))
def zextVal (k : BitVec 6) (a : W64) : W64 := BitVec.ofNat 64 (a.toNat % 2 ^ (k.toNat + 1))

/-- A register-form operation of two sources. -/
def alu2 (s : State) (d a b : Reg) (f : W64 → W64 → W64) : Out :=
  scalarRuns s [d, a, b] (retireWith s d (f (s.core.reg a) (s.core.reg b)))

/-- An operation of one source. -/
def alu1 (s : State) (d a : Reg) (f : W64 → W64) : Out :=
  scalarRuns s [d, a] (retireWith s d (f (s.core.reg a)))

/-- ADD (R118). -/
def execAdd (d a b : Reg) (s : State) : Out := alu2 s d a b fun a b => a + b
/-- SUB (R118). -/
def execSub (d a b : Reg) (s : State) : Out := alu2 s d a b fun a b => a - b
/-- AND (R118). -/
def execAnd (d a b : Reg) (s : State) : Out := alu2 s d a b fun a b => a &&& b
/-- OR (R118). -/
def execOr (d a b : Reg) (s : State) : Out := alu2 s d a b fun a b => a ||| b
/-- XOR (R118). -/
def execXor (d a b : Reg) (s : State) : Out := alu2 s d a b fun a b => a ^^^ b
/-- SHL (R118). -/
def execShl (d a b : Reg) (s : State) : Out := alu2 s d a b fun a b => a <<< shiftAmount b
/-- SHR (R118). -/
def execShr (d a b : Reg) (s : State) : Out := alu2 s d a b fun a b => a >>> shiftAmount b
/-- SRA (R118). -/
def execSra (d a b : Reg) (s : State) : Out := alu2 s d a b fun a b => a.sshiftRight (shiftAmount b)
/-- SLT (R118). -/
def execSlt (d a b : Reg) (s : State) : Out := alu2 s d a b fun a b => if a.toInt < b.toInt then 1 else 0
/-- SLTN (R118). -/
def execSltn (d a b : Reg) (s : State) : Out := alu2 s d a b fun a b => if a.toNat < b.toNat then 1 else 0
/-- MIN (R118). -/
def execMin (d a b : Reg) (s : State) : Out := alu2 s d a b fun a b => if a.toInt ≤ b.toInt then a else b
/-- MAX (R118). -/
def execMax (d a b : Reg) (s : State) : Out := alu2 s d a b fun a b => if a.toInt ≤ b.toInt then b else a
/-- MINN (R118). -/
def execMinn (d a b : Reg) (s : State) : Out := alu2 s d a b fun a b => if a.toNat ≤ b.toNat then a else b
/-- MAXN (R118). -/
def execMaxn (d a b : Reg) (s : State) : Out := alu2 s d a b fun a b => if a.toNat ≤ b.toNat then b else a
/-- MUL (R118). -/
def execMul (d a b : Reg) (s : State) : Out := alu2 s d a b fun a b => a * b
/-- MULH (R118). -/
def execMulh (d a b : Reg) (s : State) : Out := alu2 s d a b fun a b => mulhVal a b
/-- MULHN (R118). -/
def execMulhn (d a b : Reg) (s : State) : Out := alu2 s d a b fun a b => mulhnVal a b
/-- DIV (R118, R119). -/
def execDiv (d a b : Reg) (s : State) : Out := alu2 s d a b fun a b => divS a b
/-- DIVN (R118, R119). -/
def execDivn (d a b : Reg) (s : State) : Out := alu2 s d a b fun a b => divN a b
/-- REM (R118, R119). -/
def execRem (d a b : Reg) (s : State) : Out := alu2 s d a b fun a b => remS a b
/-- REMN (R118, R119). -/
def execRemn (d a b : Reg) (s : State) : Out := alu2 s d a b fun a b => remN a b
/-- FSHL (R118). -/
def execFshl (d a b : Reg) (k : BitVec 6) (s : State) : Out := alu2 s d a b (fshlVal k)
/-- FSHR (R118). -/
def execFshr (d a b : Reg) (k : BitVec 6) (s : State) : Out := alu2 s d a b (fshrVal k)
/-- CLZ (R118). -/
def execClz (d a : Reg) (s : State) : Out := alu1 s d a fun a => BitVec.ofNat 64 (leadingZeros a.toNat 64)
/-- CTZ (R118). -/
def execCtz (d a : Reg) (s : State) : Out := alu1 s d a fun a => BitVec.ofNat 64 (trailingZeros a.toNat 64)
/-- POPC (R118). -/
def execPopc (d a : Reg) (s : State) : Out := alu1 s d a fun a => BitVec.ofNat 64 (popCount a.toNat 64)
/-- SEXT (R118). -/
def execSext (d a : Reg) (k : BitVec 6) (s : State) : Out := alu1 s d a (sextVal k)
/-- ZEXT (R118). -/
def execZext (d a : Reg) (k : BitVec 6) (s : State) : Out := alu1 s d a (zextVal k)

/-! ## Immediate forms (R121, R122) -/

/-- ADDI (R121). -/
def execAddi (d a : Reg) (imm : BitVec 15) (s : State) : Out := alu1 s d a fun a => a + imm.signExtend 64
/-- ANDI (R121). -/
def execAndi (d a : Reg) (imm : BitVec 15) (s : State) : Out := alu1 s d a fun a => a &&& imm.signExtend 64
/-- ORI (R121). -/
def execOri (d a : Reg) (imm : BitVec 15) (s : State) : Out := alu1 s d a fun a => a ||| imm.setWidth 64
/-- XORI (R121). -/
def execXori (d a : Reg) (imm : BitVec 15) (s : State) : Out := alu1 s d a fun a => a ^^^ imm.setWidth 64
/-- SLTI (R121). -/
def execSlti (d a : Reg) (imm : BitVec 15) (s : State) : Out := alu1 s d a fun a => if a.toInt < imm.toInt then 1 else 0
/-- SHLI (R121). -/
def execShli (d a : Reg) (n : BitVec 6) (s : State) : Out := alu1 s d a fun a => a <<< n.toNat
/-- SHRI (R121). -/
def execShri (d a : Reg) (n : BitVec 6) (s : State) : Out := alu1 s d a fun a => a >>> n.toNat
/-- SRAI (R121). -/
def execSrai (d a : Reg) (n : BitVec 6) (s : State) : Out := alu1 s d a fun a => a.sshiftRight n.toNat
/-- LIH (R122). -/
def execLih (d : Reg) (imm : BitVec 20) (s : State) : Out :=
  scalarRuns s [d] (retireWith s d (imm.signExtend 64 <<< 15))

/-! ## Branches and jumps (R123-R125) -/

/-- The target of a pc-relative word, modulo 2^56. -/
def relTarget {n : Nat} (pc : VAddr) (off : BitVec n) : VAddr := pc + (off.signExtend 56) * 4

/-- A conditional branch. -/
def branch (s : State) (a b : Reg) (off : BitVec 15) (take : W64 → W64 → Bool) : Out :=
  scalarRuns s [a, b] (retire s (if take (s.core.reg a) (s.core.reg b) then relTarget s.core.pc off else s.core.pc + 4))

/-- BEQ (R123). -/
def execBeq (a b : Reg) (off : BitVec 15) (s : State) : Out := branch s a b off fun a b => a == b
/-- BNE (R123). -/
def execBne (a b : Reg) (off : BitVec 15) (s : State) : Out := branch s a b off fun a b => a != b
/-- BLT (R123). -/
def execBlt (a b : Reg) (off : BitVec 15) (s : State) : Out := branch s a b off fun a b => a.toInt < b.toInt
/-- BGE (R123). -/
def execBge (a b : Reg) (off : BitVec 15) (s : State) : Out := branch s a b off fun a b => b.toInt ≤ a.toInt
/-- BLTN (R123). -/
def execBltn (a b : Reg) (off : BitVec 15) (s : State) : Out := branch s a b off fun a b => a.toNat < b.toNat
/-- BGEN (R123). -/
def execBgen (a b : Reg) (off : BitVec 15) (s : State) : Out := branch s a b off fun a b => b.toNat ≤ a.toNat
/-- JAL (R124). -/
def execJal (d : Reg) (off : BitVec 20) (s : State) : Out :=
  scalarRuns s [d] (retire { s with core := s.core.setReg d ((s.core.pc + 4).setWidth 64) } (relTarget s.core.pc off))

/-- JALR (R125): a target that is not a multiple of 4, or not below 2^56, traps. -/
def execJalr (d a : Reg) (imm : BitVec 15) (s : State) : Out :=
  let t := s.core.reg a + imm.signExtend 64
  scalarRuns s [d, a]
    (if t.toNat % 4 ≠ 0 ∨ 2 ^ 56 ≤ t.toNat then .next (s.trapAt 0x0002 (BitVec.ofNat 64 (wordOf (.jalr d a imm))))
     else retire { s with core := s.core.setReg d ((s.core.pc + 4).setWidth 64) } (t.setWidth 56))

end Sys2Proof.Machine
end

