-- ==== Sys2Proof/Machine/Block.lean ====
section
/-!
DEFINITION. The element stream of a block: the check of a convoy, STOP, and what a stream of a core
runs next (R56, R65-R69, R74, R102-R106, R390).
-/
namespace Sys2Proof.Machine
open Sys2Proof

/-! ## The convoy check (R69) -/

/-- The words of the convoy at an address, the word that ends it read too, or the fetch fault with its
address. -/
def fetchConvoy (s : State) : Nat → VAddr → Bool → State × Except (VAddr × MemFault) (List W64)
  | 0, _, _ => (s, .ok [])
  | fuel + 1, a, first =>
    let r := coreFetch s a 8
    match r.2 with
    | .error f => (r.1, .error (a, f))
    | .ok v =>
      let w := BitVec.ofNat 64 v
      if isStopOp w || (!first && startsConvoy w) then (r.1, .ok [])
      else
        let q := fetchConvoy r.1 fuel (a + 8) false
        (q.1, q.2.map fun l => w :: l)

/-- The running block holds these checked words. -/
def Core.loadWords (c : Core) (ws : List W64) : Core :=
  { c with task := { c.task with block := c.task.block.map fun (b : Block) => { b with words := ws } } }

/-- CONVOY_CHECK (R69, R105): the convoy at the block's position is fetched and checked whole. -/
def execConvoyCheck (s : State) : Out :=
  match s.core.task.block with
  | none => .next s
  | some b =>
    if b.words.isEmpty then
      let r := fetchConvoy s convoyFuel b.bpc true
      match r.2 with
      | .error (a, f) =>
        .next (r.1.takeTrap { code := f.code, info := f.va, epc := a, resume := s.core.pc, level := f.level, kind := AccKind.fetch.code })
      | .ok ws =>
        match offending [] 0 ws with
        | some (n, w) =>
          let c := { r.1.core with task := { r.1.core.task with vstart := 0 } }
          .next (({ r.1 with core := c }).takeTrap { code := 0x0001, info := w, epc := b.bpc + BitVec.ofNat 56 (8 * n), resume := s.core.pc })
        | none => .next { r.1 with core := r.1.core.loadWords ws }
    else .next s

/-! ## STOP (R65, R106) -/

/-- STOP: the block has completed. -/
def execStop (_cv : Bool) (s : State) : Out :=
  let c := s.core
  let c' := { c with task := { c.task with vstart := 0, block := none } }
  if c.task.block.isSome && c.task.step then
    .next (({ s with core := c' }).takeTrap { code := 0x0021, info := c.pc.setWidth 64, epc := c.bpc, resume := c.pc })
  else .next { s with core := c' }

/-! ## What a stream runs next (R56, R102) -/

/-- What a stream is about to run: an instruction in a state, or a step that ends before one. -/
inductive Fetched where
  | run (s : State) (i : Instr)
  | ended (s : State)

/-- The instruction a decoded E-form word is. -/
def elementInstr (w : Nat) : Instr :=
  match decodeE w with
  | .ok i => i
  | .error _ => .illegalEncoding (BitVec.ofNat 64 w)

/-- A core can move: its stack runs (R397), no switch of the grade stops its clock (R396), and it is not
halted (R132), nor at its end (R110). -/
def State.coreRuns (s : State) : Bool :=
  isOn s.ursol s.core.stack.val && !s.ursol.switching && (match s.core.id with
    | .none => false
    | .sup _ => !s.core.sup.halted
    | .task t => !s.isEnding t)

/-- The scalar stream's next instruction. While step is set it does not run ahead of a block (R390). At an entry address above the address range it takes the range fault of
its fetch (R86, R191). An illegal encoding does not run ahead of a block: it waits for the block's end (R102). A fetch
that faults while a block runs faults at once, inside the block (DESIGN CHOICE, log entry 51: R102 speaks of instructions
and not of their fetches). -/
def State.fetchScalar (s : State) : Fetched :=
  let high := s.core.task.entryHigh
  if s.core.inBlock && s.core.task.step then .ended s
  else if high ≠ 0 then
    .ended (s.memTrap ⟨0x0008, BitVec.ofNat 64 (s.core.pc.toNat + 2 ^ 56 * high.toNat), 0⟩ .fetch)
  else
    let r := coreFetch s s.core.pc 4
    match r.2 with
    | .error f => .ended (r.1.memTrap f .fetch)
    | .ok w =>
      match decodeS w with
      | .ok i => .run r.1 i
      | .error _ => if s.core.inBlock then .ended r.1 else .run r.1 (.illegalEncoding (BitVec.ofNat 64 w))

/-- The element stream's next step: the next word of the checked convoy, the STOP that ends the block,
or the check of the next convoy. -/
def State.fetchElement (s : State) : Fetched :=
  match s.core.task.block with
  | none => .ended s
  | some b =>
    match b.words with
    | w :: _ => .run s (elementInstr w.toNat)
    | [] =>
      let r := coreFetch s b.bpc 8
      match r.2 with
      | .error _ => .run s .convoyCheck
      | .ok w => if isStopOp (BitVec.ofNat 64 w) then .run r.1 (elementInstr w) else .run s .convoyCheck

end Sys2Proof.Machine
end

