-- ==== Sys2Proof/Machine/Strip.lean ====
section
/-!
DEFINITION. The strip buffer at SCOMMIT: restaging stale elements, the check of every element, and
their performance in order (R210, R244, R253, R387).
-/
namespace Sys2Proof.Machine
open Sys2Proof

/-- The access kind of a buffered element. -/
def BufKind.access : BufKind → AccKind
  | .store => .store
  | .amo .. => .atomic

/-- Translate the parts of a stale element again (R210); none where one faults. -/
def restageParts (u : Ursol) (c : XCtx) (k : AccKind) (p : Pol) : MemSys → List BufPart → MemSys × Option (List BufPart)
  | ms, [] => (ms, some [])
  | ms, b :: r =>
    let t := translate ms u c (BitVec.ofNat 64 b.va) k
    match t.2 with
    | .error _ => (t.1, none)
    | .ok x =>
      let q := restageParts u c k p t.1 r
      (q.1, q.2.map fun l => { b with tgt := targetOf p x } :: l)

/-- Restage every stale element of a buffer; none where one faults (R210). -/
def restage (u : Ursol) (c : XCtx) : MemSys → List BufElem → MemSys × Option (List BufElem)
  | ms, [] => (ms, some [])
  | ms, e :: r =>
    let h : MemSys × Option BufElem :=
      if e.stale then
        let q := restageParts u c e.kind.access e.pol ms e.parts
        (q.1, q.2.map fun ps => { e with parts := ps, stale := false })
      else (ms, some e)
    match h.2 with
    | none => (h.1, none)
    | some e =>
      let q := restage u c h.1 r
      (q.1, q.2.map fun l => e :: l)

/-- The check of R387 on a target: home stack and column, window and queue pair. -/
def targetTakes (u : Ursol) : Target → Bool
  | .mem pa _ => reachable u pa
  | .remote pa => windowUsable u pa
  | _ => true

def elemTakes (u : Ursol) (e : BufElem) : Bool := e.parts.all fun p => targetTakes u p.tgt

/-- SCOMMIT performs a sis element as a Write (R244). -/
def commitPol : EffPol → EffPol
  | .sis => .wt
  | p => p

/-- Perform n bytes of a buffered store at a target; false where a remote end refuses. -/
def performBytes (s : State) (t : Target) (off : Nat) (bs : List Byte) : State × Bool :=
  match t with
  | .scratch o => ({ s with core := { s.core with task := s.core.task.writeScratch (o + off) bs } }, true)
  | .mem pa p => ({ s with mem := agentStore s.mem s.core.agent (pa + off) bs.length (natOf bs) (commitPol p) }, true)
  | .remote pa => s.remoteWrite (pa + off) bs
  | .control _ => (s, true)

/-- Perform the bytes of a part that still stand, one by one. -/
def performEach (s : State) (t : Target) (off : Nat) : List (Option Byte) → State × Bool
  | [] => (s, true)
  | none :: r => performEach s t (off + 1) r
  | some b :: r =>
    let q := performBytes s t off [b]
    if q.2 then performEach q.1 t (off + 1) r else q

/-- Perform a part of a store element: whole, unless a younger scalar store took some of its bytes. -/
def performPart (s : State) (p : BufPart) : State × Bool :=
  if p.vals.all Option.isSome then performBytes s p.tgt 0 (p.vals.filterMap id) else performEach s p.tgt 0 p.vals

/-- Perform an atomic element (R244): scope plain, the old value discarded; false on a poisoned line, which
fails the commit (DESIGN CHOICE, log entry 53: R387's list does not name it). -/
def performAmo (s : State) (op : AmoOp) (pl : Place) (p : BufPart) : State × Bool :=
  let n := p.vals.length
  let v := BitVec.ofNat 64 (natOf (p.vals.map fun b => b.getD 0))
  match p.tgt with
  | .scratch o =>
    let old := natOf (readBytes s.core.task.scratch o n)
    match atomNew n old (.amo op v) with
    | some new => ({ s with core := { s.core with task := s.core.task.writeScratch o (bytesOf n new) } }, true)
    | none => (s, true)
  | .mem pa pol =>
    if atomicPoisoned s.mem s.core.agent pa n then (s, false)
    else ({ s with mem := (agentAtomic s.mem s.core.agent pa n (.amo op v) pl pol false id).1 }, true)
  | _ => (s, true)

def performParts (s : State) (k : BufKind) : List BufPart → State × Bool
  | [] => (s, true)
  | p :: r =>
    let q := match k with
      | .store => performPart s p
      | .amo op pl => performAmo s op pl p
    if q.2 then performParts q.1 k r else q

/-- Perform elements in turn, up to the first failure. -/
def performElems (s : State) : List BufElem → State × Bool
  | [] => (s, true)
  | e :: r =>
    let q := performParts s e.kind e.parts
    if q.2 then performElems q.1 r else q

/-- Two elements touch a common byte. -/
def elemsMeet (e f : BufElem) : Bool :=
  e.parts.any fun p => f.parts.any fun q =>
    p.tgt.loc < q.tgt.loc + q.vals.length && q.tgt.loc < p.tgt.loc + p.vals.length

/-- No two elements touch a common byte. -/
def allApart : List BufElem → Bool
  | [] => true
  | e :: r => r.all (fun f => !elemsMeet e f) && allApart r

/-- The elements of a buffer by instruction (R244). -/
def bySeq : List BufElem → List (List BufElem)
  | [] => []
  | e :: r =>
    match bySeq r with
    | (f :: g) :: rest => if e.seq = f.seq then (e :: f :: g) :: rest else [e] :: (f :: g) :: rest
    | rest => [e] :: rest

/-- The order within one instruction: ascending with .ord or where it makes no difference, else an
order the manual leaves open (FREE VALUE, log entry 3). -/
def instrOrder (free : Nat) (es : List BufElem) : List BufElem :=
  if es.all (·.ord) || allApart es then es else sortByRank (fun e => Config.unorderedRank free e.cell) es

/-- The order in which SCOMMIT performs a buffer (R244). -/
def commitOrder (free : Nat) (buf : List BufElem) : List BufElem := (bySeq buf).flatMap (instrOrder free)

/-- How SCOMMIT's elements end. -/
inductive Commit where
  | done (s : State)
  | failed (s : State)

/-- Perform the held strip's buffer at .sys (R253, R387): earlier scalar accesses first, stale elements
restaged, every element checked before any is performed. -/
def State.commitBuffer (s : State) : Commit :=
  let s := { s with mem := releaseWide s.mem s.core.agent }
  let r := restage s.ursol s.core.xctx s.mem s.core.task.buf
  let s := { s with mem := r.1 }
  match r.2 with
  | none => .failed s
  | some buf =>
    if buf.all (elemTakes s.ursol) then
      let q := performElems { s with free := s.free + 1 } (commitOrder s.free buf)
      let s := { q.1 with mem := releaseWide q.1.mem q.1.core.agent }
      if q.2 then .done { s with core := { s.core with task := { s.core.task with buf := [] } } } else .failed s
    else .failed s

/-- The current task claims its next strip into a register (R387): the new base, or all ones. -/
def State.claimInto (s : State) (t : TaskId) (d : Reg) : State :=
  let r := s.claimStrip t
  let c := r.1.core
  match r.2 with
  | some (base, len) =>
    { r.1 with core := ({ c with task := { c.task with
        strip := BitVec.ofNat 32 len, sbase := BitVec.ofNat 64 base, held := true } }).setReg d (BitVec.ofNat 64 base) }
  | none =>
    { r.1 with core := ({ c with task := { c.task with
        strip := 0, sbase := BitVec.allOnes 64, held := false } }).setReg d (BitVec.allOnes 64) }

end Sys2Proof.Machine
end

