-- ==== Sys2Proof/Machine/Control.lean ====
section
/-!
DEFINITION. TRAP, ERET, FENCE, TFENCE, SCOMMIT, SABORT, ETRIG, EXIT, YIELD, VSETL, VF and the words
that are no instruction (R74, R105-R111, R131, R132, R264, R265, R382-R387).
-/
namespace Sys2Proof.Machine
open Sys2Proof

/-- The illegal-instruction trap of an instruction the core does not have (R116). -/
def State.illegalInstr (s : State) (i : Instr) : State := s.illegal (BitVec.ofNat 64 (wordOf i))

/-- The illegal-operand trap whose info is the word (R75). -/
def State.operandTrap (s : State) (i : Instr) : State := s.trapAt 0x0002 (BitVec.ofNat 64 (wordOf i))

/-- An instruction that only harts have (R116). -/
def hartOnly (s : State) (i : Instr) (k : Out) : Out := if s.core.id.isSup then .next (s.illegalInstr i) else k

/-- TRAP (R131). -/
def execTrap (k : BitVec 6) (s : State) : Out :=
  afterBlock s (.next (s.takeTrap
    { code := 0x0003, info := k.setWidth 64, epc := s.core.pc, resume := s.core.pc + 4 }))

/-- ERET (R132). -/
def execEret (s : State) : Out :=
  afterBlock s (.next (if s.core.id.isSup && s.core.sup.inh then s.returnFromTrap else s.illegalInstr .eret))

/-- An illegal encoding (R74). While a block runs it is a word of the element stream (R69): one that the scalar stream
meets waits for the block's end before it acts (R102; `State.fetchScalar`). -/
def execIllegalEncoding (word : W64) (s : State) : Out :=
  if s.core.inBlock then
    .next (({ s with core := { s.core with task := { s.core.task with vstart := 0 } } }).trapE 0x0001 word)
  else .next (s.trapAt 0x0001 word)

/-! ## Fences (R264, R265) -/

/-- FENCE, the full kind. -/
def execFence (scp : Scope) (s : State) : Out :=
  afterBlock s (retireNext { s with mem := fenceAt s.mem s.core.agent scp })
/-- FENCE.acq. -/
def execFenceAcq (scp : Scope) (s : State) : Out :=
  afterBlock s (retireNext { s with mem := acquireAt s.mem s.core.agent scp })
/-- FENCE.rel. -/
def execFenceRel (scp : Scope) (s : State) : Out :=
  afterBlock s (retireNext { s with mem := releaseAt s.mem s.core.agent scp })
/-- FENCE.fetch: an acquire; the model fetches no word ahead, so nothing is to be discarded. -/
def execFenceFetch (scp : Scope) (s : State) : Out :=
  afterBlock s (retireNext { s with mem := acquireAt s.mem s.core.agent scp })

/-! ## Engine faults delivered (R382, R383) -/

/-- Deliver a fault record: dlv := 1, and the trap with its words (R382). -/
def State.deliverAt (s : State) (t : TaskId) (m : RecMark) (epc resume : VAddr) : State :=
  let off := 0x300 + 64 * m.k.val
  let c := s.core
  let r := s.frameWrite t (off + 9) [1]
  if r.2 then
    let s := r.1.mapFarm t.farm.val fun f => { f with recs := f.recs.map fun n => if n == m then { n with delivered := true } else n }
    s.takeTrap { code := m.status.toNat, info := m.obj.getD 0, epc := epc, resume := resume
                 frec := some (s.frameVa t + BitVec.ofNat 64 off) }
  else r.1.frameUnusable t c.flags c.task.heldBase

/-- Deliver a fault record at the scalar instruction at the pc, which runs again after it (R382). -/
def State.deliverRecord (s : State) (t : TaskId) (m : RecMark) : State := s.deliverAt t m s.core.pc s.core.pc

/-- The record an observation of an object, or a TFENCE, delivers to the current task (R263, R382). -/
def State.pendingRecord (s : State) (obj : Option W64) : Option (TaskId × RecMark) :=
  match s.core.id with
  | .task t => ((s.farm t.farm.val).oldestRecord t.tid obj).map fun m => (t, m)
  | _ => none

/-- TFENCE (R383). -/
def execTfence (s : State) : Out :=
  hartOnly s .tfence (afterBlock s
    (match s.pendingRecord none with
     | some (t, m) => .next (s.deliverRecord t m)
     | none =>
       if s.core.flags &&& s.core.task.tmask = 0 then retireNext s
       else .next (s.takeTrap { code := 0x0020, info := (s.core.flags &&& s.core.task.tmask).setWidth 64
                                epc := s.core.pc, resume := s.core.pc + 4 })))

/-! ## Strips (R386, R387) -/

/-- SCOMMIT (R387). -/
def execScommit (d : Reg) (s : State) : Out :=
  hartOnly s (.scommit d) (afterBlock s
    (match s.core.id with
     | .task t =>
       if s.core.task.held then
         match s.commitBuffer with
         | .failed s' => .next (s'.discardWith 0x0024 s'.core.pc)
         | .done s' =>
           retireNext ((s'.mapFarm t.farm.val fun f => { f with committed := f.committed + 1 }).claimInto t d)
       else retireNext (s.claimInto t d)
     | _ => .next s))

/-- SABORT (R387). -/
def execSabort (d : Reg) (s : State) : Out :=
  hartOnly s (.sabort d) (afterBlock s
    (match s.core.id with
     | .task t => retireNext ((if s.core.task.held then s.dropStrip t else s).claimInto t d)
     | _ => .next s))

/-! ## Ends and yields (R109-R111) -/

/-- ETRIG (R109): a release at .sys; only a task's first has an effect. -/
def execEtrig (s : State) : Out :=
  hartOnly s .etrig (afterBlock s
    (let s := { s with mem := releaseWide s.mem s.core.agent }
     match s.core.id with
     | .task t =>
       retireNext (({ s with core := { s.core with task := { s.core.task with triggered := true } } }).markTriggered t)
     | _ => retireNext s))

/-- EXIT (R110): it waits for the task's engine operations. -/
def execExit (s : State) : Out :=
  hartOnly s .exit (afterBlock s
    (match s.core.id with
     | .task t =>
       if s.opsPending t then .next s
       else .next (({ s with mem := releaseWide s.mem s.core.agent }).endTask t s.core.flags s.core.task.heldBase)
     | _ => .next s))

/-- The current task gives up its slot and is ready again at once (R100, R111, R388). -/
def State.parkReady (s : State) (t : TaskId) (resume : VAddr) : State :=
  let c := s.core
  let r := s.unseat t resume 0 0
  if r.2 then
    let s := { r.1 with
      parked := r.1.parked ++ [parkedOf s.free t c .ready]
      drover := { r.1.drover with ready := r.1.drover.ready ++ [(⟨t, true⟩ : Ready)] } }
    s.lend t c.task.stk c.task.cluster.val (hwWidth c.task.hw)
  else r.1.frameUnusable t c.flags c.task.heldBase

/-- The step trap of a YIELD that parks its task is taken when the task is placed again (R390): its number names no
operation. -/
def State.oweStep (s : State) : State :=
  if s.core.task.step then
    { s with
      seq := s.seq + 1
      core := { s.core with task := { s.core.task with joinOp := some ⟨s.seq, s.core.pc, none⟩ } } }
  else s

/-- YIELD (R111). -/
def execYield (s : State) : Out :=
  hartOnly s .yield (afterBlock s
    (match s.core.id with
     | .task t => if s.yieldWanted s.core then .next (s.oweStep.parkReady t (s.core.pc + 4)) else retireNext s
     | _ => retireNext s))

/-! ## VSETL and VF (R105, R107) -/

/-- The length VSETL computes. -/
def vsetlLen (a b : W64) : Nat :=
  let t := a.toInt - b.toInt
  if t < 0 then 0 else if 32 < t then 32 else t.toNat

/-- VSETL (R107). -/
def execVsetl (d a b : Reg) (s : State) : Out :=
  hartOnly s (.vsetl d a b) (afterBlock s
    (let n := vsetlLen (s.core.reg a) (s.core.reg b)
     let c := { s.core with task := { s.core.task with vl := BitVec.ofNat 6 n, vstart := 0 } }
     retireWith { s with core := c } d (BitVec.ofNat 64 n)))

/-- VF (R105): every scalar register is captured for broadcast. -/
def execVf (off : BitVec 20) (s : State) : Out :=
  hartOnly s (.vf off) (afterBlock s
    (let t := relTarget s.core.pc off
     if t.toNat % 8 ≠ 0 then .next (s.operandTrap (.vf off))
     else retireNext { s with core := { s.core with task := { s.core.task with
       block := some { start := t, bpc := t, words := [], bc := s.core.x } } } }))

end Sys2Proof.Machine
end

