-- ==== Sys2Proof/Machine/ControlWord.lean ====
section
/-!
DEFINITION. Control words, the tick and the refresh phase (R126-R130, R277).
-/
namespace Sys2Proof.Machine
open Sys2Proof

/-! ## The tick and the refresh schedule (R129, R277) -/

/-- ns since tick 0. -/
def State.sinceTick0 (s : State) : Nat :=
  match s.tick0 with
  | some t => s.now - t
  | none => 0

/-- The 10 ns count. -/
def State.tick (s : State) : Nat := s.sinceTick0 / 10

/-- The refresh of a bank column at an instant: whether a window is in progress, the ns until it ends,
the ns until the next starts, and the layer of the window in progress or of the next one. -/
structure RefreshPhase where
  act : Bool
  rem : Nat
  next : Nat
  layer : Nat
  deriving DecidableEq, Repr

/-- Window k of column t starts 3,900·k + 60·t ns after tick 0, lasts 350 ns and takes layer k mod 16. -/
def refreshPhase (t r : Nat) : RefreshPhase :=
  if r < 60 * t then ⟨false, 0, 60 * t - r, 0⟩
  else
    let k := (r - 60 * t) / 3900
    let o := (r - 60 * t) % 3900
    if o < 350 then ⟨true, 350 - o, 3900 - o, k % 16⟩ else ⟨false, 0, 3900 - o, (k + 1) % 16⟩

/-- The value of refph[t] (R128). -/
def RefreshPhase.word (p : RefreshPhase) : W64 :=
  BitVec.ofNat 64 (p.layer + (if p.act then 2 ^ 8 else 0) + p.next * 2 ^ 16 + p.rem * 2 ^ 32)

/-! ## Reading and writing (R126-R128) -/

/-- The core has no such control word (R116). -/
def cwForbidden (c : Core) (w : Nat) : Bool :=
  if c.id.isSup then w ≤ 5 || w == 0x009 || w == 0x013 else w == 0x100 || w == 0x101

/-- The core may write the word (R127). -/
def cwWritable (c : Core) (w : Nat) : Bool :=
  if c.id.isSup then w == 0x006 || w == 0x008 || w == 0x010 || w == 0x011 || w == 0x012 || w == 0x100 || w == 0x101
  else w == 0x000 || w == 0x001 || w == 0x008 || w == 0x009

/-- The value of a control word, reserved fields zero (R128). -/
def cwRead (s : State) (w : Nat) : W64 :=
  let c := s.core
  let t := c.task
  match w with
  | 0x000 => t.vl.setWidth 64
  | 0x001 => t.vstart.setWidth 64
  | 0x002 => BitVec.ofNat 64 (t.stk.val * 2 ^ 8 + t.cluster.val * 2 ^ 3 + t.hw.toNat)
  | 0x003 => BitVec.ofNat 64 c.taskId.tid
  | 0x004 => BitVec.ofNat 64 c.taskId.farm.val
  | 0x005 => t.strip.setWidth 64
  | 0x006 => c.asid.setWidth 64
  | 0x008 => c.flags.setWidth 64
  | 0x009 => t.tmask.setWidth 64
  | 0x010 => c.epc.setWidth 64
  | 0x011 => c.cause.setWidth 64
  | 0x012 => c.info
  | 0x013 => t.frec
  | 0x020 => BitVec.ofNat 64 s.tick
  | 0x100 => c.sup.svec.setWidth 64
  | 0x101 => if c.sup.inh then 1 else 0
  | w => if 0x040 ≤ w && w ≤ 0x07F then (refreshPhase (w - 0x040) s.sinceTick0).word else 0

/-- A value sets no reserved bit and is in every field's range (R126, R128). -/
def cwLegal (w : Nat) (v : W64) : Bool :=
  let n := v.toNat
  match w with
  | 0x000 => n ≤ 32
  | 0x001 => n < 32
  | 0x006 => n < 2 ^ 14
  | 0x008 | 0x009 => n < 2 ^ 8
  | 0x010 => n < 2 ^ 56
  | 0x011 => n < 2 ^ 17
  | 0x100 => n < 2 ^ 56 && n % 4 == 0
  | 0x101 => n < 2
  | _ => true

/-- Write a control word a core may write. -/
def cwWrite (c : Core) (w : Nat) (v : W64) : Core :=
  match w with
  | 0x000 => { c with task := { c.task with vl := v.setWidth 6 } }
  | 0x001 => { c with task := { c.task with vstart := v.setWidth 5 } }
  | 0x006 => { c with asid := v.setWidth 14 }
  | 0x008 => { c with flags := v.setWidth 8 }
  | 0x009 => { c with task := { c.task with tmask := v.setWidth 8 } }
  | 0x010 => { c with epc := v.setWidth 56 }
  | 0x011 => { c with cause := v.setWidth 17 }
  | 0x012 => { c with info := v }
  | 0x100 => { c with sup := { c.sup with svec := v.setWidth 56 } }
  | 0x101 => { c with sup := { c.sup with inh := v.getLsbD 0 } }
  | _ => c

/-- What CWW, CWS and CWC share: forbidden words are illegal instructions, illegal writes illegal
operands that change nothing (R126, R130). `idle` is a CWS or CWC with A = 0. -/
def cwUpdate (s : State) (i : Instr) (w : BitVec 12) (idle : Bool) (v : W64) : Out :=
  afterBlock s
    (if cwForbidden s.core w.toNat then .next (s.illegal (BitVec.ofNat 64 (wordOf i)))
     else if idle then retireNext s
     else if cwWritable s.core w.toNat && cwLegal w.toNat v then retireNext { s with core := cwWrite s.core w.toNat v }
     else .next (s.trapAt 0x0002 (BitVec.ofNat 64 (wordOf i))))

/-- CWR (R126). -/
def execCwr (d : Reg) (w : BitVec 12) (s : State) : Out :=
  afterBlock s
    (if cwForbidden s.core w.toNat then .next (s.illegal (BitVec.ofNat 64 (wordOf (.cwr d w))))
     else retireWith s d (cwRead s w.toNat))

/-- CWW (R126). -/
def execCww (a : Reg) (w : BitVec 12) (s : State) : Out := cwUpdate s (.cww a w) w false (s.core.reg a)

/-- CWS (R126). -/
def execCws (a : Reg) (w : BitVec 12) (s : State) : Out :=
  cwUpdate s (.cws a w) w (s.core.reg a == 0) (cwRead s w.toNat ||| s.core.reg a)

/-- CWC (R126). -/
def execCwc (a : Reg) (w : BitVec 12) (s : State) : Out :=
  cwUpdate s (.cwc a w) w (s.core.reg a == 0) (cwRead s w.toNat &&& ~~~ s.core.reg a)

end Sys2Proof.Machine
end

