-- ==== Sys2Proof/Machine/Engine.lean ====
section
/-!
DEFINITION. What every engine command shares: its checks at issue, its place in a queue, the fork of
its operation and how an operation ends (R254, R255, R261, R262, R299, R300, R381, R390).
-/
namespace Sys2Proof.Machine
open Sys2Proof

/-- The places of a command queue (R300). -/
def queuePlaces : Nat := 16

/-- An engine command waits for the running block (R102), then checks its object, where c names one
(R261). -/
def withObject (s : State) (i : Instr) (c : Reg) (k : State → Option Nat → Out) : Out :=
  afterBlock s
    (if c = 0 then k s none
     else
       let r := objCheck s.mem s.ursol s.core.xctx (s.core.reg c)
       let s := { s with mem := r.1 }
       match r.2 with
       | .operand => .next (s.operandTrap i)
       | .fault f => .next (s.memTrap f .store)
       | .ok pa => k s (some pa))

/-- The first numbered check that fails, from check n on (R299). -/
def failedCheck : Nat → List Bool → Option Nat
  | _, [] => none
  | n, bad :: r => if bad then some n else failedCheck (n + 1) r

/-- Numbered checks: the first that fails traps with its number (R299). -/
def withChecks (s : State) (bad : List Bool) (k : Out) : Out :=
  match failedCheck 1 bad with
  | some n => .next (s.trapAt 0x0002 (BitVec.ofNat 64 n))
  | none => k

/-- The engine that performs what an instruction issues, its operands being x[a] and x[b]: for the tile commands the tile
that the command word, the handle or x[b] names. -/
def engineOf (i : Instr) (va vb : W64) : EngineUnit :=
  match i with
  | .launch .. => .drover
  | .cbld .. | .tbld .. => .builder
  | .lka .. | .aclr .. | .adrn .. => .tile (Fin.ofNat 64 (bitsOf va 5 0))
  | .rowact .. => .tile (Fin.ofNat 64 vb.toNat)
  | .rowcon .. | .rowcls .. => .tile (Fin.ofNat 64 (bitsOf va 15 8))
  | .kvlook .. | .kvins .. | .kvpin .. | .kvunpin .. | .kvapp .. | .kvsig .. => .crook
  | _ => .copy

/-- The header of the operation an instruction issues. -/
def State.opHdr (s : State) (i : Instr) (a b e : Reg) (obj : Option Nat) (c : Reg) : OpHdr where
  core := s.core.id
  stk := s.core.stack
  asid := s.core.asid
  ipc := s.core.pc
  word := BitVec.ofNat 32 (wordOf i)
  va := s.core.reg a
  vb := s.core.reg b
  ve := s.core.reg e
  obj := obj
  objVa := s.core.reg c
  objNc := obj.isSome && ncAt s.mem s.ursol s.core.xctx (s.core.reg c)
  eng := engineOf i (s.core.reg a) (s.core.reg b)
  seq := s.seq

/-- The operation forks: every earlier access of its issuer is performed at .sys first (R254). -/
def State.forked (s : State) : State := { s with mem := releaseWide s.mem s.core.agent, seq := s.seq + 1 }

/-- An instruction that issued an operation retires; in step-join mode the task waits for it (R390). -/
def retireIssued (s : State) (h : OpHdr) : Out :=
  if s.core.task.step && s.core.task.sjoin then
    retireNext { s with core := { s.core with task := { s.core.task with
      joinOp := some ⟨h.seq, h.ipc, h.obj.map fun _ => h.objVa⟩ } } }
  else retireNext s

/-- A command takes a place: it waits while its queue, of n commands, has none (R300). -/
def issueOp (s : State) (h : OpHdr) (n : Nat) (push : State → State) : Out :=
  if queuePlaces ≤ n then .next s else retireIssued (push s.forked) h

/-- How a table operation translates for its issuer: only scalar and vector instructions and copies
reach a scratchpad (R137, R192, R194, R200). -/
def OpHdr.ctx (h : OpHdr) : XCtx := engineCtx h.stk h.asid h.core.isTask 0 h.eng

/-- The issuer of an operation is not parked, nor pre-empted, nor ending without its slot (R138, R311). -/
def State.resident (s : State) (h : OpHdr) : Bool :=
  !(s.parked.any fun p => h.core == .task p.t) && !(s.drover.ending.any fun e => h.core == .task e.t && (s.findCore h.core).isNone)

/-! ## Operations of pre-empted tasks (R388) -/

/-- The issuer of an operation is being pre-empted, or has been and is not placed again: it may have been saved, parked
by itself, or be ending. -/
def State.isVictim (s : State) (h : OpHdr) : Bool :=
  (s.drover.preempts.any fun p => p.victims.any fun t => h.core == .task t) ||
  (s.parked.any fun p => p.victim && h.core == .task p.t) || s.drover.ending.any fun e => e.victim && h.core == .task e.t

/-- The issuer of one operation has a higher effective priority than another's. -/
def State.outranks (s : State) (g h : OpHdr) : Bool :=
  match g.core, h.core with
  | .task t, .task u => s.prioOf u < s.prioOf t
  | _, _ => false

/-- An engine starts no further unit of a victim's operation while one of higher priority waits in its queue. -/
def State.yieldsTo (s : State) (h : OpHdr) (q : List OpHdr) : Bool := s.isVictim h && q.any fun g => s.outranks g h

/-- The first element that passes a test, with the others. -/
def pickFirst {α : Type} (p : α → Bool) : List α → Option (α × List α)
  | [] => none
  | x :: r => if p x then some (x, r) else (pickFirst p r).map fun q => (q.1, x :: q.2)

/-- The command an engine takes from its queue: the first that does not yield, past those that a test leaves under
way. -/
def State.nextCmd {α : Type} (s : State) (hdr : α → OpHdr) (q : List α) (under : α → Bool := fun _ => false) : Option (α × List α) :=
  pickFirst (fun c => !s.yieldsTo (hdr c) (q.map hdr) && !under c) q

/-- A command between two units of one block: the Crook stops for no pre-emption there (R331). -/
def KvProg.midBlock : KvProg → Bool
  | .matched .. | .probed .. | .claimed .. | .checked _ => true
  | _ => false

/-! ## How an operation ends (R255, R262, R381) -/

/-- A fault of an operation goes into its task's frame; a frame that cannot take it ends the task
(R378, R381). A task that had ended before is noted as ended with the fault (R382). -/
def State.recordFault (s : State) (h : OpHdr) (unit : UnitCode) (status progress fidx : Nat) : State :=
  match h.core with
  | .task t =>
    let r := s.writeRecord t h unit status progress fidx
    let s := if r.2 then r.1 else r.1.endLost t
    if (r.1.farm t.farm.val).ended.contains t.tid then
      s.mapFarm t.farm.val fun f => { f with faultTask := if f.faultTask.isNone then some t.tid else f.faultTask }
    else s
  | _ => s

/-- An operation ends: its fault record first, then the one update of its object (R255, R262, R381). -/
def State.finishOp (s : State) (h : OpHdr) (unit : UnitCode) (status progress fidx : Nat) (flags : Byte) (fault : Bool) : State :=
  let s := if fault then s.recordFault h unit status progress fidx else s
  match h.obj with
  | some pa => s.objUpdateAs (engineNo h.eng h.stk) h.asid pa (Obj.complete status progress fidx flags) h.objNc
  | none => s

/-- An operation ends well. -/
def State.endOp (s : State) (h : OpHdr) (unit : UnitCode) (progress : Nat) (flags : Byte) : State :=
  s.finishOp h unit 0 progress noIndex flags false

/-- An operation ends with a fault. -/
def State.failOp (s : State) (h : OpHdr) (unit : UnitCode) (status progress fidx : Nat) (flags : Byte) : State :=
  s.finishOp h unit status progress fidx flags true

/-- An engine read of an operation by virtual address: the bytes, or whether the failure is a poisoned
line (R319). -/
def State.opRead (s : State) (h : OpHdr) (va : W64) (n : Nat) : State × Except Bool (List Byte) :=
  let r := engineLoad s h.ctx va n
  (r.1, match r.2 with
    | .ok bs => .ok bs
    | .error f => .error (f.code == 0x000F))

end Sys2Proof.Machine
end

