-- ==== Sys2Proof/Machine/ScalarMem.lean ====
section
/-!
DEFINITION. Scalar memory instructions: LD, ST, LDA, STL, AMO and CAS (R238-R240).
-/
namespace Sys2Proof.Machine
open Sys2Proof

/-- The bytes of an access size (R59). -/
def sizeBytes : Size → Nat
  | .b | .bn => 1
  | .h | .hn => 2
  | .w | .wn => 4
  | .d => 8

/-- The value is sign-extended: the i codes below 64 bits (R239). -/
def sizeSigned : Size → Bool
  | .b | .h | .w => true
  | _ => false

/-- A value of a size as a register holds it (R239, R240). -/
def extend (sz : Size) (v : Nat) : W64 :=
  if sizeSigned sz then BitVec.ofInt 64 (sextN v (8 * sizeBytes sz)) else BitVec.ofNat 64 (v % 2 ^ (8 * sizeBytes sz))

/-- The effective address of LD, ST, LDA and STL (R239). -/
def effAddr (s : State) (a : Reg) (sz : Size) (off : BitVec 6) : W64 :=
  s.core.reg a + BitVec.ofNat 64 (off.toNat * sizeBytes sz)

/-- A load, acquiring at a scope where that is not plain. -/
def loadInstr (s : State) (d a : Reg) (sz : Size) (pol : Pol) (scp : Scope) (off : BitVec 6) : Out :=
  afterBlock s
    (let r := coreLoad s (effAddr s a sz off) (sizeBytes sz) pol (scp != .plain)
     match r.2 with
     | .error f => .next (r.1.memTrap f .load)
     | .ok v => retireWith { r.1 with mem := acquireAt r.1.mem r.1.core.agent scp } d (extend sz v))

/-- LD (R239). -/
def execLd (d a : Reg) (sz : Size) (pol : Pol) (off : BitVec 6) (s : State) : Out := loadInstr s d a sz pol .plain off

/-- LDA (R228, R239). -/
def execLda (d a : Reg) (sz : Size) (pol : Pol) (scp : Scope) (off : BitVec 6) (s : State) : Out :=
  loadInstr s d a sz pol scp off

/-- How a store instruction ends. -/
def storeEnd (r : State × StoreEnd) : Out :=
  match r.2 with
  | .done => retireNext r.1
  | .wait => .next r.1
  | .fault f => .next (r.1.memTrap f .store)

/-- ST (R239). -/
def execSt (d a : Reg) (sz : Size) (pol : Pol) (off : BitVec 6) (s : State) : Out :=
  afterBlock s (storeEnd (coreStore s (effAddr s a sz off) (sizeBytes sz) (s.core.reg d).toNat pol))

/-- The release's own store: performed and published at .stack or wider; below that its line, where it is sis-dirty, is
marked (R229, R239). -/
def releaseOwn (ms : MemSys) (a : Nat) (scp : Scope) : Target → MemSys
  | .mem pa _ =>
    if scopeWide scp then releaseWide ms a
    else if scp != .plain && hasSisDirty ms a (lineOf pa) then markLine a ms (lineOf pa)
    else ms
  | _ => ms

/-- What a release store does: the release of every earlier access, then its store, which belongs to the release too
(R229, R239). -/
def releaseStore (s : State) (va : W64) (n v : Nat) (pol : Pol) (scp : Scope) : State × StoreEnd :=
  let c := checkAccess s va n .store pol false
  let s := { s with mem := c.1 }
  match c.2 with
  | .error f => (s, .fault f)
  | .ok t =>
    let r := coreStore { s with mem := releaseAt s.mem s.core.agent scp } va n v pol
    match r.2 with
    | .done => ({ r.1 with mem := releaseOwn r.1.mem r.1.core.agent scp t }, .done)
    | e => (r.1, e)

/-- STL (R229, R239). -/
def execStl (d a : Reg) (sz : Size) (pol : Pol) (scp : Scope) (off : BitVec 6) (s : State) : Out :=
  afterBlock s (storeEnd (releaseStore s (effAddr s a sz off) (sizeBytes sz) (s.core.reg d).toNat pol scp))

/-- An atomic: a release before and an acquire after it where the scope is not plain (R240). -/
def atomicInstr (s : State) (d a : Reg) (sz : Size) (scp : Scope) (op : AtomOp) (pl : Place) : Out :=
  afterBlock s
    (let n := sizeBytes sz
     let c := checkAccess s (s.core.reg a) n .atomic .dflt (scp != .plain)
     let s := { s with mem := c.1 }
     match c.2 with
     | .error f => .next (s.memTrap f .atomic)
     | .ok _ =>
       let r := coreAtomic { s with mem := releaseAt s.mem s.core.agent scp } (s.core.reg a) n op pl (scp != .plain)
       match r.2 with
       | .error f => .next (r.1.memTrap f .atomic)
       | .ok v => retireWith { r.1 with mem := acquireAt r.1.mem r.1.core.agent scp } d (extend sz v))

/-- AMO .swap (R238, R240). -/
def execAmoSwap (d a : Reg) (sz : Size) (scp : Scope) (pl : Place) (s : State) : Out :=
  atomicInstr s d a sz scp (.amo .swap (s.core.reg d)) pl
/-- AMO .add (R238, R240). -/
def execAmoAdd (d a : Reg) (sz : Size) (scp : Scope) (pl : Place) (s : State) : Out :=
  atomicInstr s d a sz scp (.amo .add (s.core.reg d)) pl
/-- AMO .and (R238, R240). -/
def execAmoAnd (d a : Reg) (sz : Size) (scp : Scope) (pl : Place) (s : State) : Out :=
  atomicInstr s d a sz scp (.amo .and (s.core.reg d)) pl
/-- AMO .or (R238, R240). -/
def execAmoOr (d a : Reg) (sz : Size) (scp : Scope) (pl : Place) (s : State) : Out :=
  atomicInstr s d a sz scp (.amo .or (s.core.reg d)) pl
/-- AMO .xor (R238, R240). -/
def execAmoXor (d a : Reg) (sz : Size) (scp : Scope) (pl : Place) (s : State) : Out :=
  atomicInstr s d a sz scp (.amo .xor (s.core.reg d)) pl
/-- AMO .min (R238, R240). -/
def execAmoMin (d a : Reg) (sz : Size) (scp : Scope) (pl : Place) (s : State) : Out :=
  atomicInstr s d a sz scp (.amo .min (s.core.reg d)) pl
/-- AMO .max (R238, R240). -/
def execAmoMax (d a : Reg) (sz : Size) (scp : Scope) (pl : Place) (s : State) : Out :=
  atomicInstr s d a sz scp (.amo .max (s.core.reg d)) pl
/-- AMO .minn (R238, R240). -/
def execAmoMinn (d a : Reg) (sz : Size) (scp : Scope) (pl : Place) (s : State) : Out :=
  atomicInstr s d a sz scp (.amo .minn (s.core.reg d)) pl
/-- AMO .maxn (R238, R240). -/
def execAmoMaxn (d a : Reg) (sz : Size) (scp : Scope) (pl : Place) (s : State) : Out :=
  atomicInstr s d a sz scp (.amo .maxn (s.core.reg d)) pl
/-- CAS, placement auto (R236, R240). -/
def execCas (d a b : Reg) (sz : Size) (scp : Scope) (s : State) : Out :=
  atomicInstr s d a sz scp (.cas (s.core.reg d) (s.core.reg b)) .auto
/-- CAS, placement near (R236, R240). -/
def execCasNear (d a b : Reg) (sz : Size) (scp : Scope) (s : State) : Out :=
  atomicInstr s d a sz scp (.cas (s.core.reg d) (s.core.reg b)) .near
/-- CAS, placement far (R236, R240). -/
def execCasFar (d a b : Reg) (sz : Size) (scp : Scope) (s : State) : Out :=
  atomicInstr s d a sz scp (.cas (s.core.reg d) (s.core.reg b)) .far

end Sys2Proof.Machine
end

