-- ==== Sys2Proof/Machine/Flags.lean ====
section
/-!
DEFINITION. The sticky flags of R38 and R128 as bits of the control word `flags`, and the results that
set them when integers are narrowed (R8, R32).
-/
namespace Sys2Proof.Machine
open Sys2Proof

/-- The flags of R128, from bit 0 up. -/
inductive Flag where
  | invalid | divideByZero | overflow | underflow | inexact | saturation | kvDegraded | skipped
  deriving DecidableEq, Repr

/-- The bit of a flag in flags, tmask and an object's flags (R128, R259). -/
def Flag.bit : Flag → Byte
  | .invalid => 0x01
  | .divideByZero => 0x02
  | .overflow => 0x04
  | .underflow => 0x08
  | .inexact => 0x10
  | .saturation => 0x20
  | .kvDegraded => 0x40
  | .skipped => 0x80

/-- The bit where a condition holds. -/
def Flag.when (f : Flag) (p : Bool) : Byte := if p then f.bit else 0

/-- One element's result: its bits, and the flags it sets. -/
abbrev Res := Nat × Byte

/-- An exact integer narrowed to n bits by wrapping (R32). -/
def wrapRes (v : Int) (n : Nat) : Res := (modN v n, 0)

/-- An exact integer clamped to n bits, signed or unsigned; a clamp sets saturation (R8, R32). -/
def satRes (signed : Bool) (v : Int) (n : Nat) : Res :=
  let r := if signed then satS v n else satN v n
  (modN r n, Flag.saturation.when (r != v))

/-- An exact integer narrowed as an instruction states. -/
def narrowRes (sat signed : Bool) (v : Int) (n : Nat) : Res := if sat then satRes signed v n else wrapRes v n

end Sys2Proof.Machine
end

