-- ==== Sys2Proof/Machine/Operands.lean ====
section
/-!
DEFINITION. Operands of element instructions: cells of squares, vectors, broadcasts, masks, and the loop
every elementwise instruction runs (R30, R31, R61, R75, R139, R140, R142, R143).
-/
namespace Sys2Proof.Machine
open Sys2Proof

/-! ## Cells -/

/-- Where cell k of vector i of a direction lies in its square, row by row (R61). -/
def cellPlace (dir : Dir) (i k : Nat) : Nat :=
  match dir with
  | .row => 32 * i + k
  | .col => 32 * k + i
  | .diag => 32 * k + (k + i) % 32

/-- The key of a cell in the task's cells. -/
def cellKey (q : SqNo) (dir : Dir) (i k : Nat) : Nat := 1024 * q.val + cellPlace dir i k

def TaskPart.cell (t : TaskPart) (key : Nat) : W32 := fget t.cells key 0

/-- Write a cell; its square is then dirty (R139). -/
def TaskPart.setCell (t : TaskPart) (key : Nat) (v : W32) : TaskPart :=
  { t with cells := fset t.cells key v 0, dirty := fset t.dirty (key / 1024) true false }

/-- A mask bit; m0 reads as all ones (R142). -/
def TaskPart.maskBit (t : TaskPart) (m : MaskNo) (k : Nat) : Bool :=
  if m = 0 then k < 32 else (fget t.m m.val 0).getLsbD k

/-- Write a mask bit (R142). -/
def TaskPart.setMaskBit (t : TaskPart) (m : MaskNo) (k : Nat) (b : Bool) : TaskPart :=
  if m = 0 then t
  else
    let bit : W32 := BitVec.ofNat 32 (2 ^ k)
    let old := fget t.m m.val 0
    { t with m := fset t.m m.val (if b then old ||| bit else old &&& ~~~ bit) 0 }

/-! ## Elements -/

/-- Element j of w bits of a raw cell (R30). -/
def elemOf (w raw j : Nat) : Nat := raw / 2 ^ (w * j) % 2 ^ w

/-- Put a list of elements of w bits together, the first lowest (R30). -/
def joinElems (w : Nat) : List Nat → Nat
  | [] => 0
  | e :: r => e % 2 ^ w + 2 ^ w * joinElems w r

/-- The value captured for the broadcast of a register (R61, R104, R105). -/
def Core.bcast (c : Core) (r : Reg) : W64 :=
  match c.task.block with
  | some b => if r = 0 then 0 else fget b.bc r.val 0
  | none => 0

/-- Cell k of an operand under a type: 32 bits, or the 64 of a pair (R31); a broadcast in every element
(R61); `toks` are the cells a stream delivered. -/
def Core.src (c : Core) (toks : List W32) (ty : Ty) (v : VOp) (k : Nat) : Nat :=
  match v with
  | .vec q dir i =>
    let lo := (c.task.cell (cellKey q dir i.val k)).toNat
    if ty.is64 then lo + 2 ^ 32 * (c.task.cell (cellKey q dir (i.val + 1) k)).toNat else lo
  | .stream _ _ => ((toks[k]?).getD 0).toNat
  | .scalar r => joinElems ty.bits (List.replicate ty.perCell (c.bcast r).toNat)

/-- Element j of cell k of an operand. -/
def Core.elem (c : Core) (toks : List W32) (ty : Ty) (v : VOp) (k j : Nat) : Nat := elemOf ty.bits (c.src toks ty v k) j

/-- Element e of a whole vector (R30). -/
def Core.elemAt (c : Core) (toks : List W32) (ty : Ty) (v : VOp) (e : Nat) : Nat :=
  c.elem toks ty v (e / ty.perCell) (e % ty.perCell)

/-- The numeric value of an element of an integer type (R32). -/
def intVal (ty : Ty) (e : Nat) : Int := if ty.isSigned then sextN e ty.bits else ((e % 2 ^ ty.bits : Nat) : Int)

/-- Write cell k of a destination vector, or the pair. -/
def TaskPart.setVec (t : TaskPart) (ty : Ty) (v : VOp) (k raw : Nat) : TaskPart :=
  match v with
  | .vec q dir i =>
    let t := t.setCell (cellKey q dir i.val k) (BitVec.ofNat 32 raw)
    if ty.is64 then t.setCell (cellKey q dir (i.val + 1) k) (BitVec.ofNat 32 (raw / 2 ^ 32)) else t
  | _ => t

/-- Write several cells of a destination. -/
def TaskPart.setCells (t : TaskPart) (ty : Ty) (v : VOp) : List (Nat × Nat) → TaskPart
  | [] => t
  | (k, raw) :: r => (t.setVec ty v k raw).setCells ty v r

/-! ## Legal operands (R75) -/

/-- An operand names what the task holds: a square of its share, a pair that starts even, a bound
stream record (R31, R75, R140). -/
def TaskPart.holds (t : TaskPart) (ty : Ty) (v : VOp) : Bool :=
  match v with
  | .vec q _ i => q.val < t.sq && (!ty.is64 || i.val % 2 == 0)
  | .stream st _ => (fget t.streams st.val {}).bound
  | .scalar _ => true

/-- Every operand of a list is legal under its type. -/
def TaskPart.holdsAll (t : TaskPart) (l : List (Ty × VOp)) : Bool := l.all fun p => t.holds p.1 p.2

/-- Run an element instruction whose operands are legal; otherwise trap before any element (R75). -/
def withOperands (s : State) (l : List (Ty × VOp)) (k : Out) : Out :=
  if s.core.task.holdsAll l then k else .next s.operandE

/-! ## The loop (R143) -/

/-- The cells from vstart up to vl. -/
def TaskPart.loopCells (t : TaskPart) : List Nat := (List.range t.vl.toNat).filter fun k => t.vstart.toNat ≤ k

/-- The cells below vl with their mask bit set (R177, R182). -/
def TaskPart.activeCells (t : TaskPart) (m : MaskNo) : List Nat := (List.range t.vl.toNat).filter fun k => t.maskBit m k

/-- The cells the loop executes: the loop's cells with their mask bit set. -/
def TaskPart.execCells (t : TaskPart) (m : MaskNo) : List Nat := t.loopCells.filter fun k => t.maskBit m k

/-- The results of the elements of a cell: the raw cell, and the flags. -/
def cellRes (ty : Ty) (f : Nat → Res) : Res :=
  let rs := (List.range ty.perCell).map f
  (joinElems ty.bits (rs.map (·.1)), rs.foldl (fun g r => g ||| r.2) 0)

/-- Set sticky flags (R38). -/
def Core.orFlags (c : Core) (f : Byte) : Core := { c with flags := c.flags ||| f }

/-- Write the elements f gives, by cell and position, into the destination's cells ks. -/
def Core.fill (c : Core) (ty : Ty) (d : VOp) (ks : List Nat) (f : Nat → Nat → Res) : Core :=
  let rs := ks.map fun k => (k, cellRes ty (f k))
  let c := c.orFlags (rs.foldl (fun g r => g ||| r.2.2) 0)
  { c with task := c.task.setCells ty d (rs.map fun r => (r.1, r.2.1)) }

/-- The loop of R143: elements of a destination from an element function. -/
def Core.elementwise (c : Core) (ty : Ty) (m : MaskNo) (d : VOp) (f : Nat → Nat → Res) : Core :=
  c.fill ty d (c.task.execCells m) f

/-- The loop of R143 into a mask: one bit per cell, and flags. -/
def Core.maskwise (c : Core) (m : MaskNo) (d : MaskNo) (f : Nat → Bool × Byte) : Core :=
  let rs := (c.task.execCells m).map fun k => (k, f k)
  let c := c.orFlags (rs.foldl (fun g r => g ||| r.2.2) 0)
  { c with task := rs.foldl (fun t r => t.setMaskBit d r.1 r.2.1) c.task }

end Sys2Proof.Machine
end

