-- ==== Sys2Proof/Machine/Float.lean ====
section
/-!
DEFINITION. Floating-point values, their exact arithmetic, one rounding (R33-R41), the correctly rounded
functions of R172, and O4 activations (R42-R44).
-/
namespace Sys2Proof.Machine
open Sys2Proof

/-! ## Formats (R33, R34) -/

/-- A floating-point format: fraction bits, bias, and the code of its largest finite magnitude;
`ieee` formats have infinities. -/
structure Fmt where
  frac : Nat
  bias : Nat
  top : Nat
  width : Nat
  ieee : Bool
  deriving DecidableEq, Repr

def fmtOf : Ty → Fmt
  | .fp16 => ⟨10, 15, 0x7BFF, 16, true⟩
  | .bf16 => ⟨7, 127, 0x7F7F, 16, true⟩
  | .e4m3 => ⟨3, 7, 0x7E, 8, false⟩
  | .e5m2 => ⟨2, 15, 0x7B, 8, true⟩
  | _ => ⟨23, 127, 0x7F7FFFFF, 32, true⟩

/-- The exponent of the least significant bit of a subnormal. -/
def Fmt.low (f : Fmt) : Int := 1 - (f.bias : Int) - (f.frac : Int)

/-- The code of infinity, in a format that has one. -/
def Fmt.inf (f : Fmt) : Nat := f.top + 1

/-- The canonical NaN (R36). -/
def canonNaN : Ty → Nat
  | .fp16 => 0x7E00
  | .bf16 => 0x7FC0
  | .e4m3 => 0x7F
  | .e5m2 => 0x7E
  | _ => 0x7FC00000

/-- A floating-point value: a NaN, an infinity, or (−1)^neg × m × 2^e. -/
inductive Fp where
  | nan (signalling : Bool)
  | inf (neg : Bool)
  | fin (neg : Bool) (m : Nat) (e : Int)
  deriving DecidableEq, Repr

/-- The value of a code (R33, R34, R36). -/
def decodeFp (ty : Ty) (bits : Nat) : Fp :=
  let f := fmtOf ty
  let v := bits % 2 ^ f.width
  let neg := v.testBit (f.width - 1)
  let mag := v % 2 ^ (f.width - 1)
  if f.top < mag then
    if f.ieee then
      if mag = f.inf then .inf neg
      else .nan (f.width != 8 && !mag.testBit (f.frac - 1))
    else .nan false
  else
    let be := mag / 2 ^ f.frac
    let fr := mag % 2 ^ f.frac
    if be = 0 then .fin neg fr f.low else .fin neg (fr + 2 ^ f.frac) (f.low + (be : Int) - 1)

/-- The sign bit of a code. -/
def signBit (f : Fmt) (neg : Bool) : Nat := if neg then 2 ^ (f.width - 1) else 0

/-! ## Rounding (R37-R40) -/

/-- Whether a truncated magnitude goes up: `odd` its last bit, `r` of `d` the remainder (R37). -/
def roundsUp (rm : Rm) (neg odd : Bool) (r d : Nat) : Bool :=
  match rm with
  | .rne => d < 2 * r || (2 * r == d && odd)
  | .rtz => false
  | .rdn => neg && r != 0
  | .rup => !neg && r != 0
  | .rmm => d ≤ 2 * r

/-- m × 2^e rounded to a multiple of 2^q: the multiple, and whether it is inexact. -/
def roundAt (rm : Rm) (neg : Bool) (m : Nat) (e q : Int) : Nat × Bool :=
  if q ≤ e then (m * 2 ^ (e - q).toNat, false)
  else
    let d := 2 ^ (q - e).toNat
    let n := m / d
    let r := m % d
    (if roundsUp rm neg (n % 2 == 1) r d then n + 1 else n, r != 0)

/-- What an overflow delivers (R39, R40): formats of 8 bits saturate. -/
def overflowCode (f : Fmt) (rm : Rm) (neg : Bool) : Nat :=
  if f.width = 8 then f.top
  else match rm with
    | .rne | .rmm => f.inf
    | .rtz => f.top
    | .rdn => if neg then f.inf else f.top
    | .rup => if neg then f.top else f.inf

/-- Round (−1)^neg × m × 2^e once into a format: the code and the flags of R38. -/
def roundFp (ty : Ty) (rm : Rm) (neg : Bool) (m : Nat) (e : Int) : Res :=
  let f := fmtOf ty
  if m = 0 then (signBit f neg, 0)
  else
    let top : Int := (Nat.log2 m : Int) + e
    -- unbounded exponent range, for tininess
    let u := roundAt rm neg m e (top - f.frac)
    let tiny := top < f.low + f.frac && (top + 1 < f.low + f.frac || u.1 < 2 ^ (f.frac + 1))
    let q := if top - f.frac < f.low then f.low else top - f.frac
    let r := roundAt rm neg m e q
    let code := (q - f.low).toNat * 2 ^ f.frac + r.1
    if f.top < code then
      (signBit f neg + overflowCode f rm neg, Flag.overflow.bit ||| Flag.inexact.bit)
    else
      (signBit f neg + code, Flag.inexact.when r.2 ||| Flag.underflow.when (tiny && r.2))

/-- A value rounded into a format; a NaN is canonical (R36, R40). -/
def encodeFp (ty : Ty) (rm : Rm) (v : Fp) : Res :=
  match v with
  | .nan sg => (canonNaN ty, Flag.invalid.when sg)
  | .inf neg =>
    let f := fmtOf ty
    if f.ieee then (signBit f neg + f.inf, 0) else (canonNaN ty, Flag.invalid.bit)
  | .fin neg m e => roundFp ty rm neg m e

/-- An invalid operation delivers the canonical NaN (R36, R38). -/
def invalidRes (ty : Ty) : Res := (canonNaN ty, Flag.invalid.bit)

/-- A NaN result of operands, invalid where one signals. -/
def nanRes (ty : Ty) (l : List Fp) : Res := (canonNaN ty, Flag.invalid.when (l.any fun v => v == .nan true))

def Fp.isNan : Fp → Bool
  | .nan _ => true
  | _ => false

def Fp.isNeg : Fp → Bool
  | .nan _ => false
  | .inf n => n
  | .fin n _ _ => n

/-! ## Sums and products (R35, R169, R170) -/

/-- A finite value as an integer multiple of 2^q, q no greater than its exponent. -/
def scaledInt (neg : Bool) (m : Nat) (e q : Int) : Int :=
  let v : Int := (m * 2 ^ (e - q).toNat : Nat)
  if neg then -v else v

/-- The sign of an exact zero sum (R35): that of two like zeros, else + or, under RDN, −. -/
def zeroSign (rm : Rm) (n₁ n₂ : Bool) : Bool := if n₁ == n₂ then n₁ else rm == .rdn

/-- Round an integer multiple of 2^q; zero takes the sign z. -/
def roundInt (ty : Ty) (rm : Rm) (v : Int) (q : Int) (z : Bool) : Res :=
  if v = 0 then (signBit (fmtOf ty) z, 0) else roundFp ty rm (v < 0) v.natAbs q

/-- a + b, rounded once (R169). -/
def addFp (ty : Ty) (rm : Rm) (a b : Fp) : Res :=
  match a, b with
  | .nan _, _ | _, .nan _ => nanRes ty [a, b]
  | .inf n, .inf k => if n == k then encodeFp ty rm (.inf n) else invalidRes ty
  | .inf n, _ | _, .inf n => encodeFp ty rm (.inf n)
  | .fin n m e, .fin k l g =>
    let q := if e < g then e else g
    roundInt ty rm (scaledInt n m e q + scaledInt k l g q) q (if m = 0 && l = 0 then zeroSign rm n k else rm == .rdn)

/-- The negation of a value. -/
def negFp : Fp → Fp
  | .nan sg => .nan sg
  | .inf n => .inf !n
  | .fin n m e => .fin (!n) m e

/-- The exact product of two values that are no NaN; none for 0 × ∞ (R38). -/
def mulExact (a b : Fp) : Option Fp :=
  match a, b with
  | .fin n m e, .fin k l g => some (.fin (n != k) (m * l) (e + g))
  | .inf n, .inf k => some (.inf (n != k))
  | .inf n, .fin k l _ | .fin k l _, .inf n => if l = 0 then none else some (.inf (n != k))
  | _, _ => none

/-- a × b, rounded once (R169). -/
def mulFp (ty : Ty) (rm : Rm) (a b : Fp) : Res :=
  if a.isNan || b.isNan then nanRes ty [a, b]
  else match mulExact a b with
    | some p => encodeFp ty rm p
    | none => invalidRes ty

/-- a × b + d, rounded once (R170); 0 × ∞ is invalid even when d is a NaN. -/
def fmaFp (ty : Ty) (rm : Rm) (a b d : Fp) : Res :=
  if a.isNan || b.isNan then nanRes ty [a, b, d]
  else match mulExact a b with
    | none => invalidRes ty
    | some p => if d.isNan then nanRes ty [d] else addFp ty rm p d

/-! ## Quotients and roots (R169, R172) -/

/-- m / l with a sticky last bit, on enough bits for any format: the quotient and its exponent. -/
def divExact (m l : Nat) : Nat × Int :=
  let k := 70 + Nat.log2 l - Nat.min (Nat.log2 m) (Nat.log2 l)
  let n := m * 2 ^ k
  (2 * (n / l) + (if n % l = 0 then 0 else 1), -(k : Int) - 1)

/-- a / b, rounded once (R169). -/
def divFp (ty : Ty) (rm : Rm) (a b : Fp) : Res :=
  match a, b with
  | .nan _, _ | _, .nan _ => nanRes ty [a, b]
  | .inf _, .inf _ => invalidRes ty
  | .inf n, .fin k _ _ => encodeFp ty rm (.inf (n != k))
  | .fin n _ _, .inf k => encodeFp ty rm (.fin (n != k) 0 0)
  | .fin n m e, .fin k l g =>
    if l = 0 then
      if m = 0 then invalidRes ty
      else ((encodeFp ty rm (.inf (n != k))).1, Flag.divideByZero.bit)
    else
      let q := divExact m l
      if m = 0 then encodeFp ty rm (.fin (n != k) 0 0) else roundFp ty rm (n != k) q.1 (q.2 + e - g)

/-- 1 / a (R172). -/
def rcpFp (ty : Ty) (rm : Rm) (a : Fp) : Res := divFp ty rm (.fin false 1 0) a

/-- The integer square root, bit by bit from bit k - 1 down. -/
def isqrtFrom (n : Nat) : Nat → Nat → Nat
  | 0, r => r
  | k + 1, r => if (r + 2 ^ k) * (r + 2 ^ k) ≤ n then isqrtFrom n k (r + 2 ^ k) else isqrtFrom n k r

def isqrt (n : Nat) : Nat := isqrtFrom n (Nat.log2 n / 2 + 1) 0

/-- 1 / √a (R172). -/
def rsqFp (ty : Ty) (rm : Rm) (a : Fp) : Res :=
  match a with
  | .nan _ => nanRes ty [a]
  | .inf n => if n then invalidRes ty else encodeFp ty rm (.fin false 0 0)
  | .fin n m e =>
    if m = 0 then ((encodeFp ty rm (.inf n)).1, Flag.divideByZero.bit)
    else if n then invalidRes ty
    else
      -- a = m' × 2^e' with e' even; r = floor(2^t / √m')
      let odd := e % 2 != 0
      let m' := if odd then 2 * m else m
      let e' := if odd then e - 1 else e
      let t := 64 + Nat.log2 m'
      let r := isqrt (2 ^ (2 * t) / m')
      roundFp ty rm false (2 * r + (if r * r * m' = 2 ^ (2 * t) then 0 else 1)) (-(t : Int) - e' / 2 - 1)

/-! ## Exponential and logarithm to base two (R172)

Fixed-point numbers with w fraction bits, every step rounded down, and a bound on how far below the exact
value a result can lie. A result is taken when the bound leaves one way to round. -/

/-- Σ z^(2k+1) / (2k+1) for k < n, where z and its square zz have w fraction bits and p = z^(2k+1). -/
def artanhSum (w zz : Nat) : Nat → Nat → Nat → Nat
  | 0, _, _ => 0
  | n + 1, k, p => p / (2 * k + 1) + artanhSum w zz n (k + 1) (p * zz / 2 ^ w)

/-- 2 artanh(z). -/
def twoArtanh (w z : Nat) : Nat := 2 * artanhSum w (z * z / 2 ^ w) w 0 z

/-- ln 2 = 2 artanh(1/3). -/
def lnTwo (w : Nat) : Nat := twoArtanh w (2 ^ w / 3)

/-- Σ y^k / k! over n terms, the k-th given. -/
def expSum (w y : Nat) : Nat → Nat → Nat → Nat
  | 0, _, _ => 0
  | n + 1, k, t => t + expSum w y n (k + 1) (t * y / ((k + 1) * 2 ^ w))

/-- How far the sums of w terms can lie from the exact values. -/
def slack (w : Nat) : Nat := 64 * w * w

/-- 2^f for f = r / 2^w, 0 ≤ f < 1, from below. -/
def expTwo (w r : Nat) : Nat := expSum w (r * lnTwo w / 2 ^ w) w 0 (2 ^ w)

/-- Cut the guard bits of a value that lies between v and v + 2 slack; none where that reaches over a
multiple. -/
def cutGuard (w v : Nat) : Option Nat :=
  let g := 2 ^ (w - 96)
  if v / g = (v + 2 * slack w) / g then some (2 * (v / g) + 1) else none

/-- The first of growing precisions that decides, the last one unguarded. -/
def settleBits (f : Nat → Nat) : Nat → Nat → Nat × Nat
  | 0, w => (2 * (f w / 2 ^ (w - 96)) + 1, w)
  | n + 1, w => match cutGuard w (f w) with
    | some v => (v, w)
    | none => settleBits f n (2 * w)

/-- 2^a for a finite value that is no integer, with 96 fraction bits and a sticky one. -/
def expRound (ty : Ty) (rm : Rm) (v : Int) (q : Int) : Res :=
  -- a = v × 2^q with q < 0; the integer part, and the fraction on w bits
  let d : Int := ((2 ^ (-q).toNat : Nat) : Int)
  let n := v / d
  let fr := (v % d).toNat
  let r := settleBits (fun w => expTwo w (fr * 2 ^ w / 2 ^ (-q).toNat)) 2 320
  roundFp ty rm false r.1 (n - 97)

/-- 2^a (R172). -/
def exp2Fp (ty : Ty) (rm : Rm) (a : Fp) : Res :=
  match a with
  | .nan _ => nanRes ty [a]
  | .inf n => if n then encodeFp ty rm (.fin false 0 0) else encodeFp ty rm (.inf false)
  | .fin n m e =>
    if m = 0 then roundFp ty rm false 1 0
    else if 12 ≤ (Nat.log2 m : Int) + e then
      -- |a| ≥ 4,096: beyond every format
      if n then roundFp ty rm false 1 (-4096) else roundFp ty rm false 1 4096
    else if 0 ≤ e then roundFp ty rm false 1 (scaledInt n m e 0)
    else
      let d := 2 ^ (-e).toNat
      if m % d = 0 then roundFp ty rm false 1 (if n then -((m / d : Nat) : Int) else (m / d : Nat))
      else expRound ty rm (if n then -(m : Int) else m) e

/-- |log2 x + k| for x = m / 2^l in [1, 2), x no power of two, with w fraction bits, within the slack. -/
def logTwo (w m l : Nat) (k : Int) : Nat :=
  let z := (m - 2 ^ l) * 2 ^ w / (m + 2 ^ l)
  let f : Nat := twoArtanh w z * 2 ^ w / lnTwo w
  (k * ((2 ^ w : Nat) : Int) + f).natAbs

/-- log2 of a positive finite value that is no power of two: sign, magnitude with a sticky bit, exponent. -/
def logRound (ty : Ty) (rm : Rm) (m : Nat) (e : Int) : Res :=
  let l := Nat.log2 m
  let k : Int := (l : Int) + e
  let r := settleBits (fun w => logTwo w m l k - slack w) 2 320
  roundFp ty rm (k < 0) r.1 (-97)

/-- log2 a (R172). -/
def log2Fp (ty : Ty) (rm : Rm) (a : Fp) : Res :=
  match a with
  | .nan _ => nanRes ty [a]
  | .inf n => if n then invalidRes ty else encodeFp ty rm (.inf false)
  | .fin n m e =>
    if m = 0 then ((encodeFp ty rm (.inf true)).1, Flag.divideByZero.bit)
    else if n then invalidRes ty
    else
      let l := Nat.log2 m
      let k : Int := (l : Int) + e
      if m = 2 ^ l then (if k = 0 then (0, 0) else roundFp ty rm (k < 0) k.natAbs 0)
      else logRound ty rm m e

/-! ## Order (R171, R173) -/

/-- Compare two finite or infinite values: −1, 0 or 1; zeros are equal. -/
def cmpFp (a b : Fp) : Int :=
  match a, b with
  | .inf n, .inf k => if n == k then 0 else if n then -1 else 1
  | .inf n, _ => if n then -1 else 1
  | _, .inf k => if k then 1 else -1
  | .fin n m e, .fin k l g =>
    let q := if e < g then e else g
    let x := scaledInt n m e q
    let y := scaledInt k l g q
    if x < y then -1 else if y < x then 1 else 0
  | _, _ => 0

/-- The order of VFMIN and VFMAX: −0 lies below +0 (R171). -/
def leFp (a b : Fp) : Bool :=
  let c := cmpFp a b
  c < 0 || (c == 0 && (a.isNeg || !b.isNeg))

/-- VFMIN and VFMAX of two codes (R171). -/
def pickFp (ty : Ty) (greater : Bool) (x y : Nat) : Res :=
  let a := decodeFp ty x
  let b := decodeFp ty y
  let fl := Flag.invalid.when (a == .nan true || b == .nan true)
  if a.isNan && b.isNan then (canonNaN ty, fl)
  else if a.isNan then (y, fl)
  else if b.isNan then (x, fl)
  else (if (if greater then leFp b a else leFp a b) then x else y, fl)

/-- A condition of VFCMP, with the invalid flag (R173). -/
def fcmpRes (c : FCond) (a b : Fp) : Bool × Byte :=
  let un := a.isNan || b.isNan
  let quiet := Flag.invalid.when (a == .nan true || b == .nan true)
  let o := cmpFp a b
  match c with
  | .eq => (!un && o == 0, quiet)
  | .ne => (un || o != 0, quiet)
  | .lt => (!un && o < 0, Flag.invalid.when un)
  | .ge => (!un && 0 ≤ o, Flag.invalid.when un)
  | .gt => (!un && 0 < o, Flag.invalid.when un)
  | .le => (!un && o ≤ 0, Flag.invalid.when un)
  | .un => (un, quiet)

/-! ## Exact sums of products (R53) -/

/-- A sum under way: an exact value v × 2^q, infinities met, a NaN operand met, an invalid operation met,
a signalling NaN met. -/
structure DotAcc where
  v : Int := 0
  q : Int := 0
  allNeg : Bool := true
  posInf : Bool := false
  negInf : Bool := false
  nan : Bool := false
  bad : Bool := false
  deriving DecidableEq, Repr

/-- Add one exact term. -/
def DotAcc.add (s : DotAcc) (t : Fp) : DotAcc :=
  match t with
  | .nan sg => { s with nan := true, bad := s.bad || sg }
  | .inf n => if n then { s with negInf := true } else { s with posInf := true }
  | .fin n m e =>
    let q := if e < s.q then e else s.q
    { s with v := s.v * ((2 ^ (s.q - q).toNat : Nat) : Int) + scaledInt n m e q, q := q, allNeg := s.allNeg && n }

/-- Add a product: 0 × ∞ is invalid (R53). -/
def DotAcc.addMul (s : DotAcc) (a b : Fp) : DotAcc :=
  if a.isNan || b.isNan then { s with nan := true, bad := s.bad || a == .nan true || b == .nan true }
  else match mulExact a b with
    | some p => s.add p
    | none => { s with nan := true, bad := true }

/-- The single rounding of a sum to fp32 under RNE, with its special values (R35, R53). An exact zero is
−0 only where every term is a negative zero. -/
def DotAcc.round (s : DotAcc) : Res :=
  let both := s.posInf && s.negInf
  if s.nan || both then (canonNaN .fp32, Flag.invalid.when (s.bad || both))
  else if s.posInf then encodeFp .fp32 .rne (.inf false)
  else if s.negInf then encodeFp .fp32 .rne (.inf true)
  else roundInt .fp32 .rne s.v s.q s.allNeg

/-! ## Conversions (R39-R41, R174, R176) -/

/-- A value rounded to an integer under rm, and whether it was one already. -/
def toInteger (rm : Rm) (neg : Bool) (m : Nat) (e : Int) : Int × Bool :=
  let r := roundAt rm neg m e 0
  (if neg then -(r.1 : Int) else r.1, r.2)

/-- Floating point to an integer type; a result that is clamped sets invalid (R41) and saturation (R38). -/
def fpToInt (ty : Ty) (rm : Rm) (v : Fp) : Res :=
  let w := ty.bits
  let clamp := fun (x : Int) => if ty.isSigned then satS x w else satN x w
  let far : Int := ((2 ^ 200 : Nat) : Int)
  match v with
  | .nan _ => (0, Flag.invalid.bit)
  | .inf n => (modN (clamp (if n then -far else far)) w, Flag.invalid.bit ||| Flag.saturation.bit)
  | .fin n m e =>
    let r := toInteger rm n m e
    let c := clamp r.1
    (modN c w, if c != r.1 then Flag.invalid.bit ||| Flag.saturation.bit else Flag.inexact.when r.2)

/-- An integer to floating point (R41). From 65,520, the first magnitude that rounds past the largest fp16
value, fp16 overflows under every mode, as the rule's example has 65,535 do under RTZ (DEDUCED, log 16). -/
def intToFp (ty : Ty) (rm : Rm) (v : Int) : Res :=
  if ty = .fp16 ∧ 65520 ≤ v.natAbs then
    (signBit (fmtOf ty) (v < 0) + overflowCode (fmtOf ty) rm (v < 0), Flag.overflow.bit ||| Flag.inexact.bit)
  else roundInt ty rm v 0 false

/-! ## O4 (R42-R44) -/

/-- The two elements of a pair of nibbles, the even slot first (R43). -/
def o4Decode (n0 n1 : Nat) : Int × Int :=
  let outlier := fun (x : Nat) =>
    let v : Int := ((2 ^ (x % 8 + 3) : Nat) : Int)
    if x.testBit 3 then -v else v
  if n0 = 8 then (outlier n1, 0)
  else if n1 = 8 then (0, outlier n0)
  else (sextN n0 4, sextN n1 4)

/-- Element e of a raw O4 cell. -/
def o4Elem (raw e : Nat) : Int :=
  let p := o4Decode (elemOf 4 raw (e / 2 * 2)) (elemOf 4 raw (e / 2 * 2 + 1))
  if e % 2 = 0 then p.1 else p.2

/-- An input of a conversion to O4 as an integer, and its flags (R44). -/
def o4Input (rm : Rm) (v : Fp) : Int × Byte :=
  match v with
  | .nan _ => (0, Flag.invalid.bit)
  | .inf n => (if n then -1024 else 1024, Flag.invalid.bit ||| Flag.saturation.bit)
  | .fin n m e =>
    let r := toInteger rm n m e
    (r.1, Flag.inexact.when r.2)

/-- The exponent k of the power of two a candidate outlier becomes, 3 to 10, and its flags (R44). -/
def o4Power (v : Int) : Nat × Byte :=
  let a := v.natAbs
  if 1024 < a then (10, Flag.saturation.bit ||| Flag.inexact.bit)
  else
    let l := Nat.log2 a
    let k := if 3 * 2 ^ l ≤ 2 * a then l + 1 else l
    (k, Flag.inexact.when (a != 2 ^ k))

/-- The nibble that carries an outlier's sign and exponent. -/
def o4Nibble (v : Int) (k : Nat) : Nat := (k - 3) + (if v < 0 then 8 else 0)

/-- An ordinary slot's nibble. -/
def o4Plain (v : Int) : Nat := modN v 4

/-- A pair with one outlier and one element given up: the flags of the loss (R44, step 3); an element that
set invalid does not also set inexact (R38). -/
def o4Lost (v : Int) (candidate inv : Bool) : Byte := Flag.inexact.when (v != 0 && !inv) ||| Flag.saturation.when candidate

/-- Encode a pair of integers: both nibbles in one byte, and the flags (R44); i0 and i1 say which inputs
were infinities. -/
def o4Encode (v0 v1 : Int) (i0 i1 : Bool) : Res :=
  let c0 := 8 ≤ v0.natAbs
  let c1 := 8 ≤ v1.natAbs
  let p0 := o4Power v0
  let p1 := o4Power v1
  if !c0 && !c1 then (o4Plain v0 + 16 * o4Plain v1, 0)
  else if c0 && (!c1 || p1.1 ≤ p0.1) then
    (8 + 16 * o4Nibble v0 p0.1, p0.2 ||| (if c1 then p1.2 else 0) ||| o4Lost v1 c1 i1)
  else if v1 < 0 && p1.1 = 3 then
    (o4Plain v0 + 16 * o4Plain (-7), Flag.inexact.bit)
  else
    (o4Nibble v1 p1.1 + 16 * 8, p1.2 ||| (if c0 then p0.2 else 0) ||| o4Lost v0 c0 i0)

end Sys2Proof.Machine
end

