-- ==== Sys2Proof/Machine/Kv.lean ====
section
/-!
DEFINITION. The KV space: descriptors, sequences, prefix-table entries, and the walk of a stream record
that produces a token (R320-R329, R341, R344-R346).
-/
namespace Sys2Proof.Machine
open Sys2Proof

/-! ## Reads and writes of the Crook (R322, R340) -/

/-- The KV status of a memory fault (R340). -/
def kvStatus (f : MemFault) : Nat := if f.code = 0x000F then 0x0208 else 0x0207

/-- How the Crook of a stack translates for an operation (R322): its tables may lie in any RW page, a KV page
too. -/
def kvCtx (stk : Fin 8) (asid : BitVec 14) (hart : Bool) : XCtx := { engineCtx stk asid hart 0 .crook with kv := true }

/-- The Crook reads n bytes at a virtual address. -/
def State.kvRead (s : State) (c : XCtx) (va : W64) (n : Nat) : State × Except Nat (List Byte) :=
  let r := engineLoad s c va n
  (r.1, match r.2 with
    | .ok bs => .ok bs
    | .error f => .error (kvStatus f))

/-- The Crook writes bytes at a virtual address. -/
def State.kvWrite (s : State) (c : XCtx) (va : W64) (bs : List Byte) : State × Except Nat Unit :=
  let r := engineStore s c .engineWrite va bs
  (r.1, match r.2 with
    | .ok _ => .ok ()
    | .error f => .error (kvStatus f))

/-- Every line of a physical range can be reached: none, or the status of the first that cannot. -/
def physFault (ms : MemSys) (u : Ursol) (pa n : Nat) (reads : Bool) : Option Nat :=
  (piecesOf pa n).findSome? fun p =>
    if !isDram p.1 || isFenced u p.1 then some 0x0207
    else if !serves u (stackOf p.1) || (reads && piecePoisoned ms p) then some 0x0208
    else none

/-- The Crook reads n bytes at a physical address: of a KV block, which is NC (R217), or of a descriptor. -/
def State.physRead (s : State) (stk : Fin 8) (pa n : Nat) (nc : Bool := true) : State × Except Nat (List Byte) :=
  match physFault s.mem s.ursol pa n true with
  | some e => ({ s with mem := if e = 0x0208 && serves s.ursol (stackOf pa) then meetPoison s.mem (piecesOf pa n) nc else s.mem }, .error e)
  | none =>
    let r := engineRead s.mem (engineNo .crook stk) pa n nc
    ({ s with mem := r.1 }, .ok r.2)

/-- The Crook writes bytes at a physical address of a KV block, for an operation under an ASID (R392). -/
def State.physWrite (s : State) (stk : Fin 8) (asid : BitVec 14) (pa : Nat) (bs : List Byte) : State × Except Nat Unit :=
  match physFault s.mem s.ursol pa bs.length false with
  | some e => (s, .error e)
  | none => ({ s with mem := tagHits s.mem (engineWrite s.mem (engineNo .crook stk) pa bs true) (engineNo .crook stk) asid }, .ok ())

/-- The double at an offset of a byte string. -/
def wordAt (bs : List Byte) (off n : Nat) : Nat := natOf ((bs.drop off).take n)

/-! ## The KV descriptor (R321, R322) -/

/-- The descriptor 64 bytes are, if they are usable (R321, R322). -/
def kvDescOf (bs : List Byte) : Option KvDesc :=
  let d := fun off => wordAt bs off 8
  let g := d 0x20
  if d 0 % 4096 == 0 && d 8 % 128 == 0 && d 0x10 % 32 == 0 && d 0x18 % 4096 == 0 && g / 2 ^ 32 == 0 && g / 2 ^ 5 % 8 == 0 &&
      6 ≤ g % 32 && g % 32 ≤ 24 && g / 2 ^ 24 % 16 == 3 && g / 2 ^ 28 % 16 == 7 && d 0x28 / 2 ^ 21 == 0 && d 0x30 == 0 && d 0x38 == 0 then
    some ⟨BitVec.ofNat 64 (d 0), BitVec.ofNat 64 (d 8), BitVec.ofNat 64 (d 0x10), BitVec.ofNat 64 (d 0x18), g % 32,
      g / 2 ^ 8 % 256 + 1, g / 2 ^ 16 % 256 + 1, d 0x28⟩
  else none

/-- The physical address of an ASID's KV descriptor: the double at offset 0x10 of its directory entry
(R193, R321). -/
def kvdOf (ms : MemSys) (u : Ursol) (stk : Fin 8) (asid : BitVec 14) : MemSys × Except Nat Nat :=
  let a := u.asidDir + 32 * asid.toNat
  let p := walkRead ms u stk a
  let q := walkRead p.1 u stk (a + 16)
  (q.1, match p.2, q.2 with
  | .value e, .value v => if e.getLsbD 0 then .ok v.toNat else .ok 0
  | .poisoned, _ | _, .poisoned => .error 0x0208
  | _, _ => .error 0x0207)

/-- The Crook reads the descriptor of an ASID (R322); status 0x0201 for an unusable one. -/
def State.kvDesc (s : State) (stk : Fin 8) (asid : BitVec 14) : State × Except Nat KvDesc :=
  let k := kvdOf s.mem s.ursol stk asid
  let s := { s with mem := k.1 }
  match k.2 with
  | .error e => (s, .error e)
  | .ok pa =>
    if pa = 0 || pa % 64 ≠ 0 then (s, .error 0x0201)
    else
      let r := s.physRead stk pa 64 false
      (r.1, match r.2 with
        | .error e => .error e
        | .ok bs => match kvDescOf bs with
          | some d => .ok d
          | none => .error 0x0201)

/-! ## Sequences and entries (R324-R326) -/

def KvDesc.seqVa (d : KvDesc) (q : Nat) : W64 := d.stab + BitVec.ofNat 64 (128 * q)
def KvDesc.entryVa (d : KvDesc) (id : Nat) : W64 := d.ptab + BitVec.ofNat 64 (128 * id)

/-- n 32-bit words of a byte string. -/
def wordsOf (bs : List Byte) (off n : Nat) : List Nat := (List.range n).map fun i => wordAt bs (off + 4 * i) 4

def seqOf (bs : List Byte) : SeqDesc where
  list := BitVec.ofNat 64 (wordAt bs 0 8)
  tail := wordAt bs 8 8
  nb := wordAt bs 0x10 4
  cap := wordAt bs 0x14 4
  len := wordAt bs 0x18 3
  ttok := wordsOf bs 0x40 16

def State.kvSeq (s : State) (c : XCtx) (d : KvDesc) (q : Nat) : State × Except Nat SeqDesc :=
  let r := s.kvRead c (d.seqVa q) 128
  (r.1, r.2.map seqOf)

/-- A prefix-table entry (R325). -/
structure KvEntry where
  pred : Nat
  tok : List Nat
  pa : Nat
  state : Nat
  sigv : Bool
  gen : Nat
  pin : Nat
  deriving DecidableEq, Repr, Inhabited

def entryOf (bs : List Byte) : KvEntry where
  pred := wordAt bs 0 4
  tok := wordsOf bs 4 16
  pa := wordAt bs 0x48 8
  state := wordAt bs 0x50 8 % 8
  sigv := (wordAt bs 0x50 8).testBit 3
  gen := wordAt bs 0x52 2
  pin := wordAt bs 0x54 4

def State.kvEntry (s : State) (c : XCtx) (d : KvDesc) (id : Nat) : State × Except Nat KvEntry :=
  let r := s.kvRead c (d.entryVa id) 128
  (r.1, r.2.map entryOf)

/-- Where the signature of an entry at a layer and head lies (R329). -/
def KvDesc.sigVa (d : KvDesc) (id layer head : Nat) : W64 :=
  d.sigb + BitVec.ofNat 64 (((id * d.nl + layer) * d.nh + head) * 32)

/-- The offset of token u of a half in its block (R323). -/
def KvDesc.tokOff (d : KvDesc) (layer head u : Nat) (v : Bool) : Nat :=
  ((layer * d.nh + head) * 2 + (if v then 1 else 0)) * 2048 + u * 128

/-! ## KV addresses (R320) -/

def kvPos (a : W64) : Nat := a.toNat % 2 ^ 24
def kvHead (a : W64) : Nat := a.toNat / 2 ^ 24 % 2 ^ 8
def kvLayer (a : W64) : Nat := a.toNat / 2 ^ 32 % 2 ^ 8
def kvSeqNo (a : W64) : Nat := a.toNat / 2 ^ 40 % 2 ^ 20

/-- A KV address with another position. -/
def withPos (a : W64) (p : Nat) : W64 := BitVec.ofNat 64 (a.toNat / 2 ^ 24 * 2 ^ 24 + p % 2 ^ 24)

/-! ## Stream reads (R344) -/

/-- What a stream read delivers. -/
inductive Token where
  | data (bs : List Byte)
  | masked
  | exhausted
  deriving DecidableEq, Repr

/-- A stream read's end: a token, or a KV fault by its cause code (R375). -/
inductive TokRes where
  | token (t : Token)
  | fault (code : Nat)
  deriving DecidableEq, Repr

/-- Consume a token: the cursor moves on, and clr is 0 at a block's start (R344). -/
def StreamRec.consume (r : StreamRec) : StreamRec :=
  let p := kvPos r.cur + 1
  { r with cur := withPos r.cur p, clr := if p % 16 = 0 then false else r.clr }

/-- Skip to a position (R344). -/
def StreamRec.skipTo (r : StreamRec) (e : Nat) : StreamRec :=
  { r with skip := r.skip + BitVec.ofNat 32 (e - kvPos r.cur), cur := withPos r.cur e, clr := false }

/-- The signature distance of R344. -/
def sigDistance (a b : Nat) : Nat := popCount (a ^^^ b) 256

/-- Read the token of a block at a physical base. A read of the data that fails, for whatever reason, is the read fault 0x001B
(DESIGN CHOICE, log entry 53: R344 names the descriptor, the list, the entry and the signature). -/
def State.readToken (s : State) (stk : Fin 8) (d : KvDesc) (base : Nat) (r : StreamRec) (v : Bool) : State × StreamRec × TokRes :=
  let q := s.physRead stk (base + d.tokOff (kvLayer r.cur) (kvHead r.cur) (kvPos r.cur % 16) v) 128
  match q.2 with
  | .error _ => (q.1, r, .fault 0x001B)
  | .ok bs => (q.1, r.consume, .token (.data bs))

/-- What the state of a block's entry makes of a read (R326, R344). -/
def State.readBlock (s : State) (stk : Fin 8) (d : KvDesc) (id : Nat) (e : KvEntry) (r : StreamRec) (v : Bool) :
    State × StreamRec × TokRes :=
  match e.state with
  | 1 => s.readToken stk d e.pa r v
  | 4 => (s, { r with dgid := BitVec.ofNat 32 id }.consume, .token .masked)
  | 2 => (s, r, .fault 0x0018)
  | 3 => (s, r, .fault 0x0019)
  | _ => (s, r, .fault 0x001A)

/-- The walk of R344 for one token, a block at a time; skips set the skipped flag. -/
def streamWalk (stk : Fin 8) (c : XCtx) (v : Bool) : Nat → State → StreamRec → State × StreamRec × TokRes
  | 0, s, r => (s, r, .token .exhausted)
  | fuel + 1, s, r =>
    let p := kvPos r.cur
    if r.fin.toNat ≤ p then (s, r, .token .exhausted)
    else
      let kd := s.kvDesc stk c.asid
      let s := kd.1
      match kd.2 with
      | .error e => (s, r, .fault (if e = 0x0201 then 0x001A else 0x001B))
      | .ok d =>
        if d.nseq ≤ kvSeqNo r.cur || d.nl ≤ kvLayer r.cur || d.nh ≤ kvHead r.cur then (s, r, .fault 0x001A)
        else
          let sq := s.kvSeq c d (kvSeqNo r.cur)
          let s := sq.1
          match sq.2 with
          | .error _ => (s, r, .fault 0x001B)
          | .ok q =>
            let k := p / 16
            if k < q.nb then
              let l := s.kvRead c (q.list + BitVec.ofNat 64 (4 * k)) 4
              let s := l.1
              match l.2 with
              | .error _ => (s, r, .fault 0x001B)
              | .ok lb =>
                let id := natOf lb
                if 2 ^ d.lgsz ≤ id then (s, r, .fault 0x001A)
                else
                  let er := s.kvEntry c d id
                  let s := er.1
                  match er.2 with
                  | .error _ => (s, r, .fault 0x001B)
                  | .ok e =>
                    if !r.clr && r.sig && e.sigv then
                      let g := s.kvRead c (d.sigVa id (kvLayer r.cur) (kvHead r.cur)) 32
                      let s := g.1
                      match g.2 with
                      | .error _ => (s, r, .fault 0x001B)
                      | .ok sb =>
                        if r.rad.toNat < sigDistance (natOf sb) r.qsig.toNat then
                          streamWalk stk c v fuel { s with core := s.core.orFlags Flag.skipped.bit }
                            (r.skipTo (Nat.min (16 * (k + 1)) r.fin.toNat))
                        else s.readBlock stk d id e { r with clr := true } v
                    else s.readBlock stk d id e { r with clr := true } v
            else if k = q.nb && q.tail ≠ 0 && p < q.len then s.readToken stk d q.tail r v
            else (s, r, .fault 0x001A)

/-- The token a task's staging holds for a position of a record (R343). -/
def State.staged (s : State) (t : TaskId) (st : Fin 4) (pos : Nat) (v : Bool) : Option Staged :=
  s.eng.staging.find? fun g => g.t == t && g.st == st && g.pos == pos && g.v == v

/-- What staging still serves once a record's cursor stands at a position. -/
def State.trimStaging (s : State) (t : TaskId) (st : Fin 4) (pos : Nat) : State :=
  { s with eng := { s.eng with staging := s.eng.staging.filter fun g => !(g.t == t && g.st == st && g.pos < pos) } }

/-- The next token of a stream record of the current task: the record moves, an absent block sets
KV-degraded (R345); a token fetched ahead comes from staging (R343). -/
def State.nextToken (s : State) (st : Fin 4) (v : Bool) : State × TokRes :=
  let r := fget s.core.task.streams st.val {}
  let stk := s.core.task.stk
  let q := streamWalk stk (kvCtx stk s.core.asid true) v (r.fin.toNat / 16 + 2) s r
  let c := q.1.core
  let c := { c with task := { c.task with streams := fset c.task.streams st.val q.2.1 {} } }
  let s := { q.1 with core := if q.2.2 == TokRes.token .masked then c.orFlags Flag.kvDegraded.bit else c }
  let res : TokRes := match q.2.2 with
    | .token (.data bs) =>
      (match s.staged s.core.taskId st (kvPos q.2.1.cur - 1) v with
       | some g => TokRes.token (.data g.data)
       | none => TokRes.token (.data bs))
    | t => t
  (s.trimStaging s.core.taskId st (kvPos q.2.1.cur), res)

/-- The cells a token is to an instruction that names a stream source: a MASKED or EXHAUSTED one is
zeros (R141, R345). -/
def Token.cells : Token → List W32
  | .data bs => (List.range 32).map fun i => BitVec.ofNat 32 (wordAt bs (4 * i) 4)
  | _ => List.replicate 32 0

/-- A KV fault of the element instruction that runs: precise, info the cursor, vstart the token (R344,
R346). -/
def State.streamFault (s : State) (st : Fin 4) (code j : Nat) : State :=
  let c := { s.core with task := { s.core.task with vstart := BitVec.ofNat 5 j } }
  ({ s with core := c }).trapE code (fget c.task.streams st.val {}).cur

/-- The stream record an operand names. -/
def VOp.streamOf : VOp → Option (Fin 4 × Bool)
  | .stream st v => some (st, v)
  | _ => none

/-- Run an element instruction that may name a stream: one token is consumed when the loop, which starts
at cell `start`, has a cell (R141), and its cells are handed on. -/
def tokenFrom (s : State) (start : Nat) (ops : List VOp) (k : State → List W32 → Out) : Out :=
  match ops.findSome? VOp.streamOf with
  | none => k s []
  | some (st, v) =>
    if s.core.task.vl.toNat ≤ start then k s []
    else
      let r := s.nextToken st v
      match r.2 with
      | .token t => k r.1 t.cells
      | .fault code => .next (r.1.streamFault st code start)

/-- The loop starts at vstart (R143). -/
def withToken (s : State) (ops : List VOp) (k : State → List W32 → Out) : Out :=
  tokenFrom s s.core.task.vstart.toNat ops k

end Sys2Proof.Machine
end

