-- ==== Sys2Proof/Machine/VecInt.lean ====
section
/-!
DEFINITION. Integer and mask instructions of the element stream (R141-R164).
-/
namespace Sys2Proof.Machine
open Sys2Proof

/-! ## Shapes -/

/-- An elementwise instruction of two sources (R143). -/
def vec2 (s : State) (h : EHdr) (ty : Ty) (d a b : VOp) (f : Nat → Nat → Res) : Out :=
  withOperands s [(ty, d), (ty, a), (ty, b)] (withToken s [a, b] fun s toks =>
    retireE { s with core := s.core.elementwise ty h.msk d fun k j => f (s.core.elem toks ty a k j) (s.core.elem toks ty b k j) })

/-- An elementwise instruction of one source, its element number given (R143). -/
def vec1 (s : State) (h : EHdr) (ty : Ty) (d a : VOp) (f : Nat → Nat → Res) : Out :=
  withOperands s [(ty, d), (ty, a)] (withToken s [a] fun s toks =>
    retireE { s with core := s.core.elementwise ty h.msk d fun k j => f (ty.perCell * k + j) (s.core.elem toks ty a k j) })

/-- An instruction that writes one scalar register and leaves every cell (R159, R162, R177). -/
def toScalar (s : State) (d : Reg) (v : W64) : Out := retireE { s with core := s.core.setReg d v }

/-! ## Arithmetic (R149-R151) -/

/-- VADD (R149). -/
def execVadd (h : EHdr) (ty : Ty) (d a b : VOp) (sat : Bool) (s : State) : Out :=
  vec2 s h ty d a b fun x y => narrowRes sat ty.isSigned (intVal ty x + intVal ty y) ty.bits
/-- VSUB (R149). -/
def execVsub (h : EHdr) (ty : Ty) (d a b : VOp) (sat : Bool) (s : State) : Out :=
  vec2 s h ty d a b fun x y => narrowRes sat ty.isSigned (intVal ty x - intVal ty y) ty.bits
/-- VMUL (R149). -/
def execVmul (h : EHdr) (ty : Ty) (d a b : VOp) (sat : Bool) (s : State) : Out :=
  vec2 s h ty d a b fun x y => narrowRes sat ty.isSigned (intVal ty x * intVal ty y) ty.bits
/-- VMULH (R150). -/
def execVmulh (h : EHdr) (ty : Ty) (d a b : VOp) (s : State) : Out :=
  vec2 s h ty d a b fun x y => wrapRes (intVal ty x * intVal ty y / ((2 ^ ty.bits : Nat) : Int)) ty.bits

/-- The lesser or greater of two elements by value. -/
def pickRes (ty : Ty) (greater : Bool) (x y : Nat) : Res :=
  (if (if greater then intVal ty y ≤ intVal ty x else intVal ty x ≤ intVal ty y) then x else y, 0)

/-- VMIN (R151). -/
def execVmin (h : EHdr) (ty : Ty) (d a b : VOp) (s : State) : Out := vec2 s h ty d a b (pickRes ty false)
/-- VMAX (R151). -/
def execVmax (h : EHdr) (ty : Ty) (d a b : VOp) (s : State) : Out := vec2 s h ty d a b (pickRes ty true)
/-- VMINN (R151). -/
def execVminn (h : EHdr) (ty : Ty) (d a b : VOp) (s : State) : Out := vec2 s h ty d a b (pickRes ty false)
/-- VMAXN (R151). -/
def execVmaxn (h : EHdr) (ty : Ty) (d a b : VOp) (s : State) : Out := vec2 s h ty d a b (pickRes ty true)
/-- VAND (R151). -/
def execVand (h : EHdr) (ty : Ty) (d a b : VOp) (s : State) : Out := vec2 s h ty d a b fun x y => (x &&& y, 0)
/-- VOR (R151). -/
def execVor (h : EHdr) (ty : Ty) (d a b : VOp) (s : State) : Out := vec2 s h ty d a b fun x y => (x ||| y, 0)
/-- VXOR (R151). -/
def execVxor (h : EHdr) (ty : Ty) (d a b : VOp) (s : State) : Out := vec2 s h ty d a b fun x y => (x ^^^ y, 0)

/-! ## Shifts (R152, R153) -/

/-- VSHL (R152). -/
def execVshl (h : EHdr) (ty : Ty) (d a b : VOp) (s : State) : Out :=
  vec2 s h ty d a b fun x y => (x * 2 ^ (y % ty.bits) % 2 ^ ty.bits, 0)
/-- VSHR (R152). -/
def execVshr (h : EHdr) (ty : Ty) (d a b : VOp) (s : State) : Out :=
  vec2 s h ty d a b fun x y => (x / 2 ^ (y % ty.bits), 0)
/-- VSRA (R152). -/
def execVsra (h : EHdr) (ty : Ty) (d a b : VOp) (s : State) : Out :=
  vec2 s h ty d a b fun x y => wrapRes (sextN x ty.bits / ((2 ^ (y % ty.bits) : Nat) : Int)) ty.bits
/-- VFSHL (R153). -/
def execVfshl (h : EHdr) (ty : Ty) (d a b : VOp) (k : BitVec 6) (s : State) : Out :=
  vec2 s h ty d a b fun x y => ((x * 2 ^ ty.bits + y) * 2 ^ k.toNat / 2 ^ ty.bits % 2 ^ ty.bits, 0)
/-- VFSHR (R153). -/
def execVfshr (h : EHdr) (ty : Ty) (d a b : VOp) (k : BitVec 6) (s : State) : Out :=
  vec2 s h ty d a b fun x y => ((x * 2 ^ ty.bits + y) / 2 ^ k.toNat % 2 ^ ty.bits, 0)

/-! ## One source (R154, R157, R160) -/

/-- VPOPC (R154). -/
def execVpopc (h : EHdr) (ty : Ty) (d a : VOp) (s : State) : Out := vec1 s h ty d a fun _ x => (popCount x ty.bits, 0)
/-- VCLZ (R154). -/
def execVclz (h : EHdr) (ty : Ty) (d a : VOp) (s : State) : Out := vec1 s h ty d a fun _ x => (leadingZeros x ty.bits, 0)
/-- VABS (R154). -/
def execVabs (h : EHdr) (ty : Ty) (d a : VOp) (s : State) : Out :=
  vec1 s h ty d a fun _ x => satRes true (intVal ty x).natAbs ty.bits
/-- The clamp of VSATN to m bits, the result keeping its width (R154). -/
def satnRes (ty : Ty) (m : Nat) (u : Bool) (x : Nat) : Res :=
  let v := intVal ty x
  let r := if ty.isSigned && !u then satS v m else satN v m
  (modN r ty.bits, Flag.saturation.when (r != v))
/-- VSATN (R154). -/
def execVsatn (h : EHdr) (ty : Ty) (d a : VOp) (m : BitVec 6) (u : Bool) (s : State) : Out :=
  vec1 s h ty d a fun _ x => satnRes ty m.toNat u x
/-- VMOV (R157), in both of its classes. -/
def execVmov (h : EHdr) (ty : Ty) (d a : VOp) (s : State) : Out := vec1 s h ty d a fun _ x => (x, 0)
/-- VIDX (R160). -/
def execVidx (h : EHdr) (ty : Ty) (d a : VOp) (st : BitVec 8) (s : State) : Out :=
  vec1 s h ty d a fun e x => wrapRes ((x : Int) + (e : Int) * st.toInt) ty.bits

/-! ## Comparison and selection (R155, R156) -/

/-- A condition holds between two values (R155). -/
def Cond.holds (c : Cond) (x y : Int) : Bool :=
  match c with
  | .eq => x == y
  | .ne => x != y
  | .lt => x < y
  | .ge => y ≤ x
  | .gt => y < x
  | .le => x ≤ y

/-- VCMP (R155), into a vector or a mask. -/
def execVcmp (h : EHdr) (ty : Ty) (d : CDst) (a b : VOp) (cond : Cond) (s : State) : Out :=
  match d with
  | .vec d => vec2 s h ty d a b fun x y => (if Cond.holds cond (intVal ty x) (intVal ty y) then 2 ^ ty.bits - 1 else 0, 0)
  | .mask m =>
    withOperands s [(ty, a), (ty, b)] (withToken s [a, b] fun s toks =>
      retireE { s with core := s.core.maskwise h.msk m fun k =>
        (Cond.holds cond (intVal ty (s.core.elem toks ty a k 0)) (intVal ty (s.core.elem toks ty b k 0)), 0) })

/-- VSEL (R156): the mask field names the selector. -/
def execVsel (h : EHdr) (ty : Ty) (d a b : VOp) (s : State) : Out :=
  withOperands s [(ty, d), (ty, a), (ty, b)] (withToken s [a, b] fun s toks =>
    retireE { s with core := s.core.fill ty d s.core.task.loopCells fun k j =>
      (s.core.elem toks ty (if s.core.task.maskBit h.msk k then a else b) k j, 0) })

/-! ## Insertion and extraction (R158, R159) -/

/-- VMOVX (R158). -/
def execVmovx (h : EHdr) (ty : Ty) (d : VOp) (b : Reg) (e : BitVec 8) (s : State) : Out :=
  withOperands s [(ty, d)]
    (let k := e.toNat / ty.perCell
     let ks := (s.core.task.execCells h.msk).filter fun i => i == k
     retireE { s with core := s.core.fill ty d ks fun k j =>
       (if j = e.toNat % ty.perCell then (s.core.bcast b).toNat % 2 ^ ty.bits else s.core.elem [] ty d k j, 0) })

/-- VEXT (R159): it reads its operand, and so consumes a token, only where its cell lies below vl (R141;
log entry 20). -/
def execVext (_cv : Bool) (ty : Ty) (d : Reg) (a : VOp) (e : BitVec 8) (s : State) : Out :=
  withOperands s [(ty, a)]
    (if e.toNat / ty.perCell < s.core.task.vl.toNat then
      tokenFrom s 0 [a] fun s toks => toScalar s d (BitVec.ofInt 64 (intVal ty (s.core.elemAt toks ty a e.toNat)))
    else toScalar s d 0)

/-! ## Masks (R161, R162) -/

/-- The loop of a mask instruction (R161). -/
def maskOp (s : State) (h : EHdr) (d : MaskNo) (f : Nat → Bool) : Out :=
  retireE { s with core := s.core.maskwise h.msk d fun k => (f k, 0) }

/-- VMAND (R161). -/
def execVmand (h : EHdr) (d a b : MaskNo) (s : State) : Out :=
  maskOp s h d fun k => s.core.task.maskBit a k && s.core.task.maskBit b k
/-- VMOR (R161). -/
def execVmor (h : EHdr) (d a b : MaskNo) (s : State) : Out :=
  maskOp s h d fun k => s.core.task.maskBit a k || s.core.task.maskBit b k
/-- VMXOR (R161). -/
def execVmxor (h : EHdr) (d a b : MaskNo) (s : State) : Out :=
  maskOp s h d fun k => s.core.task.maskBit a k != s.core.task.maskBit b k
/-- VMNOT (R161). -/
def execVmnot (h : EHdr) (d a : MaskNo) (s : State) : Out := maskOp s h d fun k => !s.core.task.maskBit a k

/-- The cells below vl set in two masks (R162). -/
def bothSet (t : TaskPart) (a m : MaskNo) : List Nat := (t.activeCells m).filter fun k => t.maskBit a k

/-- VMCNT (R162). -/
def execVmcnt (h : EHdr) (d : Reg) (a : MaskNo) (s : State) : Out :=
  toScalar s d (BitVec.ofNat 64 (bothSet s.core.task a h.msk).length)
/-- VMFIRST (R162). -/
def execVmfirst (h : EHdr) (d : Reg) (a : MaskNo) (s : State) : Out :=
  toScalar s d (match bothSet s.core.task a h.msk with
    | [] => BitVec.allOnes 64
    | k :: _ => BitVec.ofNat 64 k)

end Sys2Proof.Machine
end

