-- ==== Sys2Proof/Machine/VecFloat.lean ====
section
/-!
DEFINITION. Elementwise floating point and conversions (R165-R176).
-/
namespace Sys2Proof.Machine
open Sys2Proof

/-! ## Arithmetic (R168-R172) -/

/-- VFADD (R169). -/
def execVfadd (h : EHdr) (ty : Ty) (d a b : VOp) (rm : Rm) (s : State) : Out :=
  vec2 s h ty d a b fun x y => addFp ty rm (decodeFp ty x) (decodeFp ty y)
/-- VFSUB (R169). -/
def execVfsub (h : EHdr) (ty : Ty) (d a b : VOp) (rm : Rm) (s : State) : Out :=
  vec2 s h ty d a b fun x y => addFp ty rm (decodeFp ty x) (negFp (decodeFp ty y))
/-- VFMUL (R169). -/
def execVfmul (h : EHdr) (ty : Ty) (d a b : VOp) (rm : Rm) (s : State) : Out :=
  vec2 s h ty d a b fun x y => mulFp ty rm (decodeFp ty x) (decodeFp ty y)
/-- VFMA (R170): the destination is also read. -/
def execVfma (h : EHdr) (ty : Ty) (d a b : VOp) (rm : Rm) (s : State) : Out :=
  withOperands s [(ty, d), (ty, a), (ty, b)]
    (retireE { s with core := s.core.elementwise ty h.msk d fun k j =>
      (fmaFp ty rm (decodeFp ty (s.core.elem [] ty a k j)) (decodeFp ty (s.core.elem [] ty b k j)) (decodeFp ty (s.core.elem [] ty d k j))) })
/-- VFMIN (R171). -/
def execVfmin (h : EHdr) (ty : Ty) (d a b : VOp) (s : State) : Out := vec2 s h ty d a b (pickFp ty false)
/-- VFMAX (R171). -/
def execVfmax (h : EHdr) (ty : Ty) (d a b : VOp) (s : State) : Out := vec2 s h ty d a b (pickFp ty true)
/-- VFDIV (R169). -/
def execVfdiv (h : EHdr) (ty : Ty) (d a b : VOp) (rm : Rm) (s : State) : Out :=
  vec2 s h ty d a b fun x y => divFp ty rm (decodeFp ty x) (decodeFp ty y)
/-- VFRCP (R172). -/
def execVfrcp (h : EHdr) (ty : Ty) (d a : VOp) (rm : Rm) (s : State) : Out :=
  vec1 s h ty d a fun _ x => rcpFp ty rm (decodeFp ty x)
/-- VFRSQ (R172). -/
def execVfrsq (h : EHdr) (ty : Ty) (d a : VOp) (rm : Rm) (s : State) : Out :=
  vec1 s h ty d a fun _ x => rsqFp ty rm (decodeFp ty x)
/-- VFEXP2 (R172). -/
def execVfexp2 (h : EHdr) (ty : Ty) (d a : VOp) (rm : Rm) (s : State) : Out :=
  vec1 s h ty d a fun _ x => exp2Fp ty rm (decodeFp ty x)
/-- VFLOG2 (R172). -/
def execVflog2 (h : EHdr) (ty : Ty) (d a : VOp) (rm : Rm) (s : State) : Out :=
  vec1 s h ty d a fun _ x => log2Fp ty rm (decodeFp ty x)

/-- VFCMP (R173), into a vector or a mask. -/
def execVfcmp (h : EHdr) (ty : Ty) (d : CDst) (a b : VOp) (cond : FCond) (s : State) : Out :=
  match d with
  | .vec d => vec2 s h ty d a b fun x y =>
      let r := fcmpRes cond (decodeFp ty x) (decodeFp ty y)
      (if r.1 then 2 ^ ty.bits - 1 else 0, r.2)
  | .mask m =>
    withOperands s [(ty, a), (ty, b)]
      (retireE { s with core := s.core.maskwise h.msk m fun k =>
        (fcmpRes cond (decodeFp ty (s.core.elem [] ty a k 0)) (decodeFp ty (s.core.elem [] ty b k 0))) })

/-! ## Conversions (R174-R176) -/

/-- Element e of a source as a value: an integer, an O4 element, or floating point. -/
inductive Val where
  | int (v : Int)
  | flt (v : Fp)
  deriving DecidableEq, Repr

/-- Element e of an operand of any type (R30, R42, R43). -/
def Core.valAt (c : Core) (toks : List W32) (ty : Ty) (v : VOp) (e : Nat) : Val :=
  match ty with
  | .o4 => .int (o4Elem (c.src toks .o4 v (e / 8)) (e % 8))
  | ty => if ty.isInt then .int (intVal ty (c.elemAt toks ty v e)) else .flt (decodeFp ty (c.elemAt toks ty v e))

/-- An integer as a floating-point value. -/
def Val.toFp : Val → Fp
  | .int v => .fin (v < 0) v.natAbs 0
  | .flt v => v

/-- One element converted to a type that is not O4 (R176); `o4` says the source is O4. -/
def convertRes (ty : Ty) (rm : Rm) (v : Val) : Res :=
  match v with
  | .int x => if ty.isInt then satRes ty.isSigned x ty.bits else intToFp ty rm x
  | .flt x => if ty.isInt then fpToInt ty rm x else encodeFp ty rm x

/-- A pair of elements converted to O4 (R44): its byte and flags. -/
def convertPair (rm : Rm) (u v : Val) : Res :=
  let a := o4Input rm u.toFp
  let b := o4Input rm v.toFp
  let r := o4Encode a.1 b.1 (a.2 &&& Flag.invalid.bit != 0) (b.2 &&& Flag.invalid.bit != 0)
  (r.1, a.2 ||| b.2 ||| r.2)

/-- The destination elements a conversion reaches, each with its source element (R175). -/
def convPairs (ns nd p vs vl : Nat) : List (Nat × Nat) :=
  let nw := Nat.min ns nd
  ((List.range (nw * vl)).filter fun i => nw * vs ≤ i).map fun i =>
    if ns ≤ nd then (p * 32 * ns + i, i) else (i, p * 32 * nd + i)

/-- The new value of a destination cell, and the flags of its converted elements: the elements a
conversion does not reach keep their bits. -/
def Core.convCell (c : Core) (toks : List W32) (dt st : Ty) (d a : VOp) (rm : Rm) (pairs : List (Nat × Nat)) (k : Nat) : Res :=
  let n := dt.perCell
  let old := c.src [] dt d k
  let find := fun e => (pairs.find? fun p => p.1 == e).map fun p => c.valAt toks st a p.2
  match dt with
  | .o4 =>
    let rs := (List.range 4).map fun i => match find (n * k + 2 * i), find (n * k + 2 * i + 1) with
      | some u, some v => convertPair rm u v
      | _, _ => (elemOf 8 old i, 0)
    (joinElems 8 (rs.map (·.1)), rs.foldl (fun g r => g ||| r.2) 0)
  | dt =>
    let rs := (List.range n).map fun j => match find (n * k + j) with
      | some v => convertRes dt rm v
      | none => (elemOf dt.bits old j, 0)
    (joinElems dt.bits (rs.map (·.1)), rs.foldl (fun g r => g ||| r.2) 0)

/-- The whole conversion (R175). -/
def Core.convert (c : Core) (toks : List W32) (m : MaskNo) (dt st : Ty) (d a : VOp) (rm : Rm) (p : Nat) : Core :=
  let pairs := convPairs st.perCell dt.perCell p c.task.vstart.toNat c.task.vl.toNat
  let ks := (List.range 32).filter fun k => c.task.maskBit m k && pairs.any fun q => q.1 / dt.perCell == k
  let rs := ks.map fun k => (k, c.convCell toks dt st d a rm (pairs.filter fun q => q.1 / dt.perCell == k) k)
  let c := c.orFlags (rs.foldl (fun g r => g ||| r.2.2) 0)
  { c with task := c.task.setCells dt d (rs.map fun r => (r.1, r.2.1)) }

/-- VFCVT and VICVT. -/
def convInstr (s : State) (h : EHdr) (ty : Ty) (d a : VOp) (rm : Rm) (src : Ty) (p : Fin 4) : Out :=
  withOperands s [(ty, d), (src, a)] (withToken s [a] fun s toks =>
    retireE { s with core := s.core.convert toks h.msk ty src d a rm p.val })

/-- VFCVT (R174-R176). -/
def execVfcvt (h : EHdr) (ty : Ty) (d a : VOp) (rm : Rm) (src : Ty) (p : Fin 4) (s : State) : Out :=
  convInstr s h ty d a rm src p
/-- VICVT (R174-R176). -/
def execVicvt (h : EHdr) (ty : Ty) (d a : VOp) (rm : Rm) (src : Ty) (p : Fin 4) (s : State) : Out :=
  convInstr s h ty d a rm src p

end Sys2Proof.Machine
end

