-- ==== Sys2Proof/Machine/VecCross.lean ====
section
/-!
DEFINITION. Class X: reductions, group reductions, shuffles, slides, compress, expand and scan (R54, R55,
R177-R186).
-/
namespace Sys2Proof.Machine
open Sys2Proof

/-! ## Reductions to a scalar (R177-R180) -/

/-- The raw elements of the active cells, in element order (R177). -/
def Core.activeElems (c : Core) (ty : Ty) (a : VOp) (m : MaskNo) : List Nat :=
  (c.task.activeCells m).flatMap fun k => (List.range ty.perCell).map fun j => c.elem [] ty a k j

/-- An instruction that reduces a vector to a scalar register, with flags. -/
def reduceTo (s : State) (ty : Ty) (d : Reg) (a : VOp) (f : Core → W64 × Byte) : Out :=
  withOperands s [(ty, a)]
    (let r := f s.core
     toScalar { s with core := s.core.orFlags r.2 } d r.1)

/-- A raw value of a type as a double: sign-extended for i, zero-extended for n (R178). -/
def wideInt (ty : Ty) (e : Nat) : W64 := BitVec.ofInt 64 (intVal ty e)

/-- The smallest and the largest value of an integer type, as raw elements. -/
def leastElem (ty : Ty) : Nat := if ty.isSigned then 2 ^ (ty.bits - 1) else 0
def greatestElem (ty : Ty) : Nat := if ty.isSigned then 2 ^ (ty.bits - 1) - 1 else 2 ^ ty.bits - 1

/-- The greater or the lesser element by value. -/
def pickElem (ty : Ty) (greater : Bool) (x y : Nat) : Nat := (pickRes ty greater x y).1

/-- VRSUM (R178). -/
def execVrsum (h : EHdr) (ty : Ty) (d : Reg) (a : VOp) (sat : Bool) (s : State) : Out :=
  reduceTo s ty d a fun c =>
    let r := narrowRes sat ty.isSigned ((c.activeElems ty a h.msk).foldl (fun t e => t + intVal ty e) 0) 64
    (BitVec.ofNat 64 r.1, r.2)
/-- VRMAX (R178). -/
def execVrmax (h : EHdr) (ty : Ty) (d : Reg) (a : VOp) (s : State) : Out :=
  reduceTo s ty d a fun c => (wideInt ty ((c.activeElems ty a h.msk).foldl (pickElem ty true) (leastElem ty)), 0)
/-- VRMIN (R178). -/
def execVrmin (h : EHdr) (ty : Ty) (d : Reg) (a : VOp) (s : State) : Out :=
  reduceTo s ty d a fun c => (wideInt ty ((c.activeElems ty a h.msk).foldl (pickElem ty false) (greatestElem ty)), 0)

/-- The candidates of VRMAXI and VRMINI: element number and raw value (R179). -/
def Core.candidates (c : Core) (ty : Ty) (a : VOp) (m : MaskNo) (ident : Nat) : List (Nat × Nat) :=
  (List.range 32).flatMap fun k =>
    if k < c.task.vl.toNat && c.task.maskBit m k then
      (List.range ty.perCell).map fun j => (ty.perCell * k + j, c.elem [] ty a k j)
    else [(0xFFFFFFFF, ident)]

/-- The best candidate: by value, then the lowest index. -/
def bestOf (ty : Ty) (greater : Bool) (x y : Nat × Nat) : Nat × Nat :=
  let u := intVal ty x.2
  let v := intVal ty y.2
  if u = v then (if x.1 ≤ y.1 then x else y)
  else if (if greater then v < u else u < v) then x else y

/-- The result of VRMAXI and VRMINI (R179). -/
def indexed (ty : Ty) (p : Nat × Nat) : W64 := BitVec.ofNat 64 (p.1 * 2 ^ 32 + modN (intVal ty p.2) 32)

def reduceIndexed (s : State) (h : EHdr) (ty : Ty) (d : Reg) (a : VOp) (b : Reg) (greater : Bool) : Out :=
  reduceTo s ty d a fun c =>
    let id := (c.bcast b).toNat % 2 ^ ty.bits
    (indexed ty (match c.candidates ty a h.msk id with
      | [] => (0xFFFFFFFF, id)
      | p :: r => r.foldl (bestOf ty greater) p), 0)

/-- VRMAXI (R179). -/
def execVrmaxi (h : EHdr) (ty : Ty) (d : Reg) (a : VOp) (b : Reg) (s : State) : Out := reduceIndexed s h ty d a b true
/-- VRMINI (R179). -/
def execVrmini (h : EHdr) (ty : Ty) (d : Reg) (a : VOp) (b : Reg) (s : State) : Out := reduceIndexed s h ty d a b false
/-- VRAND (R178). -/
def execVrand (h : EHdr) (ty : Ty) (d : Reg) (a : VOp) (s : State) : Out :=
  reduceTo s ty d a fun c => (BitVec.ofNat 64 ((c.activeElems ty a h.msk).foldl (· &&& ·) (2 ^ ty.bits - 1)), 0)
/-- VROR (R178). -/
def execVror (h : EHdr) (ty : Ty) (d : Reg) (a : VOp) (s : State) : Out :=
  reduceTo s ty d a fun c => (BitVec.ofNat 64 ((c.activeElems ty a h.msk).foldl (· ||| ·) 0), 0)
/-- VRXOR (R178). -/
def execVrxor (h : EHdr) (ty : Ty) (d : Reg) (a : VOp) (s : State) : Out :=
  reduceTo s ty d a fun c => (BitVec.ofNat 64 ((c.activeElems ty a h.msk).foldl (· ^^^ ·) 0), 0)

/-! ## The tree (R54, R180) -/

/-- One level of the tree: pairs combine in place of the lower index, a last odd one passes up. -/
def treeLevel (f : Nat → Nat → Res) : List (Option Nat) → List (Option Nat) × Byte
  | [] => ([], 0)
  | [x] => ([x], 0)
  | x :: y :: r =>
    let q := treeLevel f r
    match x, y with
    | some u, some v => (some (f u v).1 :: q.1, (f u v).2 ||| q.2)
    | some u, none => (some u :: q.1, q.2)
    | none, some v => (some v :: q.1, q.2)
    | none, none => (none :: q.1, q.2)

/-- The levels of the tree until one value is left; 8 levels take 256 elements. -/
def treeFold (f : Nat → Nat → Res) : Nat → List (Option Nat) → Option Nat × Byte
  | 0, l => ((l.head?).join, 0)
  | n + 1, l =>
    match l with
    | [] => (none, 0)
    | [x] => (x, 0)
    | l =>
      let q := treeLevel f l
      let r := treeFold f n q.1
      (r.1, q.2 ||| r.2)

/-- A NaN result is canonical, and every signalling element sets invalid (R180). -/
def treeRes (ty : Ty) (f : Nat → Nat → Res) (empty : Nat) (l : List (Option Nat)) : Res :=
  let q := treeFold f 8 l
  let v := match q.1 with
    | some v => if (decodeFp ty v).isNan then canonNaN ty else v
    | none => empty
  (v, q.2 ||| Flag.invalid.when (l.any fun e => e.any fun x => decodeFp ty x == .nan true))

/-- The elements of cells 0 to vl − 1 in their places, inactive ones empty. -/
def Core.treeElems (c : Core) (ty : Ty) (a : VOp) (m : MaskNo) : List (Option Nat) :=
  (List.range c.task.vl.toNat).flatMap fun k => (List.range ty.perCell).map fun j =>
    if c.task.maskBit m k then some (c.elem [] ty a k j) else none

/-- The addition of two codes of a format. -/
def addCodes (ty : Ty) (rm : Rm) (x y : Nat) : Res := addFp ty rm (decodeFp ty x) (decodeFp ty y)

/-- VFRSUM (R180): `wide` sums in fp32. -/
def execVfrsum (h : EHdr) (ty : Ty) (d : Reg) (a : VOp) (rm : Rm) (wide : Bool) (s : State) : Out :=
  reduceTo s ty d a fun c =>
    let l := c.treeElems ty a h.msk
    let r : Res :=
      if wide then
        let w := l.map fun e => e.map fun x => (encodeFp .fp32 .rne (decodeFp ty x)).1
        let q := treeRes .fp32 (addCodes .fp32 rm) 0 w
        (q.1, q.2 ||| Flag.invalid.when (l.any fun e => e.any fun x => decodeFp ty x == .nan true))
      else treeRes ty (addCodes ty rm) 0 l
    (BitVec.ofNat 64 r.1, r.2)

/-- −∞ of a format. -/
def minusInf (ty : Ty) : Nat := signBit (fmtOf ty) true + (fmtOf ty).inf

/-- VFRMAX (R180). -/
def execVfrmax (h : EHdr) (ty : Ty) (d : Reg) (a : VOp) (s : State) : Out :=
  reduceTo s ty d a fun c =>
    let r := treeRes ty (pickFp ty true) (minusInf ty) (c.treeElems ty a h.msk)
    (BitVec.ofNat 64 r.1, r.2)

/-! ## Groups (R181-R184) -/

/-- The cells of a group (R181). -/
def Gs.cells : Gs → Nat
  | .g32 => 32
  | .g2 => 2
  | .g4 => 4
  | .g8 => 8
  | .g16 => 16

/-- A class X instruction that writes the active cells of a vector, element (k, j) given (R182). -/
def crossLane (s : State) (ops : List (Ty × VOp)) (h : EHdr) (ty : Ty) (d : VOp) (f : Core → Nat → Nat → Res) : Out :=
  withOperands s ops (retireE { s with core := s.core.fill ty d (s.core.task.activeCells h.msk) (f s.core) })

/-- The element at position r of the group of cell k, as a source (R182). -/
def Core.groupElem (c : Core) (ty : Ty) (a : VOp) (gs : Gs) (k r : Nat) : Nat :=
  let g := Gs.cells gs
  let cell := k / g * g + r / ty.perCell
  if g * ty.perCell ≤ r || c.task.vl.toNat ≤ cell then 0 else c.elem [] ty a cell (r % ty.perCell)

/-- The group position of element j of cell k. -/
def groupPos (ty : Ty) (gs : Gs) (k j : Nat) : Nat := (k % Gs.cells gs) * ty.perCell + j

/-- The elements of a group in order; none where the cell is inactive or at or beyond vl. -/
def Core.groupElems (c : Core) (ty : Ty) (a : VOp) (m : MaskNo) (gs : Gs) (k : Nat) : List (Option Nat) :=
  (List.range (Gs.cells gs)).flatMap fun i =>
    let cell := k / Gs.cells gs * Gs.cells gs + i
    (List.range ty.perCell).map fun j =>
      if cell < c.task.vl.toNat && c.task.maskBit m cell then some (c.elem [] ty a cell j) else none

/-- The identity of an integer combination, as an exact value (R178). -/
def GOp.ident (op : GOp) (ty : Ty) : Int :=
  match op with
  | .sum | .or | .xor => 0
  | .max => intVal ty (leastElem ty)
  | .min => intVal ty (greatestElem ty)
  | .and => intVal ty (2 ^ ty.bits - 1)

/-- Combine two exact values. -/
def GOp.combine (op : GOp) (ty : Ty) (x y : Int) : Int :=
  let bw := fun (f : Nat → Nat → Nat) => intVal ty (f (modN x ty.bits) (modN y ty.bits))
  match op with
  | .sum => x + y
  | .max => if x ≤ y then y else x
  | .min => if x ≤ y then x else y
  | .and => bw (· &&& ·)
  | .or => bw (· ||| ·)
  | .xor => bw (· ^^^ ·)

/-- The combination of a group's elements, narrowed once (R183). -/
def groupRes (ty : Ty) (op : GOp) (sat : Bool) (l : List (Option Nat)) : Res :=
  if ty.isFlt then
    match op with
    | .sum => treeRes ty (addCodes ty .rne) 0 l
    | .max => treeRes ty (pickFp ty true) 0 l
    | _ => treeRes ty (pickFp ty false) 0 l
  else
    narrowRes sat ty.isSigned
      (l.foldl (fun acc e => match e with
        | some x => GOp.combine op ty acc (intVal ty x)
        | none => acc) (GOp.ident op ty)) ty.bits

/-- VGRED (R183). -/
def execVgred (h : EHdr) (ty : Ty) (d a : VOp) (gs : Gs) (op : GOp) (sat : Bool) (s : State) : Out :=
  crossLane s [(ty, d), (ty, a)] h ty d fun c k _ => groupRes ty op sat (c.groupElems ty a h.msk gs k)

/-- VSHUF (R184). A broadcast x[b] is read at the element's width, as every broadcast is (R61, R166); for 64-bit elements
the index is a low half, of a broadcast too (DESIGN CHOICE, log entry 20). -/
def execVshuf (h : EHdr) (ty : Ty) (d a b : VOp) (gs : Gs) (s : State) : Out :=
  crossLane s [(ty, d), (ty, a), (ty, b)] h ty d fun c k j =>
    let i := c.elem [] ty b k j
    (c.groupElem ty a gs k (if ty.is64 then i % 2 ^ 32 else i), 0)

/-- VSLUP (R184). -/
def execVslup (h : EHdr) (ty : Ty) (d a : VOp) (b : Reg) (gs : Gs) (s : State) : Out :=
  crossLane s [(ty, d), (ty, a)] h ty d fun c k j =>
    let r := groupPos ty gs k j
    let n := (c.bcast b).toNat
    (if r < n then 0 else c.groupElem ty a gs k (r - n), 0)

/-- VSLDN (R184). -/
def execVsldn (h : EHdr) (ty : Ty) (d a : VOp) (b : Reg) (gs : Gs) (s : State) : Out :=
  crossLane s [(ty, d), (ty, a)] h ty d fun c k j => (c.groupElem ty a gs k (groupPos ty gs k j + (c.bcast b).toNat), 0)

/-- VBCAST (R184). -/
def execVbcast (h : EHdr) (ty : Ty) (d a : VOp) (b : Reg) (gs : Gs) (s : State) : Out :=
  crossLane s [(ty, d), (ty, a)] h ty d fun c k _ => (c.groupElem ty a gs k (c.bcast b).toNat, 0)

/-! ## Compress and expand (R185) -/

/-- VCMPRS (R185). -/
def execVcmprs (_cv : Bool) (ty : Ty) (d a : VOp) (sel : MaskNo) (s : State) : Out :=
  withOperands s [(ty, d), (ty, a)]
    (let from' := s.core.task.activeCells sel
     retireE { s with core := s.core.fill ty d (List.range s.core.task.vl.toNat) fun k _ =>
       (match from'[k]? with
        | some i => s.core.src [] ty a i
        | none => 0, 0) })

/-- VEXPND (R185). -/
def execVexpnd (_cv : Bool) (ty : Ty) (d a : VOp) (sel : MaskNo) (s : State) : Out :=
  withOperands s [(ty, d), (ty, a)]
    (let chosen := s.core.task.activeCells sel
     retireE { s with core := s.core.fill ty d chosen fun k _ => (s.core.src [] ty a (chosen.findIdx fun i => i == k), 0) })

/-! ## Scan (R186) -/

/-- The exact prefix at position r of a group: with `excl`, of the elements before it. -/
def scanAt (ty : Ty) (op : GOp) (excl : Bool) (l : List (Option Nat)) (r : Nat) : Int :=
  (l.take (if excl then r else r + 1)).foldl (fun acc e => match e with
    | some x => GOp.combine op ty acc (intVal ty x)
    | none => GOp.combine op ty acc (GOp.ident op ty)) (GOp.ident op ty)

/-- VSCAN (R186). -/
def execVscan (h : EHdr) (ty : Ty) (d a : VOp) (gs : Gs) (op : GOp) (excl sat : Bool) (s : State) : Out :=
  crossLane s [(ty, d), (ty, a)] h ty d fun c k j =>
    narrowRes sat ty.isSigned (scanAt ty op excl (c.groupElems ty a h.msk gs k) (groupPos ty gs k j)) ty.bits

end Sys2Proof.Machine
end

