-- ==== Sys2Proof/Machine/VecSquare.lean ====
section
/-!
DEFINITION. Class P: outer products and whole squares (R53, R187-R190).
-/
namespace Sys2Proof.Machine
open Sys2Proof

/-- A task holds a square (R140). -/
def TaskPart.holdsSquare (t : TaskPart) (q : SqNo) : Bool := q.val < t.sq

/-- A pair operand of OPA: a broadcast, or a vector of a held square at an even index (R187). -/
def TaskPart.holdsPair (t : TaskPart) : VOp → Bool
  | .vec q _ i => q.val < t.sq && i.val % 2 == 0
  | .stream _ _ => false
  | .scalar _ => true

/-- The second vector of a pair; a broadcast is both (R61, R187). -/
def pairNext : VOp → VOp
  | .vec q dir i => .vec q dir (i + 1)
  | v => v

/-- The type B is read as (R187). -/
def opaOther (ty : Ty) (alt : Bool) : Ty :=
  if alt then (match ty with
    | .e4m3 => .e5m2
    | .e5m2 => .e4m3
    | t => t)
  else ty

/-- The products of row i and column j, in the order of R187. -/
def Core.opaTerms (c : Core) (ty tb : Ty) (a b : VOp) (i j : Nat) : List (Fp × Fp) :=
  [(a, b), (pairNext a, pairNext b)].flatMap fun (p : VOp × VOp) => (List.range ty.perCell).map fun t =>
    (decodeFp ty (c.elem [] ty p.1 i t), decodeFp tb (c.elem [] tb p.2 j t))

/-- A cell with a list of products added and one rounding (R53). -/
def dotRes (cell : Nat) (terms : List (Fp × Fp)) : Res :=
  ((terms.foldl (fun s p => s.addMul p.1 p.2) ({} : DotAcc)).add (decodeFp .fp32 cell)).round

/-- Set cells of a square from a function of row and column. -/
def Core.fillSquare (c : Core) (q : SqNo) (rows : List Nat) (cols : List Nat) (f : Nat → Nat → Res) : Core :=
  let rs := rows.flatMap fun i => cols.map fun j => (1024 * q.val + 32 * i + j, f i j)
  let c := c.orFlags (rs.foldl (fun g r => g ||| r.2.2) 0)
  { c with task := rs.foldl (fun t r => t.setCell r.1 (BitVec.ofNat 32 r.2.1)) c.task }

/-- The raw cell at a row and column of a square. -/
def Core.at (c : Core) (q : SqNo) (i j : Nat) : Nat := (c.task.cell (1024 * q.val + 32 * i + j)).toNat

/-- OPA (R187). -/
def execOpa (h : EHdr) (ty : Ty) (q : SqNo) (a b : VOp) (alt : Bool) (s : State) : Out :=
  if s.core.task.holdsSquare q && s.core.task.holdsPair a && s.core.task.holdsPair b then
    let c := s.core
    retireE { s with core := c.fillSquare q (c.task.activeCells h.msk) (List.range c.task.vl.toNat) fun i j =>
      (dotRes (c.at q i j) (c.opaTerms ty (opaOther ty alt) a b i j)) }
  else .next s.operandE

/-- SQZ (R188). -/
def execSqz (_cv : Bool) (q : SqNo) (s : State) : Out :=
  if s.core.task.holdsSquare q then
    retireE { s with core := s.core.fillSquare q (List.range 32) (List.range 32) fun _ _ => (0, 0) }
  else .next s.operandE

/-- SQCP (R188). -/
def execSqcp (_cv : Bool) (d a : SqNo) (tr : Bool) (s : State) : Out :=
  if s.core.task.holdsSquare d && s.core.task.holdsSquare a then
    retireE { s with core := s.core.fillSquare d (List.range 32) (List.range 32) fun i j =>
      (if tr then s.core.at a j i else s.core.at a i j, 0) }
  else .next s.operandE

/-- A packed cell of SQCVT (R189). -/
def Core.packCell (c : Core) (ty : Ty) (a : SqNo) (rm : Rm) (i k : Nat) : Res :=
  let n := ty.perCell
  if k < 32 / n then
    cellRes ty fun e => encodeFp ty rm (decodeFp .fp32 (c.at a i (n * k + e)))
  else (0, 0)

/-- SQCVT (R189). -/
def execSqcvt (_cv : Bool) (ty : Ty) (d a : SqNo) (rm : Rm) (s : State) : Out :=
  if s.core.task.holdsSquare d && s.core.task.holdsSquare a then
    retireE { s with core := s.core.fillSquare d (List.range 32) (List.range 32) (s.core.packCell ty a rm) }
  else .next s.operandE

end Sys2Proof.Machine
end

