-- ==== Sys2Proof/Machine/VecMem.lean ====
section
/-!
DEFINITION. Vector memory instructions: loads under the loop, and stores and atomics that enter the strip
buffer (R241-R245, R253, R361, R362, R384, R385).
-/
namespace Sys2Proof.Machine
open Sys2Proof

/-- The bytes of an element: 4 for n32, 8 for n64 (R242). -/
def memSize (ty : Ty) : Nat := if ty.is64 then 8 else 4

/-! ## Element addresses (R242) -/

/-- Unit stride. -/
def unitAddr (c : Core) (ty : Ty) (a : Reg) (k : Nat) : W64 := c.bcast a + BitVec.ofNat 64 (memSize ty * k)
/-- A stride from a register. -/
def strideAddr (c : Core) (a b : Reg) (k : Nat) : W64 := c.bcast a + c.bcast b * BitVec.ofNat 64 k
/-- An offset from a vector: the low cell of a pair for n64. -/
def indexAddr (c : Core) (a : Reg) (b : VOp) (k : Nat) : W64 := c.bcast a + BitVec.ofInt 64 (sextN (c.src [] .n32 b k) 32)

/-! ## Loads (R243, R245, R362) -/

/-- The bytes of the scratchpad an arrival bank covers (R361). -/
def bankSize : Nat := 65536

/-- The bank of an offset has not received the bytes below an end (R361, R362). -/
def bankHolds (aps : FMap ArrivalBank) (off stop : Nat) : Bool :=
  let b := fget aps (off / bankSize) {}
  b.armed && b.ap < stop - off / bankSize * bankSize

/-- A chasing element of n bytes at an address waits behind an arrival pointer (R362). -/
def TaskPart.chaseWaits (t : TaskPart) (va : W64) (n : Nat) : Bool :=
  scratchBase ≤ va.toNat && va.toNat < 2 ^ 56 &&
    (let o := va.toNat - scratchBase
     let second := (o + n - 1) / bankSize * bankSize
     bankHolds t.aps o (Nat.min (o + n) ((o / bankSize + 1) * bankSize)) || (o < second && bankHolds t.aps second (o + n)))

/-- How a vector load's elements end. -/
inductive ElemEnd where
  | done
  | fault (k : Nat) (f : MemFault)
  | wait (k : Nat)
  deriving DecidableEq, Repr

/-- Read the elements of cells in turn, each into its destination cell. No permission depends on the kind of a load, so
that the order of R199 and then alignment is that of R245. -/
def loadCells (ty : Ty) (d : VOp) (m : VLdMods) (addr : Nat → W64) : State → List Nat → State × ElemEnd
  | s, [] => (s, .done)
  | s, k :: r =>
    if m.chase && s.core.task.chaseWaits (addr k) (memSize ty) then (s, .wait k)
    else
      let q := elementLoad s (addr k) (memSize ty) m.pol (m.scp != .plain)
      match q.2 with
      | .error f => (q.1, .fault k f)
      | .ok v =>
        let c := q.1.core
        loadCells ty d m addr { q.1 with core := { c with task := c.task.setVec ty d k v } } r

/-- The current task's vstart. -/
def Core.withVstart (c : Core) (k : Nat) : Core := { c with task := { c.task with vstart := BitVec.ofNat 5 k } }

/-- A vector load: an acquire after all its elements where the scope is not plain (R241). -/
def vectorLoad (s : State) (h : EHdr) (ty : Ty) (d : VOp) (ops : List (Ty × VOp)) (m : VLdMods) (addr : Nat → W64) : Out :=
  withOperands s ((ty, d) :: ops)
    (let r := loadCells ty d m addr s (s.core.task.execCells h.msk)
     match r.2 with
     | .done => retireE { r.1 with mem := acquireAt r.1.mem r.1.core.agent m.scp }
     | .fault k f => .next (({ r.1 with core := r.1.core.withVstart k }).memTrapE f .load)
     | .wait k => .next { r.1 with core := r.1.core.withVstart k })

/-- VLD (R242, R243). -/
def execVld (h : EHdr) (ty : Ty) (d : VOp) (a : Reg) (m : VLdMods) (s : State) : Out :=
  vectorLoad s h ty d [] m (unitAddr s.core ty a)
/-- VLDS (R242, R243). -/
def execVlds (h : EHdr) (ty : Ty) (d : VOp) (a b : Reg) (m : VLdMods) (s : State) : Out :=
  vectorLoad s h ty d [] m (strideAddr s.core a b)
/-- VLDX (R242, R243). -/
def execVldx (h : EHdr) (ty : Ty) (d : VOp) (a : Reg) (b : VOp) (m : VLdMods) (s : State) : Out :=
  vectorLoad s h ty d [(ty, b)] m (indexAddr s.core a b)

/-! ## Stores and atomics into the strip buffer (R244, R245, R384, R385) -/

/-- The entries of a strip buffer. -/
def bufferSize : Nat := 2048

/-- The page of a translated address allows an access of this kind. -/
def Xl.allows (x : Xl) (c : XCtx) (k : AccKind) : Bool :=
  match x with
  | .scratch _ => true
  | .leaf pa e => pteAllows e pa c k

/-- Translate and check one part of a buffered element at issue (R245): R199 as for any access, the control space's
denial included, then alignment, then the permission for the access kind. -/
def stagePart (s : State) (va : W64) (n : Nat) (k : AccKind) (pol : Pol) : MemSys × Except MemFault Target :=
  let r := translate s.mem s.ursol s.core.xctx va .load
  match r.2 with
  | .error f => (r.1, .error f)
  | .ok x =>
    if va.toNat % n ≠ 0 then (r.1, .error ⟨0x000E, va, 0⟩)
    else if x.allows s.core.xctx k then (r.1, .ok (targetOf pol x))
    else (r.1, .error ⟨0x000D, va, 0⟩)

/-- Stage the parts of an element: addresses with their bytes. -/
def stageParts (k : AccKind) (pol : Pol) : State → List (W64 × List Byte) → State × Except MemFault (List BufPart)
  | s, [] => (s, .ok [])
  | s, (va, bs) :: r =>
    let q := stagePart s va bs.length k pol
    let s := { s with mem := q.1 }
    match q.2 with
    | .error f => (s, .error f)
    | .ok t =>
      let w := stageParts k pol s r
      (w.1, w.2.map fun l => (⟨va.toNat, t, bs.map some⟩ : BufPart) :: l)

/-- What a vector store puts into the buffer: its kind, policy and order. -/
structure StoreKind where
  kind : BufKind
  pol : Pol
  ord : Bool

/-- A watched part of a buffered element: a store, and for an atomic also a load (R391). -/
def watchParts (c : Core) (k : BufKind) (ps : List BufPart) : Core :=
  ps.foldl (fun c p =>
    let c := c.watch p.va p.vals.length true
    match k with
    | .store => c
    | .amo .. => c.watch p.va p.vals.length false) c

/-- Buffer the elements of cells in turn, up to the first fault; an element without parts takes no entry. -/
def bufferCells (k : StoreKind) (seq : Nat) (parts : Nat → List (W64 × List Byte)) : State → List Nat → State × ElemEnd
  | s, [] => (s, .done)
  | s, cell :: r =>
    let q := stageParts k.kind.access k.pol s (parts cell)
    match q.2 with
    | .error f => (q.1, .fault cell f)
    | .ok ps =>
      if ps.isEmpty then bufferCells k seq parts q.1 r
      else
        let c := watchParts q.1.core k.kind ps
        let e : BufElem := ⟨seq, cell, k.ord, k.kind, k.pol, ps, false⟩
        bufferCells k seq parts { q.1 with core := { c with task := { c.task with buf := c.task.buf ++ [e] } } } r

/-- A vector store or VAMO: no strip held is an illegal operand, a full buffer discards the strip, and
the first faulting element stops it. -/
def vectorStore (s : State) (h : EHdr) (ops : List (Ty × VOp)) (k : StoreKind) (parts : Nat → List (W64 × List Byte)) : Out :=
  withOperands s ops
    (if !s.core.task.held then .next s.operandE
     else
       let ks := s.core.task.execCells h.msk
       let entries := (ks.filter fun i => !(parts i).isEmpty).length
       if bufferSize < s.core.task.buf.length + entries then .next (s.discardWith 0x0023 s.core.bpc)
       else
         let r := bufferCells k s.seq parts { s with seq := s.seq + 1 } ks
         match r.2 with
         | .fault i f => .next (({ r.1 with core := r.1.core.withVstart i }).memTrapE f k.kind.access)
         | _ => retireE r.1)

/-- The one part of an element that stores a whole cell or pair. -/
def wholeCell (c : Core) (ty : Ty) (src : VOp) (addr : Nat → W64) (k : Nat) : List (W64 × List Byte) :=
  [(addr k, bytesOf (memSize ty) (c.src [] ty src k))]

/-- VST (R242, R244). -/
def execVst (h : EHdr) (ty : Ty) (src : VOp) (a : Reg) (m : VStMods) (s : State) : Out :=
  vectorStore s h [(ty, src)] ⟨.store, m.pol, m.ord⟩ (wholeCell s.core ty src (unitAddr s.core ty a))
/-- VSTS (R242, R244). -/
def execVsts (h : EHdr) (ty : Ty) (src : VOp) (a b : Reg) (m : VStMods) (s : State) : Out :=
  vectorStore s h [(ty, src)] ⟨.store, m.pol, m.ord⟩ (wholeCell s.core ty src (strideAddr s.core a b))
/-- VSTX (R242, R244). -/
def execVstx (h : EHdr) (ty : Ty) (src : VOp) (a : Reg) (b : VOp) (m : VStMods) (s : State) : Out :=
  vectorStore s h [(ty, src), (ty, b)] ⟨.store, m.pol, m.ord⟩ (wholeCell s.core ty src (indexAddr s.core a b))

/-- The enabled bytes of a VSTB cell (R242). -/
def enabledBytes (c : Core) (src : VOp) (a : Reg) (b : VOp) (k : Nat) : List (W64 × List Byte) :=
  ((List.range 4).filter fun j => (c.src [] .n32 b k).testBit j).map fun j =>
    (c.bcast a + BitVec.ofNat 64 (4 * k + j), [BitVec.ofNat 8 (c.src [] .n32 src k / 2 ^ (8 * j))])

/-- VSTB (R242, R244). -/
def execVstb (h : EHdr) (src : VOp) (a : Reg) (b : VOp) (m : VStMods) (s : State) : Out :=
  vectorStore s h [(.n32, src), (.n32, b)] ⟨.store, m.pol, m.ord⟩ (enabledBytes s.core src a b)
/-- VAMO (R242, R244). -/
def execVamo (h : EHdr) (ty : Ty) (src : VOp) (a : Reg) (b : VOp) (op : AmoOp) (pl : Place) (ord : Bool) (s : State) : Out :=
  vectorStore s h [(ty, src), (ty, b)] ⟨.amo op pl, .dflt, ord⟩ (wholeCell s.core ty src (indexAddr s.core a b))

end Sys2Proof.Machine
end

