-- ==== Sys2Proof/Machine/VecKv.lean ====
section
/-!
DEFINITION. Class K: block hashes, signatures, and the stream consumers QKDOT and PVACC (R327, R329,
R346-R351).
-/
namespace Sys2Proof.Machine
open Sys2Proof

/-! ## Hashes and signatures (R327, R329, R348, R349) -/

/-- The hash of a block's predecessor and tokens (R327). -/
def blockHash (p : Nat) (ts : List Nat) : Nat :=
  (p * 31 + (ts.zipIdx.foldl (fun n t => n + t.1 * (2 * t.2 + 1)) 0)) % 2 ^ 32

/-- KVHASH (R348). -/
def execKvhash (_cv : Bool) (d : Reg) (a : VOp) (b : Reg) (s : State) : Out :=
  withOperands s [(.n32, a)]
    (toScalar s d (BitVec.ofNat 64 (blockHash ((s.core.bcast b).toNat % 2 ^ 32) ((List.range 16).map fun k => s.core.src [] .n32 a k))))

/-- An element of a vector for a projection: a NaN counts as 0 (R329). -/
def projElem (v : Fp) : Fp :=
  match v with
  | .fin n m e => .fin n m e
  | _ => .fin false 0 0

/-- An e4m3 value as a multiple of 2^-9, a NaN as 0 (R33, R329). -/
def e4m3Units (b : Nat) : Int :=
  match projElem (decodeFp .e4m3 b) with
  | .fin n m e => scaledInt n m e (-9)
  | _ => 0

/-- The projection of a vector by a row of 128 sign bits (R329). -/
def projection (row : Nat) (v : List Int) : Int :=
  v.zipIdx.foldl (fun t x => if row.testBit x.2 then t - x.1 else t + x.1) 0

/-- The 256 signature bits of a vector under a matrix of rows (R329). -/
def signature (rows : List Nat) (v : List Int) : Nat :=
  rows.zipIdx.foldl (fun s r => if projection r.1 v < 0 then s + 2 ^ r.2 else s) 0

/-- Row j of the projection matrix in a square (R329). -/
def Core.projRow (c : Core) (q : SqNo) (j : Nat) : Nat :=
  natOf ((List.range 4).flatMap fun i => bytesOf 4 (c.task.cell (1024 * q.val + 4 * j + i)).toNat)

/-- The 128 elements of an e4m3 operand. -/
def Core.e4m3s (c : Core) (a : VOp) : List Nat := (List.range 128).map fun i => c.elemAt [] .e4m3 a i

/-- VSIGN (R349): cells 0 to 7 receive the signature. -/
def execVsign (_cv : Bool) (d a : VOp) (q : SqNo) (s : State) : Out :=
  withOperands s [(.e4m3, d), (.e4m3, a)]
    (if s.core.task.holdsSquare q then
      let es := s.core.e4m3s a
      let sg := signature ((List.range 256).map fun j => s.core.projRow q j) (es.map e4m3Units)
      let c := s.core.orFlags (Flag.invalid.when (es.any fun e => (decodeFp .e4m3 e).isNan))
      retireE { s with core := { c with task := c.task.setCells .n32 d ((List.range 8).map fun k => (k, sg / 2 ^ (32 * k) % 2 ^ 32)) } }
    else .next s.operandE)

/-! ## Stream consumers (R346, R350, R351) -/

/-- −∞ in fp32. -/
def minusInfinity : Nat := 0xFF800000

/-- The score of a token (R350). -/
def score (q : List Fp) (t : Token) : Res :=
  match t with
  | .data bs => (((q.zip (bs.map fun b => decodeFp .e4m3 b.toNat)).foldl (fun s p => s.addMul p.1 p.2) ({} : DotAcc))).round
  | _ => (minusInfinity, 0)

/-- Consume a token for each cell in turn, and change the core with it; a fault stops at its cell. -/
def overTokens (st : Fin 4) (v : Bool) (f : Core → Nat → Token → Core) : State → List Nat → State × Option (Nat × Nat)
  | s, [] => (s, none)
  | s, j :: r =>
    let q := s.nextToken st v
    match q.2 with
    | .fault code => (q.1, some (j, code))
    | .token t => overTokens st v f { q.1 with core := f q.1.core j t } r

/-- The cells for which a stream consumer takes a token in this step: all of its loop's, unless the schedule limits them
(R354). -/
def TaskPart.tokenCells (t : TaskPart) : List Nat :=
  match t.quota with
  | some (n + 1) => t.loopCells.take (n + 1)
  | _ => t.loopCells

/-- The cell before which a stream consumer pauses, where cells are left to it. -/
def TaskPart.pausesAt (t : TaskPart) : Option Nat := (t.loopCells.drop t.tokenCells.length).head?

/-- A task between two steps of one element instruction: it is at no boundary at which it could be saved (R144, R388). -/
def TaskPart.midRead (t : TaskPart) : Bool := t.quota == some 0

/-- The current task's limit on tokens. -/
def State.withQuota (s : State) (n : Option Nat) : State := { s with core := { s.core with task := { s.core.task with quota := n } } }

/-- A stream consumer's end (R346): a fault at its cell, a pause of the schedule's, or its completion. -/
def streamEnd (st : Fin 4) (r : State × Option (Nat × Nat)) : Out :=
  match r.2 with
  | some (j, code) => .next ((r.1.withQuota none).streamFault st code j)
  | none =>
    if r.1.core.task.quota.isNone then retireE r.1
    else match r.1.core.task.pausesAt with
      | some j => .next ({ r.1 with core := r.1.core.withVstart j }.withQuota (some 0))
      | none => retireE (r.1.withQuota none)

/-- QKDOT (R350). -/
def execQkdot (h : EHdr) (d a : VOp) (st : Fin 4) (s : State) : Out :=
  withOperands s [(.e4m3, d), (.e4m3, a), (.e4m3, .stream st false)]
    (streamEnd st (overTokens st false (fun c j t =>
       if c.task.maskBit h.msk j then
         let r := score ((c.e4m3s a).map fun e => decodeFp .e4m3 e) t
         let c := c.orFlags r.2
         { c with task := c.task.setVec .n32 d j r.1 }
       else c) s s.core.task.tokenCells))

/-- The cell of element e of a value vector at row i of a square (R351). -/
def pvCell (q : SqNo) (i : Fin 32) (e : Nat) : Nat := 1024 * q.val + 32 * (i.val + e / 32) + e % 32

/-- One token added into the 128 cells of PVACC, its weight given (R351). -/
def Core.accumulate (c : Core) (q : SqNo) (i : Fin 32) (p : Fp) (bs : List Byte) : Core :=
  let rs := (List.range 128).map fun e =>
    let k := pvCell q i e
    (k, dotRes (c.task.cell k).toNat [(p, decodeFp .e4m3 ((bs[e]?).getD 0).toNat)])
  let c := c.orFlags (rs.foldl (fun g r => g ||| r.2.2) 0)
  { c with task := rs.foldl (fun t r => t.setCell r.1 (BitVec.ofNat 32 r.2.1)) c.task }

/-- PVACC (R351). -/
def execPvacc (h : EHdr) (q : SqNo) (i : Fin 32) (a : VOp) (st : Fin 4) (s : State) : Out :=
  withOperands s [(.fp32, .vec q .row i), (.fp32, a), (.e4m3, .stream st true)]
    (streamEnd st (overTokens st true (fun c j t =>
       match t with
       | .data bs => if c.task.maskBit h.msk j then c.accumulate q i (decodeFp .fp32 (c.src [] .fp32 a j)) bs else c
       | _ => c) s s.core.task.tokenCells))

end Sys2Proof.Machine
end

