-- ==== Sys2Proof/Machine/KvCmds.lean ====
section
/-!
DEFINITION. The KV instructions of the scalar stream: the Crook's commands at issue, and KVBIND
(R330-R342).
-/
namespace Sys2Proof.Machine
open Sys2Proof

/-! ## The Crook's commands (R331) -/

def State.kvWaiting (s : State) (k : Fin 8) : List KvCmd := fget s.eng.kvQ k.val []

/-- A Crook command takes its place (R331). -/
def issueKv (s : State) (c : KvCmd) : Out :=
  issueOp s c.hdr (s.kvWaiting c.hdr.stk).length fun s =>
    { s with eng := { s.eng with kvQ := finsert s.eng.kvQ c.hdr.stk.val (s.kvWaiting c.hdr.stk ++ [c]) } }

/-- KVLOOK (R332). -/
def execKvlook (c a : Reg) (s : State) : Out :=
  withObject s (.kvlook c a) c fun s obj =>
    withChecks s [(s.core.reg a).toNat % 32 != 0] (issueKv s { op := .look, hdr := s.opHdr (.kvlook c a) a 0 0 obj c })

/-- KVINS (R333). -/
def execKvins (c a b e : Reg) (s : State) : Out :=
  withObject s (.kvins c a b e) c fun s obj =>
    let m := (s.core.reg b).toNat
    let x := s.core.reg e
    withChecks s
      [5 ≤ m, 1 ≤ m && m ≤ 3 && s.core.id.isTask, if m = 1 || m = 2 then x.toNat % 4096 != 0 else x != 0]
      (issueKv s { op := .ins, hdr := s.opHdr (.kvins c a b e) a b e obj c })

/-- The checks of KVPIN and KVUNPIN (R337). -/
def pinChecks (a b : W64) : List Bool := [a.toNat % 4 != 0, b == 0 || 65535 < b.toNat]

/-- KVPIN. -/
def execKvpin (c a b : Reg) (s : State) : Out :=
  withObject s (.kvpin c a b) c fun s obj =>
    withChecks s (pinChecks (s.core.reg a) (s.core.reg b)) (issueKv s { op := .pin, hdr := s.opHdr (.kvpin c a b) a b 0 obj c })

/-- KVUNPIN. -/
def execKvunpin (c a b : Reg) (s : State) : Out :=
  withObject s (.kvunpin c a b) c fun s obj =>
    withChecks s (pinChecks (s.core.reg a) (s.core.reg b)) (issueKv s { op := .unpin, hdr := s.opHdr (.kvunpin c a b) a b 0 obj c })

def appSq (w : W64) : Nat := bitsOf w 5 0
def appK (w : W64) : Nat := bitsOf w 12 8
def appV (w : W64) : Nat := bitsOf w 20 16

/-- The 128 bytes of a row of a square. -/
def TaskPart.rowBytes (t : TaskPart) (q row : Nat) : List Byte :=
  (List.range 32).flatMap fun i => bytesOf 4 (t.cell (1024 * q + 32 * row + i)).toNat

/-- KVAPP: the two rows are captured at issue (R338). -/
def execKvapp (c a b e : Reg) (s : State) : Out :=
  withObject s (.kvapp c a b e) c fun s obj =>
    let w := s.core.reg a
    withChecks s
      [bitsOf w 63 21 != 0 || bitsOf w 15 13 != 0 || bitsOf w 7 6 != 0 || bitsOf (s.core.reg e) 63 60 != 0, s.core.task.sq ≤ appSq w]
      (issueKv s { op := .app, hdr := s.opHdr (.kvapp c a b e) a b e obj c
                   kRow := s.core.task.rowBytes (appSq w) (appK w), vRow := s.core.task.rowBytes (appSq w) (appV w) })

/-- KVSIG (R339). -/
def execKvsig (c a : Reg) (s : State) : Out :=
  withObject s (.kvsig c a) c fun s obj => issueKv s { op := .sig, hdr := s.opHdr (.kvsig c a) a 0 0 obj c }

/-! ## KVBIND (R342) -/

/-- The staging of a stream record is dropped (R343). -/
def State.dropStaging (s : State) (t : TaskId) (st : Fin 4) : State :=
  { s with eng := { s.eng with staging := s.eng.staging.filter fun g => !(g.t == t && g.st == st) } }

/-- Put a stream record of the current core. -/
def State.putStream (s : State) (st : Fin 4) (r : StreamRec) : State :=
  ({ s with core := { s.core with task := { s.core.task with streams := fset s.core.task.streams st.val r {} } } }).dropStaging s.core.taskId st

/-- Check 3 of a bind: the record's bytes, and its cursor in the KV space. It fails too where the descriptor cannot be read:
a poisoned line, a home that does not serve, a fenced column (DESIGN CHOICE, log entry 51: R342 names an unusable descriptor
only). -/
def bindBad (s : State) (v : Nat) : State × Bool :=
  let r := StreamRec.ofNat v
  if streamReserved v || v / 2 ^ 60 % 16 != 0 || 256 < r.rad.toNat || r.fin.toNat < kvPos r.cur then (s, true)
  else
    let d := s.kvDesc s.core.stack s.core.asid
    (d.1, match d.2 with
      | .error _ => true
      | .ok d => d.nseq ≤ kvSeqNo r.cur || d.nl ≤ kvLayer r.cur || d.nh ≤ kvHead r.cur)

/-- The bound records of the task once record st is bound. -/
def boundWith (p : TaskPart) (st : Fin 4) : Nat :=
  ((List.range 4).filter fun i => i = st.val || (fget p.streams i {}).bound).length

/-- Bind: the record's 64 bytes are read as a hart load. -/
def bindStream (s : State) (st : Fin 4) (va : W64) : Out :=
  let l := coreLoad s va 64 .dflt false
  match l.2 with
  | .error f => .next (l.1.memTrap f .load)
  | .ok v =>
    let q := bindBad l.1 v
    if q.2 then .next (q.1.trapAt 0x0002 3)
    else if q.1.core.task.stg < 2 * boundWith q.1.core.task st then .next (q.1.trapAt 0x0002 4)
    else retireNext (q.1.putStream st { StreamRec.ofNat v with bound := true })

/-- KVBIND, its record and mode in x[b]. A supervisor core has no stream records: they count as unbound there, so a save
writes 64 zero bytes and an unbind does nothing (DESIGN CHOICE, log entry 49; R116). -/
def kvbindInstr (a b : Reg) (s : State) : Out :=
  afterBlock s
    (let w := s.core.reg b
     let st : Fin 4 := Fin.ofNat 4 w.toNat
     let va := s.core.reg a
     let mode := bitsOf w 3 2
     withChecks s [bitsOf w 63 4 != 0 || mode == 3, mode ≤ 1 && va.toNat % 64 != 0]
       (if mode = 0 then bindStream s st va
        else if mode = 1 then
          storeEnd (coreStore s va 64 (natOf (fget s.core.task.streams st.val {}).bytes) .dflt)
        else retireNext (s.putStream st {})))

/-- KVBIND (bind). -/
def execKvbindBind (a b : Reg) (s : State) : Out := kvbindInstr a b s
/-- KVBIND (save): the same word, its mode in x[b]. -/
def execKvbindSave (a b : Reg) (s : State) : Out := kvbindInstr a b s
/-- KVBIND (unbind): the same word, its mode in x[b]. -/
def execKvbindUnbind (a b : Reg) (s : State) : Out := kvbindInstr a b s

end Sys2Proof.Machine
end

