-- ==== Sys2Proof/Machine/Rows.lean ====
section
/-!
DEFINITION. Bank columns and open rows: ROWACT, ROWCON and ROWCLS, and the moves of the banks
(R271-R292).
-/
namespace Sys2Proof.Machine
open Sys2Proof

/-! ## Banks (R271, R274) -/

def bankKey (b : BankId) : Nat := 1024 * b.stk.val + 16 * b.col.val + b.layer.val
/-- 64·s + t of a bank's column. -/
def bankColumn (b : BankId) : Nat := 64 * b.stk.val + b.col.val

def State.bank (s : State) (b : BankId) : Bank := fget s.dram.banks (bankKey b) {}
def State.setBank (s : State) (b : BankId) (k : Bank) : State :=
  { s with dram := { s.dram with banks := fset s.dram.banks (bankKey b) k {} } }

/-- The bank, row and layer of a physical address (R205). -/
def bankOf (pa : Nat) : BankId := ⟨Fin.ofNat 8 (stackOf pa), Fin.ofNat 64 (pa / 2 ^ 11), Fin.ofNat 16 (pa / 2 ^ 17)⟩
def rowOf (pa : Nat) : Nat := pa / 2 ^ 21 % 2 ^ 15
/-- The physical address of a row. -/
def rowPa (b : BankId) (row : Nat) : Nat :=
  b.stk.val * 2 ^ 36 + row % 2 ^ 15 * 2 ^ 21 + b.layer.val * 2 ^ 17 + b.col.val * 2 ^ 11

/-- The bank is open or opening. -/
def Bank.active (k : Bank) : Bool := k.st == .act || k.st == .open
/-- The bank is held by a Fold access (R273, R281). -/
def Bank.byFold (k : Bank) : Bool := k.closing && k.asid.isNone

/-- A column's refresh now: its window in progress, if it takes this layer, and the ns until the window
ends and until the next window of the bank's layer starts, where that is the column's next one. -/
def State.refreshOf (s : State) (b : BankId) : RefreshPhase := refreshPhase b.col.val s.sinceTick0

/-- A window of the bank is in progress (R277). -/
def State.inRefresh (s : State) (b : BankId) : Bool :=
  (s.refreshOf b).act && (s.refreshOf b).layer == b.layer.val

/-- The ns until the column's next window starts, where it is this bank's. -/
def State.refreshIn (s : State) (b : BankId) : Option Nat :=
  let p := s.refreshOf b
  let l := if p.act then (p.layer + 1) % 16 else p.layer
  if l = b.layer.val then some p.next else none

/-- The bank's window starts within n ns. -/
def State.refreshWithin (s : State) (b : BankId) (n : Nat) : Bool :=
  match s.refreshIn b with
  | some r => r < n
  | none => false

/-- The activations of a stack's layer in the last 32 ns, oldest first (R276). -/
def State.budget (s : State) (b : BankId) : List Nat :=
  (s.dram.acts.filter fun a => a.1 == 16 * b.stk.val + b.layer.val && s.now < a.2 + 32).map (·.2)

/-- Count an activation now; those out of every window are forgotten. -/
def State.activated (s : State) (b : BankId) : State :=
  { s with dram := { s.dram with
      acts := (s.dram.acts.filter fun a => s.now < a.2 + 32) ++ [(16 * b.stk.val + b.layer.val, s.now)] } }

/-- The tag after a tag (R271). -/
def nextTag (t : BitVec 16) : BitVec 16 := if t = 65535 then 1 else t + 1

/-- The close of a bank begins. -/
def Bank.beginClose (k : Bank) (now : Nat) : Bank := { k with st := .close, tIn := now, closing := true }

/-! ## Handles (R279) -/

structure Handle where
  tag : BitVec 16
  layer : Fin 16
  col : Fin 64

def handleOf (v : W64) : Handle := ⟨BitVec.ofNat 16 (bitsOf v 47 32), Fin.ofNat 16 (bitsOf v 19 16), Fin.ofNat 64 (bitsOf v 13 8)⟩
/-- The reserved bits of a handle are zero. -/
def handleClean (v : W64) : Bool := bitsOf v 31 20 == 0 && bitsOf v 15 14 == 0

/-- The bank a handle names on a stack. -/
def Handle.bank (h : Handle) (stk : Fin 8) : BankId := ⟨stk, h.col, h.layer⟩

/-- The column of a bank is fenced (R292). -/
def State.columnFenced (s : State) (b : BankId) : Bool := fget s.ursol.fenced (bankColumn b) false

/-! ## Accepted commands (R284, R287) -/

/-- A ROWCON of the current activation of a bank. -/
def RowCmd.ofBank (c : RowCmd) (b : BankId) (k : Bank) : Bool := c.bank == b && c.tag == k.tag

/-- The transfer of a ROWCON is under way. -/
def State.transferring (s : State) (c : RowCmd) : Bool := (flook s.dram.begun (bankColumn c.bank)).any fun q => q.1 == c.hdr.seq

/-- The held ROWCONs of a bank are taken out and end with a status (R284, R288, R292); one whose transfer has begun is
held no more. -/
def State.failHeld (s : State) (b : BankId) (status : Nat) : State :=
  let mine := s.dram.cmds.filter fun c => c.bank == b && c.slot.isSome && !s.transferring c
  let s := { s with dram := { s.dram with
      cmds := s.dram.cmds.filter fun c => !(c.bank == b && c.slot.isSome && !s.transferring c)
      slotFreed := (mine.filterMap (·.slot)).foldl (fun m k => fset m (4 * bankColumn b + k.val) s.now 0) s.dram.slotFreed } }
  mine.foldl (fun s c => s.failOp c.hdr .tile status 0 0 0) s

/-- The accepted ROWCLS of a bank end: its row is closing now, by their own close when `own` (R287). -/
def State.endCloses (s : State) (b : BankId) (own : Bool) : State :=
  let mine := s.dram.cmds.filter fun c => c.bank == b && c.close && c.slot.isNone
  let s := { s with dram := { s.dram with cmds := s.dram.cmds.filter fun c => !(c.bank == b && c.close && c.slot.isNone) } }
  mine.foldl (fun s c => s.endOp c.hdr .tile (if own then 1 else 0) 0) s

/-- Hardware closes a row: lost, its waiting ROWACT objects and held ROWCONs fail (R274, R281, R284),
and an accepted ROWCLS finds that it closed nothing (R287). -/
def State.hardwareClose (s : State) (b : BankId) (status : Nat) : State :=
  let k := s.bank b
  let s := s.setBank b { k.beginClose s.now with lost := true, objs := [] }
  let s := k.objs.foldl (fun s h => s.failOp h .tile 0x0101 0 0 0) s
  (s.failHeld b status).endCloses b false

/-! ## ROWACT (R280, R281) -/

/-- The decision of the tile: status, tag, wait, and the new state. -/
def rowactDecide (s : State) (b : BankId) (r : Nat) : State × Nat × BitVec 16 × Nat :=
  let k := s.bank b
  if k.active && k.row == r && k.asid == some s.core.asid && !k.closing then (s, 4, k.tag, 0)
  else if s.inRefresh b then (s, 2, 0, (s.refreshOf b).rem)
  else if s.refreshWithin b 32 then (s, 2, 0, (s.refreshIn b).getD 0 + 350)
  else if k.st != .idle then
    (s, 1, 0, if k.byFold && k.active then k.tAct + 32 - s.now else if k.st == .close then k.tIn + 12 - s.now else 0)
  else if 8 ≤ (s.budget b).length then (s, 3, 0, (s.budget b).headD 0 + 32 - s.now)
  else
    let k := { k with st := .act, row := r, asid := some s.core.asid, tAct := s.now, tIn := s.now, tag := nextTag k.tag,
                      lost := false, closing := false, objs := [] }
    ((s.setBank b k).activated b, 0, k.tag, 0)

/-- The ROWACT's object: signalled now, or when the row becomes consumable (R281). -/
def State.rowactObject (s : State) (b : BankId) (h : OpHdr) : State :=
  if h.obj.isNone then s
  else if (s.bank b).st == .open then s.endOp h .tile 1 0
  else s.setBank b { s.bank b with objs := (s.bank b).objs ++ [h] }

/-- ROWACT. -/
def execRowact (e c a b : Reg) (s : State) : Out :=
  withObject s (.rowact e c a b) c fun s obj =>
    let va := s.core.reg a
    let t := s.core.reg b
    if 64 ≤ t.toNat then .next (s.operandTrap (.rowact e c a b))
    else
      let r := translate s.mem s.ursol { s.core.xctx with unit := .tile (Fin.ofNat 64 t.toNat) } va .load
      let s := { s with mem := r.1 }
      match r.2 with
      | .error f => .next (s.memTrap f .load)
      | .ok (.scratch _) => .next (s.memTrap ⟨0x000D, va, 0⟩ .load)
      | .ok (.leaf pa pte) =>
        if !pteRow pte || va.toNat % 2048 ≠ 0 || !isDram pa then .next (s.memTrap ⟨0x000D, va, 0⟩ .load)
        else if stackOf pa ≠ s.core.stack.val || pa / 2 ^ 11 % 64 ≠ t.toNat then .next (s.memTrap ⟨0x0012, va, 0⟩ .load)
        else if isFenced s.ursol pa then .next (s.memTrap ⟨0x0013, va, 0⟩ .load)
        else
          let bk := bankOf pa
          let d := rowactDecide s bk (rowOf pa)
          let h := d.1.opHdr (.rowact e c a b) a b e obj c
          let s := if d.2.1 = 0 || d.2.1 = 4 then { d.1 with seq := d.1.seq + 1 }.rowactObject bk h else d.1
          let handle := BitVec.ofNat 64 (d.2.2.2 % 2 ^ 16 * 2 ^ 48 + d.2.2.1.toNat * 2 ^ 32 + bk.layer.val * 2 ^ 16 + bk.col.val * 2 ^ 8 + d.2.1)
          retireWith s e handle

/-! ## ROWCON (R282, R283) -/

/-- The checks of R283 in their order: the fault's cause, if one fails. -/
def rowconFault (s : State) (b : BankId) (tag : BitVec 16) (w : Bool) : Option Nat :=
  let k := s.bank b
  if s.columnFenced b then some 0x0013
  else if tag = 0 then some 0x0010
  else if tag ≠ k.tag then some 0x0011
  else if k.asid ≠ some s.core.asid then some 0x0010
  else if k.lost then some 0x0011
  else if k.closing || !k.active then some 0x0010
  else if !w && k.st == .act then some 0x0010
  else none

/-- A row command is accepted by its tile. -/
def State.acceptRow (s : State) (c : RowCmd) : State := { s with dram := { s.dram with cmds := s.dram.cmds ++ [c] } }

/-- ROWCON, `w` waiting for ACT, `cl` closing. -/
def execRowcon (w cl : Bool) (c a b : Reg) (s : State) : Out :=
  withObject s (.rowcon w cl c a b) c fun s obj =>
    let v := s.core.reg a
    let slot := s.core.reg b
    if 4 ≤ slot.toNat || !handleClean v then .next (s.operandTrap (.rowcon w cl c a b))
    else
      let bk := (handleOf v).bank s.core.stack
      match rowconFault s bk (handleOf v).tag w with
      | some code => .next (s.trapAt code v)
      | none =>
        let h := s.opHdr (.rowcon w cl c a b) a b 0 obj c
        let s := s.forked
        let s := if cl then s.setBank bk { s.bank bk with closing := true } else s
        retireIssued (s.acceptRow ⟨h, bk, (handleOf v).tag, cl, some (Fin.ofNat 4 slot.toNat), s.now, (s.bank bk).row⟩) h

/-! ## ROWCLS (R286, R287) -/

/-- ROWCLS. It accesses no memory and does not fork (DESIGN CHOICE, log entry 53: R254 does not name it). -/
def execRowcls (c a : Reg) (s : State) : Out :=
  withObject s (.rowcls c a) c fun s obj =>
    let v := s.core.reg a
    if !handleClean v then .next (s.operandTrap (.rowcls c a))
    else
      let bk := (handleOf v).bank s.core.stack
      let k := s.bank bk
      if s.columnFenced bk then .next (s.trapAt 0x0013 v)
      else
        let h := s.opHdr (.rowcls c a) a 0 0 obj c
        let s := { s with seq := s.seq + 1 }
        if (handleOf v).tag ≠ 0 && (handleOf v).tag = k.tag && k.asid = some s.core.asid && k.active && !k.lost && !k.closing then
          retireIssued ((s.setBank bk { k with closing := true }).acceptRow ⟨h, bk, k.tag, true, none, s.now, k.row⟩) h
        else retireIssued (s.endOp h .tile 0 0) h

/-! ## The banks' own moves (R274) -/

/-- ROW_CONSUMABLE: 16 ns after the activation. -/
def execRowConsumable (b : BankId) (s : State) : Out :=
  let k := s.bank b
  if k.st == .act && k.tAct + 16 ≤ s.now then
    let s := s.setBank b { k with st := .open, tIn := s.now, objs := [] }
    .next (k.objs.foldl (fun s h => s.endOp h .tile 1 0) s)
  else .next s

/-- ROW_OPEN_LIMIT: 2,000 ns after the activation (R278). -/
def execRowOpenLimit (b : BankId) (s : State) : Out :=
  let k := s.bank b
  .next (if k.active && k.tAct + 2000 ≤ s.now then s.hardwareClose b 0x0101 else s)

/-- REFRESH_PRECLOSE: 12 ns before the bank's refresh window (R277). -/
def execRefreshPreclose (b : BankId) (s : State) : Out :=
  .next (if (s.bank b).active && (s.inRefresh b || s.refreshWithin b 13) then s.hardwareClose b 0x0101 else s)

/-- REFRESH_WINDOW_START: an idle bank whose window is in progress. -/
def execRefreshWindowStart (b : BankId) (s : State) : Out :=
  .next (if (s.bank b).st == .idle && s.inRefresh b then
      s.setBank b { s.bank b with st := .ref, tIn := s.now - (350 - (s.refreshOf b).rem) }
    else s)

/-- REFRESH_WINDOW_END: 350 ns after REF began. -/
def execRefreshWindowEnd (b : BankId) (s : State) : Out :=
  .next (if (s.bank b).st == .ref && (s.bank b).tIn + 350 ≤ s.now then s.setBank b { s.bank b with st := .idle, tIn := s.now } else s)

/-- BANK_CLOSE_END: 12 ns after CLOSE began. -/
def execBankCloseEnd (b : BankId) (s : State) : Out :=
  .next (if (s.bank b).st == .close && (s.bank b).tIn + 12 ≤ s.now then s.setBank b { s.bank b with st := .idle, tIn := s.now } else s)

/-! ## Transfers (R284, R285) -/

/-- The tile of a stack and column. -/
def tileKey (stk : Fin 8) (t : Fin 64) : Nat := 64 * stk.val + t.val
def tileNo (t : TileId) : Nat := tileKey t.stk t.t

/-- The row slot an LKA reads (R309). -/
def lkaSlot (h : OpHdr) : Nat := bitsOf h.va 7 6

/-- A slot is free for a ROWCON: every earlier LKA that reads it has started, every earlier ROWCON into
it is done (R285). -/
def State.slotReady (s : State) (c : RowCmd) (slot : Fin 4) : Bool :=
  !(s.tiles.cmds.any fun q => q.op == .lka && q.tile.stk == c.bank.stk && q.tile.t == c.bank.col &&
      lkaSlot q.hdr == slot.val && q.hdr.seq < c.hdr.seq) &&
  !(s.dram.cmds.any fun q => q.bank.stk == c.bank.stk && q.bank.col == c.bank.col && q.slot == some slot && q.hdr.seq < c.hdr.seq)

/-- The instants at which accesses of the Fold that hold a bank of a column take their bus slots: 16 ns after their
activations, for 4 ns (R273; log entry 46). -/
def State.foldSlots (s : State) (stk : Fin 8) (col : Fin 64) : List Nat :=
  (List.finRange 16).filterMap fun l =>
    let k := s.bank ⟨stk, col, l⟩
    if k.byFold && k.active then some (k.tAct + 16) else none

/-- The first 4 ns from an instant on that meet none of these slots. -/
def clearOf (slots : List Nat) (t : Nat) : Nat :=
  (List.range slots.length).foldl (fun t _ => slots.foldl (fun t r => if t < r + 4 && r < t + 4 then r + 4 else t) t) t

/-- A tile starts no transfer of a victim while one of higher priority waits that could go ahead of it: not one for the
same slot or the same row, which waits for this one (R285, R287, R388). -/
def State.rowYields (s : State) (c : RowCmd) : Bool :=
  s.yieldsTo c.hdr ((s.dram.cmds.filter fun q =>
    q.bank.stk == c.bank.stk && q.bank.col == c.bank.col && q.slot != c.slot && q.bank != c.bank).map (·.hdr))

/-- A ROWCON.c closes its row after its transfer, so that the ROWCONs of the row accepted before it, which go first, are
done by then (R274, R284). -/
def State.closeWaits (s : State) (c : RowCmd) : Bool :=
  c.close && s.dram.cmds.any fun q => q.bank == c.bank && q.tag == c.tag && q.slot.isSome && q.hdr.seq < c.hdr.seq

/-- A held ROWCON waits for nothing but its column's bus: its bank is OPEN and its slot free (R284). -/
def State.transferCould (s : State) (c : RowCmd) : Bool :=
  let k := s.bank c.bank
  !s.transferring c && k.st == .open && c.tag == k.tag && (c.slot.any fun slot => s.slotReady c slot) && !s.closeWaits c && !s.rowYields c

/-- When the transfer of a ROWCON begins: of a held one, as soon as nothing else keeps it and its column's bus is free
(R284). -/
def State.transferStart (s : State) (c : RowCmd) : Option Nat :=
  let col := bankColumn c.bank
  if s.transferring c then if c.slot.isSome then (flook s.dram.begun col).map (·.2) else none
  else if s.transferCould c then
    let bus := Nat.max (fget s.dram.busUntil col 0) (match flook s.dram.begun col with
      | some q => q.2 + 4
      | none => 0)
    let freed := (c.slot.map fun slot => fget s.dram.slotFreed (4 * col + slot.val) 0).getD 0
    some (clearOf (s.foldSlots c.bank.stk c.bank.col)
      (Nat.max (Nat.max (Nat.max (s.bank c.bank).tIn c.since) (fget s.dram.couldAt c.hdr.seq 0)) (Nat.max bus freed)))
  else none

/-- A stack's tiles run: it is on, and the compute clocks do (R24, R396, R397). -/
def State.tilesRun (s : State) (k : Fin 8) : Bool := isOn s.ursol k.val && !s.ursol.switching

/-- Of the transfers of a column that could have begun by now, the one that did: the earliest, and of several the one
accepted first (R284). -/
def State.beginTransfers (s : State) : State :=
  let could := s.dram.cmds.filterMap fun c =>
    if s.tilesRun c.bank.stk then (s.transferStart c).map fun t => (c, t) else none
  { s with dram := { s.dram with
      begun := could.foldl (fun m (q : RowCmd × Nat) =>
        let col := bankColumn q.1.bank
        if q.2 < ((flook m col).map (·.2)).getD s.now then finsert m col (q.1.hdr.seq, q.2) else m) s.dram.begun } }

/-- Since when each held ROWCON could go, its tile running: an instant that is past when it first could, which a slot freed
by an expired LKA, the end of a rival or the end of a grade switch can be later than (R284, R396). -/
def State.noteTransfers (s : State) : State :=
  { s with dram := { s.dram with
      couldAt := (s.dram.cmds.filter fun c => s.tilesRun c.bank.stk && s.transferCould c).foldl
        (fun m c => finsert m c.hdr.seq (fget s.dram.couldAt c.hdr.seq s.now)) [] } }

/-- The 4 ns transfer of a held ROWCON can have ended now. -/
def State.transferable (s : State) (c : RowCmd) : Bool :=
  match s.transferStart c with
  | some t => t + 4 ≤ s.now
  | none => false

/-- The transfer of a ROWCON has begun and not ended. -/
def State.transferBegun (s : State) (c : RowCmd) : Bool :=
  match s.transferStart c with
  | some t => t < s.now
  | none => false

/-- The words of a row with an uncorrectable error, by their number in the row. -/
def badWords (ms : MemSys) (pa : Nat) : List Nat := (List.range 256).filter fun w => ms.bad.contains (pa / 8 + w)

/-- The words of a row with a single-bit error, which a transfer corrects. -/
def weakWords (ms : MemSys) (pa : Nat) : List Nat :=
  (List.range 256).filter fun w => ms.weak.contains (pa / 8 + w) && !ms.bad.contains (pa / 8 + w)

/-- The column of a transfer counts the words with errors that it met (R284, R291). -/
def State.countTransfer (s : State) (b : BankId) (corrected uncorrectable : Nat) : State :=
  { s with dram := { s.dram with
      corrected := countMore s.dram.corrected (bankColumn b) corrected
      uncorrectable := countMore s.dram.uncorrectable (bankColumn b) uncorrectable } }

/-- The row lies in its slot: bytes, poison, owner and origin (R284, R294, R319). -/
def State.fillSlot (s : State) (c : RowCmd) (slot : Fin 4) (pa : Nat) (poison : Bool) : State :=
  let t := tileKey c.bank.stk c.bank.col
  let base := 2 ^ 13 * t + 2 ^ 11 * slot.val
  let k := 4 * t + slot.val
  { s with tiles := { s.tiles with
      slots := writeBytes s.tiles.slots base (readBytes s.mem.cells pa 2048)
      slotPoison := fset s.tiles.slotPoison k poison false
      slotTag := fset s.tiles.slotTag k (c.hdr.asid.toNat + 1) 0
      slotRow := fset s.tiles.slotRow k (pa / 2 ^ 11 % 2 ^ 28) 0
      badSlot := s.tiles.badSlot.filter fun w => w / 256 != base / 2048 } }

/-- ROW_TRANSFER: the transfer of the earliest held ROWCON of a column that can go ends now. -/
def execRowTransfer (stk : Fin 8) (col : Fin 64) (s : State) : Out :=
  match s.dram.cmds.find? fun c => c.bank.stk == stk && c.bank.col == col && s.transferable c with
  | none => .next s
  | some c =>
    match c.slot with
    | none => .next s
    | some slot =>
      let k := s.bank c.bank
      let pa := rowPa c.bank c.row
      let bad := badWords s.mem pa
      let s := (s.fillSlot c slot pa (!bad.isEmpty)).countTransfer c.bank (weakWords s.mem pa).length bad.length
      let s := { s with dram := { s.dram with
          cmds := s.dram.cmds.filter fun q => q.hdr.seq != c.hdr.seq
          begun := ferase s.dram.begun (bankColumn c.bank)
          busUntil := fset s.dram.busUntil (bankColumn c.bank) s.now 0
          busFold := fset s.dram.busFold (bankColumn c.bank) false false } }
      let s := if c.close && k.st == .open && k.tag == c.tag then s.setBank c.bank (k.beginClose s.now) else s
      .next (s.finishOp c.hdr .tile (if bad.isEmpty then 0 else 0x0108) 1 (bad.headD noIndex) 0 false)

/-- ROWCLS_CLOSE: an accepted close whose turn it is begins (R287). -/
def execRowclsClose (b : BankId) (s : State) : Out :=
  let k := s.bank b
  match s.dram.cmds.find? fun c => c.ofBank b k && c.close && c.slot.isNone with
  | some c =>
    if k.st == .open && !(s.dram.cmds.any fun q => q.ofBank b k && q.slot.isSome && q.hdr.seq < c.hdr.seq) then
      .next ((s.setBank b (k.beginClose s.now)).endCloses b true)
    else .next s
  | none => .next s

/-- The held ROWCONs of a column. -/
def State.heldTransfers (s : State) (b : BankId) : List RowCmd :=
  s.dram.cmds.filter fun c => c.bank.stk == b.stk && c.bank.col == b.col && c.slot.isSome

/-- The Fold had the column's bus last: an access whose slot no transfer has followed, or an earlier one (R273). -/
def State.foldHadBus (s : State) (b : BankId) : Bool :=
  fget s.dram.busFold (bankColumn b) false ||
  (s.foldSlots b.stk b.col).any fun r => r + 4 ≤ s.now && fget s.dram.busUntil (bankColumn b) 0 ≤ r

/-- A Fold access may take the column's bus now: no other use of it meets these 4 ns, a transfer finds room before the
Fold's next slot, and one that waits goes first where the Fold had the bus last (R273; log entry 46). -/
def State.foldTakesBus (s : State) (b : BankId) : Bool :=
  fget s.dram.busUntil (bankColumn b) 0 ≤ s.now &&
  ((s.foldSlots b.stk b.col).all fun r => r + 4 ≤ s.now || s.now + 8 ≤ r) &&
  (s.heldTransfers b).all fun c => match s.transferStart c with
    | some t => s.now < t || (s.now == t && !s.foldHadBus b)
    | none => true

/-- A Fold access may activate a row of an IDLE bank (R273, R276): outside refresh, within the layer's budget, and with
a bus slot of its own, ahead of which a transfer that waits finds room (log entry 46). -/
def State.foldActivates (s : State) (b : BankId) : Bool :=
  !s.inRefresh b && !s.refreshWithin b 32 && decide ((s.budget b).length < 8) &&
  (s.foldSlots b.stk b.col).all fun r => r + 8 ≤ s.now + 16

/-- A line lies in a row of a bank (R205). -/
def lineInRow (b : BankId) (row line : Nat) : Bool := bankKey (bankOf (64 * line)) == bankKey b && rowOf (64 * line) == row

/-- The oldest access that a Fold has still to make to a row is made (R273). -/
def State.foldServed (s : State) (b : BankId) (row : Nat) : State :=
  { s with mem := { s.mem with dramWork := removeFirst (lineInRow b row) s.mem.dramWork } }

/-- The column's bus has served a Fold access until an instant, the last use of it if no transfer came after. -/
def State.foldUsedBus (s : State) (b : BankId) (t : Nat) : State :=
  let col := bankColumn b
  let u := fget s.dram.busUntil col 0
  { s with dram := { s.dram with
      busUntil := fset s.dram.busUntil col (Nat.max u t) 0
      busFold := fset s.dram.busFold col (fget s.dram.busFold col false || u < t) false } }

/-- FOLD_DRAM_ACCESS: a fill, a write-back or an NC access that a Fold has still to make to a row is served from the open
row, or by an activation of its own, whose second half, 4 ns after the row opens, closes it again (R273, R274, R276). -/
def execFoldDramAccess (b : BankId) (row : Fin 32768) (s : State) : Out :=
  let k := s.bank b
  if !serves s.ursol b.stk.val then .next s
  else if k.byFold && k.active then
    if k.st == .open && k.row == row.val && k.tAct + 20 ≤ s.now then
      .next (((s.foldServed b row.val).foldUsedBus b (k.tAct + 20)).setBank b { k with st := .close, tIn := k.tAct + 20 })
    else .next s
  else if !s.mem.dramWork.any (lineInRow b row.val) then .next s
  else if k.st == .open && k.row == row.val then
    if s.foldTakesBus b then .next ((s.foldServed b row.val).foldUsedBus b (s.now + 4)) else .next s
  else if k.st == .idle && s.foldActivates b then
    .next ((s.setBank b { k with st := .act, row := row.val, asid := none, tAct := s.now, tIn := s.now, closing := true, objs := [] }).activated b)
  else .next s

end Sys2Proof.Machine
end

