-- ==== Sys2Proof/Machine/Tables.lean ====
section
/-!
DEFINITION. The commands of the table builder and of the tiles at issue: CBLD, TBLD, LKA, ACLR and
ADRN, their words and checks (R293-R300, R303, R304, R309, R312-R314, R317).
-/
namespace Sys2Proof.Machine
open Sys2Proof

/-! ## Shapes (R295-R297) -/

/-- A table shape: index width, group size, entry bits. -/
structure Shape where
  b : Nat
  g : Nat
  e16 : Bool
  deriving DecidableEq, Repr

/-- The pattern width. -/
def Shape.p (h : Shape) : Nat := h.b * h.g
/-- The banks of a table. -/
def Shape.u (h : Shape) : Nat := if h.e16 && h.p == 8 then 2 else 1
/-- The entry width in bits. -/
def Shape.e (h : Shape) : Nat := if h.e16 then 16 else 8

/-- The farm's record does not allow a shape (R297); a supervisor core has no record. -/
def State.shapeDenied (s : State) (b : Nat) (e16 a32 : Bool) : Bool :=
  match s.core.id with
  | .task t =>
    let r := (s.farm t.farm.val).lrec
    r.smaxb < b || (e16 && !r.se16) || (a32 && !r.sa32)
  | _ => false

/-! ## CBLD (R303) -/

def cbldBits (w : W64) : Nat := bitsOf w 5 4 + 1
def cbldSlot (w : W64) : Nat := bitsOf w 2 0

def State.buildWaiting (s : State) (k : Fin 8) : List BuildCmd := fget s.eng.buildQ k.val []
def State.pushBuild (h : OpHdr) (tbld : Bool) (s : State) : State :=
  { s with eng := { s.eng with buildQ := finsert s.eng.buildQ h.stk.val (s.buildWaiting h.stk ++ [⟨tbld, h⟩]) } }

/-- CBLD. -/
def execCbld (c a b : Reg) (s : State) : Out :=
  withObject s (.cbld c a b) c fun s obj =>
    let w := s.core.reg b
    let h := s.opHdr (.cbld c a b) a b 0 obj c
    withChecks s [bitsOf w 63 6 != 0 || w.getLsbD 3, s.shapeDenied (cbldBits w) false false]
      (issueOp s h (s.buildWaiting h.stk).length (State.pushBuild h false))

/-! ## TBLD (R304) -/

def tbldShape (w : W64) : Shape := ⟨bitsOf w 4 3 + 1, 2 ^ bitsOf w 6 5, w.getLsbD 7⟩
def tbldBase (w : W64) : Nat := bitsOf w 29 20
def tbldGroups (w : W64) : Nat := bitsOf w 19 9
def tbldO4 (w : W64) : Bool := w.getLsbD 8
def tbldSlot (w : W64) : Nat := bitsOf w 2 0

/-- TBLD. -/
def execTbld (c a b e : Reg) (s : State) : Out :=
  withObject s (.tbld c a b e) c fun s obj =>
    let w := s.core.reg e
    let h := s.opHdr (.tbld c a b e) a b e obj c
    let sh := tbldShape w
    withChecks s
      [bitsOf w 63 30 != 0, 8 < sh.p, s.shapeDenied sh.b sh.e16 false,
       tbldGroups w == 0 || 1024 < tbldBase w + tbldGroups w * sh.u, tbldO4 w && (s.core.reg a).toNat % 4 != 0]
      (issueOp s h (s.buildWaiting h.stk).length (State.pushBuild h true))

/-! ## Tile commands (R309) -/

def tcmdTile (v : W64) : Fin 64 := Fin.ofNat 64 (bitsOf v 5 0)
def tcmdSlot (v : W64) : Nat := bitsOf v 7 6
def tcmdBlock (v : W64) : Nat := bitsOf v 11 8
def tcmdBase (v : W64) : Nat := bitsOf v 21 12
def tcmdAcc (v : W64) : Nat := bitsOf v 30 22
def tcmdClr (v : W64) : Bool := v.getLsbD 31
def tcmdVer (v : W64) : BitVec 16 := BitVec.ofNat 16 (bitsOf v 47 32)

/-- A reserved bit is set, or one that only LKA uses. -/
def tcmdDirty (v : W64) : Bool := bitsOf v 63 48 != 0 || bitsOf v 30 22 != 0 || bitsOf v 21 12 != 0 || bitsOf v 7 6 != 0

/-- The commands that hold places in a tile's queue (R300). -/
def State.tileWaiting (s : State) (t : TileId) : List TileCmd :=
  s.tiles.cmds.filter fun c => c.tile == t && (match c.op with
    | .reserve .. => false
    | _ => true)

def State.pushTile (h : OpHdr) (t : TileId) (op : TileOp) (s : State) : State :=
  { s with tiles := { s.tiles with cmds := s.tiles.cmds ++ [{ tile := t, op := op, hdr := h }] } }

/-- A tile command takes its place at the tile its command word names. -/
def issueTile (s : State) (h : OpHdr) (op : TileOp) : Out :=
  let t : TileId := ⟨h.stk, tcmdTile h.va⟩
  issueOp s h (s.tileWaiting t).length (State.pushTile h t op)

/-! ## LKA (R313, R314) -/

structure LkaShape where
  nsc : Nat
  a32 : Bool
  sh : Shape
  lgL : Nat
  k : Nat
  g : Nat
  c : Nat
  deriving DecidableEq, Repr

def lkaShape (w : W64) : LkaShape :=
  ⟨bitsOf w 49 42, w.getLsbD 41, ⟨bitsOf w 37 36 + 1, 2 ^ bitsOf w 39 38, w.getLsbD 40⟩, bitsOf w 35 32, bitsOf w 31 21,
   bitsOf w 20 10, bitsOf w 9 0⟩

/-- LKA. -/
def execLka (c a b e : Reg) (s : State) : Out :=
  withObject s (.lka c a b e) c fun s obj =>
    let v := s.core.reg a
    let w := s.core.reg b
    let h := s.opHdr (.lka c a b e) a b e obj c
    let l := lkaShape w
    withChecks s
      [bitsOf v 63 48 != 0 || tcmdClr v || bitsOf w 63 50 != 0, 8 < l.sh.p, s.shapeDenied l.sh.b l.sh.e16 l.a32,
       l.lgL < 3 || 10 < l.lgL, l.c == 0 || l.g == 0 || l.k == 0 || l.g < l.k || 16384 / l.sh.p < l.c * l.g,
       1024 < tcmdBase v + l.g * l.sh.u, (if l.a32 then 256 else 512) < tcmdAcc v + l.c, l.nsc != ceilDiv l.k (2 ^ l.lgL),
       (s.core.reg e).toNat % 4 != 0]
      (issueTile s h .lka)

/-! ## ACLR and ADRN (R312, R317) -/

/-- ACLR. -/
def execAclr (c a : Reg) (s : State) : Out :=
  withObject s (.aclr c a) c fun s obj =>
    withChecks s [tcmdDirty (s.core.reg a) || tcmdClr (s.core.reg a)]
      (issueTile s (s.opHdr (.aclr c a) a 0 0 obj c) .aclr)

def adrnC0 (w : W64) : Nat := bitsOf w 39 32
def adrnN (w : W64) : Nat := bitsOf w 24 16
def adrnRow (w : W64) : Nat := bitsOf w 12 8
def adrnSq (w : W64) : Nat := bitsOf w 5 0

/-- ADRN. -/
def execAdrn (c a b : Reg) (s : State) : Out :=
  withObject s (.adrn c a b) c fun s obj =>
    let w := s.core.reg b
    withChecks s
      [tcmdDirty (s.core.reg a) || bitsOf w 63 40 != 0 || bitsOf w 31 25 != 0 || bitsOf w 15 13 != 0 || bitsOf w 7 6 != 0,
       adrnN w == 0 || 256 < adrnC0 w + adrnN w, 32 < adrnRow w + ceilDiv (adrnN w) 32, s.core.task.sq ≤ adrnSq w]
      (issueTile s (s.opHdr (.adrn c a b) a b 0 obj c) .adrn)

end Sys2Proof.Machine
end

