-- ==== Sys2Proof/Machine/Copy.lean ====
section
/-!
DEFINITION. The copy engine: CPY and CPYS at issue, chunks, arrival pointers and ends (R138, R355-R362,
R368).
-/
namespace Sys2Proof.Machine
open Sys2Proof

/-! ## Arrival banks (R361) -/

/-- The bytes of a row in an arrival bank: bank offsets. -/
def CopyCmd.rowInBank (c : CopyCmd) (j r : Nat) : Option (Nat × Nat) :=
  let lo := Nat.max (c.rowDst r).toNat (scratchBase + 65536 * j)
  let hi := Nat.min ((c.rowDst r).toNat + c.rlen) (scratchBase + 65536 * (j + 1))
  if lo < hi then some (lo - (scratchBase + 65536 * j), hi - (scratchBase + 65536 * j)) else none

/-- The lowest and the end of the bytes a copy writes in an arrival bank. -/
def CopyCmd.bankSpan (c : CopyCmd) (j : Nat) : Option (Nat × Nat) :=
  (List.range c.rows).foldl (fun acc r => match acc, c.rowInBank j r with
    | some (lo, hi), some (a, b) => some (Nat.min lo a, Nat.max hi b)
    | none, x => x
    | x, none => x) none

/-- The arrival banks a copy touches. -/
def CopyCmd.banks (c : CopyCmd) : List Nat := (List.range 64).filter fun j => (c.bankSpan j).isSome

/-- Change the arrival banks of a task, placed or parked. -/
def State.mapAps (s : State) (id : CoreId) (f : FMap ArrivalBank → FMap ArrivalBank) : State :=
  let s := s.mapCore id fun c => { c with task := { c.task with aps := f c.task.aps } }
  { s with parked := s.parked.map fun p => if id = .task p.t then { p with aps := f p.aps } else p }

def setAp (m : FMap ArrivalBank) (j : Nat) (b : ArrivalBank) : FMap ArrivalBank := fset m j b {}

/-- Arm every bank a copy touches. -/
def armBanks (c : CopyCmd) (m : FMap ArrivalBank) : FMap ArrivalBank :=
  c.banks.foldl (fun m j => setAp m j ⟨true, ((c.bankSpan j).map (·.1)).getD 0⟩) m

/-- Disarm every bank of a copy. -/
def disarmBanks (c : CopyCmd) (m : FMap ArrivalBank) : FMap ArrivalBank := c.banks.foldl (fun m j => setAp m j {}) m

/-- The bank's pointer after bytes up to `stop` have landed (R361). Between the rows of a CPYS, in bytes that no row writes,
it stands at the 64-byte step below the end of the chunk that landed; a byte that several rows write has landed with the first
(DESIGN CHOICE, log entry 51). -/
def advanceAp (c : CopyCmd) (j stop : Nat) (m : FMap ArrivalBank) : FMap ArrivalBank :=
  let b := fget m j {}
  let last := ((c.bankSpan j).map (·.2)).getD 0
  if b.armed then setAp m j { b with ap := if stop = last then stop else Nat.max b.ap (stop / 64 * 64) } else m

/-! ## CPY and CPYS (R355, R356) -/

def State.copyWaiting (s : State) (k : Fin 8) : List CopyCmd := fget s.eng.copyQ k.val []
def State.copying (s : State) (k : Fin 8) : List CopyCmd := fget s.eng.copyRun k.val []

/-- A copy that has passed its checks: it waits for its arrival banks and for a place, or, with no bytes,
ends at once. -/
def issueCopy (s : State) (c : CopyCmd) : Out :=
  let h := c.hdr
  let c := if s.core.id.isTask then { c with scratch := !c.banks.isEmpty } else c
  if c.scratch && c.banks.any fun j => (fget s.core.task.aps j {}).armed then .next s
  else if c.total = 0 then retireIssued (s.forked.endOp h .copy 0 0) h
  else issueOp s h (s.copyWaiting h.stk).length fun s =>
    { s with
      eng := { s.eng with copyQ := finsert s.eng.copyQ h.stk.val (s.copyWaiting h.stk ++ [c]) }
      core := if c.scratch then { s.core with task := { s.core.task with aps := armBanks c s.core.task.aps } } else s.core }

/-- CPY. -/
def execCpy (c a b e : Reg) (s : State) : Out :=
  withObject s (.cpy c a b e) c fun s obj =>
    withChecks s [2 ^ 32 ≤ (s.core.reg e).toNat]
      (issueCopy s { hdr := s.opHdr (.cpy c a b e) a b e obj c, rows := 1, rlen := (s.core.reg e).toNat, dstr := 0, sstr := 0 })

/-- CPYS: its stride record is read as a hart load. -/
def execCpys (c a b e : Reg) (s : State) : Out :=
  withObject s (.cpys c a b e) c fun s obj =>
    withChecks s [(s.core.reg e).toNat % 32 != 0]
      (let r := coreLoad s (s.core.reg e) 32 .dflt false
       match r.2 with
       | .error f => .next (r.1.memTrap f .load)
       | .ok v =>
         let s := r.1
         let rlen := v / 2 ^ 128 % 2 ^ 32
         let rows := v / 2 ^ 160 % 2 ^ 32
         withChecks s [false, v / 2 ^ 192 != 0 || rows == 0 || rlen == 0 || 2 ^ 32 ≤ rows * rlen]
           (issueCopy s { hdr := s.opHdr (.cpys c a b e) a b e obj c, rows := rows, rlen := rlen
                          dstr := BitVec.ofNat 64 v, sstr := BitVec.ofNat 64 (v / 2 ^ 64) }))

/-! ## COPY_START (R138, R357) -/

/-- A copy in progress has a place and uses it: it has not given it up (R138), nor does it yield to one that waits
(R388). -/
def State.holdsPlace (s : State) (stk : Fin 8) (c : CopyCmd) : Bool :=
  !c.paused && !s.yieldsTo c.hdr ((s.copyWaiting stk).map (·.hdr))

/-- The copies that may move chunks: those that have given up their place (R138), and the first four that use one. -/
def State.movesChunks (s : State) (stk : Fin 8) (c : CopyCmd) : Bool :=
  (c.paused && !s.yieldsTo c.hdr ((s.copyWaiting stk).map (·.hdr))) ||
  (((s.copying stk).filter (s.holdsPlace stk)).take 4).any fun d => d.hdr.seq == c.hdr.seq

/-- COPY_START: with fewer than four copies in progress, one that had given up its place takes one again,
else the oldest of the queue starts; one into the scratchpad of a task that is not resident takes none. -/
def execCopyStart (stk : Fin 8) (s : State) : Out :=
  let run := s.copying stk
  if 4 ≤ (run.filter fun c => s.holdsPlace stk c).length then .next s
  else if run.any fun c => c.paused && s.resident c.hdr then
    let run := replaceFirst (fun c => c.paused && s.resident c.hdr) (fun c => { c with paused := false }) run
    .next { s with eng := { s.eng with copyRun := finsert s.eng.copyRun stk.val run } }
  else match s.nextCmd (·.hdr) (s.copyWaiting stk) with
    | some (c, rest) => .next { s with eng := { s.eng with
        copyQ := finsert s.eng.copyQ stk.val rest
        copyRun := finsert s.eng.copyRun stk.val (run ++ [{ c with paused := c.scratch && !s.resident c.hdr }]) } }
    | none => .next s

/-! ## COPY_CHUNK_LAND (R358, R360) -/

/-- How the copy engine translates for a copy: its issuer's scratchpad is in reach. -/
def State.copyCtx (s : State) (h : OpHdr) : XCtx :=
  match h.core with
  | .task t => engineCtx h.stk h.asid true (poolScr (s.farm t.farm.val).lrec.poolw) .copy
  | _ => engineCtx h.stk h.asid false 0 .copy

/-- The status of a translation's failure on one side of a copy. -/
def copyStatus (side code : Nat) : Nat := if code = 0x0009 then 0x0306 else side

/-- What keeps one side of a chunk from a target, by its status (R360). A source whose home does not
serve it is read as a poisoned line (R398), below. -/
def copyBad (u : Ursol) (side : Nat) (reads : Bool) : Target → Option Nat
  | .mem pa _ =>
    if isFenced u pa then some side
    else if !reads && !serves u (stackOf pa) then some 0x0303
    else none
  | .remote pa => if !(fget u.windows (pa / 2 ^ 39) {}).valid then some 0x0304 else if windowUsable u pa then none else some 0x0305
  | .control _ => some side
  | .scratch _ => none

/-- Translate and check one side of a chunk: its targets, or the status. -/
def copyTargets (u : Ursol) (x : XCtx) (k : AccKind) (side : Nat) : MemSys → List (Nat × Nat) → MemSys × Except Nat (List (Target × Nat))
  | ms, [] => (ms, .ok [])
  | ms, (va, n) :: rest =>
    let r := translate ms u x (BitVec.ofNat 64 va) k
    match r.2 with
    | .error f => (r.1, .error (copyStatus side f.code))
    | .ok l =>
      match copyBad u side (k == .engineRead) (targetOf .wt l) with
      | some st => (r.1, .error st)
      | none =>
        let q := copyTargets u x k side r.1 rest
        (q.1, q.2.map fun ts => (targetOf .wt l, n) :: ts)

/-- The bytes from a physical address up to the first line that is answered poisoned, among the pieces of
a range (R227, R398). -/
def cleanLength (ms : MemSys) (u : Ursol) : List (Nat × Nat) → Nat
  | [] => 0
  | (pa, n) :: rest =>
    if !serves u (stackOf pa) || piecePoisoned ms (pa, n) then 0 else n + cleanLength ms u rest

/-- Read a chunk's source up to the first line or target that gives no bytes, and why (R360; log entry 34). -/
def readChunk (h : OpHdr) : State → List (Target × Nat) → State × List Byte × Option Nat
  | s, [] => (s, [], none)
  | s, (t, n) :: rest =>
    let r : State × List Byte × Option Nat := match t with
      | .mem pa p =>
        let k := cleanLength s.mem s.ursol (piecesOf pa n)
        let q := engineRead s.mem (engineNo .copy h.stk) pa k (p == .nc)
        let ms := if k < n && serves s.ursol (stackOf (pa + k)) then meetPoison q.1 (piecesOf (pa + k) (n - k)) (p == .nc) else q.1
        ({ s with mem := ms }, q.2, if k < n then some 0x0303 else none)
      | .scratch o => (s, readBytes (s.scratchOf h.core) o n, none)
      | .remote pa =>
        let q := s.remoteRead pa n
        (q.1, match q.2 with
          | some bs => (bs, none)
          | none => ([], some 0x0305))
      | .control _ => (s, [], some 0x0301)
    match r.2.2 with
    | some e => (r.1, r.2.1, some e)
    | none =>
      let q := readChunk h r.1 rest
      (q.1, r.2.1 ++ q.2.1, q.2.2)

/-- What a chunk has come to: the bytes it wrote, the RDMA windows among its targets, and the status it
failed with, if it did. -/
structure ChunkEnd where
  wrote : Nat
  wins : List Nat
  status : Option Nat
  deriving DecidableEq, Repr

/-- Write bytes to a chunk's destination, up to a target that refuses them. -/
def writeChunk (h : OpHdr) : State → List Byte → List (Target × Nat) → State × ChunkEnd
  | s, _, [] => (s, ⟨0, [], none⟩)
  | s, [], _ :: _ => (s, ⟨0, [], none⟩)
  | s, b :: bs, (t, n) :: rest =>
    let now := (b :: bs).take n
    let r : State × ChunkEnd := match t with
      | .mem pa p =>
        let ms := tagHits s.mem (engineWrite s.mem (engineNo .copy h.stk) pa now (p == .nc)) (engineNo .copy h.stk) h.asid
        ({ s with mem := ms }, ⟨now.length, [], none⟩)
      | .scratch o => (s.writeScratchOf h.core o now, ⟨now.length, [], none⟩)
      | .remote pa =>
        let q := s.remoteWrite pa now
        (q.1, if q.2 then ⟨now.length, [pa / 2 ^ 39], none⟩ else ⟨0, [], some 0x0305⟩)
      | .control _ => (s, ⟨0, [], some 0x0302⟩)
    match r.2.status with
    | some _ => r
    | none =>
      let q := writeChunk h r.1 ((b :: bs).drop n) rest
      (q.1, ⟨r.2.wrote + q.2.wrote, r.2.wins ++ q.2.wins, q.2.status⟩)

/-- Neighbouring pieces of one RDMA window are one READ or WRITE (R368). -/
def joinRemote : List (Target × Nat) → List (Target × Nat)
  | [] => []
  | (t, n) :: rest =>
    match t, joinRemote rest with
    | .remote a, (.remote b, m) :: more => if a + n = b && a / 2 ^ 39 = b / 2 ^ 39 then (.remote a, n + m) :: more else (.remote a, n) :: (.remote b, m) :: more
    | t, more => (t, n) :: more

/-- Move a chunk: what it has come to. Where its source gives out, the bytes before are written. -/
def moveChunk (s : State) (h : OpHdr) (k : Chunk) : State × ChunkEnd :=
  let x := s.copyCtx h
  let pieces := fun (a : W64) => pagePieces a.toNat (k.len / 2048 + 2) k.len
  let a := copyTargets s.ursol x .engineRead 0x0301 s.mem (pieces k.src)
  match a.2 with
  | .error e => ({ s with mem := a.1 }, ⟨0, [], some e⟩)
  | .ok src =>
    let b := copyTargets s.ursol x .engineWrite 0x0302 a.1 (pieces k.dst)
    let s := { s with mem := b.1 }
    match b.2 with
    | .error e => (s, ⟨0, [], some e⟩)
    | .ok dst =>
      let r := readChunk h s (joinRemote src)
      let w := writeChunk h r.1 r.2.1 (joinRemote dst)
      (w.1, { w.2 with status := if w.2.status.isSome then w.2.status else r.2.2 })

/-- A chunk may land: it is in flight (R138, R358), and after a failure only what was in flight then (R360). -/
def State.mayLand (s : State) (c : CopyCmd) (n : Nat) : Bool :=
  (c.inFlight (s.resident c.hdr)).contains n && (c.fail.isNone || c.flight.contains n)

/-- Put a changed copy in progress back. -/
def State.putCopying (s : State) (stk : Fin 8) (c : CopyCmd) : State :=
  let run := replaceFirst (fun d => d.hdr.seq == c.hdr.seq) (fun _ => c) (s.copying stk)
  { s with eng := { s.eng with copyRun := finsert s.eng.copyRun stk.val run } }

/-- The arrival pointer after a chunk into the scratchpad, n bytes of which have landed. -/
def State.chunkArrived (s : State) (c : CopyCmd) (k : Chunk) (n : Nat) : State :=
  if c.scratch && inScratch k.dst then
    let o := k.dst.toNat - scratchBase
    s.mapAps c.hdr.core (advanceAp c (o / 65536) (o % 65536 + n))
  else s

/-- A copy after chunk m has failed with a status, `wrote` bytes of it written (R360). -/
def CopyCmd.chunkFailed (c : CopyCmd) (res : Bool) (m status wrote : Nat) : CopyCmd :=
  let c := if c.fail.isNone then { c with flight := c.inFlight res } else c
  let c := { c with failed := m :: c.failed }
  match c.fail with
  | some f => if m < f.2 then { c with fail := some (status, m), stop := wrote } else c
  | none => { c with fail := some (status, m), stop := wrote }

/-- COPY_CHUNK_LAND: chunk m of the n-th copy in progress. -/
def execCopyChunkLand (stk : Fin 8) (n : Nat) (m : Nat) (s : State) : Out :=
  match (s.copying stk)[n]? with
  | none => .next s
  | some c =>
    match c.chunk m with
    | none => .next s
    | some k =>
      if s.movesChunks stk c && s.mayLand c m then
        let r := moveChunk s c.hdr k
        match r.2.status with
        | some e => .next ((r.1.chunkArrived c k r.2.wrote).putCopying stk (c.chunkFailed (s.resident c.hdr) m e r.2.wrote))
        | none =>
          .next ((r.1.chunkArrived c k k.len).putCopying stk
            { c with landed := m :: c.landed, got := c.got + k.len, wins := c.wins ++ r.2.wins.filter fun w => !c.wins.contains w })
      else .next s

/-! ## COPY_END (R360, R361, R368) -/

/-- The offset in row order of the first byte not written (R360). -/
def CopyCmd.firstMissing (c : CopyCmd) : Nat :=
  match c.chunks.zipIdx.find? fun q => !c.landed.contains q.2 with
  | some q => q.1.row * c.rlen + q.1.off + (if c.fail.map (·.2) = some q.2 then c.stop else 0)
  | none => c.total

/-- Every chunk of a failed copy that was in flight at its failure is done (R360); one into the scratchpad of a task
that is not resident has not started (R138). -/
def CopyCmd.settled (c : CopyCmd) (res : Bool) : Bool := c.fail.isSome && !c.flight.any fun m => (c.inFlight res).contains m

/-- The SENDs of a successful copy into windows with notify set (R368). -/
def State.notifyWindows (s : State) (c : CopyCmd) : State :=
  c.wins.foldl (fun s w => if (fget s.ursol.windows w {}).notify then s.send (.send w (BitVec.ofNat 32 c.total) (windowQp s.ursol (w * 2 ^ 39)).f2f) else s) s

/-- COPY_END: the n-th copy in progress has all its bytes, or has failed. -/
def execCopyEnd (stk : Fin 8) (n : Nat) (s : State) : Out :=
  match (s.copying stk)[n]? with
  | none => .next s
  | some c =>
    if c.settled (s.resident c.hdr) || (c.fail.isNone && c.got = c.total) then
      let s := { s with eng := { s.eng with copyRun := finsert s.eng.copyRun stk.val ((s.copying stk).eraseIdx n) } }
      let s := if c.scratch then s.mapAps c.hdr.core (disarmBanks c) else s
      .next (match c.fail with
        | some (st, _) => s.failOp c.hdr .copy st c.firstMissing c.firstMissing 0
        | none => (s.endOp c.hdr .copy c.total 0).notifyWindows c)
    else .next s

/-! ## CHASE_ELEMENT_READ (R362) -/

/-- The vector load that a task's block has come to runs on from its waiting element. -/
def chaseAgain (s : State) : Out :=
  match elementInstr s.core.eword.toNat with
  | .vld h ty d a m => execVld h ty d a m s
  | .vlds h ty d a b m => execVlds h ty d a b m s
  | .vldx h ty d a b m => execVldx h ty d a b m s
  | _ => .next s

/-- CHASE_ELEMENT_READ. -/
def execChaseElementRead (t : TaskId) (s : State) : Out :=
  match s.focus (.task t) with
  | some s => if s.coreRuns && s.core.inBlock && s.core.eword != 0 then chaseAgain s else .next s
  | none => .next s

end Sys2Proof.Machine
end

