-- ==== Sys2Proof/Machine/Crook.lean ====
section
/-!
DEFINITION. What the Crook does with its commands, one command at a time, unit by unit and in arrival order, and its
prefetch into staging (R322-R340, R343).
-/
namespace Sys2Proof.Machine
open Sys2Proof

/-! ## How an operation ends (R331, R340) -/

/-- What an operation of the Crook comes to: status, progress, fault index, flags. -/
structure KvEnd where
  status : Nat
  progress : Nat
  fidx : Nat
  flags : Byte := 0
  deriving DecidableEq, Repr

/-- A failure of an operation of a single unit (R331). -/
def kvFail (status : Nat) : KvEnd := ⟨status, 0, 0, 0⟩

/-- A failure of KVINS of an entry: progress 1 and fidx x[a], whatever the status (R333). -/
def insFail (id status : Nat) : KvEnd := ⟨status, 1, id % 2 ^ 32, 0⟩

/-- How an operation whose descriptor cannot be read ends (R331, R333): 0x0201 with progress 0 and fidx 0. -/
def descFail (c : KvCmd) (status : Nat) : KvEnd :=
  if c.op == .ins && c.hdr.vb != 0 && status != 0x0201 then insFail c.hdr.va.toNat status else kvFail status

/-- A status other than 0x0000 and 0x0202 is a fault. -/
def State.endKv (s : State) (h : OpHdr) (e : KvEnd) : State :=
  s.finishOp h .crook e.status e.progress e.fidx e.flags (e.status != 0 && e.status != 0x0202)

/-- What a unit of a command of the Crook comes to (R331): the command goes on, or it ends. -/
inductive KvNext where
  | more (p : KvProg)
  | ended (e : KvEnd)
  deriving DecidableEq, Repr

/-- Go on with what a read or write gave, or end with its status. -/
def onKv {α : Type} (r : State × Except Nat α) (bad : Nat → KvEnd) (k : State → α → State × KvNext) : State × KvNext :=
  match r.2 with
  | .error e => (r.1, .ended (bad e))
  | .ok v => k r.1 v

/-- How the Crook translates for a command. -/
def OpHdr.kvCtx (h : OpHdr) : XCtx := Machine.kvCtx h.stk h.asid h.core.isTask

/-! ## Control doubles (R328) -/

def ctlState (v : Nat) : Nat := v % 8
def ctlGen (v : Nat) : Nat := v / 2 ^ 16 % 2 ^ 16
def ctlPin (v : Nat) : Nat := v / 2 ^ 32 % 2 ^ 32
/-- A control double with another state. -/
def ctlWithState (v n : Nat) : Nat := v / 8 * 8 + n
/-- A control double with sigv 0. -/
def ctlUnsigned (v : Nat) : Nat := if v.testBit 3 then v - 8 else v

/-- One atomic update of n bytes at home at a virtual address (R262, R328): whether it took place. -/
def State.kvAtomic (s : State) (c : XCtx) (va : W64) (n : Nat) (f : Nat → Option Nat) : State × Except Nat (Nat × Bool) :=
  let r := engineTargets s.mem s.ursol c .atomic [(va.toNat, n)]
  let s := { s with mem := r.1 }
  match r.2 with
  | .error e => (s, .error (kvStatus e))
  | .ok [(.mem pa p, _)] =>
    if piecePoisoned s.mem (pa, n) then ({ s with mem := meetPoison s.mem [(pa, n)] (p == .nc) }, .error 0x0208)
    else
      let q := farUpdate s.mem c.engineNo pa n (fun v => (f v).getD v) (p == .nc)
      ({ s with mem := tagHits s.mem q.1 c.engineNo c.asid }, .ok (q.2, (f q.2).isSome))
  | .ok _ => (s, .error 0x0207)

def State.ctlUpdate (s : State) (c : XCtx) (d : KvDesc) (id : Nat) (f : Nat → Option Nat) : State × Except Nat (Nat × Bool) :=
  s.kvAtomic c (d.entryVa id + 0x50) 8 f

/-! ## Probing (R327) -/

/-- What a probe finds: the entry with the tag, and the first slot that can be claimed. -/
structure Probe where
  found : Option (Nat × KvEntry)
  free : Option Nat
  deriving DecidableEq, Repr

/-- Probe slots (bucket + r) mod 2^lgsz for the next n values of r. -/
def State.probe (s : State) (c : XCtx) (d : KvDesc) (p : Nat) (ts : List Nat) (bucket : Nat) : Nat → Option Nat → State × Except Nat Probe
  | 0, free => (s, .ok ⟨none, free⟩)
  | n + 1, free =>
    let id := (bucket + (7 - n)) % 2 ^ d.lgsz
    let r := s.kvEntry c d id
    match r.2 with
    | .error e => (r.1, .error e)
    | .ok e =>
      if e.state = 0 then (r.1, .ok ⟨none, if free.isSome then free else some id⟩)
      else if (e.state = 1 || e.state = 2) && e.pred = p && e.tok = ts then (r.1, .ok ⟨some (id, e), free⟩)
      else r.1.probe c d p ts bucket n (if free.isNone && e.state = 5 then some id else free)

def State.probeTag (s : State) (c : XCtx) (d : KvDesc) (p : Nat) (ts : List Nat) : State × Except Nat Probe :=
  s.probe c d p ts (blockHash p ts % 2 ^ d.lgsz) 8 none

/-- The age of an entry written now (R325). -/
def State.ageNow (s : State) : Nat := s.tick / 2 ^ 20 % 2 ^ 32

/-! ## KVLOOK (R332) -/

def lookOf (bs : List Byte) : LookRec :=
  ⟨BitVec.ofNat 64 (wordAt bs 0 8), BitVec.ofNat 64 (wordAt bs 8 8), wordAt bs 0x10 4, wordAt bs 0x14 2, (wordAt bs 0x10 8).testBit 48⟩

/-- A block matched: its age and its id are written. -/
def State.noteMatch (s : State) (c : XCtx) (d : KvDesc) (l : LookRec) (n id : Nat) : State × Except Nat Unit :=
  let r := s.kvWrite c (d.entryVa id + 0x58) (bytesOf 4 s.ageNow)
  match r.2 with
  | .error e => (r.1, .error e)
  | .ok _ => r.1.kvWrite c (l.out + BitVec.ofNat 64 (4 * n)) (bytesOf 4 id)

/-- A lookup begins with its record. -/
def lookBegin (h : OpHdr) (s : State) : State × KvNext :=
  onKv (s.kvRead h.kvCtx h.va 32) kvFail fun s bs => (s, .more (.look (lookOf bs) (lookOf bs).pred 0))

/-- Block n of a lookup has matched an entry. -/
def lookMatch (c : XCtx) (d : KvDesc) (l : LookRec) (n id : Nat) (s : State) : State × KvNext :=
  onKv (s.noteMatch c d l n id) (fun e => ⟨e, n, n, 0⟩) fun s _ => (s, .more (.look l id (n + 1)))

/-- Block n of a lookup: its tag is compared; an entry to be pinned is pinned by an update of its own (R328). -/
def lookBlock (c : XCtx) (d : KvDesc) (l : LookRec) (p n : Nat) (s : State) : State × KvNext :=
  if l.nblk ≤ n then (s, .ended ⟨0, n, n, 0⟩)
  else
    let bad := fun e => (⟨e, n, n, 0⟩ : KvEnd)
    onKv (s.kvRead c (l.tok + BitVec.ofNat 64 (64 * n)) 64) bad fun s bs =>
      onKv (s.probeTag c d p (wordsOf bs 0 16)) bad fun s q =>
        match q.found with
        | none => (s, .ended ⟨0, n, n, 0⟩)
        | some (id, e) => if l.pin then (s, .more (.matched l n id e.state e.gen)) else lookMatch c d l n id s

/-- The pin of block n succeeds only if state and gen are those that the tag comparison read (R328). -/
def lookPin (c : XCtx) (d : KvDesc) (l : LookRec) (n id st gen : Nat) (s : State) : State × KvNext :=
  onKv (s.ctlUpdate c d id fun v =>
      if ctlState v = st && ctlGen v = gen && ctlPin v < 2 ^ 32 - 1 then some (v + 2 ^ 32) else none) (fun e => ⟨e, n, n, 0⟩) fun s u =>
    if u.2 then lookMatch c d l n id s
    else (s, .ended (if ctlPin u.1 = 2 ^ 32 - 1 then ⟨0x0205, n, n, 0⟩ else ⟨0, n, n, 0⟩))

/-! ## KVINS: seal (R334) -/

/-- Claim a slot: an update of its own, which fails where the slot is empty or removed no more (R328). -/
def State.claimEntry (s : State) (c : XCtx) (d : KvDesc) (f : Nat) : State × Except Nat Bool :=
  let r := s.ctlUpdate c d f fun v =>
    if ctlState v = 0 || ctlState v = 5 then some (6 + (ctlGen v + 1) % 2 ^ 16 * 2 ^ 16 + ctlPin v * 2 ^ 32) else none
  (r.1, r.2.map (·.2))

/-- The claimer writes its entry, and makes it resident last (R328). -/
def State.writeEntry (s : State) (c : XCtx) (d : KvDesc) (f p : Nat) (q : SeqDesc) : State × Except Nat Unit :=
  let w := s.kvWrite c (d.entryVa f) (bytesOf 4 p ++ q.ttok.flatMap (bytesOf 4))
  match w.2 with
  | .error e => (w.1, .error e)
  | .ok _ =>
    let w := w.1.kvWrite c (d.entryVa f + 0x48) (bytesOf 8 q.tail)
    match w.2 with
    | .error e => (w.1, .error e)
    | .ok _ =>
      let w := w.1.kvWrite c (d.entryVa f + 0x58) (bytesOf 4 s.ageNow)
      match w.2 with
      | .error e => (w.1, .error e)
      | .ok _ =>
        let u := w.1.ctlUpdate c d f fun v => some (1 + ctlGen v * 2 ^ 16)
        (u.1, u.2.map fun _ => ())

/-- The block joins its sequence: list, nb, and the tail where the entry took it. -/
def State.joinBlock (s : State) (c : XCtx) (d : KvDesc) (n : Nat) (q : SeqDesc) (id : Nat) (merged : Bool) : State × Except Nat Unit :=
  let w := s.kvWrite c (q.list + BitVec.ofNat 64 (4 * q.nb)) (bytesOf 4 id)
  match w.2 with
  | .error e => (w.1, .error e)
  | .ok _ =>
    let w := w.1.kvWrite c (d.seqVa n + 0x10) (bytesOf 4 (q.nb + 1))
    match w.2 with
    | .error e => (w.1, .error e)
    | .ok _ => if merged then (w.1, .ok ()) else w.1.kvWrite c (d.seqVa n + 8) (bytesOf 8 0)

/-- The predecessor of a sequence's next block. -/
def State.lastEntry (s : State) (c : XCtx) (q : SeqDesc) : State × Except Nat Nat :=
  if q.nb = 0 then (s, .ok 0xFFFFFFFF)
  else
    let r := s.kvRead c (q.list + BitVec.ofNat 64 (4 * (q.nb - 1))) 4
    (r.1, r.2.map natOf)

/-- A seal begins: its sequence, its tag's probe. -/
def sealBegin (h : OpHdr) (d : KvDesc) (s : State) : State × KvNext :=
  let c := h.kvCtx
  if d.nseq ≤ h.va.toNat then (s, .ended (kvFail 0x020C))
  else
    onKv (s.kvSeq c d h.va.toNat) kvFail fun s q =>
      if q.tail = 0 || q.len ≠ 16 * (q.nb + 1) || q.cap ≤ q.nb then (s, .ended (kvFail 0x0206))
      else
        onKv (s.lastEntry c q) kvFail fun s p =>
          onKv (s.probeTag c d p q.ttok) kvFail fun s b => (s, .more (.probed q p (b.found.map (·.1)) b.free))

/-- A seal that has probed merges its block, or claims the slot that it noted. -/
def sealClaim (h : OpHdr) (d : KvDesc) (q : SeqDesc) (p : Nat) (found free : Option Nat) (s : State) : State × KvNext :=
  match found, free with
  | some id, _ => onKv (s.joinBlock h.kvCtx d h.va.toNat q id true) kvFail fun s _ => (s, .ended ⟨0x0202, 1, id, 0⟩)
  | none, none => (s, .ended (kvFail 0x0203))
  | none, some f =>
    onKv (s.claimEntry h.kvCtx d f) kvFail fun s ok => (s, if ok then .more (.claimed q p f) else .ended (kvFail 0x0203))

/-- A seal that has claimed its slot writes the entry, and its block joins the sequence. -/
def sealWrite (h : OpHdr) (d : KvDesc) (q : SeqDesc) (p f : Nat) (s : State) : State × KvNext :=
  onKv (s.writeEntry h.kvCtx d f p q) kvFail fun s _ =>
    onKv (s.joinBlock h.kvCtx d h.va.toNat q f false) kvFail fun s _ => (s, .ended ⟨0, 1, f, 0⟩)

/-! ## KVINS: demote, promote, absent, remove (R333, R335) -/

/-- A change of state of one entry: the test and the change are one update; its pa follows. -/
def entryChange (h : OpHdr) (d : KvDesc) (s : State) (f : Nat → Option Nat) (pa : Option Nat) : State × KvNext :=
  let id := h.va.toNat
  if 2 ^ d.lgsz ≤ id then (s, .ended (insFail id 0x020C))
  else
    onKv (s.ctlUpdate h.kvCtx d id f) (insFail id) fun s u =>
      if u.2 then
        match pa with
        | some p => onKv (s.kvWrite h.kvCtx (d.entryVa id + 0x48) (bytesOf 8 p)) (insFail id) fun s _ => (s, .ended ⟨0, 1, id, 0⟩)
        | none => (s, .ended ⟨0, 1, id, 0⟩)
      else (s, .ended (insFail id 0x0204))

def kvDemoteOp (h : OpHdr) (d : KvDesc) (s : State) : State × KvNext :=
  entryChange h d s (fun v => if ctlState v = 1 && ctlPin v = 0 then some (ctlWithState v 2) else none) (some h.ve.toNat)

def kvAbsentOp (h : OpHdr) (d : KvDesc) (s : State) : State × KvNext :=
  entryChange h d s (fun v => if ctlState v = 2 || ctlState v = 3 then some (ctlWithState v 4) else none) none

def kvRemoveOp (h : OpHdr) (d : KvDesc) (s : State) : State × KvNext :=
  entryChange h d s (fun v => if 1 ≤ ctlState v && ctlState v ≤ 4 && ctlPin v = 0 then some (ctlUnsigned (ctlWithState v 5)) else none) none

/-- One bit-serial step of CRC-32C. -/
def crcStep (c : Nat) : Nat := if c % 2 = 1 then (c / 2) ^^^ 0x82F63B78 else c / 2

/-- CRC-32C of a byte string (R335). -/
def crc32c (bs : List Byte) : Nat :=
  (bs.foldl (fun c b => (List.range 8).foldl (fun c _ => crcStep c) (c ^^^ b.toNat)) 0xFFFFFFFF) ^^^ 0xFFFFFFFF

/-- The bytes of a block (R323). -/
def KvDesc.blockSize (d : KvDesc) : Nat := d.nl * d.nh * 4096

/-- A physical read of a promotion, with its own status (R335): 0x0208 too where a block or trailer that starts in DRAM runs
past its end, which R335 does not name (DESIGN CHOICE, log entry 53). -/
def State.copyRead (s : State) (stk : Fin 8) (pa n : Nat) : State × Except Nat (List Byte) :=
  let r := s.physRead stk pa n
  (r.1, match r.2 with
    | .ok bs => .ok bs
    | .error _ => .error 0x0208)

/-- The chunks' CRCs and the tag are right (R335). -/
def copyGood (h : OpHdr) (gen id chunks : Nat) (block trailer : List Byte) : Bool :=
  wordAt trailer 0 8 == h.asid.toNat * 2 ^ 48 + gen * 2 ^ 32 + id &&
  (List.range chunks).all fun k => crc32c ((block.drop (4096 * k)).take 4096) == wordAt trailer (8 + 4 * k) 4

/-- The end of a promotion: the entry resident at its new block, or poisoned. -/
def promoteEnd (h : OpHdr) (d : KvDesc) (good : Bool) (s : State) : State × KvNext :=
  let id := h.va.toNat
  let f := fun v => if ctlState v = 2 || ctlState v = 3 then some (ctlWithState v (if good then 1 else 3)) else none
  onKv (if good then s.kvWrite h.kvCtx (d.entryVa id + 0x48) (bytesOf 8 h.ve.toNat) else (s, .ok ())) (insFail id) fun s _ =>
    onKv (s.ctlUpdate h.kvCtx d id f) (insFail id) fun s u =>
      (s, .ended (if u.2 then (if good then ⟨0, 1, id, 0⟩ else insFail id 0x0209) else insFail id 0x0204))

/-- A promotion begins: its entry, and the check of the copy. -/
def promoteBegin (h : OpHdr) (d : KvDesc) (s : State) : State × KvNext :=
  let id := h.va.toNat
  if 2 ^ d.lgsz ≤ id then (s, .ended (insFail id 0x020C))
  else
    onKv (s.kvEntry h.kvCtx d id) (insFail id) fun s e =>
      if e.state ≠ 2 && e.state ≠ 3 then (s, .ended (insFail id 0x0204))
      else if !isDram h.ve.toNat || !isDram (h.ve.toNat + d.blockSize) then (s, .ended ⟨0x0207, 0, id, 0⟩)
      else
        let chunks := d.nl * d.nh
        let bad := fun st => (⟨st, 0, id, 0⟩ : KvEnd)
        onKv (s.copyRead h.stk h.ve.toNat d.blockSize) bad fun s block =>
          onKv (s.copyRead h.stk (h.ve.toNat + d.blockSize) (8 + 4 * chunks)) bad fun s trailer =>
            (s, .more (.checked (copyGood h e.gen id chunks block trailer)))

/-! ## KVPIN and KVUNPIN (R337) -/

/-- The change of one pin count; the second part says that the count is why it failed. -/
def pinChange (unpin : Bool) (v : Nat) : Option Nat :=
  if unpin then (if ctlPin v = 0 then none else some (v - 2 ^ 32))
  else if 1 ≤ ctlState v && ctlState v ≤ 4 && ctlPin v < 2 ^ 32 - 1 then some (v + 2 ^ 32) else none

/-- The status of a pin that could not be changed. -/
def pinStatus (unpin : Bool) (v : Nat) : Nat :=
  if unpin || (1 ≤ ctlState v && ctlState v ≤ 4) then 0x0205 else 0x0204

/-- Id k of a pin or unpin; past the last one, all ids are done and the index of the first id not done is their number. -/
def pinId (unpin : Bool) (h : OpHdr) (d : KvDesc) (k : Nat) (s : State) : State × KvNext :=
  if h.vb.toNat ≤ k then (s, .ended ⟨0, k, k, 0⟩)
  else
    let bad := fun e => (⟨e, k, k, 0⟩ : KvEnd)
    onKv (s.kvRead h.kvCtx (h.va + BitVec.ofNat 64 (4 * k)) 4) bad fun s bs =>
      if 2 ^ d.lgsz ≤ natOf bs then (s, .ended (bad 0x0204))
      else
        onKv (s.ctlUpdate h.kvCtx d (natOf bs) (pinChange unpin)) bad fun s u =>
          (s, if u.2 then .more (.pins (k + 1)) else .ended (bad (pinStatus unpin u.1)))

/-! ## KVAPP (R338) -/

/-- An append. The length of a sequence whose last position is 2^24 − 1 does not fit its 24 bits, and wraps (DESIGN CHOICE,
log entry 51: R338 states no such length). -/
def kvAppendOp (c : KvCmd) (d : KvDesc) (s : State) : State × KvNext :=
  let h := c.hdr
  let a := h.ve
  let x := h.kvCtx
  if d.nseq ≤ kvSeqNo a || d.nl ≤ kvLayer a || d.nh ≤ kvHead a then (s, .ended (kvFail 0x020C))
  else
    onKv (s.kvSeq x d (kvSeqNo a)) kvFail fun s q =>
      if q.tail = 0 then (s, .ended (kvFail 0x0206))
      else if kvPos a < 16 * q.nb || 16 * (q.nb + 1) ≤ kvPos a then (s, .ended (kvFail 0x020A))
      else
        let u := kvPos a % 16
        onKv (s.physWrite h.stk h.asid (q.tail + d.tokOff (kvLayer a) (kvHead a) u false) c.kRow) kvFail fun s _ =>
          onKv (s.physWrite h.stk h.asid (q.tail + d.tokOff (kvLayer a) (kvHead a) u true) c.vRow) kvFail fun s _ =>
            onKv (if kvLayer a = 0 && kvHead a = 0 then
                s.kvWrite x (d.seqVa (kvSeqNo a) + BitVec.ofNat 64 (0x40 + 4 * u)) (bytesOf 4 h.vb.toNat) else (s, .ok ())) kvFail fun s _ =>
              onKv (s.kvAtomic x (d.seqVa (kvSeqNo a) + 0x18) 8 fun v =>
                  some (v / 2 ^ 24 * 2 ^ 24 + Nat.max (v % 2 ^ 24) (kvPos a + 1) % 2 ^ 24)) kvFail fun s _ =>
                (s, .ended ⟨0, 1, noIndex, 0⟩)

/-! ## KVSIG (R329, R339) -/

/-- The exact sum of a block's 16 K vectors, and whether an element is a NaN. -/
def sumTokens (bs : List Byte) : List Int × Bool :=
  ((List.range 128).map fun i => ((List.range 16).map fun u => e4m3Units (bs.getD (128 * u + i) 0).toNat).foldl (· + ·) 0,
   bs.any fun b => (decodeFp .e4m3 b.toNat).isNan)

/-- The rows of the projection matrix (R329). -/
def matrixRows (bs : List Byte) : List Nat := (List.range 256).map fun j => natOf ((bs.drop (16 * j)).take 16)

/-- A signature begins: its entry and the matrix. -/
def signBegin (h : OpHdr) (d : KvDesc) (s : State) : State × KvNext :=
  let id := h.va.toNat
  if 2 ^ d.lgsz ≤ id then (s, .ended (kvFail 0x020C))
  else
    onKv (s.kvEntry h.kvCtx d id) kvFail fun s e =>
      if e.state ≠ 1 then (s, .ended (kvFail 0x020B))
      else onKv (s.kvRead h.kvCtx d.proj 4096) kvFail fun s m => (s, .more (.sign e.pa (matrixRows m) 0 0))

/-- Pair n of a signature; past the last one, the entry is marked as signed. -/
def signPair (h : OpHdr) (d : KvDesc) (pa : Nat) (rows : List Nat) (n : Nat) (fl : Byte) (s : State) : State × KvNext :=
  let bad := fun st => (⟨st, n, n, fl⟩ : KvEnd)
  if d.nl * d.nh ≤ n then
    onKv (s.ctlUpdate h.kvCtx d h.va.toNat fun v => some (ctlUnsigned v + 8)) bad fun s _ => (s, .ended ⟨0, n, noIndex, fl⟩)
  else
    onKv (s.physRead h.stk (pa + d.tokOff (n / d.nh) (n % d.nh) 0 false) 2048) bad fun s bs =>
      let v := sumTokens bs
      let fl := fl ||| Flag.invalid.when v.2
      onKv (s.kvWrite h.kvCtx (d.sigVa h.va.toNat (n / d.nh) (n % d.nh)) (bytesOf 32 (signature rows v.1))) (fun st => ⟨st, n, n, fl⟩) fun s _ =>
        (s, .more (.sign pa rows (n + 1) fl))

/-! ## Serving the queue (R331) -/

/-- The first unit of a command. -/
def kvBegin (c : KvCmd) (d : KvDesc) (s : State) : State × KvNext :=
  match c.op with
  | .look => lookBegin c.hdr s
  | .pin => pinId false c.hdr d 0 s
  | .unpin => pinId true c.hdr d 0 s
  | .app => kvAppendOp c d s
  | .sig => signBegin c.hdr d s
  | .ins =>
    match c.hdr.vb.toNat with
    | 0 => sealBegin c.hdr d s
    | 1 => kvDemoteOp c.hdr d s
    | 2 => promoteBegin c.hdr d s
    | 3 => kvAbsentOp c.hdr d s
    | _ => kvRemoveOp c.hdr d s

/-- One unit of a command, from where it has come (R328, R331). -/
def kvUnit (c : KvCmd) (d : KvDesc) (s : State) : KvProg → State × KvNext
  | .start => kvBegin c d s
  | .look l p n => lookBlock c.hdr.kvCtx d l p n s
  | .matched l n id st gen => lookPin c.hdr.kvCtx d l n id st gen s
  | .probed q p found free => sealClaim c.hdr d q p found free s
  | .claimed q p f => sealWrite c.hdr d q p f s
  | .checked good => promoteEnd c.hdr d good s
  | .pins k => pinId (c.op == .unpin) c.hdr d k s
  | .sign pa rows n fl => signPair c.hdr d pa rows n fl s

/-- More units than any command has: 65,535 blocks of a lookup, two each, or 65,536 pairs of a signature. -/
def kvFuel : Nat := 2 ^ 18

/-- The units of a command from p on, one after another, to its end. -/
def kvLoop (c : KvCmd) (d : KvDesc) : Nat → KvProg → State → State × KvEnd
  | 0, _, s => (s, kvFail 0)
  | fuel + 1, p, s =>
    let r := kvUnit c d s p
    match r.2 with
    | .ended e => (r.1, e)
    | .more q => kvLoop c d fuel q r.1

/-- The rest of a command, whose descriptor has been read. -/
def kvRest (c : KvCmd) (d : KvDesc) (s : State) : State × KvEnd := kvLoop c d kvFuel c.prog s

/-- The descriptor of a command: read as it begins (R322), and kept. -/
def State.openKv (s : State) (stk : Fin 8) (c : KvCmd) : State × Except Nat KvDesc :=
  match c.prog with
  | .start => s.kvDesc stk c.hdr.asid
  | _ => (s, .ok c.desc)

/-- The command whose turn it is in a stack's queue (R331, R388), with the others: one in the middle of a block, else the
first that does not yield. The Crook begins commands in arrival order; `under` are those that a later one may act before,
once both have begun, since operations of one hart are unordered (R254). -/
def State.kvNext (s : State) (stk : Fin 8) (under : KvCmd → Bool := fun _ => false) : Option (KvCmd × List KvCmd) :=
  match pickFirst (fun c => c.prog.midBlock && !under c) (s.kvWaiting stk) with
  | some q => some q
  | none => s.nextCmd (·.hdr) (s.kvWaiting stk) under

/-- A stack's queue becomes another. -/
def State.setKvQ (s : State) (stk : Fin 8) (q : List KvCmd) : State := { s with eng := { s.eng with kvQ := finsert s.eng.kvQ stk.val q } }

/-- Run the rest of the command whose turn it is, if a test picks it: descriptor first (R322), then the operation. -/
def runCrook (stk : Fin 8) (s : State) (pick : KvCmd → Bool) (under : KvCmd → Bool := fun _ => false) : Out :=
  match s.kvNext stk under with
  | some (c, rest) =>
    if pick c then
      let r := (s.setKvQ stk rest).openKv stk c
      match r.2 with
      | .error e => .next (r.1.endKv c.hdr (descFail c e))
      | .ok d =>
        let q := kvRest c d r.1
        .next (q.1.endKv c.hdr q.2)
    else .next s
  | none => .next s

/-- One unit of the command whose turn it is, and no more: the Crooks of two stacks can race, and a pre-emption stops the
Crook at a block (R328, R331, R388). -/
def State.crookUnit (s : State) (stk : Fin 8) : State :=
  match s.kvNext stk with
  | none => s
  | some (c, rest) =>
    let r := s.openKv stk c
    match r.2 with
    | .error e => (r.1.setKvQ stk rest).endKv c.hdr (descFail c e)
    | .ok d =>
      let q := kvUnit c d r.1 c.prog
      match q.2 with
      | .ended e => (q.1.setKvQ stk rest).endKv c.hdr e
      | .more p =>
        q.1.setKvQ stk (replaceFirst (fun k => k.hdr.seq == c.hdr.seq) (fun k => { k with prog := p, desc := d }) (s.kvWaiting stk))

/-- A KVINS of a mode. -/
def insMode (m : Nat) (c : KvCmd) : Bool := c.op == .ins && c.hdr.vb.toNat == m

/-- KV_LOOKUP (R332). -/
def execKvLookup (stk : Fin 8) (s : State) : Out := runCrook stk s (fun c => c.op == .look)
/-- KV_SEAL (R334). -/
def execKvSeal (stk : Fin 8) (s : State) : Out := runCrook stk s (insMode 0)
/-- KV_DEMOTE (R333). -/
def execKvDemote (stk : Fin 8) (s : State) : Out := runCrook stk s (insMode 1)
/-- KV_PROMOTE (R335). -/
def execKvPromote (stk : Fin 8) (s : State) : Out := runCrook stk s (insMode 2)
/-- KV_ABSENT (R333). -/
def execKvAbsent (stk : Fin 8) (s : State) : Out := runCrook stk s (insMode 3)
/-- KV_REMOVE (R333). -/
def execKvRemove (stk : Fin 8) (s : State) : Out := runCrook stk s (insMode 4)
/-- KV_PIN (R337). It may act before a seal ahead of it, begun but not observed, has written the list: so it can pin
a stale list entry (R254, R437). -/
def execKvPin (stk : Fin 8) (s : State) : Out := runCrook stk s (fun c => c.op == .pin) (insMode 0)
/-- KV_UNPIN (R337). -/
def execKvUnpin (stk : Fin 8) (s : State) : Out := runCrook stk s (fun c => c.op == .unpin)
/-- KV_APPEND (R338). -/
def execKvAppend (stk : Fin 8) (s : State) : Out := runCrook stk s (fun c => c.op == .app)
/-- KV_SIGN (R339). -/
def execKvSign (stk : Fin 8) (s : State) : Out := runCrook stk s (fun c => c.op == .sig)

/-! ## Prefetch (R343) -/

/-- The first position of a record that staging does not hold. -/
def State.nextStage (s : State) (t : TaskId) (st : Fin 4) : Nat → Nat → Nat
  | 0, p => p
  | n + 1, p => if (s.staged t st p false).isSome then s.nextStage t st n (p + 1) else p

/-- Where the token at a record's position lies, where R344 delivers its bytes. -/
def State.prefetchBase (s : State) (stk : Fin 8) (asid : BitVec 14) (d : KvDesc) (r : StreamRec) (p : Nat) : State × Option Nat :=
  let c := kvCtx stk asid true
  if d.nseq ≤ kvSeqNo r.cur || d.nl ≤ kvLayer r.cur || d.nh ≤ kvHead r.cur then (s, none)
  else
    let q := s.kvSeq c d (kvSeqNo r.cur)
    match q.2 with
    | .error _ => (q.1, none)
    | .ok sq =>
      let k := p / 16
      if k < sq.nb then
        let l := q.1.kvRead c (sq.list + BitVec.ofNat 64 (4 * k)) 4
        match l.2 with
        | .error _ => (l.1, none)
        | .ok lb =>
          if 2 ^ d.lgsz ≤ natOf lb then (l.1, none)
          else
            let e := l.1.kvEntry c d (natOf lb)
            match e.2 with
            | .error _ => (e.1, none)
            | .ok en =>
              if en.state ≠ 1 then (e.1, none)
              else if r.sig && en.sigv && !(r.clr && p / 16 == kvPos r.cur / 16) then
                let g := e.1.kvRead c (d.sigVa (natOf lb) (kvLayer r.cur) (kvHead r.cur)) 32
                (g.1, match g.2 with
                  | .ok sb => if r.rad.toNat < sigDistance (natOf sb) r.qsig.toNat then none else some en.pa
                  | .error _ => none)
              else (e.1, some en.pa)
      else (q.1, if k = sq.nb && sq.tail ≠ 0 && p < sq.len then some sq.tail else none)

/-- STREAM_PREFETCH: the next token of a bound record that staging lacks, both halves, up to 2 pages for
the record; nothing where R344 finds a condition. -/
def execStreamPrefetch (t : TaskId) (st : Fin 4) (s : State) : Out :=
  match s.findCore (.task t) with
  | none => .next s
  | some c =>
    let r := fget c.task.streams st.val {}
    let p := s.nextStage t st 32 (kvPos r.cur)
    if !r.bound || r.fin.toNat ≤ p || kvPos r.cur + 32 ≤ p then .next s
    else
      let stk := c.task.stk
      let kd := s.kvDesc stk c.asid
      match kd.2 with
      | .error _ => .next kd.1
      | .ok d =>
        let b := kd.1.prefetchBase stk c.asid d r p
        match b.2 with
        | none => .next b.1
        | some base =>
          let off := fun v => base + d.tokOff (kvLayer r.cur) (kvHead r.cur) (p % 16) v
          let k := b.1.physRead stk (off false) 128
          let v := k.1.physRead stk (off true) 128
          match k.2, v.2 with
          | .ok kb, .ok vb => .next { v.1 with eng := { v.1.eng with staging := v.1.eng.staging ++ [⟨t, st, p, false, kb⟩, ⟨t, st, p, true, vb⟩] } }
          | _, _ => .next v.1

end Sys2Proof.Machine
end

