-- ==== Sys2Proof/Machine/Mesh.lean ====
section
/-!
DEFINITION. The mesh's edges and the rectangle route entries (R13, R14, R93, R94).
-/
namespace Sys2Proof.Machine
open Sys2Proof

/-- The number of an edge or hub link from a stack's port (0 east, 1 west, 2 north, 3 south, R394): the
western or southern end's number; the south ports of stacks 0 and 1 are the hub links. None for a port
with no neighbour (R14). -/
def edgeOf (s : Nat) (port : Nat) : Option Nat :=
  match port with
  | 0 => if s % 2 = 0 then some (4 * s) else none
  | 1 => if s % 2 = 1 then some (4 * (s - 1)) else none
  | 2 => if s < 6 then some (4 * s + 2) else none
  | _ => if 2 ≤ s then some (4 * (s - 2) + 2) else some (4 * s + 3)

/-- The stacks at the ends of an edge; a hub link has one. -/
def edgeEnds (e : Nat) : List Nat :=
  match e % 4 with
  | 0 => [e / 4, e / 4 + 1]
  | 2 => [e / 4, e / 4 + 2]
  | _ => [e / 4]

/-- The edge is trained and not fenced. -/
def edgeUp (u : Ursol) (e : Nat) : Bool := !fget u.edgeFenced e false && !fget u.edgeDown e false

/-- A rectangle's route entry number (R93). -/
def LaunchRec.route (r : LaunchRec) : Nat := r.xlo + 2 * r.xhi + 4 * r.ylo + 16 * r.yhi

/-- A stack lies in the rectangle of a route entry. -/
def routeHas (k s : Nat) : Bool :=
  k % 2 ≤ s % 2 && s % 2 ≤ k / 2 % 2 && k / 4 % 4 ≤ s / 2 && s / 2 ≤ k / 16 % 4

/-- An edge lies inside the rectangle of a route entry. -/
def routeHasEdge (k e : Nat) : Bool := e % 4 ≠ 3 && (edgeEnds e).all (routeHas k)

/-- Every edge inside a rectangle is trained and not fenced (R93). -/
def routeTrained (u : Ursol) (k : Nat) : Bool :=
  (List.range 32).all fun e => (e % 4 ≠ 0 && e % 4 ≠ 2) || (edgeOf (e / 4) (e % 4)).isNone || !routeHasEdge k e || edgeUp u e

/-- Route entries that a test picks become invalid (R94). -/
def State.dropRoutes (s : State) (p : Nat → Bool) : State :=
  { s with drover := { s.drover with routes := s.drover.routes.filter fun r => !p r.1 } }

/-- The route check of R93: valid, or loaded now. -/
def State.routeCheck (s : State) (r : LaunchRec) : State × Bool :=
  if fget s.drover.routes r.route false then (s, true)
  else if routeTrained s.ursol r.route then
    ({ s with drover := { s.drover with routes := finsert s.drover.routes r.route true } }, true)
  else (s, false)

end Sys2Proof.Machine
end

