-- ==== Sys2Proof/Machine/ObjInstr.lean ====
section
/-!
DEFINITION. LAUNCH, WAIT, POLL, ARRIVE and CSIG (R112, R261-R269).
-/
namespace Sys2Proof.Machine
open Sys2Proof

/-- An object whose address always stands in x[c], checked whatever c is (R261). -/
def withObjectAt (s : State) (i : Instr) (c : Reg) (k : State → Nat → Out) : Out :=
  afterBlock s
    (let r := objCheck s.mem s.ursol s.core.xctx (s.core.reg c)
     let s := { s with mem := r.1 }
     match r.2 with
     | .operand => .next (s.operandTrap i)
     | .fault f => .next (s.memTrap f .store)
     | .ok pa => k s pa)

/-- The page of an object makes its accesses NC (R217). -/
def State.objNc (s : State) (c : Reg) : Bool := ncAt s.mem s.ursol s.core.xctx (s.core.reg c)

/-- The home of an object has ended what is under way on its line (R231), the publish that an acquiring request forces too
(R230). -/
def State.objReady (s : State) (pa : Nat) (acq : Bool) : State :=
  if reachable s.ursol pa then
    let ms := drainLine s.mem (lineOf pa)
    { s with mem := if acq then forcePublish ms s.core.agent (lineOf pa) else ms }
  else s

/-- The home of an object takes the access, or the access faults at the instruction (R227, R398, R439). -/
def atHome (s : State) (c : Reg) (pa : Nat) (acq : Bool) (k : State → Out) : Out :=
  let s := s.objReady pa acq
  match homeCheck s.mem s.ursol (s.core.reg c) pa (wordsTouched (accessBytes (pa % 64) 16)) with
  | some f =>
    .next (({ s with mem := if reachable s.ursol pa then meetPoison s.mem [(pa, 16)] (s.objNc c) else s.mem }).memTrap f .store)
  | none => k s

/-! ## LAUNCH (R112) -/

/-- LAUNCH: the Drover reads the record later, as an engine operation. -/
def execLaunch (c a b : Reg) (s : State) : Out :=
  afterBlock s
    (if (s.core.reg a).toNat % 128 ≠ 0 then .next (s.operandTrap (.launch c a b))
     else withObjectAt s (.launch c a b) c fun s pa =>
       (let h := s.opHdr (.launch c a b) a b 0 (some pa) c
        let s := s.forked
        retireIssued { s with eng := { s.eng with launches := s.eng.launches ++ [h] } } h))

/-! ## WAIT and POLL (R263, R267) -/

/-- The object at home, read as an acquiring request. -/
def readObject (s : State) (c : Reg) (pa : Nat) : State × Obj :=
  let r := homeRead s.mem s.core.agent pa 16 true (s.objNc c)
  ({ s with mem := r.1 }, Obj.ofNat (natOf r.2))

/-- Bits [63:0] of an object. -/
def Obj.low (o : Obj) : W64 := BitVec.ofNat 64 o.toNat

/-- The task waits no more (R100). -/
def State.endWait (s : State) : State := { s with core := { s.core with task := { s.core.task with waiting := none } } }

/-- A satisfied observation: the acquire, then a fault record of the object's, or the result (R263, R382). -/
def observed (s : State) (c e : Reg) (v : W64) : Out :=
  let s := { s with mem := acquireAt s.mem s.core.agent .sys }
  match s.pendingRecord (some (s.core.reg c)) with
  | some (t, m) => .next (s.deliverRecord t m)
  | none => retireWith s e v

/-- WAIT: unsatisfied, it is tested again; the time since then counts for its time-out (R100). -/
def execWait (e c a : Reg) (wrap : Bool) (s : State) : Out :=
  withObjectAt s (.wait e c a wrap) c fun s pa => atHome s c pa true fun s =>
    (let r := readObject s c pa
     if countReached r.2.count ((r.1.core.reg a).toNat % 2 ^ 32) wrap then observed r.1.endWait c e r.2.low
     else .next { r.1 with core := { r.1.core with task := { r.1.core.task with
       waiting := match r.1.core.task.waiting with
         | some q => some q
         | none => some ⟨0, pa, (r.1.core.reg a).setWidth 32, wrap⟩ } } })

/-- POLL. -/
def execPoll (e c a : Reg) (wrap : Bool) (s : State) : Out :=
  withObjectAt s (.poll e c a wrap) c fun s pa => atHome s c pa true fun s =>
    (let r := readObject s c pa
     if countReached r.2.count ((r.1.core.reg a).toNat % 2 ^ 32) wrap then observed r.1 c e 1 else retireWith r.1 e 0)

/-! ## ARRIVE and CSIG (R268, R269) -/

/-- A release at .sys, then one atomic update at home by the issuing agent: the old object. -/
def updateObject (s : State) (c : Reg) (pa : Nat) (f : Obj → Obj) : State × Obj :=
  let r := objFar (releaseWide s.mem s.core.agent) s.core.agent pa f (s.objNc c)
  ({ s with mem := r.1 }, r.2)

/-- ARRIVE. -/
def execArrive (e c a b : Reg) (s : State) : Out :=
  withObjectAt s (.arrive e c a b) c fun s pa => atHome s c pa false fun s =>
    (let r := updateObject s c pa (Obj.arrive ((s.core.reg a).toNat % 2 ^ 32) (s.core.reg b).toNat)
     retireWith r.1 e (BitVec.ofNat 64 r.2.count))

/-- CSIG.sig. -/
def execCsigSig (c a b : Reg) (s : State) : Out :=
  withObjectAt s (.csigSig c a b) c fun s pa => atHome s c pa false fun s =>
    (retireNext (updateObject s c pa (Obj.sig (s.core.reg a).toNat (s.core.reg b).toNat)).1)

/-- CSIG.set. -/
def execCsigSet (c a : Reg) (s : State) : Out :=
  withObjectAt s (.csigSet c a) c fun s pa => atHome s c pa false fun s =>
    (retireNext (updateObject s c pa (Obj.set (s.core.reg a).toNat)).1)

end Sys2Proof.Machine
end

