-- ==== Sys2Proof/Machine/TileOps.lean ====
section
/-!
DEFINITION. What the table builder and the tiles do with their commands: codebooks, tables, lookups,
clears, drains and the version wait (R45-R52, R293-R319).
-/
namespace Sys2Proof.Machine
open Sys2Proof

/-! ## The builder's queue (R300, R306) -/

def State.building (s : State) (k : Fin 8) : Option TbldRun := fget s.eng.buildRun k.val none
def State.setBuilding (s : State) (k : Fin 8) (r : Option TbldRun) : State :=
  { s with eng := { s.eng with buildRun := finsert s.eng.buildRun k.val r } }
def State.setBuildQ (s : State) (k : Fin 8) (q : List BuildCmd) : State :=
  { s with eng := { s.eng with buildQ := finsert s.eng.buildQ k.val q } }

/-- The headers of the commands that wait for the builder. -/
def State.buildHdrs (s : State) (k : Fin 8) : List OpHdr := (s.buildWaiting k).map (·.hdr)

/-- The headers of the TBLDs that wait for the builder. -/
def State.tbldHdrs (s : State) (k : Fin 8) : List OpHdr := ((s.buildWaiting k).filter (·.tbld)).map (·.hdr)

/-- The TBLDs set aside that may go on. -/
def State.buildAside (s : State) (k : Fin 8) : List TbldRun := fget s.eng.buildAside k.val []

/-- Entry bytes of a codebook slot. -/
def slotCode (t : Tiles) (stk : Fin 8) (slot : Nat) : List Byte := readBytes t.codebook (128 * stk.val + 16 * slot) 16

/-- Every TBLD set aside yields still (R388): one that does not goes before a later command, in arrival order (R306). -/
def State.asideYields (s : State) (k : Fin 8) : Bool := (s.buildAside k).all fun r => s.yieldsTo r.hdr (s.buildHdrs k)

/-- The builder can begin a command: it builds nothing, or a victim's TBLD that it sets aside, with its codebook, for
a command of higher priority (R388); a TBLD set aside goes first otherwise. -/
def State.builderFree (s : State) (k : Fin 8) : Option State :=
  match s.building k with
  | none => if s.asideYields k then some s else none
  | some r =>
    if s.yieldsTo r.hdr (s.buildHdrs k) && s.asideYields k then
      let r := { r with code := if r.code.isEmpty then slotCode s.tiles k (bitsOf r.hdr.ve 2 0) else r.code }
      some ({ s with eng := { s.eng with buildAside := finsert s.eng.buildAside k.val (s.buildAside k ++ [r]) } }.setBuilding k none)
    else none

/-- The command the builder begins, in the state in which it begins it. -/
def State.nextBuild (s : State) (k : Fin 8) : Option (BuildCmd × State) :=
  match s.builderFree k, s.nextCmd (·.hdr) (s.buildWaiting k) with
  | some t, some (c, rest) => some (c, t.setBuildQ k rest)
  | _, _ => none

/-- The status of a failed engine read (R319). -/
def readStatus (poison : Bool) : Nat := if poison then 0x0144 else 0x0143

/-- A tag of none, or of this ASID (R294). -/
def tagAllows (tag : Nat) (asid : BitVec 14) : Bool := tag == 0 || tag == asid.toNat + 1

/-- CBLD_EXECUTE (R303). -/
def execCbldExecute (stk : Fin 8) (s : State) : Out :=
  match s.nextBuild stk with
  | some (⟨false, h⟩, s) =>
    let n := 2 ^ cbldBits h.vb
    let r := s.opRead h h.va n
    match r.2 with
    | .error p => .next (r.1.failOp h .builder (readStatus p) 0 0 0)
    | .ok bs =>
      let t := r.1.tiles
      .next ({ r.1 with tiles := { t with
        codebook := writeBytes t.codebook (128 * stk.val + 16 * cbldSlot h.vb) bs
        codebookTag := fset t.codebookTag (8 * stk.val + cbldSlot h.vb) (h.asid.toNat + 1) 0 } }.endOp h .builder n 0)
  | _ => .next s

/-! ## Building tables (R304-R307) -/

/-- The tiles a mask names. -/
def maskTiles (stk : Fin 8) (m : W64) : List TileId :=
  ((List.finRange 64).filter fun t => m.getLsbD t.val).map fun t => ⟨stk, t⟩

/-- Entry k of a codebook slot. -/
def codeEntry (t : Tiles) (stk : Fin 8) (slot k : Nat) : Int :=
  sextN (fget t.codebook (128 * stk.val + 16 * slot + k) 0).toNat 8

/-- Entry k of the codebook a TBLD uses: its slot's, or the one kept while it was set aside. -/
def TbldRun.entry (r : TbldRun) (t : Tiles) (k : Nat) : Int :=
  if r.code.isEmpty then codeEntry t r.hdr.stk (tbldSlot r.hdr.ve) k else sextN (r.code.getD k 0).toNat 8

/-- A hart issued a tile command behind a TBLD of its own that names the tile (R300, R307). -/
def behindTbld (h : OpHdr) (c : TileCmd) : Bool := h.core == c.hdr.core && h.seq < c.hdr.seq && h.vb.getLsbD c.tile.t.val

/-- A reservation takes its place at a tile in arrival order, among what has arrived: what a hart issued behind a TBLD
whose reservation has still to come, or comes now, arrives after it (R300, R307). -/
def placeReserve (tblds : List OpHdr) (cmds : List TileCmd) (c : TileCmd) : List TileCmd :=
  let late := fun (d : TileCmd) => d.tile == c.tile && tblds.any fun h => behindTbld h d
  (cmds.filter fun d => !late d) ++ c :: cmds.filter late

/-- TBLD_EXECUTE: the TBLD whose turn it is is accepted and reserves its banks at every named tile (R307). -/
def execTbldExecute (stk : Fin 8) (s : State) : Out :=
  match s.nextBuild stk with
  | some (⟨true, h⟩, s) =>
    if tagAllows (fget s.tiles.codebookTag (8 * stk.val + tbldSlot h.ve) 0) h.asid then
      let res := (maskTiles stk h.vb).map fun t =>
        ({ tile := t, op := .reserve (tbldBase h.ve) (tbldGroups h.ve * (tbldShape h.ve).u), hdr := h } : TileCmd)
      .next ({ s with tiles := { s.tiles with cmds := res.foldl (placeReserve (h :: s.tbldHdrs stk)) s.tiles.cmds } }.setBuilding stk (some { hdr := h, next := 0, sat := false }))
    else .next (s.failOp h .builder 0x0141 0 0 0)
  | _ => .next s

/-- The activations of group j: the bytes to read, from which address. -/
def actRange (h : OpHdr) (j : Nat) : W64 × Nat :=
  let g := (tbldShape h.ve).g
  if tbldO4 h.ve then
    let lo := j * g / 8
    (h.va + BitVec.ofNat 64 (4 * lo), 4 * ((j * g + g - 1) / 8 - lo + 1))
  else (h.va + BitVec.ofNat 64 (j * g), g)

/-- The activations of group j from the bytes read. -/
def actValues (h : OpHdr) (j : Nat) (bs : List Byte) : List Int :=
  let g := (tbldShape h.ve).g
  (List.range g).map fun i =>
    if tbldO4 h.ve then
      let n := j * g + i
      o4Elem (natOf ((bs.drop (4 * (n / 8 - j * g / 8))).take 4)) (n % 8)
    else sextN (bs.getD i 0).toNat 8

/-- The exact sum of R47 for a pattern. -/
def groupSum (code : Nat → Int) (b : Nat) (vs : List Int) (pat : Nat) : Int :=
  ((List.range vs.length).map fun i => vs.getD i 0 * code (pat / 2 ^ (b * i) % 2 ^ b)).foldl (· + ·) 0

/-- A group's table: its bytes, and whether an entry clamped. -/
def groupTable (sh : Shape) (code : Nat → Int) (vs : List Int) : List Byte × Bool :=
  let sums := (List.range (2 ^ sh.p)).map (groupSum code sh.b vs)
  (sums.flatMap fun v => bytesOf (sh.e / 8) (modN (satS v sh.e) sh.e), sums.any fun v => satS v sh.e != v)

/-- The banks an LKA reads: the first and how many (R315). -/
def lkaBanks (h : OpHdr) : Nat × Nat := (tcmdBase h.va, (lkaShape h.vb).k * (lkaShape h.vb).sh.u)

/-- Two ranges meet. -/
def rangesMeet (a n b m : Nat) : Bool := a < b + m && b < a + n

/-- The commands of a tile before the reservation of an operation. -/
def beforeReserve (cmds : List TileCmd) (t : TileId) (seq : Nat) : List TileCmd :=
  (cmds.filter fun c => c.tile == t).takeWhile fun c => c.hdr.seq != seq

/-- A tile lets a group be written: no earlier LKA has still to read its banks, and no earlier reservation covers
them (R307). -/
def State.groupAllowed (s : State) (t : TileId) (h : OpHdr) (bank n : Nat) : Bool :=
  (beforeReserve s.tiles.cmds t h.seq).all fun c => match c.op with
    | .lka => !rangesMeet (lkaBanks c.hdr).1 (lkaBanks c.hdr).2 bank n
    | .reserve lo m => !rangesMeet lo m bank n
    | _ => true

/-- The first bank of the next group of a TBLD. -/
def TbldRun.bank (r : TbldRun) : Nat := tbldBase r.hdr.ve + r.next * (tbldShape r.hdr.ve).u

/-- Every named tile allows the next group of a TBLD (R307). -/
def State.mayWrite (s : State) (k : Fin 8) (r : TbldRun) : Bool :=
  (maskTiles k r.hdr.vb).all fun t => s.groupAllowed t r.hdr r.bank (tbldShape r.hdr.ve).u

/-- The next group of a TBLD lies under an earlier reservation at some tile (R307). -/
def State.reservedAhead (s : State) (k : Fin 8) (r : TbldRun) : Bool :=
  (maskTiles k r.hdr.vb).any fun t => (beforeReserve s.tiles.cmds t r.hdr.seq).any fun c => match c.op with
    | .reserve lo m => rangesMeet lo m r.bank (tbldShape r.hdr.ve).u
    | _ => false

/-- The TBLD whose next group is written: the one being built, unless it yields (R388); one set aside, where what is being
built yields, or nothing is being built, and it does not yield, or where what is being built waits for an earlier reservation, which R307 writes
first: then it goes on although a command of higher priority waits, since that command waits for the one being built (R306;
DESIGN CHOICE, log entry 32). -/
def State.nextTbld (s : State) (k : Fin 8) : Option TbldRun :=
  let goes := fun (r : TbldRun) => s.mayWrite k r && !s.yieldsTo r.hdr (s.buildHdrs k)
  match s.building k with
  | some r =>
    if goes r then some r
    else if s.yieldsTo r.hdr (s.buildHdrs k) && !s.asideYields k then (s.buildAside k).find? goes
    else if s.reservedAhead k r then (s.buildAside k).find? (s.mayWrite k)
    else none
  | none => (s.buildAside k).find? goes

/-- What has become of a TBLD that is being built or set aside: it stays where it is, or is over. -/
def State.setTbld (s : State) (k : Fin 8) (seq : Nat) (new : Option TbldRun) : State :=
  if (s.building k).any fun r => r.hdr.seq == seq then s.setBuilding k new
  else
    let rest := (s.buildAside k).filterMap fun r => if r.hdr.seq == seq then new else some r
    { s with eng := { s.eng with buildAside := finsert s.eng.buildAside k.val rest } }

/-- Write a group's table into a tile (R296). -/
def writeTable (ts : Tiles) (t : TileId) (bank u : Nat) (asid : BitVec 14) (bs : List Byte) : Tiles :=
  let base := 2 ^ 18 * (tileNo t) + 256 * bank
  { ts with
    tables := writeBytes ts.tables base bs
    tableTag := (List.range u).foldl (fun m i => fset m (1024 * (tileNo t) + bank + i) (asid.toNat + 1) 0) ts.tableTag
    badTable := ts.badTable.filter fun w => !(base / 8 ≤ w && w < base / 8 + (bs.length + 7) / 8) }

/-- The reservation of an operation no longer covers a written group's banks. -/
def shrinkReserve (h : OpHdr) (u : Nat) (c : TileCmd) : TileCmd :=
  if c.hdr.seq = h.seq then
    { c with op := match c.op with
      | .reserve lo n => .reserve (lo + u) (n - u)
      | op => op }
  else c

/-- A TBLD is over: its reservations go. -/
def State.endBuild (s : State) (stk : Fin 8) (h : OpHdr) : State :=
  ({ s with tiles := { s.tiles with cmds := s.tiles.cmds.filter fun c => c.hdr.seq != h.seq } }).setTbld stk h.seq none

/-- TBLD_GROUP_WRITE: the next group of the TBLD whose turn it is (R305). -/
def execTbldGroupWrite (stk : Fin 8) (s : State) : Out :=
  match s.nextTbld stk with
  | none => .next s
  | some r =>
    let h := r.hdr
    let sh := tbldShape h.ve
    let q := s.opRead h (actRange h r.next).1 (actRange h r.next).2
    match q.2 with
    | .error p =>
      .next ((q.1.endBuild stk h).failOp h .builder (readStatus p) r.next r.next (Flag.saturation.when r.sat))
    | .ok bs =>
      let g := groupTable sh (r.entry q.1.tiles) (actValues h r.next bs)
      let ts := (maskTiles stk h.vb).foldl (fun ts t => writeTable ts t r.bank sh.u h.asid g.1) q.1.tiles
      let s := { q.1 with tiles := { ts with cmds := ts.cmds.map (shrinkReserve h sh.u) } }
      let r := { r with next := r.next + 1, sat := r.sat || g.2 }
      if r.next = tbldGroups h.ve then .next ((s.endBuild stk h).endOp h .builder r.next (Flag.saturation.when r.sat))
      else .next (s.setTbld stk h.seq (some r))

/-! ## Which command of a tile starts (R307, R310-R312, R318) -/

/-- A started operation acts on a block (R310). -/
def State.blockBusy (s : State) (t : TileId) (blk : Nat) : Bool := s.tiles.runs.any fun r => r.tile == t && r.blk == blk

def blockKey (t : TileId) (blk : Nat) : Nat := 16 * (tileNo t) + blk
def State.verOf (s : State) (t : TileId) (blk : Nat) : BitVec 16 := fget s.tiles.ver (blockKey t blk) 0

/-- An LKA or ADRN whose block has its version. -/
def State.matches (s : State) (c : TileCmd) : Bool :=
  (c.op == .lka || c.op == .adrn) && s.verOf c.tile (tcmdBlock c.hdr.va) == tcmdVer c.hdr.va

/-- The ns after which a held command never starts (R311). -/
def versionWait : Nat := 1000000

/-- An ADRN whose version has come while its task is not resident: it stays held, and what arrived behind
it on its block waits with it (R311). -/
def State.heldBack (s : State) (d : TileCmd) : Bool := d.op == .adrn && s.matches d && !s.resident d.hdr

/-- A TBLD that the hart of an LKA issued before it still waits for the builder, and will write banks that the LKA
reads: its reservation goes first (R300, R307). -/
def State.tbldAhead (s : State) (c : TileCmd) : Bool :=
  c.op == .lka && (s.tbldHdrs c.tile.stk).any fun h =>
    behindTbld h c && rangesMeet (tbldBase h.ve) (tbldGroups h.ve * (tbldShape h.ve).u) (lkaBanks c.hdr).1 (lkaBanks c.hdr).2

/-- A tile holds a victim's command back for one of higher priority (R388). -/
def State.tileYields (s : State) (c : TileCmd) : Bool := s.yieldsTo c.hdr ((s.tileWaiting c.tile).map (·.hdr))

/-- An earlier command of its tile holds nothing back from another: an LKA or ACLR that yields, from one of higher priority
(R388), or an LKA of another hart whose own TBLD's reservation has still to come, since that LKA arrives after it
(R300, R307). A reservation, and an ADRN with what waits behind it (R311), hold back whatever their task's priority. -/
def State.letsPass (s : State) (d c : TileCmd) : Bool :=
  ((d.op == .lka || d.op == .aclr) && s.tileYields d && s.outranks c.hdr d.hdr) || (d.hdr.core != c.hdr.core && s.tbldAhead d)

/-- A command may start, behind `before`, those of its tile that arrived earlier. -/
def State.mayStart (s : State) (before : List TileCmd) (c : TileCmd) : Bool :=
  let blk := tcmdBlock c.hdr.va
  let before := before.filter fun d => !s.letsPass d c
  !s.blockBusy c.tile blk && !s.tileYields c &&
  (match c.op with
   | .aclr => !(before.any fun d => tcmdBlock d.hdr.va == blk && s.heldBack d)
   | .reserve .. => false
   | op =>
     s.matches c && c.waited < versionWait &&
     !(before.any fun d => tcmdBlock d.hdr.va == blk && (d.op == .aclr || s.matches d)) &&
     (if op == .lka then
        !(s.tiles.runs.any fun r => r.tile == c.tile && r.op == .lka) &&
        !(s.dram.cmds.any fun q => q.bank.stk == c.tile.stk && q.bank.col == c.tile.t &&
            q.slot.map (·.val) == some (tcmdSlot c.hdr.va) && q.hdr.seq < c.hdr.seq) &&
        !s.tbldAhead c &&
        !(before.any fun d => match d.op with
            | .reserve lo n => rangesMeet lo n (lkaBanks c.hdr).1 (lkaBanks c.hdr).2
            | _ => false)
      else s.resident c.hdr))

/-- The first command of a tile that may start. -/
def State.firstStart (s : State) : List TileCmd → List TileCmd → Option TileCmd
  | _, [] => none
  | before, c :: rest => if s.mayStart before c then some c else s.firstStart (before ++ [c]) rest

def State.nextStart (s : State) (t : TileId) : Option TileCmd :=
  s.firstStart [] (s.tiles.cmds.filter fun c => c.tile == t)

/-- A command leaves its tile's queue. -/
def State.dropTileCmd (s : State) (h : OpHdr) : State :=
  { s with tiles := { s.tiles with cmds := s.tiles.cmds.filter fun c => c.hdr.seq != h.seq } }

def State.addRun (s : State) (r : TileRun) : State := { s with tiles := { s.tiles with runs := s.tiles.runs ++ [r] } }

/-! ## LKA (R315) -/

/-- Pattern k of a row read as one little-endian value (R46). -/
def patternAt (row p k : Nat) : Nat := row / 2 ^ (p * k) % 2 ^ p

/-- The byte of a tile's table SRAM where an entry starts. -/
def entryByte (t : TileId) (tb : Nat) (sh : Shape) (j pat : Nat) : Nat :=
  2 ^ 18 * (tileNo t) + 256 * (tb + j * sh.u) + (if sh.e16 then 2 * pat else pat)

/-- An entry of a table. -/
def entryAt (ts : Tiles) (t : TileId) (tb : Nat) (sh : Shape) (j pat : Nat) : Int :=
  sextN (natOf (readBytes ts.tables (entryByte t tb sh j pat) (sh.e / 8))) sh.e

/-- The first byte of an accumulator. -/
def accByte (t : TileId) (blk : Nat) (a32 : Bool) (i : Nat) : Nat := 2 ^ 14 * (tileNo t) + 1024 * blk + (if a32 then 4 else 2) * i

/-- The partial of a K-block of a column: the exact sum of its entries (R50). -/
def partialSum (ts : Tiles) (t : TileId) (tb : Nat) (l : LkaShape) (row col kb : Nat) : Int :=
  let lo := kb * 2 ^ l.lgL
  let hi := Nat.min (lo + 2 ^ l.lgL) l.k
  ((List.range (hi - lo)).map fun i =>
    entryAt ts t tb l.sh (lo + i) (patternAt row l.sh.p (col * l.g + lo + i))).foldl (· + ·) 0

/-- A partial times 2^s (R51). -/
def scaleBy (v : Int) (s : Int) : Int := if 0 ≤ s then v * (2 ^ s.toNat : Nat) else rneShift v (-s).toNat

/-- A column: the accumulator through every K-block, and whether it clamped. -/
def lkaColumn (ts : Tiles) (t : TileId) (h : OpHdr) (l : LkaShape) (row : Nat) (scales : List Int) (col : Nat) : Int × Bool :=
  let a := if l.a32 then 32 else 16
  let start := sextN (natOf (readBytes ts.acc (accByte t (tcmdBlock h.va) l.a32 (tcmdAcc h.va + col)) (a / 8))) a
  (List.range l.nsc).foldl (fun q kb =>
    let v := q.1 + scaleBy (partialSum ts t (tcmdBase h.va) l row col kb) (scales.getD kb 0)
    (satS v a, q.2 || satS v a != v)) (start, false)

/-- A column's lookups or accumulator meet an uncorrectable SRAM word (R315). -/
def columnBad (ts : Tiles) (t : TileId) (h : OpHdr) (l : LkaShape) (row col : Nat) : Bool :=
  let p := l.sh.p
  let slot := (2 ^ 13 * (tileNo t) + 2 ^ 11 * tcmdSlot h.va) / 8
  ts.badAcc.contains (accByte t (tcmdBlock h.va) l.a32 (tcmdAcc h.va + col) / 8) ||
  (List.range l.k).any fun j =>
    let k := col * l.g + j
    ts.badSlot.contains (slot + p * k / 64) || ts.badSlot.contains (slot + (p * k + p - 1) / 64) ||
    ts.badTable.contains (entryByte t (tcmdBase h.va) l.sh j (patternAt row p k) / 8)

/-- The scales of an LKA from their words (R48, R313). -/
def scalesOf (n : Nat) (bs : List Byte) : List Int := (List.range n).map fun k => sextN (natOf bs / 2 ^ (4 * k)) 4

/-- The first failure of R315 after the scales: its status and fault index. -/
def lkaFault (ts : Tiles) (t : TileId) (h : OpHdr) (l : LkaShape) (row : Nat) : Option (Nat × Nat) :=
  let sk := 4 * (tileNo t) + tcmdSlot h.va
  let banks := (List.range (lkaBanks h).2).all fun i => tagAllows (fget ts.tableTag (1024 * (tileNo t) + (lkaBanks h).1 + i) 0) h.asid
  if !(banks && tagAllows (fget ts.slotTag sk 0) h.asid && tagAllows (fget ts.accTag (blockKey t (tcmdBlock h.va)) 0) h.asid) then
    some (0x0141, 0)
  else if fget ts.slotPoison sk false then some (0x0140, fget ts.slotRow sk 0)
  else if ts.badSlot.isEmpty && ts.badTable.isEmpty && ts.badAcc.isEmpty then none
  else ((List.range l.c).find? fun col => columnBad ts t h l row col).map fun col => (0x0145, col)

/-- A started operation that will end with a fault (R310). -/
def failedRun (t : TileId) (op : TileOp) (h : OpHdr) (status fidx : Nat) : TileRun :=
  { tile := t, op := op, hdr := h, blk := tcmdBlock h.va, status := BitVec.ofNat 16 status, progress := 0
    fidx := BitVec.ofNat 32 fidx, sat := false, setTag := false, acc := [], cells := [] }

/-- What a started LKA will write. -/
def lkaRun (ts : Tiles) (t : TileId) (h : OpHdr) (l : LkaShape) (scales : List Int) : TileRun :=
  let row := natOf (readBytes ts.slots (2 ^ 13 * (tileNo t) + 2 ^ 11 * tcmdSlot h.va) 2048)
  match lkaFault ts t h l row with
  | some (status, fidx) => failedRun t .lka h status fidx
  | none =>
    let a := if l.a32 then 32 else 16
    let cols := (List.range l.c).map fun col => (col, lkaColumn ts t h l row scales col)
    { tile := t, op := .lka, hdr := h, blk := tcmdBlock h.va, status := 0, progress := 1, fidx := BitVec.ofNat 32 noIndex
      sat := cols.any fun q => q.2.2
      setTag := true
      acc := cols.flatMap fun q =>
        let b := accByte t (tcmdBlock h.va) l.a32 (tcmdAcc h.va + q.1)
        (bytesOf (a / 8) (modN q.2.1 a)).mapIdx fun i x => (b + i, x)
      cells := [] }

/-- A row slot is let go of now (R285). -/
def State.freeRowSlot (s : State) (t : TileId) (slot : Nat) : State :=
  { s with dram := { s.dram with slotFreed := fset s.dram.slotFreed (4 * tileNo t + slot) s.now 0 } }

/-- LKA_START: the first command of the tile that may start, if it is an LKA. -/
def execLkaStart (t : TileId) (s : State) : Out :=
  match s.nextStart t with
  | some c =>
    if c.op == .lka then
      let h := c.hdr
      let l := lkaShape h.vb
      let r := ((s.dropTileCmd h).freeRowSlot t (tcmdSlot h.va)).opRead h h.ve (4 * ceilDiv l.nsc 8)
      .next (match r.2 with
        | .error p => r.1.addRun (failedRun t .lka h (readStatus p) 0)
        | .ok bs => r.1.addRun (lkaRun r.1.tiles t h l (scalesOf l.nsc bs)))
    else .next s
  | none => .next s

/-- A run ends: its accumulator bytes, its block's version and tag (R310, R315, R317). -/
def Tiles.applyRun (ts : Tiles) (r : TileRun) : Tiles :=
  { ts with
    runs := ts.runs.filter fun q => q.hdr.seq != r.hdr.seq
    acc := r.acc.foldl (fun m q => fset m q.1 q.2 0) ts.acc
    badAcc := ts.badAcc.filter fun w => !(r.acc.any fun q => q.1 / 8 == w)
    ver := fset ts.ver (blockKey r.tile r.blk) (tcmdVer r.hdr.va + 1) 0
    accTag := if r.setTag then fset ts.accTag (blockKey r.tile r.blk) (r.hdr.asid.toNat + 1) 0 else ts.accTag }

/-- A run has ended: its object. -/
def State.endRun (s : State) (r : TileRun) : State :=
  ({ s with tiles := s.tiles.applyRun r }).finishOp r.hdr .tile r.status.toNat r.progress r.fidx.toNat
    (Flag.saturation.when r.sat) (r.status != 0)

/-- LKA_COMPLETE. -/
def execLkaComplete (t : TileId) (s : State) : Out :=
  match s.tiles.runs.find? fun r => r.tile == t && r.op == .lka with
  | some r => .next (s.endRun r)
  | none => .next s

/-! ## ACLR (R312) -/

/-- ACLR_EXECUTE. -/
def execAclrExecute (t : TileId) (s : State) : Out :=
  match s.nextStart t with
  | some c =>
    if c.op == .aclr then
      let h := c.hdr
      let s := s.dropTileCmd h
      let ts := s.tiles
      let k := blockKey t (tcmdBlock h.va)
      .next ({ s with tiles := { ts with
        acc := ts.acc.filter fun q => q.1 / 1024 != k
        badAcc := ts.badAcc.filter fun w => w / 128 != k
        ver := fset ts.ver k (tcmdVer h.va) 0
        accTag := fset ts.accTag k (h.asid.toNat + 1) 0 } }.endOp h .tile 1 0)
    else .next s
  | none => .next s

/-! ## ADRN (R317) -/

/-- The first byte of a block cell. -/
def cellByte (t : TileId) (h : OpHdr) (k : Nat) : Nat := accByte t (tcmdBlock h.va) true (adrnC0 h.vb + k)

/-- What a started ADRN will write: the cells of the squares, and zeros where it clears. The fault index of a failing
cell counts from the drain's first cell (DESIGN CHOICE, log entry 51: R319 says "first failing column or cell"). -/
def adrnRun (ts : Tiles) (t : TileId) (h : OpHdr) : TileRun :=
  let n := adrnN h.vb
  if !tagAllows (fget ts.accTag (blockKey t (tcmdBlock h.va)) 0) h.asid then failedRun t .adrn h 0x0141 0
  else
    match (List.range n).find? fun k => ts.badAcc.contains (cellByte t h k / 8) with
    | some k => failedRun t .adrn h 0x0145 k
    | none =>
      { tile := t, op := .adrn, hdr := h, blk := tcmdBlock h.va, status := 0, progress := n, fidx := BitVec.ofNat 32 noIndex
        sat := false
        setTag := tcmdClr h.va
        acc := if tcmdClr h.va then (List.range (4 * n)).map fun i => (cellByte t h 0 + i, 0) else []
        cells := (List.range n).map fun k =>
          (1024 * adrnSq h.vb + 32 * adrnRow h.vb + k, BitVec.ofNat 32 (natOf (readBytes ts.acc (cellByte t h k) 4))) }

/-- ADRN_START: the first command of the tile that may start, if it is an ADRN. -/
def execAdrnStart (t : TileId) (s : State) : Out :=
  match s.nextStart t with
  | some c => .next (if c.op == .adrn then (s.dropTileCmd c.hdr).addRun (adrnRun s.tiles t c.hdr) else s)
  | none => .next s

/-- ADRN_COMPLETE: the cells are in the issuer's squares (R139). All of them land in this one step, and of a tile's started
ADRNs the one that started first ends first (DESIGN CHOICE, log entry 53: R146 and R310 leave both open). -/
def execAdrnComplete (t : TileId) (s : State) : Out :=
  match s.tiles.runs.find? fun r => r.tile == t && r.op == .adrn with
  | some r => .next ((s.mapCore r.hdr.core fun c => { c with task := applyCells c.task r.cells }).endRun r)
  | none => .next s

/-! ## The version wait (R311) -/

/-- VERSION_WAIT_EXPIRY. -/
def execVersionWaitExpiry (t : TileId) (s : State) : Out :=
  match s.tiles.cmds.find? fun c => c.tile == t && (c.op == .lka || c.op == .adrn) && versionWait ≤ c.waited with
  | some c => .next ((s.dropTileCmd c.hdr).failOp c.hdr .tile 0x0142 0 (s.verOf t (tcmdBlock c.hdr.va)).toNat 0)
  | none => .next s

end Sys2Proof.Machine
end

