-- ==== Sys2Proof/Machine/Drover.lean ====
section
/-!
DEFINITION. The Drover: launch records and queues, farm slots, dependences, placement, pre-emption,
wake-ups and closing (R84-R113, R388, R389, R393, R441).
-/
namespace Sys2Proof.Machine
open Sys2Proof

/-! ## Launch records (R84, R86) -/

/-- A record from its 128 bytes. -/
def recordOf (bs : List Byte) : LaunchRec :=
  let w := wordAt bs
  let d := fun off => BitVec.ofNat 64 (w off 8)
  { entry := d 0, args := d 8, iters := w 0x10 6, slen := w 0x18 4, poolw := BitVec.ofNat 32 (w 0x1C 4)
    done := d 0x20, trig := d 0x28, sbase := d 0x30, frame := d 0x38
    dobj := (List.range 4).map fun k => d (0x40 + 8 * k)
    dval := (List.range 4).map fun k => BitVec.ofNat 32 (w (0x60 + 4 * k) 4)
    ssz := w 0x70 4, tps := w 0x74 2
    xlo := w 0x76 1 % 2, xhi := w 0x76 1 / 2 % 2, ylo := w 0x76 1 / 4 % 4, yhi := w 0x76 1 / 16 % 4
    prio := w 0x77 1 % 32, asid := BitVec.ofNat 14 (w 0x78 2), hw := BitVec.ofNat 2 (w 0x7A 1)
    smaxb := w 0x7B 1 % 8, se16 := (w 0x7B 1).testBit 3, sa32 := (w 0x7B 1).testBit 4
    clean := w 0x16 2 == 0 && w 0x76 1 / 64 == 0 && w 0x77 1 / 32 == 0 && w 0x78 2 / 2 ^ 14 == 0 && w 0x7A 1 / 4 == 0 &&
      w 0x7B 1 / 32 == 0 && w 0x7C 4 == 0 }

/-- The static checks of R86. -/
def LaunchRec.ok (r : LaunchRec) : Bool :=
  r.clean && r.entry.toNat % 8 == 0 && r.done != 0 && r.done.toNat % 16 == 0 && r.trig.toNat % 16 == 0 &&
  (r.dobj.all fun o => o.toNat % 16 == 0) && r.frame.toNat % 4096 == 0 && r.ssz % 16 == 0 && 1 ≤ r.slen &&
  1 ≤ r.tps && r.tps ≤ 1024 && r.xlo ≤ r.xhi && r.ylo ≤ r.yhi && r.smaxb ≤ 4 && poolLegal r.poolw

/-! ## Objects the Drover names (R91, R98, R101) -/

/-- How the Drover translates for a farm. -/
def LaunchRec.ctx (r : LaunchRec) : XCtx := engineCtx (r.stackOfTask 0) r.asid false 0 .drover

/-- The physical address of an object of a farm, where it has one. -/
def State.farmObject (s : State) (r : LaunchRec) (va : W64) : State × Option Nat :=
  let q := objCheck s.mem s.ursol r.ctx va
  ({ s with mem := q.1 }, match q.2 with
    | .ok pa => some pa
    | _ => none)

/-- The updates of an object of a farm, which has just been translated, are NC (R217). -/
def State.farmNc (s : State) (r : LaunchRec) (va : W64) : Bool := ncAt s.mem s.ursol r.ctx va

/-! ## Launch queues (R87, R88, R112, R113) -/

def State.queue (s : State) (q : Nat) : Queue := fget s.drover.queues q {}
def State.setQueue (s : State) (q : Nat) (v : Queue) : State :=
  { s with drover := { s.drover with queues := finsert s.drover.queues q v } }

/-- The records of a host queue that are pending (R370). -/
def State.pendingRecs (s : State) (q : Nat) : Nat :=
  (fget s.drover.tails q 0 - fget s.drover.heads q 0).toNat

/-- A host queue's head record is taken. -/
def State.takeHostRec (s : State) (q : Nat) : State :=
  let s := { s with drover := { s.drover with heads := finsert s.drover.heads q (fget s.drover.heads q 0 + 1) } }
  s.setQueue q { s.queue q with recs := [], checked := false }

/-- HOST_QUEUE_TAIL (R113, R370): the host writes a tail once Ursol has brought its ports up (R1, R404). -/
def execHostQueueTail (q : Fin 16) (value : W64) (s : State) : Out :=
  if s.ursol.boot == .up then
    let s := { s with drover := { s.drover with tails := finsert s.drover.tails q.val (value.setWidth 32) } }
    .next (if 64 < s.pendingRecs q.val then s.log (.overrun q.val) else s)
  else .next s

/-- HOST_RECORD_CHECK (R88). -/
def execHostRecordCheck (q : Fin 16) (s : State) : Out :=
  if s.pendingRecs q.val = 0 || (s.queue q.val).checked then .next s
  else
    let slot := (fget s.drover.heads q.val 0).toNat % 64
    let r := recordOf (readBytes s.drover.hub (8192 * q.val + 128 * slot) 128)
    if r.ok then .next (s.setQueue q.val { s.queue q.val with recs := [r], checked := true })
    else
      let s := s.takeHostRec q.val
      if r.done = 0 || r.done.toNat % 16 ≠ 0 then .next (s.log (.hostRecordDropped q.val))
      else
        let o := s.farmObject r r.done
        match o.2 with
        | some pa =>
          if reachable o.1.ursol pa then .next (o.1.objUpdateAs droverAgent r.asid pa (Obj.complete 0x0010 0 noIndex 0) (o.1.farmNc r r.done))
          else .next (o.1.log (.hostRecordDropped q.val))
        | none => .next (o.1.log (.hostRecordDropped q.val))

/-- The LAUNCH object: count and status only (R101). -/
def State.reportLaunch (s : State) (h : OpHdr) (status : Nat) : State :=
  match h.obj with
  | some pa => s.objUpdateAs droverAgent h.asid pa (Obj.report status) h.objNc
  | none => s

/-- LAUNCH_ENQUEUE (R112). The fault record of a LAUNCH whose record cannot be read holds progress 0 and fidx 0, since
its object keeps both fields (DESIGN CHOICE, log entry 49). -/
def execLaunchEnqueue (s : State) : Out :=
  match s.eng.launches with
  | [] => .next s
  | h :: rest =>
    let s := { s with eng := { s.eng with launches := rest } }
    let q := h.vb.toNat
    if q < 16 || 63 < q then .next (s.reportLaunch h 0x0002)
    else if 64 ≤ (s.queue q).recs.length then .next (s.reportLaunch h 0x0001)
    else
      let r := s.opRead h h.va 128
      match r.2 with
      | .error _ => .next ((r.1.recordFault h .drover 0x0004 0 0).reportLaunch h 0x0004)
      | .ok bs =>
        let s := r.1
        let l := recordOf bs
        match (s.queue q).bound with
        | none => .next (s.reportLaunch h 0x0003)
        | some (a, _) =>
          if l.asid ≠ h.asid || a ≠ h.asid then .next (s.reportLaunch h 0x0003)
          else if !l.ok then .next (s.reportLaunch h 0x0010)
          else .next ((s.setQueue q { s.queue q with recs := (s.queue q).recs ++ [l] }).reportLaunch h 0)

/-! ## Farm slots (R89-R91, R98) -/

/-- The head record of a queue that may be chosen, with the priority it would run at. -/
def State.headOf (s : State) (q : Nat) : Option (LaunchRec × Nat) :=
  let v := s.queue q
  match v.recs with
  | [] => none
  | r :: _ =>
    if q < 16 then (if v.checked then some (r, r.prio) else none)
    else some (r, match v.bound with
      | some (_, c) => Nat.min r.prio c
      | none => r.prio)

/-- The queue R89 chooses. -/
def State.chooseQueue (s : State) : Option Nat :=
  let best := (List.range 64).foldl (fun m q => match s.headOf q with
    | some (_, p) => some (match m with
      | some n => Nat.max n p
      | none => p)
    | none => m) none
  match best with
  | none => none
  | some p =>
    let from_ := fget s.drover.lastServed p 63
    ((List.range 64).map fun i => (from_ + 1 + i) % 64).find? fun q => (s.headOf q).map (·.2) == some p

/-- Translate the dependences of a record; those that have no address, or whose home cannot be reached,
are logged (R91). The translation asks for the rights of an object update, as objCheck does for every object
(DESIGN CHOICE, log entry 49). -/
def State.farmDeps (s : State) (r : LaunchRec) : List (W64 × W32) → Nat → State × List (Option Nat × W32 × Bool) × List Nat
  | [], _ => (s, [], [])
  | (o, v) :: rest, k =>
    if o = 0 then
      let q := s.farmDeps r rest (k + 1)
      (q.1, (none, v, true) :: q.2.1, q.2.2)
    else
      let t := s.farmObject r o
      let ok := match t.2 with
        | some pa => reachable t.1.ursol pa
        | none => false
      let s := if ok then t.1 else t.1.log (.unreachable o)
      let q := s.farmDeps r rest (k + 1)
      (q.1, (t.2, v, false) :: q.2.1, if ok then q.2.2 else k :: q.2.2)

/-- The free farm slot that a record takes: the lowest (DESIGN CHOICE, log entry 49: R89 names none). -/
def State.freeSlot (s : State) : Option Nat := (List.range 1024).find? fun i => (s.farm? i).isNone

/-- FARM_SLOT_ASSIGN: QUEUED to WAITING (R89, R90). -/
def execFarmSlotAssign (s : State) : Out :=
  match s.freeSlot, s.chooseQueue with
  | some slot, some q =>
    match s.headOf q with
    | none => .next s
    | some (r, p) =>
      let s := if q < 16 then s.takeHostRec q else s.setQueue q { s.queue q with recs := (s.queue q).recs.drop 1 }
      let s := { s with drover := { s.drover with lastServed := finsert s.drover.lastServed p q } }
      let d := s.farmDeps r (r.dobj.zip r.dval) 0
      let dn := d.1.farmObject r r.done
      let tr := if r.trig = 0 then (dn.1, none) else dn.1.farmObject r r.trig
      .next (tr.1.setFarm slot
        { lrec := r, queue := q, prio := p, st := .waiting, deps := d.2.1, unreg := d.2.2, donePa := dn.2, trigPa := tr.2
          doneNc := dn.2.isSome && dn.1.farmNc r r.done, trigNc := tr.2.isSome && tr.1.farmNc r r.trig, inherited := 0 }).inherit
  | _, _ => .next s

/-! ## CHECKING (R90, R93) -/

/-- The status with which a farm fails CHECKING, if it does. -/
def State.checkFarm (s : State) (r : LaunchRec) : State × Option Nat :=
  let c := s.ursol.cap
  if c.maxb < r.smaxb || (r.se16 && !c.e16) || (r.sa32 && !c.a32) then (s, some 0x0013)
  else if r.rect.any fun k => !isOn s.ursol k then (s, some 0x0015)
  else
    let q := s.routeCheck r
    (q.1, if q.2 then none else some 0x0015)

/-- A farm leaves its slot. -/
def State.freeFarm (s : State) (slot : Nat) : State :=
  { s with drover := { s.drover with farms := ferase s.drover.farms slot } }

/-- Signal done (R101). -/
def State.signalDone (s : State) (slot status progress fidx : Nat) (flags : Byte) : State :=
  s.signalObject (s.farm slot).lrec.asid (s.farm slot).donePa (s.farm slot).lrec.done (Obj.complete status progress fidx flags) (s.farm slot).doneNc

/-- DEPENDENCE_SATISFIED: WAITING to CHECKING, and on to RUNNING or FREE. -/
def execDependenceSatisfied (slot : Fin 1024) (s : State) : Out :=
  match s.farm? slot.val with
  | none => .next s
  | some f =>
    if f.st == .waiting && !f.aborted && f.deps.all fun d => d.2.2 then
      let r := s.checkFarm f.lrec
      match r.2 with
      | none => .next (r.1.mapFarm slot.val fun f => { f with st := .running })
      | some st =>
        let s := r.1.mapFarm slot.val fun f => { f with st := .checking }
        .next (((s.signalTrig slot.val (some st)).signalDone slot.val st 0 noIndex 0).freeFarm slot.val)
    else .next s

/-! ## Ready tasks (R95) -/

/-- The pool of ready tasks (R95). -/
def readyPlaces : Nat := 4096

/-- READY_TASK_CREATE: the farm's next task; one that finds no strip retires. -/
def execReadyTaskCreate (slot : Fin 1024) (s : State) : Out :=
  match s.farm? slot.val with
  | none => .next s
  | some f =>
    if f.st == .running && !f.aborted && f.nextTid < f.lrec.tasks && s.drover.ready.length < readyPlaces then
      let t : TaskId := ⟨slot, f.nextTid⟩
      let s := s.mapFarm slot.val fun f => { f with nextTid := f.nextTid + 1 }
      if f.stripLeft then .next { s with drover := { s.drover with ready := s.drover.ready ++ [⟨t, false⟩] } }
      else .next (s.endTask t 0 none)
    else .next s

/-! ## Placement (R95-R97, R377) -/

/-- A task leaves the ready pool. -/
def State.unready (s : State) (t : TaskId) : State :=
  { s with drover := { s.drover with ready := s.drover.ready.filter fun r => r.t != t } }

/-- A core takes its slot; it becomes the current one where there is none. -/
def State.addCore (s : State) (c : Core) : State :=
  if s.core.id = .none then { s with core := c } else { s with others := s.others ++ [c] }

/-- The slot and share a task is placed on. -/
def State.seatPart (s : State) (t : TaskId) (stk : Fin 8) (cluster : Nat) : TaskPart :=
  let r := (s.farm t.farm.val).lrec
  { stk := stk, cluster := Fin.ofNat 8 cluster, hw := r.hw, sq := poolSq r.poolw, scr := poolScr r.poolw, stg := poolStg r.poolw }

/-- A new task is placed (R96, R97): its first strip, its registers, the debug words of its frame
(R390, R391). -/
def State.placeNew (s : State) (t : TaskId) (stk : Fin 8) (cluster : Nat) : State :=
  let q := s.claimStrip t
  match q.2 with
  | none => q.1.endTask t 0 none
  | some (base, len) =>
    let f := q.1.farm t.farm.val
    let d := q.1.frameRead t 0x1B8 8
    let w := d.1.frameRead t 0x1C0 64
    let dbg := natOf (d.2.getD [])
    let p := { w.1.seatPart t stk cluster with
      strip := BitVec.ofNat 32 len, held := true, sbase := BitVec.ofNat 64 base, step := dbg.testBit 0, sjoin := dbg.testBit 1
      watches := (List.range 4).foldl (fun m i => fset m i (Watch.ofNat (natOf (((w.2.getD []).drop (16 * i)).take 16))) {}) [] }
    let c : Core :=
      { id := .task t, x := entryRegs f t.tid base, pc := f.lrec.entry.setWidth 56, asid := f.lrec.asid
        task := { p with entryHigh := (f.lrec.entry >>> 56).setWidth 8 } }
    { w.1 with mem := acquireAt w.1.mem c.agent .sys }.addCore c

/-- What the frame's action makes of a restored task, which is the current core (R377). -/
def State.act (s : State) (t : TaskId) (action : Nat) : State :=
  if action = 0 then s
  else if action = 1 then (s.dropStrip t).restart t
  else
    let s := if action = 3 then s.log (.badAction (s.frameVa t)) else s
    s.endAsExit t s.core.flags s.core.task.heldBase []

/-- A parked task is placed again (R377, R378). -/
def State.placeAgain (s : State) (p : Parked) (stk : Fin 8) (cluster : Nat) : State :=
  let t := p.t
  let s := { s with parked := s.parked.filter fun q => q.t != t }
  let r := s.restoreFrame t (s.seatPart t stk cluster) p.image
  match r.2 with
  | .unusable => r.1.frameUnusable t p.flags p.held p.scratch p.victim
  | .bad => (r.1.log (.badAction (s.frameVa t))).endAsExit t p.flags p.held p.scratch p.victim
  | .context c action =>
    let c := { c with task := { c.task with
      buf := p.buf, aps := p.aps, triggered := p.triggered, joinOp := p.joinOp, watchHit := p.watchHit
      block := c.task.block.map fun (b : Block) => b.resumed p.block } }
    let s := ({ r.1 with mem := acquireAt r.1.mem c.agent .stack }).addCore c
    if action = 0 then s
    else match s.focus (.task t) with
      | some s => s.act t action
      | none => s

/-- The next placement of a stack (R99, R441). -/
def State.placeNext (s : State) (stk : Fin 8) : State :=
  match s.nextPlacement stk with
  | none => s
  | some (.retire r) => (s.unready r.t).endTask r.t 0 none
  | some (.seat r cluster) =>
    let s := s.unready r.t
    if r.resumed then
      match s.parked.find? fun p => p.t == r.t with
      | some p => s.placeAgain p stk cluster
      | none => s
    else s.placeNew r.t stk cluster

/-- TASK_PLACE. -/
def execTaskPlace (stk : Fin 8) (s : State) : Out := .next (s.placeNext stk)

/-! ## Pre-emption (R99, R388, R389, R441) -/

/-- The running tasks that hold or borrow a cluster of a group. -/
def State.groupTasks (s : State) (stk : Fin 8) (first w : Nat) : List TaskId :=
  ((s.running stk).filter fun c =>
    rangesMeet c.task.cluster.val (hwWidth c.task.hw) first w ||
    s.drover.loans.any fun l => l.stk == stk && l.borrower == c.taskId && rangesMeet l.first l.width first w).map (·.taskId)

/-- The highest priority of some tasks. -/
def State.topPrio (s : State) (ts : List TaskId) : Nat := ts.foldl (fun m t => Nat.max m (s.prioOf t)) 0

/-- The group of clusters to free for a task (R99): every task in it of lower priority, the highest of
them lowest, the lowest cluster first. -/
def State.groupToFree (s : State) (stk : Fin 8) (t : TaskId) : Option Nat :=
  let w := s.widthOf t
  let p := s.prioOf t
  let ok := (List.range 8).filter fun c =>
    c % w == 0 && (s.groupTasks stk c w).all (fun v => s.prioOf v < p) &&
    !(s.drover.preempts.any fun q => q.stk == stk && p ≤ s.prioOf q.cause && rangesMeet q.first q.width c w)
  (sortByRank (fun c => 64 - s.topPrio (s.groupTasks stk c w)) ok).head?

/-- The pages of a running task. -/
def State.shareOf (s : State) (t : TaskId) : Nat := ((s.findCore (.task t)).map fun c => c.task.share).getD 0

/-- Take tasks until their shares cover a need. -/
def takeShares (s : State) : Nat → List TaskId → List TaskId
  | _, [] => []
  | need, t :: r => if need = 0 then [] else t :: takeShares s (need - s.shareOf t) r

/-- The further tasks to pre-empt for pool pages (R441): none where they would not cover the need. -/
def State.poolVictims (s : State) (stk : Fin 8) (t : TaskId) (victims : List TaskId) : List TaskId :=
  let have_ := s.poolFree stk + victims.foldl (fun n v => n + s.shareOf v) 0
  let lower := (s.running stk).filter fun c => s.prioOf c.taskId < s.prioOf t && !victims.contains c.taskId
  let order := (sortByRank (fun c => (64 - s.prioOf c.taskId) * 8 + c.task.cluster.val) lower).map (·.taskId)
  if s.needOf t ≤ have_ then []
  else if have_ + order.foldl (fun n v => n + s.shareOf v) 0 < s.needOf t then []
  else takeShares s (s.needOf t - have_) order

/-- The engines of a stack that hold an operation of some tasks (R388). -/
def State.enginesOf (s : State) (stk : Fin 8) (ts : List TaskId) : List AckUnit :=
  let mine := fun (h : OpHdr) => h.stk == stk && ts.any fun t => h.core == .task t
  ((List.finRange 64).filter fun t => (s.tiles.cmds.any fun c => c.tile.t == t && mine c.hdr) || s.tiles.runs.any fun r => r.tile.t == t && mine r.hdr).map .tile ++
  ((List.finRange 64).filter fun t => s.dram.cmds.any fun c => c.bank.col == t && mine c.hdr).map .rowTransfer ++
  (if (s.buildWaiting stk).any (fun c => mine c.hdr) || ((s.building stk).map fun r => mine r.hdr).getD false then [.builder] else []) ++
  (if (s.copyWaiting stk).any (fun c => mine c.hdr) || (s.copying stk).any (fun c => mine c.hdr) then [.copyEngine] else []) ++
  (if (s.kvWaiting stk).any (fun c => mine c.hdr) then [.crook] else [])

/-- What to free for the highest ready task of a stack: its group of clusters, if it needs one freed, and
the victims. -/
def State.preemptFor (s : State) (stk : Fin 8) (t : TaskId) : Option (Nat × Nat × List TaskId) :=
  match s.slotFor stk t with
  | some _ =>
    let v := s.poolVictims stk t []
    if v.isEmpty then none else some (0, 0, v)
  | none =>
    match s.groupToFree stk t with
    | none => none
    | some c =>
      let v := s.groupTasks stk c (s.widthOf t)
      some (c, s.widthOf t, v ++ s.poolVictims stk t v)

/-- PREEMPT_REQUEST: for the highest ready task of a stack. -/
def execPreemptRequest (stk : Fin 8) (s : State) : Out :=
  match (s.readyOn stk).head? with
  | none => .next s
  | some r =>
    if !isOn s.ursol stk.val || (!r.resumed && !(s.farm r.t.farm.val).stripLeft) || s.drover.preempts.any (fun p => p.stk == stk && p.cause == r.t) then .next s
    else match s.preemptFor stk r.t with
      | none => .next s
      | some (first, w, vs) =>
        let p : Preempt :=
          { stk := stk, cause := r.t, first := first, width := w, victims := vs, due := vs.map .hart ++ s.enginesOf stk vs }
        .next { s with drover := { s.drover with preempts := s.drover.preempts ++ [p] } }

/-- A pre-empted task of an aborted farm is saved and ends, its strip discarded, once its engine operations have
completed (R393). -/
def State.abortRunning (s : State) (c : Core) : State :=
  let r := s.unseat c.taskId c.pc 0 0
  if r.2 then r.1.endAsExit c.taskId c.flags c.task.heldBase c.task.scratch
  else r.1.frameUnusable c.taskId c.flags c.task.heldBase

/-- A running task is saved with action 0 and is ready in its priority (R389); one that ends only gives up its slot, and one
of an aborted farm ends (R393). -/
def State.saveReady (s : State) (t : TaskId) : State :=
  match s.findCore (.task t) with
  | none => s
  | some c =>
    if s.isEnding t then s.leaveEnding t
    else if (s.farm t.farm.val).aborted then s.abortRunning c
    else
      let r := s.unseat t c.pc 0 0
      if r.2 then
        { r.1 with
          parked := r.1.parked ++ [{ parkedOf s.free t c .ready with victim := true }]
          drover := { r.1.drover with ready := r.1.drover.ready ++ [(⟨t, true⟩ : Ready)] } }
      else r.1.frameUnusable t c.flags c.task.heldBase

/-- A unit has acknowledged. -/
def State.acked (s : State) (stk : Fin 8) (u : AckUnit) : State :=
  { s with drover := { s.drover with preempts := s.drover.preempts.map fun p =>
      if p.stk == stk then { p with due := p.due.filter fun v => v != u } else p } }

/-- The tasks whose operations a pre-emption waits for at a unit. -/
def State.victimsAt (s : State) (stk : Fin 8) (u : AckUnit) : List TaskId :=
  (s.drover.preempts.filter fun p => p.stk == stk && p.due.contains u).flatMap (·.victims)

/-- PREEMPT_ACK: the unit has come to the end of its unit of work. -/
def execPreemptAck (stk : Fin 8) (u : AckUnit) (s : State) : Out :=
  let vs := s.victimsAt stk u
  if vs.isEmpty then .next s
  else match u with
    | .hart t =>
      if (s.findCore (.task t)).any fun c => c.task.midRead then .next s else .next ((s.saveReady t).acked stk u)
    | .tile k =>
      if s.tiles.runs.any fun r => r.tile.stk == stk && r.tile.t == k && vs.any fun v => r.hdr.core == .task v then .next s
      else .next (s.acked stk u)
    | .rowTransfer t =>
      if s.dram.cmds.any fun c => c.bank.stk == stk && c.bank.col == t && s.transferBegun c && vs.any fun v => c.hdr.core == .task v then .next s
      else .next (s.acked stk u)
    | .crook =>
      if (s.kvWaiting stk).any fun c => c.prog.midBlock && vs.any fun v => c.hdr.core == .task v then .next s
      else .next (s.acked stk u)
    | _ => .next (s.acked stk u)

/-- The victims of a complete pre-emption stay victims until they are placed again or have ended, however they left
their slots (R388, R389). -/
def State.markVictims (s : State) (vs : List TaskId) : State :=
  { s with
    parked := s.parked.map fun p => { p with victim := p.victim || vs.contains p.t }
    drover := { s.drover with ending := s.drover.ending.map fun e => { e with victim := e.victim || vs.contains e.t } } }

/-- A task of an aborted farm that had parked by itself before its pre-emption reached it, or had been placed again, ends
too (R393). -/
def State.abortLeft (s : State) (t : TaskId) : State :=
  match s.findCore (.task t) with
  | some c => if s.isEnding t then s else s.abortRunning c
  | none =>
    match s.parked.find? fun p => p.t == t with
    | some p => s.endAsExit t p.flags p.held p.scratch
    | none => s

/-- PREEMPT_COMPLETE: every acknowledgement is there, and the task is placed; after an abort's pre-emption none is, and no
victim is left. -/
def execPreemptComplete (stk : Fin 8) (s : State) : Out :=
  match s.drover.preempts.find? fun p => p.stk == stk && p.due.isEmpty with
  | some p =>
    let rest := removeFirst (fun (p : Preempt) => p.stk == stk && p.due.isEmpty) s.drover.preempts
    let s := ({ s with drover := { s.drover with preempts := rest } }).markVictims p.victims
    .next (if p.abort then p.victims.foldl State.abortLeft s else s.placeNext stk)
  | none => .next s

/-! ## Waits (R100, R267, R377) -/

/-- WAIT_TIMEOUT_PARK: 8,192 cycles of the compute clock unsatisfied (R100, R396). -/
def execWaitTimeoutPark (t : TaskId) (s : State) : Out :=
  match s.findCore (.task t) with
  | none => .next s
  | some c =>
    match c.task.waiting with
    | none => .next s
    | some w =>
      if 8192 * 1000 ≤ w.age && !s.isEnding t then
        let r := s.unseat t c.pc 0 0
        if r.2 then
          .next (({ r.1 with parked := r.1.parked ++ [parkedOf s.free t c (.waitObj w.pa w.target w.wrap false)] }).lend
            t c.task.stk c.task.cluster.val (hwWidth c.task.hw))
        else .next (r.1.frameUnusable t c.flags c.task.heldBase)
      else .next s

/-- A parked task is ready again and joins the back of its priority (R99). -/
def State.wake (s : State) (t : TaskId) : State :=
  { s with
    parked := s.parked.map fun p => if p.t == t then { p with wake := .ready } else p
    drover := { s.drover with ready := s.drover.ready ++ [⟨t, true⟩] } }

/-- WAIT_WAKE: the Fold has reported the update that satisfies a parked WAIT. -/
def execWaitWake (t : TaskId) (s : State) : Out :=
  match s.parked.find? fun p => p.t == t with
  | some p => match p.wake with
    | .waitObj _ _ _ true => .next (s.wake t)
    | _ => .next s
  | none => .next s

/-- TASK_RESUME: the Fold has reported the signal of the resume object. -/
def execTaskResume (t : TaskId) (s : State) : Out :=
  match s.parked.find? fun p => p.t == t with
  | some p => match p.wake with
    | .resume _ true => .next (s.wake t)
    | _ => .next s
  | none => .next s

/-! ## Closing (R90, R101, R393) -/

/-- An operation of the farm has not completed. -/
def State.farmBusy (s : State) (slot : Fin 1024) : Bool :=
  s.opHdrs.any fun h => match h.core with
    | .task t => t.farm == slot
    | _ => false

/-- The status of a farm's done object (R101). A fault for which no record was free is one that its task
did not observe (R110, R381; log entry 48). An aborted farm with an unusable frame reports the abort (DESIGN CHOICE, log entry
51: R101 ranks each of the two over 0x0020 and 0x0021 only). -/
def Farm.doneStatus (f : Farm) : Nat :=
  if f.aborted then 0x0401
  else if f.frameLost then 0x0402
  else if f.faultTask.isSome || !f.lost.isEmpty then 0x0021
  else if f.discarded.isEmpty then 0 else 0x0020

/-- The fault index of a farm's done object (R101). A task that ended with an undelivered record is named whatever the
status is, where no strip was discarded (DESIGN CHOICE, log entry 49: R101 speaks of status 0x0021). -/
def Farm.doneIndex (f : Farm) : Nat :=
  match f.discarded with
  | b :: r => r.foldl Nat.min b % 2 ^ 32
  | [] => match f.faultTask with
    | some t => t
    | none => noIndex

/-- FARM_CLOSE: CLOSING to FREE: release at .sys, trig, done. -/
def execFarmClose (slot : Fin 1024) (s : State) : Out :=
  match s.farm? slot.val with
  | none => .next s
  | some f =>
    if (f.st == .running || f.st == .closing) && f.ended.length == f.lrec.tasks && !s.farmBusy slot then
      let s := s.mapFarm slot.val fun f => { f with st := .closing }
      let s := { s with mem := f.lrec.rect.foldl releaseWide s.mem }
      let s := s.signalTrig slot.val (if f.aborted then some 0x0401 else none)
      let s := s.signalDone slot.val f.doneStatus (f.committed % 2 ^ 32) f.doneIndex f.flags
      .next (s.freeFarm slot.val)
    else .next s

/-- The pre-emption that an abort asks of a stack on which tasks of the farm run (R388, R393). -/
def State.abortOn (s : State) (slot : Fin 1024) (stk : Fin 8) : State :=
  match ((s.running stk).filter fun c => c.taskId.farm == slot && !s.isEnding c.taskId).map (·.taskId) with
  | [] => s
  | t :: r =>
    let p : Preempt := { stk := stk, cause := t, first := 0, width := 0, victims := t :: r
                         due := (t :: r).map .hart ++ s.enginesOf stk (t :: r), abort := true }
    { s with drover := { s.drover with preempts := s.drover.preempts ++ [p] } }

/-- The host aborts a farm (R393): its running tasks are pre-empted, and end as they are saved, their strips discarded;
parked ones end, and those not started retire. The farm leaves RUNNING once all have ended and their engine operations
have completed (R90). A farm that is aborted already is asked for no second pre-emption. -/
def State.abortFarm (s : State) (slot : Fin 1024) : State :=
  let was := (s.farm slot.val).aborted
  let s := s.mapFarm slot.val fun f => { f with aborted := true }
  let s := if was then s else (List.finRange 8).foldl (fun s k => s.abortOn slot k) s
  let s := (s.parked.filter fun p => p.t.farm == slot).foldl (fun s p => s.endAsExit p.t p.flags p.held p.scratch) s
  let s := (s.drover.ready.filter fun r => r.t.farm == slot).foldl (fun s r => s.endTask r.t 0 none) s
  let f := s.farm slot.val
  let s := (List.range (f.lrec.tasks - f.nextTid)).foldl (fun s i => s.endTask ⟨slot, f.nextTid + i⟩ 0 none) s
  let s := s.mapFarm slot.val fun f => { f with nextTid := f.lrec.tasks }
  if (s.farm slot.val).ended.length == f.lrec.tasks && !s.farmBusy slot then s.mapFarm slot.val fun f => { f with st := .closing } else s

end Sys2Proof.Machine
end

