-- ==== Sys2Proof/Machine/Fold.lean ====
section
/-!
DEFINITION. The steps of the Fold and of the first-level caches: requests that reach a home, and the
answers of the agents home asks (R214-R232).
-/
namespace Sys2Proof.Machine
open Sys2Proof

/-- The number of a requester at home (R214; log entry 11). -/
def requesterNo : Requester → Nat
  | .agent a => a.val
  | .engine k unit => engineNo unit k

/-- An agent or engine runs: its stack is on; the host proxy and the Drover, which are on the hub, once Ursol is up
(R23, R397). -/
def agentRuns (u : Ursol) (n : Nat) : Bool :=
  if n < 16 then isOn u (n % 8) else if n = 16 || (40 ≤ n && n < 48) then u.boot == .up else 32 ≤ n && isOn u (n % 8)

/-- A line lies in DRAM and its home answers requests for it (R205, R398, R439). -/
def homeServes (u : Ursol) (line : Nat) : Bool := reachable u (64 * line)

/-- The misses a requester may have outstanding: 64 of an SVP, 16 of a supervisor core (R246); the other requesters
have no such limit. -/
def missPlaces (who : Nat) : Option Nat := if who < 8 then some 64 else if who < 16 then some 16 else none

/-- Its queues have a place for a request: those of its sender and the 512 of its Fold (R246). Without one it waits. -/
def hasPlace (ms : MemSys) (who line : Nat) : Bool :=
  ((missPlaces who).all fun n => (pendingLines ms who).length < n) && (ms.reqs.filter fun r => foldOf r.line == foldOf line).length < 512

/-- A request can arrive: its sender runs, its home answers, and there is a place for it. -/
def State.canAsk (s : State) (who line : Nat) : Bool := agentRuns s.ursol who && homeServes s.ursol line && hasPlace s.mem who line

/-- A request arrives at home as this step. -/
def State.request (s : State) (who line : Nat) (k : ReqKind) (acq : Bool) : State :=
  { s with mem := arriveReq s.mem who line k acq }

/-- An agent answers home as this step. -/
def State.answer (s : State) (line : Nat) (p : HomeMsg → Bool) : State :=
  { s with mem := answerReq s.mem line p }

/-- GETS (R225): an agent that does not own the line asks for a tracked copy. -/
def execGets (r : Fin 17) (line : Nat) (acq : Bool) (s : State) : Out :=
  if s.canAsk r.val line && (dirOf (drainLine s.mem line) line).own.toNat != r.val then .next (s.request r.val line .getS acq) else .next s

/-- GETO (R225): an agent that does not own the line asks for ownership; the host proxy never does (R224). -/
def execGeto (r : Fin 17) (line : Nat) (acq : Bool) (s : State) : Out :=
  if s.canAsk r.val line && (dirOf (drainLine s.mem line) line).own.toNat != r.val && r.val < 16 then
    .next (s.request r.val line (.getO acq) acq)
  else .next s

/-- READ (R225): a read of words that takes no tracked copy. -/
def execRead (r : Requester) (line : Nat) (words : BitVec 16) (acq : Bool) (s : State) : Out :=
  if s.canAsk (requesterNo r) line then .next (s.request (requesterNo r) line (.read words) acq) else .next s

/-- WRITE (R225): bytes are applied at home. -/
def execWrite (r : Requester) (line : Nat) (en : BitVec 64) (data : LineData) (s : State) : Out :=
  if s.canAsk (requesterNo r) line then
    let ms := ownCopyTakes (drainLine s.mem line) (requesterNo r) line en data
    .next (({ s with mem := ms }).request (requesterNo r) line (.write en data) false)
  else .next s

/-- FAR (R225, R238): home performs an atomic on a naturally aligned word of 4 or 8 bytes. -/
def execFar (r : Requester) (pa : Nat) (sz : Size) (op : AmoOp) (v : W64) (acq : Bool) (s : State) : Out :=
  if s.canAsk (requesterNo r) (lineOf pa) && pa % (sizeBytes sz) == 0 && 4 ≤ sizeBytes sz then
    .next (s.request (requesterNo r) (lineOf pa) (.far (pa % 64) (sizeBytes sz) (.amo op v)) acq)
  else .next s

/-- PUTO (R225): an owner returns its dirty words and drops the line. -/
def execPuto (a : Fin 17) (line : Nat) (s : State) : Out :=
  if homeServes s.ursol line then .next { s with mem := doPutO (drainLine s.mem line) a.val line } else .next s

/-- MARKER (R229): a narrow release marks a line that holds sis-dirty bytes of the agent. -/
def execMarker (a : Fin 17) (line : Nat) (s : State) : Out :=
  if s.canAsk a.val line && a.val < 16 && hasSisDirty s.mem a.val line then
    .next (s.request a.val line .marker false)
  else .next s

/-- DIRTY_NOTICE (R221): the oldest notice of an agent to a Fold arrives. -/
def execDirtyNotice (a : Fin 17) (fold : Fin 8) (s : State) : Out :=
  let p := fun (n : Notice) => n.agent == a.val && foldOf n.line == fold.val
  match s.mem.notices.find? p with
  | some n => .next { s with mem := deliverNotice { s.mem with notices := removeFirst p s.mem.notices } n }
  | none => .next s

/-- INVALIDATION (R222): a sharer removes its clean words. -/
def execInvalidation (a : Fin 17) (line : Nat) (s : State) : Out :=
  .next (s.answer line fun m => match m with
    | .inv k => k == a.val
    | _ => false)

/-- PULL (R225): the owner returns dirty words and keeps the line. -/
def execPull (a : Fin 17) (line : Nat) (s : State) : Out :=
  .next (s.answer line fun m => match m with
    | .pull k _ => k == a.val
    | _ => false)

/-- RECALL (R225): the owner returns its dirty words and drops the line. -/
def execRecall (a : Fin 17) (line : Nat) (s : State) : Out :=
  .next (s.answer line fun m => match m with
    | .recall k => k == a.val
    | _ => false)

/-- FORWARD (R225): the owner takes bytes written at home. -/
def execForward (a : Fin 17) (line : Nat) (s : State) : Out :=
  .next (s.answer line fun m => match m with
    | .fwd k _ _ => k == a.val
    | _ => false)

/-- FORCED_PUBLISH (R230): the agent a marker names publishes all its sis-dirty bytes. -/
def execForcedPublish (a : Fin 17) (line : Nat) (s : State) : Out :=
  .next (s.answer line fun m => match m with
    | .publish k => k == a.val
    | _ => false)

end Sys2Proof.Machine
end

