-- ==== Sys2Proof/Machine/Walker.lean ====
section
/-!
DEFINITION. The page walkers as agents of their own, and shootdowns (R200-R213).
-/
namespace Sys2Proof.Machine
open Sys2Proof

/-! ## Walks (R203) -/

/-- PAGE_WALK: the oldest queued walk of a stack starts while fewer than 32 run. -/
def execPageWalk (stk : Fin 8) (s : State) : Out := .next { s with mem := startWalk s.mem stk }

/-- PAGE_WALK_RESULT: the oldest running walk of a stack reads its tables at the Fold (R204) and ends. -/
def execPageWalkResult (stk : Fin 8) (s : State) : Out := .next { s with mem := finishWalk s.mem s.ursol stk }

/-! ## Shootdown records (R207) -/

structure ShootRec where
  vbeg : Nat
  vend : Nat
  asid : BitVec 14
  allas : Bool
  allva : Bool
  pkg : Bool
  clean : Bool
  cobj : W64
  deriving DecidableEq, Repr

def shootRecOf (bs : List Byte) : ShootRec where
  vbeg := natOf (bs.take 8)
  vend := natOf ((bs.drop 8).take 8)
  asid := BitVec.ofNat 14 (natOf ((bs.drop 16).take 8))
  allas := (natOf ((bs.drop 16).take 8)).testBit 16
  allva := (natOf ((bs.drop 16).take 8)).testBit 17
  pkg := (natOf ((bs.drop 16).take 8)).testBit 18
  clean := natOf ((bs.drop 16).take 8) / 2 ^ 19 == 0 && natOf ((bs.drop 16).take 8) / 2 ^ 14 % 4 == 0
  cobj := BitVec.ofNat 64 (natOf ((bs.drop 24).take 8))

/-- A malformed record (R208). -/
def ShootRec.malformed (r : ShootRec) : Bool :=
  !r.clean || (!r.allva && (r.vbeg % 65536 != 0 || r.vend % 65536 != 0 || r.vend ≤ r.vbeg))

/-- The record covers a range of addresses under an ASID. -/
def ShootRec.covers (r : ShootRec) (asid : BitVec 14) (base size : Nat) : Bool :=
  (r.allas || r.asid == asid) && (r.allva || (base < r.vend && r.vbeg < base + size))

def ShootRec.coversTlb (r : ShootRec) (e : TlbEntry) : Bool := r.covers e.asid (e.vbase * leafSize e.level) (leafSize e.level)
def ShootRec.coversWalk (r : ShootRec) (w : WalkEntry) : Bool := r.covers w.asid (w.prefix64k * leafSize w.level) (leafSize w.level)

/-- A buffered part was translated through a removed entry: its own 64 KiB is covered, or the removed
leaf that held it is (R208, step 4). -/
def ShootRec.staleAt (r : ShootRec) (gone : List TlbEntry) (asid : BitVec 14) (p : BufPart) : Bool :=
  (match p.tgt with
    | .scratch _ => false
    | _ => true) &&
  (r.covers asid (p.va / 65536 * 65536) 65536 || gone.any fun e => e.asid == asid && e.vbase == p.va / leafSize e.level)

def ShootRec.markStale (r : ShootRec) (gone : List TlbEntry) (asid : BitVec 14) (buf : List BufElem) : List BufElem :=
  buf.map fun e => { e with stale := e.stale || e.parts.any (r.staleAt gone asid) }

/-- The steps of R208 on one stack: entries removed and buffered stores marked. A walk reads its tables
in the step that ends it, so it restarts by itself; accesses and engine units are whole steps, so none
is under way. -/
def State.shootStack (s : State) (r : ShootRec) (k : Fin 8) : State :=
  if isOn s.ursol k.val then
    let gone := s.mem.tlb.filter fun e => e.stk == k && r.coversTlb e
    let mark := fun (c : Core) =>
      if c.id.isTask && c.task.stk == k then { c with task := { c.task with buf := r.markStale gone c.asid c.task.buf } } else c
    let asidOf := fun (t : TaskId) => (s.farm t.farm.val).lrec.asid
    { s with
      mem := { s.mem with
        tlb := s.mem.tlb.filter fun e => !(e.stk == k && r.coversTlb e)
        walkCache := s.mem.walkCache.filter fun w => !(w.stk == k && r.coversWalk w) }
      core := mark s.core
      others := s.others.map mark
      parked := s.parked.map fun p => if p.stk == k then { p with buf := r.markStale gone (asidOf p.t) p.buf } else p }
  else s

/-! ## Shootdowns (R208, R212) -/

/-- The lowest-numbered stack in the on state. -/
def lowestOn (u : Ursol) : Option (Fin 8) := (List.finRange 8).find? fun k => isOn u k.val

/-- The stack takes this waiting record. A stack that is not on takes those of its port too: it makes no step for
them and counts as completed (R208). That no stack is on is decided at the doorbell; a post that waits when the last one
leaves the on state waits for one to be on again (DESIGN CHOICE, log entry 51; R212). -/
def ShootReq.takenBy (q : ShootReq) (u : Ursol) (stk : Fin 8) : Bool :=
  match q.host with
  | none => q.stk == stk
  | some _ => lowestOn u == some stk

/-- The 32 bytes of a waiting record, and the ASID its cobj is read in. A record at an address that is no multiple of 32
is read where it stands (DESIGN CHOICE, log entry 49; R207, R208). -/
def State.shootBytes (s : State) (stk : Fin 8) (q : ShootReq) : State × Option (List Byte × BitVec 14) :=
  match q.host with
  | some bs => (s, some (bs, (shootRecOf bs).asid))
  | none =>
    let r := engineLoad s (engineCtx stk q.asid false 0) q.va 32
    (r.1, match r.2 with
      | .ok bs => some (bs, q.asid)
      | .error _ => none)

/-- A readable record with its object, which was translated in an ASID: malformed, or the steps on every covered stack. -/
def State.shootdown (s : State) (stk : Fin 8) (r : ShootRec) (asid : BitVec 14) (host : Bool) (pa : Nat) : State :=
  let nc := ncAt s.mem s.ursol (engineCtx stk asid false 0) r.cobj
  if r.malformed then { s with mem := { s.mem with shootDone := s.mem.shootDone ++ [⟨stk, pa, 0x0040, 0, 0xFFFFFFFF, asid, nc⟩] } }
  else
    let on := if r.pkg || host then List.finRange 8 else [stk]
    let s := on.foldl (fun s k => s.shootStack r k) s
    { s with mem := { s.mem with shootDone := s.mem.shootDone ++ [⟨stk, pa, 0, on.length, 0xFFFFFFFF, asid, nc⟩] } }

/-- SHOOTDOWN_EXECUTE: a stack takes the oldest record waiting for it; one that cannot be read, or whose
object cannot be used, is dropped and logged (R208, R439). -/
def execShootdownExecute (stk : Fin 8) (s : State) : Out :=
  match s.mem.shootQ.find? fun q => q.takenBy s.ursol stk with
  | none => .next s
  | some q =>
    let s := { s with mem := { s.mem with shootQ := removeFirst (fun q => q.takenBy s.ursol stk) s.mem.shootQ } }
    let r := s.shootBytes stk q
    match r.2 with
    | none => .next (r.1.log (.badShootdown q.va))
    | some (bs, asid) =>
      let sr := shootRecOf bs
      let o := objCheck r.1.mem r.1.ursol (engineCtx stk asid false 0) sr.cobj
      let s := { r.1 with mem := o.1 }
      match o.2 with
      | .ok pa =>
        if isFenced s.ursol pa then .next (s.log (.badShootdown q.va))
        else .next (s.shootdown stk sr asid q.host.isSome pa)
      | _ => .next (s.log (.badShootdown q.va))

/-- SHOOTDOWN_COMPLETE: the stack that took the record updates its object once (R208). -/
def execShootdownComplete (stk : Fin 8) (s : State) : Out :=
  match s.mem.shootDone.find? fun d => d.stk == stk with
  | none => .next s
  | some d =>
    let s := { s with mem := { s.mem with shootDone := removeFirst (fun d => d.stk == stk) s.mem.shootDone } }
    .next (s.objUpdateAs (engineNo .shootdown stk) d.asid d.cobj (fun o =>
      { o with count := o.count + 1, status := d.status.toNat, progress := d.progress
               fidx := if d.status = 0 then o.fidx else d.fidx.toNat }) d.nc)

/-- The host's posted records that wait in the hub (R370). -/
def hostPosts (ms : MemSys) : Nat := (ms.shootQ.filter fun q => q.host.isSome).length

/-- The host writes the doorbell (R212, R370): the record is posted, or dropped with no stack on. Its 32 bytes are those of
that instant, and a later write of the host to the record is not seen (DESIGN CHOICE, log entry 51). -/
def State.doorbell (s : State) : State :=
  if (lowestOn s.ursol).isNone then s.log .noStackForShootdown
  else
    let bs := readBytes s.drover.hub 0x21000 32
    { s with mem := { s.mem with shootQ := s.mem.shootQ ++ [⟨0, 0, 0, some bs⟩] } }

/-- HOST_SHOOTDOWN_DOORBELL: with 16 posts waiting the write waits. -/
def execHostShootdownDoorbell (s : State) : Out :=
  .next (if s.ursol.boot == .up && hostPosts s.mem < 16 then s.doorbell else s)

end Sys2Proof.Machine
end

