-- ==== Sys2Proof/Machine/Links.lean ====
section
/-!
DEFINITION. The links and the host's RDMA: the expander's check, retraining, accesses to the hub region,
to granted ranges and to the physical region, and inbound SENDs (R363-R373).
-/
namespace Sys2Proof.Machine
open Sys2Proof

/-! ## The expander (R365, R366) -/

/-- `n` bytes copied from a distance back, each produced byte within reach of the next. -/
def copyBack (d : Nat) : Nat → List Byte → List Byte
  | 0, out => out
  | n + 1, out => copyBack d n (out ++ [(out[out.length - d]?).getD 0])

/-- Decode a token sequence, or none where the expander rejects it; the last argument is what has been
produced. -/
def expand : Nat → List Byte → List Byte → Option (List Byte)
  | _, [], out => some out
  | 0, _ :: _, _ => none
  | fuel + 1, b :: rest, out =>
    let c := b.toNat
    if c < 0x80 then
      if rest.length < c + 1 then none else expand fuel (rest.drop (c + 1)) (out ++ rest.take (c + 1))
    else if c < 0xFF then
      match rest with
      | lo :: hi :: rest =>
        let d := lo.toNat + 256 * hi.toNat
        if 4096 ≤ d || out.length < d + 1 then none
        else expand fuel rest (copyBack (d + 1) (c - 0x80 + 3) out)
      | _ => none
    else
      match rest with
      | k :: rest => expand fuel rest (out ++ List.replicate (k.toNat + 4) 0)
      | [] => none

/-- The expander rejects a compressed packet (R366). -/
def rejects (len : BitVec 13) (wire : List Byte) : Bool :=
  match expand wire.length wire [] with
  | some out => out.length != len.toNat
  | none => true

/-- The number of a port's reject counter: a stack's mesh ports by 4·s + port, the Ethernet ports from 32 on, the
hub's ends of the hub links from 36 on. -/
def portNo (node : PortNode) (port : Nat) : Nat :=
  match node with
  | .mesh stk => 4 * stk.val + port
  | .ether _ => 32 + port
  | .hub => 36 + port

/-- An edge or hub link carries packets: trained, not fenced, and the ports at its ends not off with a gated stack
(R397). -/
def edgeCarries (u : Ursol) (e : Nat) : Bool := edgeUp u e && (edgeEnds e).all fun k => stackState u k != .gate

/-- A compressed packet can come to a port (R14, R369): a mesh port or a hub link's end over an edge that carries packets,
an Ethernet port on a queue pair of its own between two F2 packages. -/
def portTakes (u : Ursol) (node : PortNode) (port : Nat) : Bool :=
  match node with
  | .mesh stk => match edgeOf stk.val port with
    | some e => edgeCarries u e
    | none => false
  | .hub => port < 2 && edgeCarries u (4 * port + 3)
  | .ether qp => match fget u.qps qp.val none with
    | some q => q.f2f && q.port == port && (q.st == .rtr || q.st == .rts)
    | none => false

/-- PACKET_REJECT: the packet is discarded whole and replayed raw; the port counts it (R366). -/
def execPacketReject (node : PortNode) (port : Fin 4) (len : BitVec 13) (wire : List Byte) (s : State) : Out :=
  if portTakes s.ursol node port.val && rejects len wire then
    let k := portNo node port.val
    .next { s with ursol := { s.ursol with rejects := finsert s.ursol.rejects k (fget s.ursol.rejects k 0 + 1) } }
  else .next s

/-! ## Retraining (R94, R373) -/

/-- Route entries that include an edge become invalid. -/
def State.dropEdge (s : State) (e : Nat) : State := s.dropRoutes fun k => routeHasEdge k e

/-- LINK_RETRAIN. -/
def execLinkRetrain (stk : Fin 8) (port : Fin 4) (s : State) : Out :=
  match edgeOf stk.val port.val with
  | none => .next s
  | some e => .next (({ s with ursol := { s.ursol with edgeDown := fset s.ursol.edgeDown e false false } }).dropEdge e)

/-- A mesh edge or hub link is fenced. -/
def State.fenceEdge (s : State) (e : Nat) : State :=
  ({ s with ursol := { s.ursol with edgeFenced := finsert s.ursol.edgeFenced e true } }).dropEdge e

/-- LINK_RETRAIN_FAIL: the edge is not trained, and it is fenced. -/
def execLinkRetrainFail (stk : Fin 8) (port : Fin 4) (s : State) : Out :=
  match edgeOf stk.val port.val with
  | none => .next s
  | some e => .next (({ s with ursol := { s.ursol with edgeDown := finsert s.ursol.edgeDown e true } }).fenceEdge e)

/-! ## Host accesses to device memory (R219, R371, R372, R398, R439) -/

/-- The agent that stands for the host (R214). -/
def hostAgent : Nat := 16

/-- A line of a host access: its physical address, its bytes and its policy. -/
structure HostPiece where
  pa : Nat
  n : Nat
  pol : EffPol
  deriving DecidableEq, Repr

/-- The home can take a host access: DRAM, a stack that serves it, the column not fenced (R371, R372, read with R397 and
R398; log entry 39). Whether an open path leads there
is not asked, of host accesses and copies alike: the manual does not say what becomes of traffic with none (DESIGN CHOICE, log
entry 51; R23, R364, R373). -/
def hostReaches (u : Ursol) (pa : Nat) : Bool := isDram pa && serves u (stackOf pa) && !isFenced u pa

/-- The stack that is home to a virtual address, by a walk of its own (R371). -/
def homeStack (s : State) (asid : BitVec 14) (va : W64) : Option (Fin 8) :=
  match (walk { s.mem with walkCache := [] } s.ursol 0 asid va).res with
  | .ok (level, e) => if isDram (ptePa e) then some (Fin.ofNat 8 (stackOf (ptePa e + va.toNat % leafSize level))) else none
  | .error _ => none

/-- Translate the pieces of a host access through the stack TLB of each piece's home (R371); none where
one of them cannot be done. -/
def hostPieces (asid : BitVec 14) (k : AccKind) : List (Nat × Nat) → State → State × Option (List HostPiece)
  | [], s => (s, some [])
  | (va, n) :: rest, s =>
    match homeStack s asid (BitVec.ofNat 64 va) with
    | none => (s, none)
    | some h =>
      if !serves s.ursol h.val then (s, none)
      else
        let r := translate s.mem s.ursol (engineCtx h asid false 0) (BitVec.ofNat 64 va) k
        let s := { s with mem := r.1 }
        match r.2 with
        | .ok (.leaf pa e) =>
          if hostReaches s.ursol pa && !pteRemote e && !linePoisoned s.mem (lineOf pa) then
            let q := hostPieces asid k rest s
            (q.1, q.2.map (⟨pa, n, effPol e .dflt⟩ :: ·))
          else (s, none)
        | _ => (s, none)

/-- One line of a host read: a GetS under .wis, a Read otherwise (R219). -/
def hostReadPiece (ms : MemSys) (p : HostPiece) : MemSys :=
  let ms := drainLine ms (lineOf p.pa)
  runReqAs (p.pol == .nc) ms hostAgent (lineOf p.pa) (if p.pol == .wis then .getS else .read (wordsTouched (accessBytes (p.pa % 64) p.n)))

/-- The bytes of a host read. -/
def hostRead (ms : MemSys) : List HostPiece → MemSys × List Byte
  | [] => (ms, [])
  | p :: rest =>
    let ms := hostReadPiece ms p
    let bs := readBytes ms.cells p.pa p.n
    let r := hostRead ms rest
    (r.1, bs ++ r.2)

/-- A host write: Writes by agent 16. -/
def hostWrite (ms : MemSys) : List HostPiece → List Byte → MemSys
  | [], _ => ms
  | p :: rest, bs => hostWrite (engineWrite ms hostAgent p.pa (bs.take p.n) (p.pol == .nc)) rest (bs.drop p.n)

/-- The granted range of an rkey that holds an access. -/
def State.granted (s : State) (rkey : Nat) (va : W64) (n : Nat) (wr : Bool) : Option Rkey :=
  match fget s.ursol.rkeys rkey none with
  | some k => if (if wr then k.wr else k.rd) && k.base ≤ va.toNat && va.toNat + n ≤ k.base + k.len then some k else none
  | none => none

/-! ## The hub region (R370) -/

def hubTail (q : Nat) : Nat := 0x20000 + 8 * q
def hubHead (q : Nat) : Nat := 0x20100 + 8 * q

/-- The host may write this range of the hub region. -/
def hubWritable (off n : Nat) : Bool :=
  off + n ≤ 0x20080 || (0x21000 ≤ off && off + n ≤ 0x21028)

/-- The head of a host queue as the host reads it. -/
def State.hubHeads (s : State) : List Byte := (List.range 16).flatMap fun q => bytesOf 8 (fget s.drover.heads q 0).toNat

/-- A tail of the range is written: the hub takes it after the record's bytes (R370). -/
def State.hubTailWrite (s : State) (off n q : Nat) : State :=
  if off < hubTail q + 8 && hubTail q < off + n then
    match execHostQueueTail (Fin.ofNat 16 q) (BitVec.ofNat 64 (natOf (readBytes s.drover.hub (hubTail q) 8))) s with
    | .next t => t
    | _ => s
  else s

/-- The host writes the hub region: bytes first, then tails, then the doorbell. -/
def State.hubWrite (s : State) (off : Nat) (bs : List Byte) : State :=
  let s := { s with drover := { s.drover with hub := writeBytes s.drover.hub off bs } }
  let s := (List.range 16).foldl (fun s q => s.hubTailWrite off bs.length q) s
  if 0x21020 < off + bs.length && off < 0x21028 then s.doorbell else s

/-- A write that posts a record waits while 16 posts wait (R370). -/
def State.hubWaits (s : State) (off n : Nat) : Bool := 0x21020 < off + n && off < 0x21028 && 16 ≤ hostPosts s.mem

/-! ## Inbound requests (R367, R371, R372) -/

/-- The Ethernet ports are up with firmware (R28, R404). -/
def State.portsUp (s : State) : Bool := s.ursol.boot == .up

/-- A queue pair takes inbound requests: ready to receive or to send (R367, R394). -/
def State.qpReceives (s : State) (qp : Nat) : Bool :=
  match fget s.ursol.qps qp none with
  | some q => q.st == .rtr || q.st == .rts
  | none => false

/-- What the hub sends through a queue pair carries the extension header between two F2 packages (R369). -/
def State.qpExt (s : State) (qp : Nat) : Bool := ((fget s.ursol.qps qp none).getD {}).f2f

/-- A write of the hub region, which waits while a doorbell in it has no place. -/
def hubWriteIn (off : Nat) (data : List Byte) (ext : Bool) (s : State) : State :=
  if !hubWritable off data.length then s.send (.nakRemoteAccess ext)
  else if s.hubWaits off data.length then s
  else (s.hubWrite off data).send (.ack ext)

/-- The translated lines of an inbound request, or a remote-access NAK. -/
def onPieces (r : State × Option (List HostPiece)) (ext : Bool) (f : State → List HostPiece → State) : State :=
  match r.2 with
  | none => r.1.send (.nakRemoteAccess ext)
  | some ps => f r.1 ps

/-- RDMA_WRITE_IN: the hub region, or a granted range. -/
def execRdmaWriteIn (req : RkeyUse) (va : W64) (data : List Byte) (s : State) : Out :=
  let ext := s.qpExt req.qp.val
  if !s.portsUp || !s.qpReceives req.qp.val then .next s
  else if req.rkey = Config.hubRkey.toNat then .next (hubWriteIn va.toNat data ext s)
  else match s.granted req.rkey va data.length true with
    | none => .next (s.send (.nakRemoteAccess ext))
    | some k => .next (onPieces (hostPieces k.asid .engineWrite (piecesOf va.toNat data.length) s) ext fun s ps =>
        { s with mem := tagQp s.mem (hostWrite s.mem ps data) hostAgent req.qp.val }.send (.ack ext))

/-- RDMA_READ_IN: the heads in the hub region, or a granted range. -/
def execRdmaReadIn (req : RkeyUse) (va : W64) (n : Nat) (s : State) : Out :=
  let ext := s.qpExt req.qp.val
  if !s.portsUp || !s.qpReceives req.qp.val then .next s
  else if req.rkey = Config.hubRkey.toNat then
    if 0x20100 ≤ va.toNat && va.toNat + n ≤ 0x20180 then .next (s.send (.readReply ((s.hubHeads.drop (va.toNat - 0x20100)).take n) ext))
    else .next (s.send (.nakRemoteAccess ext))
  else match s.granted req.rkey va n false with
    | none => .next (s.send (.nakRemoteAccess ext))
    | some k => .next (onPieces (hostPieces k.asid .engineRead (piecesOf va.toNat n) s) ext fun s ps =>
        { s with mem := tagQp s.mem (hostRead s.mem ps).1 hostAgent req.qp.val }.send (.readReply (hostRead s.mem ps).2 ext))

/-- The ring's completion object after a SEND of n bytes (R371). -/
def State.ringObject (s : State) (r : Ring) (n : Nat) (imm : W32) : State :=
  match homeStack s r.asid r.cobj with
  | none => s
  | some h =>
    let o := objCheck s.mem s.ursol (engineCtx h r.asid false 0) r.cobj
    let s := { s with mem := o.1 }
    match o.2 with
    | .ok pa => s.objUpdate hostAgent pa (fun o => { o with count := o.count + 1, status := 0, progress := n, fidx := imm.toNat })
        (ncAt s.mem s.ursol (engineCtx h r.asid false 0) r.cobj)
    | _ => s

/-- The next buffer of a ring is used. -/
def Ring.advance (r : Ring) : Ring := { r with next := if r.next + 1 = r.bufs then 0 else r.next + 1, free := r.free - 1 }

/-- SEND_IN: the payload goes to the next buffer of the queue pair's ring, then its object is updated;
RNR NAK with no free buffer (R371). -/
def execSendIn (qp : Fin 4096) (payload : List Byte) (imm : W32) (s : State) : Out :=
  let ext := s.qpExt qp.val
  if !s.portsUp || !s.qpReceives qp.val then .next s
  else match fget s.ursol.rings qp.val none with
    | none => .next (s.send (.rnrNak qp.val ext))
    | some r =>
      if r.free = 0 then .next (s.send (.rnrNak qp.val ext))
      else if r.bufSize < payload.length then .next (s.send (.nakInvalidRequest qp.val ext))
      else
        .next (onPieces (hostPieces r.asid .engineWrite (piecesOf (r.base.toNat + r.next * r.bufSize) payload.length) s) ext fun u ps =>
          let t := ({ u with
            mem := hostWrite u.mem ps payload
            ursol := { u.ursol with rings := finsert u.ursol.rings qp.val (some r.advance) } }).ringObject r payload.length imm
          { t with mem := tagQp u.mem t.mem hostAgent qp.val }.send (.ack ext))

/-- RDMA_ATOMIC_IN: an invalid-request NAK (R367). -/
def execRdmaAtomicIn (qp : Fin 4096) (s : State) : Out :=
  .next (if s.portsUp then s.send (.nakInvalidRequest qp.val (s.qpExt qp.val)) else s)

/-- The physical region reaches a range (R372). -/
def physReaches (ms : MemSys) (u : Ursol) (wr : Bool) (off n : Nat) : Bool :=
  u.physRegion.isSome && off + n ≤ dramEnd &&
  (piecesOf off n).all fun p => hostReaches u p.1 && (wr || !piecePoisoned ms p)

/-- PHYSICAL_REGION_ACCESS: untranslated, a Write by agent 16 or a Read (R372). -/
def execPhysicalRegionAccess (req : RegionUse) (off n : Nat) (data : List Byte) (s : State) : Out :=
  let n := if req.wr then data.length else n
  let ext := s.qpExt req.qp.val
  if !s.portsUp || !s.qpReceives req.qp.val then .next s
  else if !physReaches s.mem s.ursol req.wr off n then .next (s.send (.nakRemoteAccess ext))
  else if req.wr then .next ({ s with mem := tagQp s.mem (engineWrite s.mem hostAgent off data) hostAgent req.qp.val }.send (.ack ext))
  else
    let r := engineRead s.mem hostAgent off n
    .next ({ s with mem := tagQp s.mem r.1 hostAgent req.qp.val }.send (.readReply r.2 ext))

/-- QUEUE_PAIR_ERROR: a queue pair enters the error state by itself (R367, R368). -/
def execQueuePairError (qp : Fin 4096) (s : State) : Out :=
  match fget s.ursol.qps qp.val none with
  | some q => .next { s with ursol := { s.ursol with qps := finsert s.ursol.qps qp.val (some { q with st := .error }) } }
  | none => .next s

end Sys2Proof.Machine
end

