-- ==== Sys2Proof/Machine/Trust.lean ====
section
/-!
DEFINITION. SHA-256 (FIPS 180-4) and the verification of an ECDSA signature over NIST P-256 with SHA-256
(FIPS 186-4), which R403 names: the standards it names are taken as they are published (log entry 5).
-/
namespace Sys2Proof.Machine
open Sys2Proof

/-! ## SHA-256 -/

/-- A byte string as a number, highest byte first. -/
def natBE (bs : List Byte) : Nat := bs.foldl (fun n b => 256 * n + b.toNat) 0

/-- The n bytes of a number, highest first. -/
def bytesBE (n v : Nat) : List Byte := (bytesOf n v).reverse

/-- The first n primes from k on, by trial division; `fuel` numbers are tried. -/
def primesFrom : Nat → Nat → List Nat → List Nat
  | 0, _, found => found
  | fuel + 1, k, found => primesFrom fuel (k + 1) (if found.any fun p => k % p == 0 then found else found ++ [k])

/-- The largest r of at most `bits` bits with r ^ e at most v. -/
def rootOf (e v : Nat) : Nat → Nat → Nat
  | 0, r => r
  | bits + 1, r => rootOf e v bits (if (r + 2 ^ bits) ^ e ≤ v then r + 2 ^ bits else r)

/-- The first 32 bits of the fraction of the e-th root of a number below 512. -/
def rootFraction (e p : Nat) : W32 := BitVec.ofNat 32 (rootOf e (p * 2 ^ (32 * e)) 38 0)

/-- The 64 primes up to 311, whose cube roots give the constants of the rounds; the square roots of the first eight
give the hash value to begin with. -/
def shaPrimes : List Nat := primesFrom 310 2 []

/-- The exclusive or of a word turned right by each of these counts. -/
def turned (w : W32) (counts : List Nat) : W32 := (counts.map w.rotateRight).foldr (· ^^^ ·) 0

/-- A block's words with those that follow from them, the newest first: n more of them. -/
def shaSchedule : Nat → List W32 → List W32
  | 0, ws => ws
  | n + 1, ws =>
    let back := fun k => ws.getD (k - 1) 0
    let far := turned (back 15) [7, 18] ^^^ back 15 >>> 3
    let near := turned (back 2) [17, 19] ^^^ back 2 >>> 10
    shaSchedule n ((back 16 + far + back 7 + near) :: ws)

/-- The eight working words after a round, given the sum of its constant and its word of the schedule. -/
def shaRound (v : List W32) (add : W32) : List W32 :=
  let at' := fun k => v.getD k 0
  let pick := at' 6 ^^^ (at' 4 &&& (at' 5 ^^^ at' 6))
  let most := (at' 0 &&& (at' 1 ||| at' 2)) ||| (at' 1 &&& at' 2)
  let low := at' 7 + add + pick + turned (at' 4) [6, 11, 25]
  let top := low + most + turned (at' 0) [2, 13, 22]
  top :: v.take 3 ++ (at' 3 + low) :: (v.drop 4).take 3

/-- The hash value after one more block, given its words. -/
def shaBlock (consts hash block : List W32) : List W32 :=
  let adds := List.zipWith (· + ·) consts (shaSchedule 48 block.reverse).reverse
  List.zipWith (· + ·) hash (adds.foldl shaRound hash)

/-- The hash value after the blocks of a padded message, n of them. -/
def shaBlocks (consts : List W32) : Nat → List Byte → List W32 → List W32
  | 0, _, hash => hash
  | n + 1, m, hash =>
    let block := (List.range 16).map fun i => BitVec.ofNat 32 (natBE ((m.drop (4 * i)).take 4))
    shaBlocks consts n (m.drop 64) (shaBlock consts hash block)

/-- SHA-256 of a byte string, 32 bytes: the string is padded with a one bit, zeros and its length in bits. -/
def sha256 (m : List Byte) : List Byte :=
  let zeros := 63 - (m.length + 8) % 64
  let padded := m ++ 0x80 :: List.replicate zeros 0 ++ bytesBE 8 (8 * m.length)
  let hash := shaBlocks (shaPrimes.map (rootFraction 3)) (padded.length / 64) padded ((shaPrimes.take 8).map (rootFraction 2))
  hash.flatMap fun w => bytesBE 4 w.toNat

/-! ## ECDSA over P-256 -/

/-- The field's prime, the group's order, the curve's constant b and the base point. -/
def p256P : Nat := 0xffffffff00000001000000000000000000000000ffffffffffffffffffffffff
def p256N : Nat := 0xffffffff00000000ffffffffffffffffbce6faada7179e84f3b9cac2fc632551
def p256B : Nat := 0x5ac635d8aa3a93e7b3ebbd55769886bc651d06b0cc53b0f63bce3c3e27d2604b
def p256G : Nat × Nat :=
  (0x6b17d1f2e12c4247f8bce6e563a440f277037d812deb33a0f4a13945d898c296,
   0x4fe342e2fe1a7f9b8ee7eb4a7c0f9e162bce33576b315ececbb6406837bf51f5)

/-- b ^ e modulo m, for an exponent of at most n bits. -/
def powMod (m : Nat) : Nat → Nat → Nat → Nat
  | 0, _, _ => 1 % m
  | n + 1, b, e =>
    let r := powMod m n (b * b % m) (e / 2)
    if e % 2 = 1 then b * r % m else r

/-- The inverse modulo a prime of 256 bits. -/
def invMod (m a : Nat) : Nat := powMod m 256 (a % m) (m - 2)

/-- The sum of two points of the curve; none is the point at infinity. -/
def p256Add : Option (Nat × Nat) → Option (Nat × Nat) → Option (Nat × Nat)
  | none, q => q
  | p, none => p
  | some (x1, y1), some (x2, y2) =>
    let p := p256P
    if x1 = x2 && (y1 + y2) % p = 0 then none
    else
      let l := if x1 = x2 then (3 * x1 * x1 + (p - 3)) * invMod p (2 * y1) % p else (y2 + (p - y1)) * invMod p (x2 + (p - x1)) % p
      let x := (l * l + (p - x1) + (p - x2)) % p
      some (x, (l * (x1 + (p - x)) + (p - y1)) % p)

/-- k times a point, for a k of at most n bits. -/
def p256Mul : Nat → Nat → Option (Nat × Nat) → Option (Nat × Nat)
  | 0, _, _ => none
  | n + 1, k, q =>
    let r := p256Mul n (k / 2) (p256Add q q)
    if k % 2 = 1 then p256Add q r else r

/-- A point other than infinity that lies on the curve. -/
def onCurve (x y : Nat) : Bool := x < p256P && y < p256P && y * y % p256P == (x * x * x + (p256P - 3) * x + p256B) % p256P

/-- A signature, r and s of 32 bytes each, highest byte first, is one of a message under a public key, x then y. -/
def ecdsaVerifies (key msg sig : List Byte) : Bool :=
  let x := natBE (key.take 32)
  let y := natBE ((key.drop 32).take 32)
  let r := natBE (sig.take 32)
  let t := natBE ((sig.drop 32).take 32)
  let w := invMod p256N t
  key.length == 64 && sig.length == 64 && onCurve x y && 1 ≤ r && r < p256N && 1 ≤ t && t < p256N &&
  match p256Add (p256Mul 256 (natBE (sha256 msg) * w % p256N) (some p256G)) (p256Mul 256 (r * w % p256N) (some (x, y))) with
  | some (v, _) => v % p256N == r
  | none => false

/-! ## The identity key pair (R405) -/

/-- The secret half of the identity key pair: a number from 1 to the group's order less one (log entry 5). -/
def identitySecret : Nat := 1 + Config.identitySeed % (p256N - 1)

/-- The identity public key: 64 bytes, x then y. -/
def identityKey : List Byte :=
  match p256Mul 256 identitySecret (some p256G) with
  | some (x, y) => bytesBE 32 x ++ bytesBE 32 y
  | none => List.replicate 64 0

/-- The signature of a message under the identity key, r then s, by the first of `tries` nonces that gives neither as
zero; which nonces a part draws is free (log entry 5). -/
def identitySign (msg : List Byte) : Nat → List Byte
  | 0 => List.replicate 64 0
  | tries + 1 =>
    let k := 1 + Config.identityNonce msg tries % (p256N - 1)
    match p256Mul 256 k (some p256G) with
    | some (x, _) =>
      let r := x % p256N
      let t := invMod p256N k * (natBE (sha256 msg) + r * identitySecret) % p256N
      if r = 0 || t = 0 then identitySign msg tries else bytesBE 32 r ++ bytesBE 32 t
    | none => identitySign msg tries

end Sys2Proof.Machine
end

