-- ==== Sys2Proof/Machine/Power.lean ====
section
/-!
DEFINITION. Power, clocks, trust and the host's commands: power-on and the firmware image, stack states,
grades, the thermal hold, and the commands of R394 (R28, R94, R292, R391-R406).
-/
namespace Sys2Proof.Machine
open Sys2Proof

/-! ## The firmware image (R28, R403, R404) -/

/-- `n` bytes of a header from an offset on. -/
def headerPart (h : List Byte) (off n : Nat) : List Byte := (h.drop off).take n

/-- The body the header states the length of. -/
def imageBody (i : FwImage) : List Byte := i.body.take (natOf (headerPart i.header 0x48 8))

/-- Ursol accepts the image. -/
def imageAccepted (i : FwImage) : Bool :=
  i.header.length == 256 &&
  sha256 (headerPart i.header 0 64) == Config.romKeyDigest &&
  ecdsaVerifies (headerPart i.header 0 64) (headerPart i.header 0 0x70) (headerPart i.header 0x70 64) &&
  sha256 (imageBody i) == headerPart i.header 0x50 32 &&
  (headerPart i.header 0xB0 80).all (· == 0) &&
  decide (Config.fusedMinVersion ≤ natOf (headerPart i.header 0x40 8))

/-- Ursol checks an image: firmware starts, or the ports come up in recovery mode. -/
def State.boot (s : State) (i : FwImage) : State :=
  if imageAccepted i then
    { s with ursol := { s.ursol with
        boot := .up
        fwVersion := BitVec.ofNat 64 (natOf (headerPart i.header 0x40 8))
        fwDigest := headerPart i.header 0x50 32 } }
  else ({ s with ursol := { s.ursol with boot := .recovery } }).log .bootFailed

/-- POWER_ON: Ursol starts from ROM and checks the image. -/
def execPowerOn (img : FwImage) (s : State) : Out :=
  .next (if s.ursol.boot == .powered || s.ursol.boot == .unpowered then s.boot img else s)

/-- RECOVERY_IMAGE: in recovery mode only a new image is accepted. -/
def execRecoveryImage (img : FwImage) (s : State) : Out :=
  .next (if s.ursol.boot == .recovery then s.boot img else s)

/-- PACKAGE_UNPOWERED: no part of the package stays powered (R1). The schedule, the time and the model's
own counters go on. -/
def execPackageUnpowered (s : State) : Out :=
  .next { State.reset with
    ursol := { State.reset.ursol with boot := .unpowered, out := s.ursol.out, temp := s.ursol.temp }
    sched := s.sched, now := s.now, free := s.free, seq := s.seq }

/-! ## Answers (R394) -/

/-- Ursol answers a command. -/
def State.reply (s : State) (code status : Nat) (payload : List Byte) : State := s.send (.answer code status payload)

/-- A command runs: firmware is up, and no earlier command is being executed. The switch of clocks of a trip, in hold
state, is no command. -/
def State.takesCommand (s : State) : Bool := s.ursol.boot == .up && !(s.ursol.switching && !s.ursol.hold)

/-- A command with its argument checks: 3 where the payload is short or an argument out of range. -/
def command (s : State) (code : Nat) (ok : Bool) (k : State) : Out :=
  if !s.takesCommand then .next s else if ok then .next k else .next (s.reply code 3 [])

/-- Argument k of a command. -/
def arg (args : List W64) (k : Nat) : Nat := ((args[k]?).getD 0).toNat

/-! ## Grades and the thermal hold (R396, R399) -/

/-- SETGRADE. The answer to a switch of clocks comes with its end; one that finds a trip's switch under way ends with
that switch. -/
def State.setGrade (s : State) (g : Nat) : State :=
  if s.ursol.hold && s.ursol.trip - 5 < s.ursol.temp then s.reply 1 2 []
  else if s.ursol.grade.val == g && !s.ursol.switching then ({ s with ursol := { s.ursol with hold := false } }).reply 1 0 []
  else { s with ursol := { s.ursol with hold := false, grade := Fin.ofNat 4 g, switching := true } }

def execSetgrade (args : List W64) (s : State) : Out := command s 1 (1 ≤ args.length && arg args 0 < 4) (s.setGrade (arg args 0))

/-- GRADE_SWITCH_END: the compute clocks run at the new grade; a SETGRADE that switched them is answered. -/
def execGradeSwitchEnd (s : State) : Out :=
  if s.ursol.switching then
    let t := { s with ursol := { s.ursol with switching := false } }
    .next (if s.ursol.hold then t else t.reply 1 0 [])
  else .next s

/-- THERMAL_TRIP: hold state H; the compute clocks stop on their way to G3 as under R396, unless they run at it
already; a SETGRADE being executed answers 2. -/
def execThermalTrip (s : State) : Out :=
  if s.ursol.trip < s.ursol.temp && !s.ursol.hold && s.ursol.boot != .unpowered then
    let t := { s with ursol := { s.ursol with hold := true, grade := 3, switching := s.ursol.switching || s.ursol.grade != 3 } }
    let t := if s.ursol.switching then t.reply 1 2 [] else t
    .next ((t.log .trip).send (.unsolicited 0xFFFF0001))
  else .next s

/-- SETTRIP. -/
def execSettrip (args : List W64) (s : State) : Out :=
  command s 5 (1 ≤ args.length && 85 ≤ arg args 0 && arg args 0 ≤ 105)
    (({ s with ursol := { s.ursol with trip := arg args 0 } }).reply 5 0 [])

/-- SETCAP (R401). -/
def execSetcap (args : List W64) (s : State) : Out :=
  command s 3 (3 ≤ args.length && arg args 0 ≤ 4 && arg args 1 ≤ 1 && arg args 2 ≤ 1)
    (({ s with ursol := { s.ursol with cap := ⟨arg args 0, arg args 1 == 1, arg args 2 == 1⟩ } }).reply 3 0 [])

/-! ## Stack states (R397, R398) -/

/-- A farm in RUNNING has the stack in its rectangle. -/
def State.stackBusy (s : State) (k : Nat) : Bool := s.drover.farms.any fun f => f.2.st == .running && f.2.lrec.rect.contains k

/-- The edges from row y of a column down to the hub: the column's mesh edges and its hub link (R14, R364). -/
def columnEdges (x y : Nat) : List Nat := (4 * x + 3) :: (List.range y).map fun j => 4 * (2 * j + x) + 2

/-- Trained, unfenced edges and stacks that are not gated make up a way. -/
def wayOpen (u : Ursol) (edges via : List Nat) : Bool := edges.all (edgeUp u) && via.all fun j => stackState u j != .gate

/-- The stacks below a stack in its column. -/
def columnBelow (x y : Nat) : List Nat := (List.range y).map fun j => 2 * j + x

/-- The stacks whose ports lie between a stack and the hub on the package route, to the hub and back, x before y (R364):
down its own column and up it; where that way is off, a packet to the hub crosses at the stack's own row and goes
down the other column, and one from the hub crosses at row 0 and goes up the stack's own. R364 names an untrained hub
link as the ground for the fallback; that any other cut of the own column is one too, and that a stack with no open way
needs no port, is DEDUCED (log entry 52). -/
def hubRoute (u : Ursol) (k : Nat) : List Nat :=
  let x := k % 2
  let y := k / 2
  let own := columnBelow x y
  let across := columnBelow (1 - x) (y + 1)
  let back := (1 - x) :: own
  if wayOpen u (columnEdges x y) own then own
  else (if wayOpen u (8 * y :: columnEdges (1 - x) y) across then across else []) ++
    (if wayOpen u ([4 * (1 - x) + 3, 0] ++ (columnEdges x y).drop 1) back then back else [])

/-- A stack that is not gated needs another's ports to reach the hub, or to be reached from it. -/
def portsNeeded (u : Ursol) (k : Nat) : Bool :=
  (List.range 8).any fun j => j != k && stackState u j != .gate && (hubRoute u j).contains k

/-- The TLBs and the walk cache of a stack hold nothing (R398). -/
def State.emptyTlbs (s : State) (k : Fin 8) : State :=
  { s with mem := { s.mem with
      tlb := s.mem.tlb.filter fun e => e.stk != k
      walkCache := s.mem.walkCache.filter fun w => w.stk != k
      walkQ := s.mem.walkQ.filter fun m => m.stk != k
      walks := s.mem.walks.filter fun m => m.stk != k
      walkWait := s.mem.walkWait.filter fun m => m.stk != k } }

/-- Copies that a test picks go home: owned lines come back, sis-dirty bytes are published (R222). -/
def evictCopies (ms : MemSys) (p : Nat → Nat → Bool) : MemSys :=
  ((ms.lines.map (·.1)).filter fun q => p (q % 32) (q / 32)).foldl (fun ms q => evictCopy ms (q % 32) (q / 32)) ms

/-- Everything under way at a home or between agents completes. -/
def settleMem (ms : MemSys) : MemSys :=
  (List.range 17).foldl deliverNotices ((ms.reqs.map fun r => r.line).foldl drainLine ms)

/-- The Fold of a stack recalls every copy of its lines, and the stack's own agents give up theirs (R397);
the directory of its lines is empty. The agents its lines' markers name publish first, as before any eviction of a
marked line (R230). -/
def State.recallStack (s : State) (k : Nat) : State :=
  let ms := (foldLines s.mem k).foldl (fun ms l => forcePublish ms 99 l) (settleMem s.mem)
  let ms := evictCopies ms fun a line => foldOf line == k || (a < 16 && a % 8 == k)
  { s with mem := { ms with
      dir := ms.dir.filter fun (d : Nat × DirEntry) => foldOf d.1 != k
      dramWork := ms.dramWork.filter fun l => foldOf l != k } }

/-- Entries of a table whose key lies outside a block of keys. -/
def outside {α : Type} (m : FMap α) (size k : Nat) : FMap α := m.filter fun p => p.1 / size != k

/-- Tile, slot and codebook SRAM of a stack as R272 and R293 give them. -/
def Tiles.blank (t : Tiles) (k : Fin 8) : Tiles :=
  { t with
    tables := outside t.tables (2 ^ 24) k.val, tableTag := outside t.tableTag (2 ^ 16) k.val
    slots := outside t.slots (2 ^ 19) k.val, slotPoison := outside t.slotPoison 256 k.val
    slotTag := outside t.slotTag 256 k.val, slotRow := outside t.slotRow 256 k.val
    acc := outside t.acc (2 ^ 20) k.val, ver := outside t.ver 1024 k.val, accTag := outside t.accTag 1024 k.val
    codebook := outside t.codebook 128 k.val, codebookTag := outside t.codebookTag 8 k.val
    badTable := t.badTable.filter fun w => w / 2 ^ 21 != k.val
    badSlot := t.badSlot.filter fun w => w / 2 ^ 16 != k.val
    badAcc := t.badAcc.filter fun w => w / 2 ^ 17 != k.val
    cmds := t.cmds.filter fun c => c.tile.stk != k
    runs := t.runs.filter fun r => r.tile.stk != k }

/-- The DRAM side of a stack as R272 gives it. -/
def Dram.blank (d : Dram) (k : Fin 8) : Dram :=
  { d with
    banks := outside d.banks 1024 k.val
    acts := d.acts.filter fun a => a.1 / 16 != k.val
    cmds := d.cmds.filter fun c => c.bank.stk != k
    busUntil := outside d.busUntil 64 k.val
    busFold := outside d.busFold 64 k.val
    begun := outside d.begun 64 k.val
    slotFreed := outside d.slotFreed 256 k.val }

/-- The engines of a stack hold no command. -/
def Engines.blank (e : Engines) (k : Fin 8) : Engines :=
  { e with
    buildQ := ferase e.buildQ k.val, buildRun := ferase e.buildRun k.val
    buildAside := ferase e.buildAside k.val, copyQ := ferase e.copyQ k.val
    copyRun := ferase e.copyRun k.val, kvQ := ferase e.kvQ k.val
    launches := e.launches.filter fun h => h.stk != k }

/-- A stack loses its SRAM: its Fold recalls and writes back first, its tiles, slots, codebooks and pool
start afresh, and its supervisor core will start from reset (R397). -/
def State.loseSram (s : State) (k : Fin 8) : State :=
  let s := (s.recallStack k.val).mapCore (.sup k) fun _ => supReset k
  { s with tiles := s.tiles.blank k, dram := s.dram.blank k, eng := s.eng.blank k }

/-- A gated stack loses its DRAM contents. -/
def State.loseDram (s : State) (k : Fin 8) : State :=
  { s with mem := { s.mem with
      cells := s.mem.cells.filter fun (c : Nat × Byte) => stackOf c.1 != k.val
      bad := s.mem.bad.filter fun w => stackOf (8 * w) != k.val
      weak := s.mem.weak.filter fun w => stackOf (8 * w) != k.val } }

/-- A stack comes out of gate: its slots, banks and budget windows are as R272 says, its fenced columns are in use again
(R292), and with the first one tick starts (R129). -/
def State.leaveGate (s : State) (k : Fin 8) : State :=
  { s with
    tiles := s.tiles.blank k
    dram := s.dram.blank k
    ursol := { s.ursol with fenced := s.ursol.fenced.filter fun (c : Nat × Bool) => c.1 / 64 != k.val }
    tick0 := if s.tick0.isNone then some s.now else s.tick0 }

/-- A stack is in a state from now on. -/
def State.setStack (s : State) (k : Fin 8) (new : StackSt) : State :=
  let old := stackState s.ursol k.val
  let s := if old == .on && new != .on then s.emptyTlbs k else s
  let s := if (old == .on || old == .idle) && (new == .selfRefresh || new == .gate) then s.loseSram k else s
  let s := if new == .gate then s.loseDram k else s
  let s := if old == .gate && new != .gate then s.leaveGate k else s
  { s with ursol := { s.ursol with stackSts := fset s.ursol.stackSts k.val new .gate, waking := ferase s.ursol.waking k.val } }

/-- The ns a stack takes to return to on (R397). -/
def wakeTime : StackSt → Nat
  | .gate => 2000000
  | .selfRefresh => 50000
  | .idle => 10000
  | .on => 0

/-- The states' codes (R394). -/
def stackStOf : Nat → StackSt
  | 0 => .gate
  | 1 => .idle
  | 2 => .selfRefresh
  | _ => .on

def stackCode : StackSt → Nat
  | .gate => 0
  | .idle => 1
  | .selfRefresh => 2
  | .on => 3

/-- STACKSTATE on checked arguments. -/
def State.stackCommand (s : State) (k : Fin 8) (new : StackSt) : State :=
  let old := stackState s.ursol k.val
  let drop := fun (s : State) => s.dropRoutes fun r => routeHas r k.val
  if old == new then
    ({ s with ursol := { s.ursol with waking := ferase s.ursol.waking k.val } }).reply 2 0 []
  else if old == .on && s.stackBusy k.val then s.reply 2 1 []
  else if new == .gate && portsNeeded s.ursol k.val then s.reply 2 3 []
  else if new == .on then
    let w := if fget s.ursol.waking k.val 0 = 0 then finsert s.ursol.waking k.val (s.now + wakeTime old) else s.ursol.waking
    (drop { s with ursol := { s.ursol with waking := w } }).reply 2 0 []
  else (drop (s.setStack k new)).reply 2 0 []

def execStackstate (args : List W64) (s : State) : Out :=
  command s 2 (2 ≤ args.length && arg args 0 < 8 && arg args 1 < 4)
    (s.stackCommand (Fin.ofNat 8 (arg args 0)) (stackStOf (arg args 1)))

/-- STACK_RETURN_TO_ON: the wake time has passed. -/
def execStackReturnToOn (stk : Fin 8) (s : State) : Out :=
  let t := fget s.ursol.waking stk.val 0
  .next (if t ≠ 0 && t ≤ s.now then s.setStack stk .on else s)

/-! ## Fences (R94, R292) -/

/-- Every bank of a column closes its row, and its held ROWCONs fail. -/
def State.closeColumn (s : State) (k : Fin 8) (col : Fin 64) : State :=
  (List.finRange 16).foldl (fun s l =>
    let b : BankId := ⟨k, col, l⟩
    if (s.bank b).active then s.hardwareClose b 0x0102 else s.failHeld b 0x0102) s

/-- FENCECOL on checked arguments. Copies of the column's lines stay where they are, and what is dirty in them still goes
home at an eviction, a release or a recall (DESIGN CHOICE, log entry 53: R292 is silent). -/
def State.fenceColumn (s : State) (k : Fin 8) (col : Fin 64) : State :=
  if s.stackBusy k.val then s.reply 4 1 []
  else
    let s := s.closeColumn k col
    ({ s with ursol := { s.ursol with fenced := finsert s.ursol.fenced (64 * k.val + col.val) true } }).reply 4 0 []

def execFencecol (args : List W64) (s : State) : Out :=
  command s 4 (2 ≤ args.length && arg args 0 < 8 && arg args 1 < 64)
    (s.fenceColumn (Fin.ofNat 8 (arg args 0)) (Fin.ofNat 64 (arg args 1)))

/-- A farm in RUNNING has the edge inside its rectangle. -/
def State.edgeBusy (s : State) (e : Nat) : Bool :=
  s.drover.farms.any fun f => f.2.st == .running && routeHasEdge f.2.lrec.route e

/-- FENCEEDGE on checked arguments. -/
def State.fenceCommand (s : State) (e : Nat) : State :=
  if s.edgeBusy e then s.reply 0x10 1 [] else (s.fenceEdge e).reply 0x10 0 []

def execFenceedge (args : List W64) (s : State) : Out :=
  let e := edgeOf (arg args 0) (arg args 1)
  command s 0x10 (2 ≤ args.length && arg args 0 < 8 && arg args 1 < 4 && e.isSome) (s.fenceCommand (e.getD 0))

/-! ## Attestation (R405, R406) -/

/-- n bytes of a string, zero-padded. -/
def padTo (n : Nat) (l : List Byte) : List Byte := (l ++ List.replicate n 0).take n

/-- The part number. -/
def partNumber : List Byte := padTo 16 ("KY-F2-512A".toList.map fun c => BitVec.ofNat 8 c.toNat)

/-- The columns of a stack that are fenced, as 8 bytes. -/
def fencedBits (u : Ursol) (k : Nat) : List Byte :=
  bytesOf 8 ((List.range 64).foldl (fun acc t => if fget u.fenced (64 * k + t) false then acc + 2 ^ t else acc) 0)

/-- The word at 0x5C of a report. -/
def powerWord (u : Ursol) : Nat :=
  u.grade.val + (if u.hold then 4 else 0) +
    (List.range 8).foldl (fun acc k => acc + stackCode (stackState u k) * 2 ^ (3 + 2 * k)) 0

/-- Bytes 0x00 to 0xDF of a report. -/
def reportHead (u : Ursol) (nonce : List W64) : List Byte :=
  (nonce.take 4).flatMap (fun d => bytesOf 8 d.toNat) ++ partNumber ++ bytesOf 8 u.fwVersion.toNat ++ padTo 32 u.fwDigest ++
  bytesOf 4 (u.cap.maxb + (if u.cap.e16 then 8 else 0) + (if u.cap.a32 then 16 else 0)) ++ bytesOf 4 (powerWord u) ++
  (List.range 8).flatMap (fencedBits u) ++ padTo 64 identityKey

/-- ATTEST. -/
def execAttest (args : List W64) (s : State) : Out :=
  let r := reportHead s.ursol args
  command s 6 (4 ≤ args.length) (s.reply 6 0 (r ++ padTo 64 (identitySign r 8)))

/-! ## Bindings (R87, R193, R367-R372, R392) -/

/-- SETASIDDIR. -/
def execSetasiddir (args : List W64) (s : State) : Out :=
  command s 7 (1 ≤ args.length && isDram (arg args 0) && arg args 0 % 2 ^ 19 == 0)
    (if (List.range 8).any (isOn s.ursol) then s.reply 7 4 []
     else ({ s with ursol := { s.ursol with asidDir := arg args 0 } }).reply 7 0 [])

/-- BINDQUEUE. -/
def execBindqueue (args : List W64) (s : State) : Out :=
  let q := arg args 0
  command s 8 (4 ≤ args.length && 16 ≤ q && q < 64 && arg args 1 < 2 && arg args 2 < 2 ^ 14 && arg args 3 < 32)
    (if !(s.queue q).recs.isEmpty then s.reply 8 4 []
     else (s.setQueue q { s.queue q with
        bound := if arg args 1 = 1 then some (BitVec.ofNat 14 (arg args 2), arg args 3) else none }).reply 8 0 [])

/-- The RC states, in the order of R394. -/
def qpStOf : Nat → QpSt
  | 0 => .reset
  | 1 => .init
  | 2 => .rtr
  | 3 => .rts
  | _ => .error

/-- QPSETUP: queue pair, state, destination queue pair, GID in two doubles, port, MTU, PSNs, F2-to-F2. -/
def execQpsetup (args : List W64) (s : State) : Out :=
  let mtu := arg args 6
  let w := fun k => (args[k]?).getD 0
  command s 9 (10 ≤ args.length && arg args 0 < 4096 && arg args 1 < 5 && arg args 5 < 4 &&
      (mtu == 1024 || mtu == 2048 || mtu == 4096) && arg args 9 < 2)
    (let q : Qp := ⟨qpStOf (arg args 1), w 2, w 3, w 4, arg args 5, mtu, w 7, w 8, arg args 9 == 1⟩
     ({ s with ursol := { s.ursol with qps := finsert s.ursol.qps (arg args 0) (some q) } }).reply 9 0 [])

/-- SETWINDOW. -/
def execSetwindow (args : List W64) (s : State) : Out :=
  command s 0x0A (7 ≤ args.length && 1 ≤ arg args 0 && arg args 0 ≤ 510 && arg args 1 < 2 && arg args 2 < 4 && arg args 3 < 4096 &&
      arg args 5 < 2 ^ 32 && arg args 6 < 2)
    (let w : Window := ⟨arg args 1 == 1, arg args 2, arg args 3, (args[4]?).getD 0, BitVec.ofNat 32 (arg args 5), arg args 6 == 1⟩
     ({ s with ursol := { s.ursol with windows := finsert s.ursol.windows (arg args 0) w } }).reply 0x0A 0 [])

/-- SETRKEY, mode 0: the device names a new rkey (FREE VALUE, log entry 6). -/
def State.grantRkey (s : State) (args : List W64) : State :=
  let k := Config.rkeyValue s.free
  let g : Rkey := ⟨BitVec.ofNat 14 (arg args 1), arg args 2, arg args 3, (arg args 4).testBit 0, (arg args 4).testBit 1⟩
  let u := { s.ursol with rkeys := finsert s.ursol.rkeys k.toNat (some g) }
  ({ s with free := s.free + 1, ursol := u }).reply 0x0B 0 (bytesOf 8 k.toNat)

/-- SETRKEY. -/
def execSetrkey (args : List W64) (s : State) : Out :=
  command s 0x0B
    ((5 ≤ args.length && arg args 0 == 0 && arg args 1 < 2 ^ 14 && arg args 2 % 2 ^ 16 == 0 && arg args 3 % 2 ^ 16 == 0 &&
        1 ≤ arg args 4 && arg args 4 ≤ 3) ||
      (2 ≤ args.length && arg args 0 == 1 && (fget s.ursol.rkeys (arg args 1) none).isSome))
    (if arg args 0 = 0 then s.grantRkey args
     else ({ s with ursol := { s.ursol with rkeys := ferase s.ursol.rkeys (arg args 1) } }).reply 0x0B 0 [])

/-- SETRING. -/
def execSetring (args : List W64) (s : State) : Out :=
  let w := fun k => (args[k]?).getD 0
  command s 0x0C (6 ≤ args.length && arg args 0 < 4096 && arg args 1 < 2 ^ 14 && arg args 3 % 64 == 0 && arg args 5 % 16 == 0)
    (let r : Ring := ⟨BitVec.ofNat 14 (arg args 1), w 2, arg args 3, arg args 4, 0, arg args 4, w 5⟩
     ({ s with ursol := { s.ursol with rings := finsert s.ursol.rings (arg args 0) (some r) } }).reply 0x0C 0 [])

/-- HOMEWATCH (R392). -/
def execHomewatch (args : List W64) (s : State) : Out :=
  command s 0x0D (5 ≤ args.length && arg args 0 < 8 && arg args 1 < 16 && isDram (arg args 2) && arg args 2 % 64 == 0 &&
      arg args 3 < 2 ^ 16 && arg args 4 < 2)
    (let w : HomeWatch := ⟨lineOf (arg args 2), BitVec.ofNat 16 (arg args 3), arg args 4 == 1⟩
     ({ s with mem := { s.mem with watch := finsert s.mem.watch (16 * arg args 0 + arg args 1) w } }).reply 0x0D 0 [])

/-- The sizes a watch ring may have (R394). -/
def ringSizeOk (n : Nat) : Bool := 64 ≤ n && n ≤ 2 ^ 20 && 2 ^ Nat.log2 n == n

/-- The physical address of the double in which the hub counts the entries it has written (R394, log entry 10). -/
def ringCountAddr : Nat := 8 * Config.ringCountDouble.val

/-- The hub writes the number of entries written where the host reads it (R394), if the home there serves and its column is
not fenced (R398, R439). -/
def State.countRing (s : State) : State :=
  if reachable s.ursol ringCountAddr then { s with mem := engineWrite s.mem hostAgent ringCountAddr (bytesOf 8 s.mem.ringDone) }
  else s

/-- HOMERING (R392): the count starts at 0. -/
def execHomering (args : List W64) (s : State) : Out :=
  command s 0x0E (2 ≤ args.length && isDram (arg args 0) && arg args 0 % 4096 == 0 && ringSizeOk (arg args 1))
    (({ s with mem := { s.mem with ring := some (arg args 0, arg args 1), hits := [], ringDone := 0 } } : State).countRing.reply
      0x0E 0 (bytesOf 8 ringCountAddr))

/-- The farm an ABORTFARM names (R394): one in WAITING, CHECKING or RUNNING, aborted before or not; of several, one that is
not aborted yet. -/
def State.abortTarget (s : State) (asid va : Nat) : Option (Fin 1024) :=
  let named := (List.finRange 1024).filter fun k => match s.farm? k.val with
    | some f => f.st != .closing && f.lrec.asid.toNat == asid && f.lrec.done.toNat == va
    | none => false
  match named.find? fun k => !(s.farm k.val).aborted with
  | some k => some k
  | none => named.head?

/-- ABORTFARM (R393). -/
def execAbortfarm (args : List W64) (s : State) : Out :=
  let t := if 2 ≤ args.length then s.abortTarget (arg args 0) (arg args 1) else none
  command s 0x0F t.isSome (match t with
    | some k => (s.abortFarm k).reply 0x0F 0 []
    | none => s)

/-- READCOUNTS (R291, R366): per column the words corrected and the uncorrectable ones, of transfers and of Fold reads, then the ports' reject counters,
each an n32. -/
def countsOf (s : State) (k : Nat) : List Byte :=
  (List.range 64).flatMap (fun t =>
    bytesOf 4 (fget s.dram.corrected (64 * k + t) 0 + fget s.mem.corrected (64 * k + t) 0) ++
    bytesOf 4 (fget s.dram.uncorrectable (64 * k + t) 0 + fget s.mem.uncorrectable (64 * k + t) 0)) ++
  (List.range 4).flatMap (fun p => bytesOf 4 (fget s.ursol.rejects (4 * k + p) 0)) ++
  (List.range 4).flatMap (fun p => bytesOf 4 (fget s.ursol.rejects (32 + p) 0))

def execReadcounts (args : List W64) (s : State) : Out :=
  command s 0x11 (1 ≤ args.length && arg args 0 < 8) (s.reply 0x11 0 (countsOf s (arg args 0)))

/-- READLOG: up to 64 entries, oldest first, which are removed. -/
def execReadlog (_args : List W64) (s : State) : Out :=
  command s 0x12 true
    (({ s with ursol := { s.ursol with log := s.ursol.log.drop 64 } }).send (.logAnswer (s.ursol.log.take 64)))

/-- PHYSWINDOW (R372). -/
def State.physWindow (s : State) (enable : Bool) : State :=
  if enable then
    let k := s.ursol.physRegion.getD (Config.rkeyValue s.free)
    ({ s with free := s.free + 1, ursol := { s.ursol with physRegion := some k } }).reply 0x13 0 (bytesOf 8 k.toNat)
  else ({ s with ursol := { s.ursol with physRegion := none } }).reply 0x13 0 []

def execPhyswindow (args : List W64) (s : State) : Out :=
  command s 0x13 (1 ≤ args.length && arg args 0 < 2) (s.physWindow (arg args 0 == 1))

/-- A code outside the table of R394 answers 3. -/
def execUnknownHostCommand (code : W32) (s : State) : Out :=
  if 1 ≤ code.toNat && code.toNat ≤ 0x13 then .next s else command s code.toNat false s

end Sys2Proof.Machine
end

