-- ==== Sys2Proof/Machine/Service.lean ====
section
/-!
DEFINITION. The service queue: the task trap on a supervisor core, and the service that Kyrek firmware
gives a parked task (R335, R336, R376, R377, R440).
-/
namespace Sys2Proof.Machine
open Sys2Proof

/-! ## The task trap (R376) -/

/-- The supervisor core of a stack can take a task trap. -/
def State.supReady (s : State) (stk : Fin 8) : Bool :=
  isOn s.ursol stk.val && match s.findCore (.sup stk) with
    | some c => !c.sup.inh && !c.sup.halted
    | none => false

/-- The head of the service queue is taken. -/
def State.takeService (s : State) (stk : Fin 8) : State × Option SvcEntry :=
  let q := fget s.service stk.val []
  ({ s with service := finsert s.service stk.val (q.drop 1) }, q.head?)

/-- The supervisor core of a stack takes the task trap of an entry: its epc stands at the instruction it
would have run next. -/
def State.taskTrap (s : State) (stk : Fin 8) (e : SvcEntry) : State :=
  match s.focus (.sup stk) with
  | some s => s.supTrap stk { code := 0x0030, info := e.frame, epc := s.core.pc, resume := s.core.pc }
  | none => s

/-! ## Kyrek's services (R336, R440) -/

/-- The words of a parked task's frame that a service reads. -/
structure SvcInfo where
  cause : BitVec 17
  epc : VAddr
  info : W64
  tmask : W64

def State.svcInfo (s : State) (t : TaskId) : State × Option SvcInfo :=
  let r := s.frameRead t 0x128 32
  (r.1, r.2.map fun bs =>
    ⟨BitVec.ofNat 17 (wordAt bs 0x10 8), BitVec.ofNat 56 (wordAt bs 0x08 8), BitVec.ofNat 64 (wordAt bs 0x18 8), BitVec.ofNat 64 (wordAt bs 0 8)⟩)

/-- Write a double of a frame. -/
def State.frameSet (s : State) (t : TaskId) (off : Nat) (v : W64) : State := (s.frameWrite t off (bytesOf 8 v.toNat)).1

/-- The service of a software trap: what the firmware assigned to k makes of the registers (FREE VALUE,
log entry 7). -/
def State.softService (s : State) (t : TaskId) (k : Nat) : State :=
  let r := s.frameRead t 8 248
  match r.2 with
  | none => r.1
  | some bs => (List.range 31).foldl (fun s i =>
      s.frameSet t (8 * (i + 1)) (Config.softwareService k (i + 1) (BitVec.ofNat 64 (wordAt bs (8 * i) 8)))) r.1

/-- The entry at which a stream of a task stands (R320, R324). -/
def State.streamEntry (s : State) (stk : Fin 8) (asid : BitVec 14) (cur : W64) : State × Option (KvDesc × Nat × KvEntry) :=
  let c := kvCtx stk asid false
  let d := s.kvDesc stk asid
  match d.2 with
  | .error _ => (d.1, none)
  | .ok kd =>
    let q := d.1.kvSeq c kd (kvSeqNo cur)
    match q.2 with
    | .error _ => (q.1, none)
    | .ok sq =>
      let l := q.1.kvRead c (sq.list + BitVec.ofNat 64 (4 * (kvPos cur / 16))) 4
      match l.2 with
      | .error _ => (l.1, none)
      | .ok bs =>
        let e := l.1.kvEntry c kd (natOf bs)
        (e.1, match e.2 with
          | .ok en => some (kd, natOf bs, en)
          | .error _ => none)

/-- How firmware issues a KVINS of a mode on an entry. -/
def svcCmd (stk : Fin 8) (asid : BitVec 14) (mode id blk : Nat) : KvCmd :=
  { op := .ins, hdr := { core := .sup stk, stk := stk, asid := asid, va := BitVec.ofNat 64 id, vb := BitVec.ofNat 64 mode
                         ve := BitVec.ofNat 64 blk, eng := .crook } }

/-- How an attempt to promote an entry ends (R336). -/
inductive Attempt where
  | done
  | failed
  | blockFailed
  deriving DecidableEq, Repr

/-- Bring a host copy, whose physical address is `pa`, into a block (R336): chunk by chunk. -/
def copyIn (stk : Fin 8) (asid : BitVec 14) (pa blk : Nat) : Nat → Nat → State → State × Attempt
  | 0, _, s => (s, .done)
  | fuel + 1, n, s =>
    if n = 0 then (s, .done)
    else
      let k := Nat.min n 4096
      let r : State × Except Nat (List Byte) :=
        if isRdma pa then
          let q := s.remoteRead pa k
          (q.1, match q.2 with
            | some bs => .ok bs
            | none => .error 0x0305)
        else s.physRead stk pa k
      match r.2 with
      | .error _ => (r.1, .failed)
      | .ok bs =>
        let w := r.1.physWrite stk asid blk bs
        match w.2 with
        | .error _ => (w.1, .blockFailed)
        | .ok _ => copyIn stk asid (pa + k) (blk + k) fuel (n - k) w.1

/-- One attempt with a block (R336): the copy, then the promotion; 0x0207 and 0x0208 are failures of the block's own
memory (R335). -/
def promoteTry (stk : Fin 8) (asid : BitVec 14) (d : KvDesc) (id hostPa blk : Nat) (s : State) : State × Attempt :=
  let size := d.blockSize + 8 + 4 * (d.nl * d.nh)
  let c := copyIn stk asid hostPa blk (size / 4096 + 2) size s
  if c.2 == .done then
    let p := kvRest (svcCmd stk asid 2 id blk) d c.1
    (p.1, if p.2.status = 0 then .done else if p.2.status = 0x0207 || p.2.status = 0x0208 then .blockFailed else .failed)
  else c

/-- Up to n attempts to promote an entry, then absent; absent at once where there is no free block (R336). After a failure
in the block's own memory another free block is taken, the same one where there is no other (DESIGN CHOICE, log entry 7). -/
def promoteTries (stk : Fin 8) (asid : BitVec 14) (d : KvDesc) (id hostPa : Nat) : Nat → List Nat → State → State
  | n + 1, page :: rest, s =>
    let r := promoteTry stk asid d id hostPa (page * 4096) s
    match r.2 with
    | .done => r.1
    | .failed => promoteTries stk asid d id hostPa n (page :: rest) r.1
    | .blockFailed => promoteTries stk asid d id hostPa n (if rest.isEmpty then [page] else rest) r.1
  | _, _, s => (kvRest (svcCmd stk asid 3 id 0) d s).1

/-- The service of a KV fault (R336). -/
def State.kvService (s : State) (stk : Fin 8) (asid : BitVec 14) (cur : W64) : State :=
  let e := s.streamEntry stk asid cur
  match e.2 with
  | none => e.1
  | some (d, id, en) => promoteTries stk asid d id en.pa 3 (Config.freeBlocks e.1.free).eraseDups { e.1 with free := e.1.free + 1 }

/-- The address translates now under the task's ASID (R440): a walk of its own. -/
def State.translatesNow (s : State) (stk : Fin 8) (asid : BitVec 14) (va : W64) : Bool :=
  va.toNat < 2 ^ 56 && match (walk { s.mem with walkCache := [] } s.ursol stk asid va).res with
    | .ok _ => true
    | .error _ => false

/-- The service of a cause and the action it ends with (R440). -/
def State.svcAction (s : State) (stk : Fin 8) (t : TaskId) (i : SvcInfo) : State × Nat :=
  let asid := (s.farm t.farm.val).lrec.asid
  let code := i.cause.toNat % 2 ^ 16
  if i.cause.getLsbD 16 then (s, 1)
  else if code = 0x0003 then (s.softService t i.info.toNat, 0)
  else if code = 0x0018 || code = 0x0019 then (s.kvService stk asid i.info, 0)
  else if code = 0x000B then (s, if s.translatesNow stk asid i.info then 0 else 1)
  else if code = 0x0020 then (s.frameSet t 0x128 (i.tmask &&& ~~~ i.info), 0)
  else if code = 0x0021 || code = 0x0022 then (s, 0)
  else (s, 1)

/-- Kyrek firmware serves an entry: the service, the log, the frame's action, and the signal of the
resume object (R377, R440). -/
def State.serve (s : State) (stk : Fin 8) (e : SvcEntry) : State :=
  let r := s.svcInfo e.t
  match r.2 with
  | none => r.1
  | some i =>
    let q := (r.1.log (.service i.cause i.epc i.info)).svcAction stk e.t i
    let s := q.1.frameSet e.t 0x188 (BitVec.ofNat 64 q.2)
    let o := s.resumeObject e.t
    match o.2 with
    | some (pa, nc) => o.1.objUpdate (8 + stk.val) pa (Obj.sig 0 0) nc
    | none => o.1

/-- Kyrek firmware takes a task trap, serves it and returns (R132, R376, R440): the trap words stay, and the core goes on
where it was. -/
def State.kyrekTrap (s : State) (stk : Fin 8) (e : SvcEntry) : State :=
  let s := s.mapCore (.sup stk) fun c => { c with epc := c.pc, cause := 0x0030, info := e.frame }
  s.serve stk e

/-- TASK_TRAP_SERVICE: the supervisor core takes the next entry; `kyrek` says that the part runs Kyrek's
firmware, whose whole service is then this step. -/
def execTaskTrapService (stk : Fin 8) (kyrek : Bool) (s : State) : Out :=
  if s.supReady stk then
    let r := s.takeService stk
    match r.2 with
    | none => .next s
    | some e => .next (if kyrek then r.1.kyrekTrap stk e else r.1.taskTrap stk e)
  else .next s

end Sys2Proof.Machine
end

