-- ==== Sys2Proof/Machine/Dispatch.lean ====
section
/-!
DEFINITION. The dispatch: one arm for each row of the opcode table, each one direct call of that
row's meaning.
-/
namespace Sys2Proof.Machine
open Sys2Proof

def exec (i : Instr) (s : State) : Host.Outcome State Fault Refusal :=
  match i with
  | .add d a b => Sys2Proof.Machine.execAdd d a b s
  | .sub d a b => Sys2Proof.Machine.execSub d a b s
  | .and d a b => Sys2Proof.Machine.execAnd d a b s
  | .or d a b => Sys2Proof.Machine.execOr d a b s
  | .xor d a b => Sys2Proof.Machine.execXor d a b s
  | .shl d a b => Sys2Proof.Machine.execShl d a b s
  | .shr d a b => Sys2Proof.Machine.execShr d a b s
  | .sra d a b => Sys2Proof.Machine.execSra d a b s
  | .slt d a b => Sys2Proof.Machine.execSlt d a b s
  | .sltn d a b => Sys2Proof.Machine.execSltn d a b s
  | .min d a b => Sys2Proof.Machine.execMin d a b s
  | .max d a b => Sys2Proof.Machine.execMax d a b s
  | .minn d a b => Sys2Proof.Machine.execMinn d a b s
  | .maxn d a b => Sys2Proof.Machine.execMaxn d a b s
  | .fshl d a b k => Sys2Proof.Machine.execFshl d a b k s
  | .fshr d a b k => Sys2Proof.Machine.execFshr d a b k s
  | .mul d a b => Sys2Proof.Machine.execMul d a b s
  | .mulh d a b => Sys2Proof.Machine.execMulh d a b s
  | .mulhn d a b => Sys2Proof.Machine.execMulhn d a b s
  | .div d a b => Sys2Proof.Machine.execDiv d a b s
  | .divn d a b => Sys2Proof.Machine.execDivn d a b s
  | .rem d a b => Sys2Proof.Machine.execRem d a b s
  | .remn d a b => Sys2Proof.Machine.execRemn d a b s
  | .clz d a => Sys2Proof.Machine.execClz d a s
  | .ctz d a => Sys2Proof.Machine.execCtz d a s
  | .popc d a => Sys2Proof.Machine.execPopc d a s
  | .sext d a k => Sys2Proof.Machine.execSext d a k s
  | .zext d a k => Sys2Proof.Machine.execZext d a k s
  | .addi d a imm => Sys2Proof.Machine.execAddi d a imm s
  | .andi d a imm => Sys2Proof.Machine.execAndi d a imm s
  | .ori d a imm => Sys2Proof.Machine.execOri d a imm s
  | .xori d a imm => Sys2Proof.Machine.execXori d a imm s
  | .shli d a n => Sys2Proof.Machine.execShli d a n s
  | .shri d a n => Sys2Proof.Machine.execShri d a n s
  | .srai d a n => Sys2Proof.Machine.execSrai d a n s
  | .slti d a imm => Sys2Proof.Machine.execSlti d a imm s
  | .lih d imm => Sys2Proof.Machine.execLih d imm s
  | .beq a b off => Sys2Proof.Machine.execBeq a b off s
  | .bne a b off => Sys2Proof.Machine.execBne a b off s
  | .blt a b off => Sys2Proof.Machine.execBlt a b off s
  | .bge a b off => Sys2Proof.Machine.execBge a b off s
  | .bltn a b off => Sys2Proof.Machine.execBltn a b off s
  | .bgen a b off => Sys2Proof.Machine.execBgen a b off s
  | .jal d off => Sys2Proof.Machine.execJal d off s
  | .jalr d a imm => Sys2Proof.Machine.execJalr d a imm s
  | .ld d a sz pol off => Sys2Proof.Machine.execLd d a sz pol off s
  | .st d a sz pol off => Sys2Proof.Machine.execSt d a sz pol off s
  | .lda d a sz pol scp off => Sys2Proof.Machine.execLda d a sz pol scp off s
  | .stl d a sz pol scp off => Sys2Proof.Machine.execStl d a sz pol scp off s
  | .amoSwap d a sz scp pl => Sys2Proof.Machine.execAmoSwap d a sz scp pl s
  | .amoAdd d a sz scp pl => Sys2Proof.Machine.execAmoAdd d a sz scp pl s
  | .amoAnd d a sz scp pl => Sys2Proof.Machine.execAmoAnd d a sz scp pl s
  | .amoOr d a sz scp pl => Sys2Proof.Machine.execAmoOr d a sz scp pl s
  | .amoXor d a sz scp pl => Sys2Proof.Machine.execAmoXor d a sz scp pl s
  | .amoMin d a sz scp pl => Sys2Proof.Machine.execAmoMin d a sz scp pl s
  | .amoMax d a sz scp pl => Sys2Proof.Machine.execAmoMax d a sz scp pl s
  | .amoMinn d a sz scp pl => Sys2Proof.Machine.execAmoMinn d a sz scp pl s
  | .amoMaxn d a sz scp pl => Sys2Proof.Machine.execAmoMaxn d a sz scp pl s
  | .cas d a b sz scp => Sys2Proof.Machine.execCas d a b sz scp s
  | .casNear d a b sz scp => Sys2Proof.Machine.execCasNear d a b sz scp s
  | .casFar d a b sz scp => Sys2Proof.Machine.execCasFar d a b sz scp s
  | .cwr d w => Sys2Proof.Machine.execCwr d w s
  | .cww a w => Sys2Proof.Machine.execCww a w s
  | .cws a w => Sys2Proof.Machine.execCws a w s
  | .cwc a w => Sys2Proof.Machine.execCwc a w s
  | .trap k => Sys2Proof.Machine.execTrap k s
  | .eret => Sys2Proof.Machine.execEret s
  | .fence scp => Sys2Proof.Machine.execFence scp s
  | .fenceAcq scp => Sys2Proof.Machine.execFenceAcq scp s
  | .fenceRel scp => Sys2Proof.Machine.execFenceRel scp s
  | .fenceFetch scp => Sys2Proof.Machine.execFenceFetch scp s
  | .tfence => Sys2Proof.Machine.execTfence s
  | .scommit d => Sys2Proof.Machine.execScommit d s
  | .sabort d => Sys2Proof.Machine.execSabort d s
  | .etrig => Sys2Proof.Machine.execEtrig s
  | .exit => Sys2Proof.Machine.execExit s
  | .yield => Sys2Proof.Machine.execYield s
  | .vsetl d a b => Sys2Proof.Machine.execVsetl d a b s
  | .vf off => Sys2Proof.Machine.execVf off s
  | .launch c a b => Sys2Proof.Machine.execLaunch c a b s
  | .wait e c a wrap => Sys2Proof.Machine.execWait e c a wrap s
  | .poll e c a wrap => Sys2Proof.Machine.execPoll e c a wrap s
  | .arrive e c a b => Sys2Proof.Machine.execArrive e c a b s
  | .csigSig c a b => Sys2Proof.Machine.execCsigSig c a b s
  | .csigSet c a => Sys2Proof.Machine.execCsigSet c a s
  | .rowact e c a b => Sys2Proof.Machine.execRowact e c a b s
  | .rowcls c a => Sys2Proof.Machine.execRowcls c a s
  | .rowcon w cl c a b => Sys2Proof.Machine.execRowcon w cl c a b s
  | .cbld c a b => Sys2Proof.Machine.execCbld c a b s
  | .tbld c a b e => Sys2Proof.Machine.execTbld c a b e s
  | .lka c a b e => Sys2Proof.Machine.execLka c a b e s
  | .aclr c a => Sys2Proof.Machine.execAclr c a s
  | .adrn c a b => Sys2Proof.Machine.execAdrn c a b s
  | .kvlook c a => Sys2Proof.Machine.execKvlook c a s
  | .kvins c a b e => Sys2Proof.Machine.execKvins c a b e s
  | .kvpin c a b => Sys2Proof.Machine.execKvpin c a b s
  | .kvunpin c a b => Sys2Proof.Machine.execKvunpin c a b s
  | .kvapp c a b e => Sys2Proof.Machine.execKvapp c a b e s
  | .kvsig c a => Sys2Proof.Machine.execKvsig c a s
  | .kvbindBind a b => Sys2Proof.Machine.execKvbindBind a b s
  | .kvbindSave a b => Sys2Proof.Machine.execKvbindSave a b s
  | .kvbindUnbind a b => Sys2Proof.Machine.execKvbindUnbind a b s
  | .cpy c a b e => Sys2Proof.Machine.execCpy c a b e s
  | .cpys c a b e => Sys2Proof.Machine.execCpys c a b e s
  | .illegalEncoding word => Sys2Proof.Machine.execIllegalEncoding word s
  | .convoyCheck => Sys2Proof.Machine.execConvoyCheck s
  | .stop cv => Sys2Proof.Machine.execStop cv s
  | .vadd h ty d a b sat => Sys2Proof.Machine.execVadd h ty d a b sat s
  | .vsub h ty d a b sat => Sys2Proof.Machine.execVsub h ty d a b sat s
  | .vmul h ty d a b sat => Sys2Proof.Machine.execVmul h ty d a b sat s
  | .vmulh h ty d a b => Sys2Proof.Machine.execVmulh h ty d a b s
  | .vmin h ty d a b => Sys2Proof.Machine.execVmin h ty d a b s
  | .vmax h ty d a b => Sys2Proof.Machine.execVmax h ty d a b s
  | .vminn h ty d a b => Sys2Proof.Machine.execVminn h ty d a b s
  | .vmaxn h ty d a b => Sys2Proof.Machine.execVmaxn h ty d a b s
  | .vand h ty d a b => Sys2Proof.Machine.execVand h ty d a b s
  | .vor h ty d a b => Sys2Proof.Machine.execVor h ty d a b s
  | .vxor h ty d a b => Sys2Proof.Machine.execVxor h ty d a b s
  | .vshl h ty d a b => Sys2Proof.Machine.execVshl h ty d a b s
  | .vshr h ty d a b => Sys2Proof.Machine.execVshr h ty d a b s
  | .vsra h ty d a b => Sys2Proof.Machine.execVsra h ty d a b s
  | .vfshl h ty d a b k => Sys2Proof.Machine.execVfshl h ty d a b k s
  | .vfshr h ty d a b k => Sys2Proof.Machine.execVfshr h ty d a b k s
  | .vpopc h ty d a => Sys2Proof.Machine.execVpopc h ty d a s
  | .vclz h ty d a => Sys2Proof.Machine.execVclz h ty d a s
  | .vabs h ty d a => Sys2Proof.Machine.execVabs h ty d a s
  | .vsatn h ty d a m u => Sys2Proof.Machine.execVsatn h ty d a m u s
  | .vcmp h ty d a b cond => Sys2Proof.Machine.execVcmp h ty d a b cond s
  | .vsel h ty d a b => Sys2Proof.Machine.execVsel h ty d a b s
  | .vmov h ty d a => Sys2Proof.Machine.execVmov h ty d a s
  | .vmovx h ty d b e => Sys2Proof.Machine.execVmovx h ty d b e s
  | .vext cv ty d a e => Sys2Proof.Machine.execVext cv ty d a e s
  | .vidx h ty d a src => Sys2Proof.Machine.execVidx h ty d a src s
  | .vmand h d a b => Sys2Proof.Machine.execVmand h d a b s
  | .vmor h d a b => Sys2Proof.Machine.execVmor h d a b s
  | .vmxor h d a b => Sys2Proof.Machine.execVmxor h d a b s
  | .vmnot h d a => Sys2Proof.Machine.execVmnot h d a s
  | .vmcnt h d a => Sys2Proof.Machine.execVmcnt h d a s
  | .vmfirst h d a => Sys2Proof.Machine.execVmfirst h d a s
  | .vfadd h ty d a b rm => Sys2Proof.Machine.execVfadd h ty d a b rm s
  | .vfsub h ty d a b rm => Sys2Proof.Machine.execVfsub h ty d a b rm s
  | .vfmul h ty d a b rm => Sys2Proof.Machine.execVfmul h ty d a b rm s
  | .vfma h ty d a b rm => Sys2Proof.Machine.execVfma h ty d a b rm s
  | .vfmin h ty d a b => Sys2Proof.Machine.execVfmin h ty d a b s
  | .vfmax h ty d a b => Sys2Proof.Machine.execVfmax h ty d a b s
  | .vfdiv h ty d a b rm => Sys2Proof.Machine.execVfdiv h ty d a b rm s
  | .vfrcp h ty d a rm => Sys2Proof.Machine.execVfrcp h ty d a rm s
  | .vfrsq h ty d a rm => Sys2Proof.Machine.execVfrsq h ty d a rm s
  | .vfexp2 h ty d a rm => Sys2Proof.Machine.execVfexp2 h ty d a rm s
  | .vflog2 h ty d a rm => Sys2Proof.Machine.execVflog2 h ty d a rm s
  | .vfcmp h ty d a b cond => Sys2Proof.Machine.execVfcmp h ty d a b cond s
  | .vfcvt h ty d a rm src p => Sys2Proof.Machine.execVfcvt h ty d a rm src p s
  | .vicvt h ty d a rm src p => Sys2Proof.Machine.execVicvt h ty d a rm src p s
  | .vrsum h ty d a sat => Sys2Proof.Machine.execVrsum h ty d a sat s
  | .vrmax h ty d a => Sys2Proof.Machine.execVrmax h ty d a s
  | .vrmin h ty d a => Sys2Proof.Machine.execVrmin h ty d a s
  | .vrmaxi h ty d a b => Sys2Proof.Machine.execVrmaxi h ty d a b s
  | .vrmini h ty d a b => Sys2Proof.Machine.execVrmini h ty d a b s
  | .vrand h ty d a => Sys2Proof.Machine.execVrand h ty d a s
  | .vror h ty d a => Sys2Proof.Machine.execVror h ty d a s
  | .vrxor h ty d a => Sys2Proof.Machine.execVrxor h ty d a s
  | .vfrsum h ty d a rm wide => Sys2Proof.Machine.execVfrsum h ty d a rm wide s
  | .vfrmax h ty d a => Sys2Proof.Machine.execVfrmax h ty d a s
  | .vgred h ty d a gs op sat => Sys2Proof.Machine.execVgred h ty d a gs op sat s
  | .vshuf h ty d a b gs => Sys2Proof.Machine.execVshuf h ty d a b gs s
  | .vslup h ty d a b gs => Sys2Proof.Machine.execVslup h ty d a b gs s
  | .vsldn h ty d a b gs => Sys2Proof.Machine.execVsldn h ty d a b gs s
  | .vbcast h ty d a b gs => Sys2Proof.Machine.execVbcast h ty d a b gs s
  | .vcmprs cv ty d a sel => Sys2Proof.Machine.execVcmprs cv ty d a sel s
  | .vexpnd cv ty d a sel => Sys2Proof.Machine.execVexpnd cv ty d a sel s
  | .vscan h ty d a gs op excl sat => Sys2Proof.Machine.execVscan h ty d a gs op excl sat s
  | .opa h ty q a b alt => Sys2Proof.Machine.execOpa h ty q a b alt s
  | .sqz cv q => Sys2Proof.Machine.execSqz cv q s
  | .sqcp cv d a tr => Sys2Proof.Machine.execSqcp cv d a tr s
  | .sqcvt cv ty d a rm => Sys2Proof.Machine.execSqcvt cv ty d a rm s
  | .vld h ty d a m => Sys2Proof.Machine.execVld h ty d a m s
  | .vlds h ty d a b m => Sys2Proof.Machine.execVlds h ty d a b m s
  | .vldx h ty d a b m => Sys2Proof.Machine.execVldx h ty d a b m s
  | .vst h ty src a m => Sys2Proof.Machine.execVst h ty src a m s
  | .vsts h ty src a b m => Sys2Proof.Machine.execVsts h ty src a b m s
  | .vstx h ty src a b m => Sys2Proof.Machine.execVstx h ty src a b m s
  | .vstb h src a b m => Sys2Proof.Machine.execVstb h src a b m s
  | .vamo h ty src a b op pl ord => Sys2Proof.Machine.execVamo h ty src a b op pl ord s
  | .kvhash cv d a b => Sys2Proof.Machine.execKvhash cv d a b s
  | .vsign cv d a q => Sys2Proof.Machine.execVsign cv d a q s
  | .qkdot h d a st => Sys2Proof.Machine.execQkdot h d a st s
  | .pvacc h q ix a st => Sys2Proof.Machine.execPvacc h q ix a st s
  | .streamPrefetch t st => Sys2Proof.Machine.execStreamPrefetch t st s
  | .taskTrapService stk kyrek => Sys2Proof.Machine.execTaskTrapService stk kyrek s
  | .taskResume t => Sys2Proof.Machine.execTaskResume t s
  | .hostQueueTail q value => Sys2Proof.Machine.execHostQueueTail q value s
  | .hostRecordCheck q => Sys2Proof.Machine.execHostRecordCheck q s
  | .launchEnqueue => Sys2Proof.Machine.execLaunchEnqueue s
  | .farmSlotAssign => Sys2Proof.Machine.execFarmSlotAssign s
  | .dependenceSatisfied slot => Sys2Proof.Machine.execDependenceSatisfied slot s
  | .readyTaskCreate slot => Sys2Proof.Machine.execReadyTaskCreate slot s
  | .taskPlace stk => Sys2Proof.Machine.execTaskPlace stk s
  | .preemptRequest stk => Sys2Proof.Machine.execPreemptRequest stk s
  | .preemptAck stk u => Sys2Proof.Machine.execPreemptAck stk u s
  | .preemptComplete stk => Sys2Proof.Machine.execPreemptComplete stk s
  | .waitTimeoutPark t => Sys2Proof.Machine.execWaitTimeoutPark t s
  | .waitWake t => Sys2Proof.Machine.execWaitWake t s
  | .farmClose slot => Sys2Proof.Machine.execFarmClose slot s
  | .cbldExecute stk => Sys2Proof.Machine.execCbldExecute stk s
  | .tbldExecute stk => Sys2Proof.Machine.execTbldExecute stk s
  | .tbldGroupWrite stk => Sys2Proof.Machine.execTbldGroupWrite stk s
  | .lkaStart t => Sys2Proof.Machine.execLkaStart t s
  | .lkaComplete t => Sys2Proof.Machine.execLkaComplete t s
  | .aclrExecute t => Sys2Proof.Machine.execAclrExecute t s
  | .adrnStart t => Sys2Proof.Machine.execAdrnStart t s
  | .adrnComplete t => Sys2Proof.Machine.execAdrnComplete t s
  | .versionWaitExpiry t => Sys2Proof.Machine.execVersionWaitExpiry t s
  | .rowConsumable b => Sys2Proof.Machine.execRowConsumable b s
  | .rowOpenLimit b => Sys2Proof.Machine.execRowOpenLimit b s
  | .refreshPreclose b => Sys2Proof.Machine.execRefreshPreclose b s
  | .refreshWindowStart b => Sys2Proof.Machine.execRefreshWindowStart b s
  | .refreshWindowEnd b => Sys2Proof.Machine.execRefreshWindowEnd b s
  | .bankCloseEnd b => Sys2Proof.Machine.execBankCloseEnd b s
  | .rowTransfer stk col => Sys2Proof.Machine.execRowTransfer stk col s
  | .rowclsClose b => Sys2Proof.Machine.execRowclsClose b s
  | .foldDramAccess b row => Sys2Proof.Machine.execFoldDramAccess b row s
  | .gets r line acq => Sys2Proof.Machine.execGets r line acq s
  | .geto r line acq => Sys2Proof.Machine.execGeto r line acq s
  | .read r line words acq => Sys2Proof.Machine.execRead r line words acq s
  | .write r line en data => Sys2Proof.Machine.execWrite r line en data s
  | .far r pa sz op v acq => Sys2Proof.Machine.execFar r pa sz op v acq s
  | .puto a line => Sys2Proof.Machine.execPuto a line s
  | .marker a line => Sys2Proof.Machine.execMarker a line s
  | .dirtyNotice a fold => Sys2Proof.Machine.execDirtyNotice a fold s
  | .invalidation a line => Sys2Proof.Machine.execInvalidation a line s
  | .pull a line => Sys2Proof.Machine.execPull a line s
  | .recall a line => Sys2Proof.Machine.execRecall a line s
  | .forward a line => Sys2Proof.Machine.execForward a line s
  | .forcedPublish a line => Sys2Proof.Machine.execForcedPublish a line s
  | .pageWalk stk => Sys2Proof.Machine.execPageWalk stk s
  | .pageWalkResult stk => Sys2Proof.Machine.execPageWalkResult stk s
  | .shootdownExecute stk => Sys2Proof.Machine.execShootdownExecute stk s
  | .shootdownComplete stk => Sys2Proof.Machine.execShootdownComplete stk s
  | .hostShootdownDoorbell => Sys2Proof.Machine.execHostShootdownDoorbell s
  | .kvLookup stk => Sys2Proof.Machine.execKvLookup stk s
  | .kvSeal stk => Sys2Proof.Machine.execKvSeal stk s
  | .kvDemote stk => Sys2Proof.Machine.execKvDemote stk s
  | .kvPromote stk => Sys2Proof.Machine.execKvPromote stk s
  | .kvAbsent stk => Sys2Proof.Machine.execKvAbsent stk s
  | .kvRemove stk => Sys2Proof.Machine.execKvRemove stk s
  | .kvPin stk => Sys2Proof.Machine.execKvPin stk s
  | .kvUnpin stk => Sys2Proof.Machine.execKvUnpin stk s
  | .kvAppend stk => Sys2Proof.Machine.execKvAppend stk s
  | .kvSign stk => Sys2Proof.Machine.execKvSign stk s
  | .copyStart stk => Sys2Proof.Machine.execCopyStart stk s
  | .copyChunkLand stk n chunk => Sys2Proof.Machine.execCopyChunkLand stk n chunk s
  | .copyEnd stk n => Sys2Proof.Machine.execCopyEnd stk n s
  | .chaseElementRead t => Sys2Proof.Machine.execChaseElementRead t s
  | .packetReject node port len wire => Sys2Proof.Machine.execPacketReject node port len wire s
  | .linkRetrainFail stk port => Sys2Proof.Machine.execLinkRetrainFail stk port s
  | .rdmaWriteIn req va data => Sys2Proof.Machine.execRdmaWriteIn req va data s
  | .rdmaReadIn req va n => Sys2Proof.Machine.execRdmaReadIn req va n s
  | .sendIn qp payload imm => Sys2Proof.Machine.execSendIn qp payload imm s
  | .rdmaAtomicIn qp => Sys2Proof.Machine.execRdmaAtomicIn qp s
  | .physicalRegionAccess req off n data => Sys2Proof.Machine.execPhysicalRegionAccess req off n data s
  | .powerOn img => Sys2Proof.Machine.execPowerOn img s
  | .recoveryImage img => Sys2Proof.Machine.execRecoveryImage img s
  | .thermalTrip => Sys2Proof.Machine.execThermalTrip s
  | .stackReturnToOn stk => Sys2Proof.Machine.execStackReturnToOn stk s
  | .setgrade args => Sys2Proof.Machine.execSetgrade args s
  | .stackstate args => Sys2Proof.Machine.execStackstate args s
  | .setcap args => Sys2Proof.Machine.execSetcap args s
  | .fencecol args => Sys2Proof.Machine.execFencecol args s
  | .settrip args => Sys2Proof.Machine.execSettrip args s
  | .attest args => Sys2Proof.Machine.execAttest args s
  | .setasiddir args => Sys2Proof.Machine.execSetasiddir args s
  | .bindqueue args => Sys2Proof.Machine.execBindqueue args s
  | .qpsetup args => Sys2Proof.Machine.execQpsetup args s
  | .setwindow args => Sys2Proof.Machine.execSetwindow args s
  | .setrkey args => Sys2Proof.Machine.execSetrkey args s
  | .setring args => Sys2Proof.Machine.execSetring args s
  | .homewatch args => Sys2Proof.Machine.execHomewatch args s
  | .homering args => Sys2Proof.Machine.execHomering args s
  | .abortfarm args => Sys2Proof.Machine.execAbortfarm args s
  | .fenceedge args => Sys2Proof.Machine.execFenceedge args s
  | .readcounts args => Sys2Proof.Machine.execReadcounts args s
  | .readlog args => Sys2Proof.Machine.execReadlog args s
  | .physwindow args => Sys2Proof.Machine.execPhyswindow args s
  | .unknownHostCommand code => Sys2Proof.Machine.execUnknownHostCommand code s
  | .packageUnpowered => Sys2Proof.Machine.execPackageUnpowered s
  | .queuePairError qp => Sys2Proof.Machine.execQueuePairError qp s
  | .linkRetrain stk port => Sys2Proof.Machine.execLinkRetrain stk port s
  | .gradeSwitchEnd => Sys2Proof.Machine.execGradeSwitchEnd s

end Sys2Proof.Machine
end

