-- ==== Sys2Proof/Machine/Schedule.lean ====
section
/-!
DEFINITION. What surrounds the instructions: the time that passes before a move, the moves hardware
makes without a row of the opcode table, the wait of a stepped engine operation, and what the Drover
and the parked tasks see of objects after each step (R91, R203, R216, R222, R227, R291, R377, R390, R399).
-/
namespace Sys2Proof.Machine
open Sys2Proof

/-! ## Time (R274-R278, R311) -/

/-- The bank a key of the bank table names. -/
def bankOfKey (k : Nat) : BankId := ⟨Fin.ofNat 8 (k / 1024), Fin.ofNat 64 (k / 16), Fin.ofNat 16 k⟩

/-- An accepted ROWCLS of a bank's row waits for no earlier ROWCON (R287). -/
def State.closeReady (s : State) (b : BankId) (k : Bank) : Bool :=
  s.dram.cmds.any fun c => c.ofBank b k && c.close && c.slot.isNone &&
    !(s.dram.cmds.any fun q => q.ofBank b k && q.slot.isSome && q.hdr.seq < c.hdr.seq)

/-- The instants at which a bank's next moves are due. -/
def State.bankDue (s : State) (b : BankId) (k : Bank) : List Nat :=
  let open_ := (k.tAct + 2000) :: ((s.refreshIn b).map fun r => s.now + r - 12).toList
  match k.st with
  | .idle => []
  | .act => (k.tAct + 16) :: open_
  | .open => (if k.byFold then [k.tAct + 20] else if s.closeReady b k then [s.now] else []) ++ open_
  | .close => [k.tIn + 12]
  | .ref => [k.tIn + 350]

/-- The instants at which the transfers that can begin end, where the tiles run (R284). -/
def State.transferDue (s : State) : List Nat :=
  s.dram.cmds.filterMap fun c => if s.tilesRun c.bank.stk then (s.transferStart c).map (· + 4) else none

/-- When a column's next refresh window starts; now, where one has started and a bank of its layer is still IDLE
(R274, R277). -/
def State.windowDue (s : State) (t : Fin 64) : Nat :=
  let p := refreshPhase t.val s.sinceTick0
  if p.act && (List.finRange 8).any fun k => (s.bank ⟨k, t, Fin.ofNat 16 p.layer⟩).st == .idle then s.now else s.now + p.next

/-- The instants at which refresh windows start, on every stack alike, from tick 0 on (R277). -/
def State.windowsDue (s : State) : List Nat := if s.tick0.isNone then [] else (List.finRange 64).map s.windowDue

/-- The ns that can pass before a bank's move, a refresh window or a transfer is due: the hardware's own moves keep their
instants. -/
def State.slack (s : State) (dt : Nat) : Nat :=
  if dt = 0 then 0
  else
    let due := s.dram.banks.flatMap (fun (b : Nat × Bank) => s.bankDue (bankOfKey b.1) b.2) ++ s.windowsDue ++ s.transferDue
    due.foldl (fun d t => Nat.min d (t - s.now)) dt

/-- A held LKA or ADRN ages while its issuer is resident (R311). -/
def TileCmd.age (c : TileCmd) (res : Bool) (dt : Nat) : TileCmd :=
  if res && (c.op == .lka || c.op == .adrn) then { c with waited := c.waited + dt } else c

/-- The compute clock in MHz at each grade (R24, R396, R399). -/
def State.clockMHz (s : State) : Nat :=
  if s.ursol.hold then 600
  else match s.ursol.grade with
    | 0 => 1900
    | 1 => 1600
    | 2 => 1200
    | 3 => 600

/-- An unsatisfied WAIT ages by the cycles of its core's clock, which stands still during a switch (R396). -/
def Core.waitOn (c : Core) (thousandths : Nat) : Core :=
  { c with task := { c.task with waiting := c.task.waiting.map fun w => { w with age := w.age + thousandths } } }

/-- Time passes, up to the next instant at which a bank moves; transfers begin meanwhile. -/
def State.advance (s : State) (dt : Nat) : State :=
  let d := s.slack dt
  let cycles := if s.ursol.switching then 0 else d * s.clockMHz
  { s with
    core := s.core.waitOn cycles
    others := s.others.map fun c => c.waitOn cycles
    now := s.now + d
    tiles := { s.tiles with cmds := s.tiles.cmds.map fun c => c.age (s.resident c.hdr) d } : State }.beginTransfers

/-- A step of the second part of the opcode table: no word encodes it. -/
def isEvent (i : Instr) : Bool :=
  match i with
  | .illegalEncoding _ | .convoyCheck => false
  | i => (encode i).isNone

/-- In step-join mode the task waits for the operation it issued; then the operation's fault is
delivered first, and then the step trap taken (R390). None where nothing is awaited; a task whose step was cleared
meanwhile has no step trap due. -/
def State.joinWait (s : State) : Option State :=
  match s.core.id, s.core.task.joinOp with
  | .task t, some j =>
    if s.opHdrs.any fun h => h.seq == j.seq then some s
    else
      let now := { s with core := { s.core with task := { s.core.task with joinOp := none } } }
      match j.obj.bind fun o => s.pendingRecord (some o) with
      | some (_, m) =>
        some (({ s with core := { s.core with task := { s.core.task with joinOp := some { j with obj := none } } } }).deliverAt t m j.ipc s.core.pc)
      | none =>
        if s.core.task.step then some (now.takeTrap { code := 0x0021, info := s.core.pc.setWidth 64, epc := j.ipc, resume := s.core.pc })
        else some now
  | _, _ => none

/-! ## Reports of the Fold (R91, R377, R392) -/

/-- Dependence k of a farm as the Fold reports it: satisfied once, it stays so (R91). -/
def State.seenDep (s : State) (unreg : List Nat) (k : Nat) (d : Option Nat × W32 × Bool) : Option Nat × W32 × Bool :=
  match d.1 with
  | some pa =>
    if !d.2.2 && !unreg.contains k && reachable s.ursol pa && d.2.1.toNat ≤ objCount s.mem pa then (d.1, d.2.1, true) else d
  | none => d

/-- The dependences of a farm, from number k on. -/
def State.seenDeps (s : State) (unreg : List Nat) : Nat → List (Option Nat × W32 × Bool) → List (Option Nat × W32 × Bool)
  | _, [] => []
  | k, d :: r => s.seenDep unreg k d :: s.seenDeps unreg (k + 1) r

/-- What the Drover learns of a farm. -/
def State.seenFarm (s : State) (f : Farm) : Farm :=
  if f.st == .waiting then { f with deps := s.seenDeps f.unreg 0 f.deps } else f

/-- What the Drover learns of a parked task's object. -/
def State.seenWake (s : State) : Wake → Wake
  | .resume pa sig => .resume pa (sig || (reachable s.ursol pa && 1 ≤ objCount s.mem pa))
  | .waitObj pa t w met => .waitObj pa t w (met || (reachable s.ursol pa && countReached (objCount s.mem pa) t.toNat w))
  | .ready => .ready

/-- What an entry of the watch ring holds (R392): the line, its watched words with their value at home, the writer, the
notice mark, an engine write's ASID and an RDMA access's queue pair (0 for none, else one more than it). -/
def HomeHit.contents (h : HomeHit) : List Nat :=
  [h.line, h.words.toNat, h.who, if h.notice then 1 else 0, h.value.toNat, (h.asid.map fun a => a.toNat + 1).getD 0, (h.qp.map (· + 1)).getD 0]

/-- The hub writes an entry of the watch ring: its contents in 32 bytes whose layout the manual does not give (FREE
VALUE, log entry 10). -/
def ringEntry (base size n : Nat) (h : HomeHit) (ms : MemSys) : MemSys :=
  engineWrite ms hostAgent (base + 32 * (n % size)) ((List.range 32).map (Config.ringByte n h.contents))

/-- The hits that wait are written to the host's ring, and counted (R392, R394). -/
def State.writeRing (s : State) : State :=
  match s.mem.ring with
  | none => s
  | some (base, size) => match s.mem.hits[s.mem.ringDone]? with
    | none => s
    | some h =>
      if reachable s.ursol (base + 32 * (s.mem.ringDone % size)) then
        ({ s with mem := ringEntry base size s.mem.ringDone h { s.mem with ringDone := s.mem.ringDone + 1 } } : State).countRing
      else s

/-- The stores of copies and the Folds' caches hold what they have places for (R16, R214). -/
def State.keepSizes (s : State) : State := { s with mem := s.mem.trim }

/-- What follows every step: tasks that waited for their engine operations end (R110), the Folds report dependences
that have been reached (R91) and updates that wake parked tasks (R377), the watch ring is written (R392), caches
evict what they have no place for, and the tiles see which transfers could go (R284). -/
def State.observe (s : State) : State :=
  let s := s.endDue
  let farms := s.drover.farms.map fun (f : Nat × Farm) => (f.1, s.seenFarm f.2)
  let parked := s.parked.map fun p => { p with wake := s.seenWake p.wake }
  ({ s with drover := { s.drover with farms := farms }, parked := parked }).writeRing.keepSizes.noteTransfers

/-! ## Moves without a row -/

/-- One more in a column's error count (R291). -/
def countUp (m : FMap Nat) (col : Nat) : FMap Nat := finsert m col (fget m col 0 + 1)

/-- A DRAM word goes bad (R227). -/
def State.wordBad (s : State) (w : Nat) : State :=
  if isDram (8 * w) && !s.mem.bad.contains w then { s with mem := { s.mem with bad := s.mem.bad ++ [w] } } else s

/-- A DRAM word gets a single-bit error, which every read of it corrects (R284, R291). -/
def State.wordWeak (s : State) (w : Nat) : State :=
  if isDram (8 * w) && !s.mem.weak.contains w then { s with mem := { s.mem with weak := s.mem.weak ++ [w] } } else s

/-- A tile SRAM word goes bad (R315, R319). -/
def State.sramBad (s : State) (p : SramPart) (w : Nat) : State :=
  { s with tiles := match p with
    | .table => { s.tiles with badTable := s.tiles.badTable ++ [w] }
    | .slot => { s.tiles with badSlot := s.tiles.badSlot ++ [w] }
    | .acc => { s.tiles with badAcc := s.tiles.badAcc ++ [w] } }

/-- A running task reads a pool page with an uncorrectable error (R375, code 0x0025). -/
def State.poolBad (s : State) (t : TaskId) (page : Nat) : State :=
  match s.focus (.task t) with
  | some s =>
    if page < s.core.task.share && !s.isEnding t && !s.core.task.midRead then
      s.takeTrap { code := 0x0025, info := BitVec.ofNat 64 page, epc := if s.core.inBlock then s.core.bpc else s.core.pc, resume := s.core.pc }
    else s
  | none => s

/-- The moves of hardware that have no row of their own, in a package that has power (R1). Those of the SVPs, the walkers
and the Folds stand still while the grade switches (R396), and no walk is made for the scratchpad window (R192). -/
def State.hardwareMove (s : State) (m : Move) : State :=
  if s.ursol.boot == .unpowered then s
  else
    let clocked := fun t => if s.ursol.switching then s else t
    match m with
    | .evictCopy a line => clocked { s with mem := evictCopy s.mem a.val line }
    | .evictHome line => clocked { s with mem := evictHome s.mem line }
    | .tlbDrop n => clocked { s with mem := { s.mem with tlb := s.mem.tlb.eraseIdx n } }
    | .walkRequest m => clocked (if isOn s.ursol m.stk.val && m.va64k * 65536 < scratchBase then { s with mem := admitMiss s.mem m } else s)
    | .badWord w => s.wordBad w
    | .weakWord w => s.wordWeak w
    | .correctedWord col => { s with dram := { s.dram with corrected := countUp s.dram.corrected col } }
    | .badSram p w => s.sramBad p w
    | .badPool t page => clocked (s.poolBad t page)
    | .temperature c => { s with ursol := { s.ursol with temp := c } }
    | .crookUnit k => if isOn s.ursol k.val && !s.ursol.switching then s.crookUnit k else s
    | .core .. | .step .. | .tokens .. => s

/-! ## Which steps can run now (R396, R397) -/

/-- The unit that takes a step: a stack's compute parts, the Drover and the Folds, or parts with clocks
of their own. -/
inductive StepUnit where
  | compute (stk : Fin 8)
  | package
  | own
  deriving DecidableEq, Repr

/-- The unit that takes a step of the second part of the opcode table. -/
def State.unitOf (s : State) : Instr → StepUnit
  | .taskTrapService k _ | .preemptAck k _ | .preemptComplete k | .preemptRequest k | .taskPlace k
  | .cbldExecute k | .tbldExecute k | .tbldGroupWrite k | .pageWalk k | .pageWalkResult k
  | .kvLookup k | .kvSeal k | .kvDemote k | .kvPromote k
  | .kvAbsent k | .kvRemove k | .kvPin k | .kvUnpin k | .kvAppend k | .kvSign k | .copyStart k
  | .copyChunkLand k _ _ | .copyEnd k _ => .compute k
  | .rowTransfer k _ => .compute k
  | .lkaStart t | .lkaComplete t | .aclrExecute t | .adrnStart t | .adrnComplete t | .versionWaitExpiry t => .compute t.stk
  | .streamPrefetch t _ | .chaseElementRead t => .compute ((s.farm t.farm.val).lrec.stackOfTask t.tid)
  | .shootdownExecute _ | .shootdownComplete _
  | .hostRecordCheck _ | .launchEnqueue | .farmSlotAssign | .dependenceSatisfied _ | .readyTaskCreate _
  | .waitTimeoutPark _ | .waitWake _ | .taskResume _ | .farmClose _
  | .gets .. | .geto .. | .read .. | .write .. | .far .. | .puto .. | .marker .. | .dirtyNotice ..
  | .invalidation .. | .pull .. | .recall .. | .forward .. | .forcedPublish .. | .foldDramAccess .. | .sendIn .. | .physicalRegionAccess .. => .package
  | .rdmaWriteIn req _ _ | .rdmaReadIn req _ _ => if req.rkey = Config.hubRkey.toNat then .own else .package
  | _ => .own

/-- A step that power itself takes: the only one of a package without power (R1, R404). -/
def isPowerOn : Instr → Bool
  | .powerOn _ => true
  | _ => false

/-- A step can run: the package has power (R1), during a switch of the grade the compute clocks stand still (R396), and a
stack's compute parts run in the on state only (R397). -/
def State.eventRuns (s : State) (i : Instr) : Bool :=
  (s.ursol.boot != .unpowered || isPowerOn i) && match s.unitOf i with
    | .compute k => isOn s.ursol k.val && !s.ursol.switching
    | .package => !s.ursol.switching
    | .own => true

/-! ## Placing one instruction (the host's interface) -/

/-- A running task of a farm of one task on stack 0, with 64 squares, 64 pages of scratchpad and of
staging each, and a held strip. -/
def demoRec : LaunchRec :=
  { entry := 0x4000000, args := 0, iters := 4, slen := 1, poolw := BitVec.ofNat 32 (64 + 64 * 2 ^ 8 + 64 * 2 ^ 18)
    done := 0x1000, trig := 0, sbase := 0, frame := 0x100000, dobj := [0, 0, 0, 0], dval := [0, 0, 0, 0], ssz := 0, tps := 1
    xlo := 0, xhi := 0, ylo := 0, yhi := 0, prio := 0, asid := 1, hw := 0, smaxb := 4, se16 := true, sa32 := true, clean := true }

def demoFarm : Farm :=
  { lrec := demoRec, queue := 0, prio := 0, st := .running, deps := [], donePa := some 0x1000, trigPa := none
    inherited := 0, nextBase := 1, nextTid := 1 }

/-- The task's core: pc 0x4000000, ASID 1. -/
def demoCore : Core :=
  { id := .task ⟨0, 0⟩, pc := 0x4000000, asid := 1
    task := { strip := 1, held := true, sbase := 0, sq := 64, scr := 64, stg := 64 } }

/-- A 64 MiB leaf that maps an address to itself: rights 2 for RW, 3 for RX, policy .wt. -/
def demoLeaf (n rights : Nat) : TlbEntry :=
  ⟨0, .stack, 1, 1, n, BitVec.ofNat 64 (3 + 4 * rights + 2 ^ 26 * n + 2 * 2 ^ 9)⟩

/-- The package with that task placed: stack 0 on, one 64 MiB leaf for data and one for code, so that
the scalar stream fetches at 0x4000000. -/
def State.withTask (s : State) : State :=
  { s with
    core := demoCore
    others := if s.core.id = .none then s.others else s.core :: s.others
    mem := { s.mem with tlb := [demoLeaf 0 2, demoLeaf 1 3] ++ s.mem.tlb }
    drover := { s.drover with farms := finsert s.drover.farms 0 demoFarm }
    ursol := { s.ursol with boot := .up, stackSts := fset s.ursol.stackSts 0 .on .gate }
    tick0 := some s.now
    sched := [] }

/-- An S-form word in memory where the task's scalar stream fetches next. -/
def State.withScalarWord (s : State) (w : Nat) : State :=
  let s := s.withTask
  { s with mem := { s.mem with cells := writeBytes s.mem.cells 0x4000000 (bytesOf 4 w) } }

/-- An E-form word as the next word of a checked convoy of the task's running block, a STOP behind it. -/
def State.withElementWord (s : State) (w : Nat) : State :=
  let s := s.withTask
  { s with
    mem := { s.mem with cells := writeBytes s.mem.cells 0x4000040 (bytesOf 8 w ++ bytesOf 8 1) }
    core := { s.core with task := { s.core.task with block := some ⟨0x4000040, 0x4000040, if isStopOp (BitVec.ofNat 64 w) then [] else [BitVec.ofNat 64 w], []⟩ } } }

end Sys2Proof.Machine
end

