-- ==== Sys2Proof/Machine/Step.lean ====
section
/-!
DEFINITION. One step of the package: the next move of the schedule, or, with none left, of the current
core.
-/
namespace Sys2Proof.Machine
open Sys2Proof

/-- What follows an instruction in the same step: the reports of the Fold. -/
def settle : Host.Outcome State Fault Refusal → Host.Outcome State Fault Refusal
  | .next s => .next s.observe
  | .fault f => .fault f
  | .refused r => .refused r

/-- Run what a stream of the current core is about to run. -/
def runFetched : Fetched → Host.Outcome State Fault Refusal
  | .ended s => .next s.observe
  | .run s i => settle (exec i s)

/-- A stream of the current core moves (R102). -/
def runStream (s : State) (st : Stream) : Host.Outcome State Fault Refusal :=
  if s.coreRuns then
    match s.joinWait with
    | some s => .next s.observe
    | none => match st with
      | .scalar => runFetched s.fetchScalar
      | .element => runFetched s.fetchElement
  else .next s.observe

/-- An instruction that reads a token for every cell of its loop (R350, R351). -/
def takesTokens : Instr → Bool
  | .qkdot .. | .pvacc .. => true
  | _ => false

/-- The element stream of the current core moves by at most n tokens of a stream consumer, and by nothing else (R354). -/
def runTokens (s : State) (n : Nat) : Host.Outcome State Fault Refusal :=
  if s.coreRuns && s.joinWait.isNone && n != 0 then
    match s.fetchElement with
    | .run u i => if takesTokens i then settle (exec i (u.withQuota (some n))) else .next s.observe
    | .ended _ => .next s.observe
  else .next s.observe

/-- The stream that moves when the schedule names none. -/
def State.stream (s : State) : Stream := if s.core.inBlock then .element else .scalar

/-- One step. -/
def step (s : State) : Host.Outcome State Fault Refusal :=
  match s.sched with
  | [] => runStream s s.stream
  | t :: rest =>
    let s := ({ s with sched := rest }).advance t.dt
    match t.move with
    | .core c st => match s.focus c with
      | some s => runStream s st
      | none => .fault .noSuchCore
    | .tokens c n => match s.focus c with
      | some s => runTokens s n
      | none => .fault .noSuchCore
    | .step i => if isEvent i && s.eventRuns i then settle (exec i s) else .next s.observe
    | m => .next (s.hardwareMove m).observe

/-- The state with an instruction placed where the next step runs it: 32 bits for the scalar stream, 64
for the element stream of a running block. -/
def State.withFetchWord (s : State) (nbits w : Nat) : State :=
  if nbits ≤ 32 then s.withScalarWord w else s.withElementWord w

end Sys2Proof.Machine
end

