-- ==== Sys2Proof/Safety.lean ====
section
/-!
DEFINITION. The words in which claims are stated: when a run is safe, when an instruction runs to its
end with no trap after it, and what the state is then.
-/
namespace Sys2Proof.Safety
open Sys2Proof Sys2Proof.Machine

/-- The step can be taken: it ends in a next state. -/
def Runs (s : State) : Prop := ∃ t, step s = .next t

/-- The memory of a state keeps its canonical form. -/
abbrev Inv (s : State) : Prop := Memory.wf s.mem.cells = true

/-- No trap follows the instruction that runs: a task does not single-step (R390) and no watched access
is noted (R391). -/
abbrev Quiet (s : State) : Prop :=
  s.core.id.isTask = true → s.core.task.step = false ∧ s.core.task.watchHit = none

/-- The same state, but that its task does not single-step (R390). -/
def stepOff (s : State) : State := { s with core := { s.core with task := { s.core.task with step := false } } }

/-- The task single-steps again, its pc at the instruction that has run. -/
def stepAt (t : State) (pc : VAddr) : State := { t with core := { t.core with pc := pc, task := { t.core.task with step := true } } }

/-- The current core's element stream runs with no trap after its instruction. -/
abbrev QuietE (s : State) : Prop := s.core.task.step = false ∧ s.core.task.watchHit = none

/-- The core has no watchpoint (R391). -/
abbrev Unwatched (s : State) : Prop := s.core.task.watches = []

/-- No block runs (R102). -/
abbrev NoBlock (s : State) : Prop := s.core.task.block = none

/-- No block runs, or the instruction, which names these registers, may retire ahead of it (R102). -/
abbrev MayRun (s : State) (rs : List Reg) : Prop :=
  (match s.core.task.block with
   | none => true
   | some b => mayRunAhead s b rs) = true

/-- Only the program counter has changed. -/
def wentTo (s : State) (pc : VAddr) : State := { s with core := { s.core with pc := pc } }

/-- Only a register and the program counter have changed; x0 takes no value (R114). -/
def wroteTo (s : State) (d : Reg) (v : W64) (pc : VAddr) : State :=
  wentTo { s with core := s.core.setReg d v } pc

/-- Only a register has changed, and the pc has gone to the next word. -/
def wrote (s : State) (d : Reg) (v : W64) : State := wroteTo s d v (s.core.pc + 4)

/-- The current core is c and its element stream has gone past its word, with vstart 0 (R144). -/
def completed (s : State) (c : Core) : State := { s with core := { c with task := c.task.pastWord } }

/-- A command's object register: x0 names no object, and any other one an object that passes its check
and leaves the TLBs as they are (R261). -/
abbrev NamesObject (s : State) (c : Reg) (obj : Option Nat) : Prop :=
  if c = 0 then obj = none
  else obj.isSome = true ∧ objCheck s.mem s.ursol s.core.xctx (s.core.reg c) = (s.mem, .ok (obj.getD 0))

/-- What every engine command that forks leaves: the pc at the next word and one more operation; no other
register, no core, nothing of the Drover and of Ursol, and no byte of memory unless the release of R254
had something to publish. -/
abbrev Forked (s t : State) : Prop :=
  t.core = { s.core with pc := s.core.pc + 4 } ∧ t.others = s.others ∧ t.seq = s.seq + 1 ∧ t.drover = s.drover ∧
  t.ursol = s.ursol ∧ (s.mem.lines = [] → s.mem.reqs = [] → s.mem.notices = [] → t.mem.cells = s.mem.cells)

/-- A task's frame has been found lost, and the task has ended or waits for its engine operations to end (R378). -/
abbrev FrameLost (u : State) (t : TaskId) : Prop :=
  (u.farm t.farm.val).frameLost = true ∧ (t.tid ∈ (u.farm t.farm.val).ended ∨ u.isEnding t = true)

/-- The words of a frame's header that a save of this context fills (R379): registers, resume pc, position in the
block, vl, vstart, flags, tmask and the trap words. -/
def FrameWords (c : Core) (resume : VAddr) : List (Nat × Nat) :=
  ((List.range 31).map fun i => (8 * (i + 1), (fget c.x (i + 1) 0).toNat)) ++
  [(0x100, resume.toNat + 2 ^ 56 * c.task.entryHigh.toNat), (0x108, c.bpc.toNat), (0x110, c.task.vl.toNat), (0x118, c.task.vstart.toNat),
   (0x120, c.flags.toNat), (0x128, c.task.tmask.toNat), (0x130, c.epc.toNat), (0x138, c.cause.toNat), (0x140, c.info.toNat),
   (0x148, c.task.frec.toNat)]

/-- No agent holds a copy, and no request is under way. -/
abbrev NoCopies (ms : MemSys) : Prop :=
  ms.lines = [] ∧ ms.reqs = [] ∧ ms.notices = [] ∧ ∀ q ∈ ms.dir, q.2.own = 31 ∧ q.2.shr = 0 ∧ q.2.nr = 31

/-- The translation of a load of n bytes that lie in one leaf e of the core's own TLB: no fault on its way, and its home
answers. -/
abbrev AtHand (s : State) (va : W64) (n : Nat) (e : TlbEntry) : Prop :=
  va.toNat < scratchBase ∧ va.toNat % n = 0 ∧ tlbFind s.mem s.core.xctx.stk s.core.xctx.unit s.core.xctx.asid va.toNat = some e ∧
  pteAllows e.pte (leafPa e va) s.core.xctx .load = true ∧ pteRemote e.pte = false ∧ reachable s.ursol (leafPa e va) = true

/-- No word of DRAM is bad and no line that a Fold holds is poisoned (R227). -/
abbrev Sound (ms : MemSys) : Prop := ms.bad = [] ∧ ∀ e ∈ ms.dir, e.2.poison = 0

/-- No task is being pre-empted, or has been and is not placed again: no engine operation yields (R388). -/
abbrev NoVictims (s : State) : Prop :=
  s.drover.preempts = [] ∧ (∀ p ∈ s.parked, p.victim = false) ∧ ∀ e ∈ s.drover.ending, e.victim = false

/-- The bytes of a line are those of d where en has them, and every other byte of memory is as in ms. -/
abbrev LineWritten (ms t : MemSys) (line : Nat) (en : BitVec 64) (d : LineData) : Prop :=
  ∀ k, fget t.cells k 0 =
    if k / 64 = line ∧ en.getLsbD (k % 64) = true then d.extractLsb' (8 * (k % 64)) 8 else fget ms.cells k 0

/-- The 16 bytes of one object have changed as f says, and no other byte of memory. -/
abbrev ObjChanged (ms t : MemSys) (pa : Nat) (f : Obj → Obj) : Prop :=
  Obj.ofNat (natOf (readBytes t.cells pa 16)) = f (Obj.ofNat (natOf (readBytes ms.cells pa 16))) ∧
  ∀ k, k < pa ∨ pa + 16 ≤ k → fget t.cells k 0 = fget ms.cells k 0

/-- The frame of the current core's task takes every write of a save: one leaf e of the stack's TLB maps all of it,
writable, at home, in DRAM that answers, and nothing of the task is under way at the tiles. -/
abbrev FrameReady (s : State) (t : TaskId) (e : TlbEntry) : Prop :=
  let c := s.frameCtx t
  let n := 0xA000 + 4096 * (s.core.task.sq + s.core.task.scr)
  NoCopies s.mem ∧ (s.tiles.runs.all fun r => r.hdr.core != .task t) = true ∧
  s.core.task.buf.length ≤ 2048 ∧ s.core.task.sq + s.core.task.scr ≤ 1024 ∧
  (s.frameVa t).toNat + n ≤ scratchBase ∧ pteRights e.pte = 2 ∧ pteRemote e.pte = false ∧
  (∀ o, o < n → tlbFind s.mem c.stk c.unit c.asid ((s.frameVa t).toNat + o) = some e ∧
    reachable s.ursol (leafPa e (s.frameVa t) + o) = true ∧ leafPa e (s.frameVa t + BitVec.ofNat 64 o) = leafPa e (s.frameVa t) + o)

/-- The update of an object at an address can be made at once: its home can take it and no agent holds a copy. -/
abbrev ObjHome (s : State) (pa : Nat) : Prop := pa % 16 = 0 ∧ reachable s.ursol pa = true ∧ NoCopies s.mem

/-- The tiles, row slots, codebooks and banks of a stack k are as R272 and R293 have them, and none of their commands is
left. -/
abbrev StackBlank (t : State) (k : Nat) : Prop :=
  (∀ i, i / 2 ^ 24 = k → fget t.tiles.tables i 0 = 0) ∧ (∀ i, i / 2 ^ 16 = k → fget t.tiles.tableTag i 0 = 0) ∧
  (∀ i, i / 2 ^ 19 = k → fget t.tiles.slots i 0 = 0) ∧ (∀ i, i / 256 = k → fget t.tiles.slotTag i 0 = 0 ∧ fget t.tiles.slotPoison i false = false) ∧
  (∀ i, i / 2 ^ 20 = k → fget t.tiles.acc i 0 = 0) ∧ (∀ i, i / 1024 = k → fget t.tiles.ver i 0 = 0 ∧ fget t.tiles.accTag i 0 = 0) ∧
  (∀ i, i / 128 = k → fget t.tiles.codebook i 0 = 0) ∧ (∀ i, i / 8 = k → fget t.tiles.codebookTag i 0 = 0) ∧
  (∀ b : BankId, b.stk.val = k → t.bank b = {}) ∧ (∀ a ∈ t.dram.acts, a.1 / 16 ≠ k) ∧
  (∀ c ∈ t.dram.cmds, c.bank.stk.val ≠ k) ∧ (∀ c ∈ t.tiles.cmds, c.tile.stk.val ≠ k)

/-- The tiles, slots and banks of every stack but k are in t as in s. -/
abbrev OtherStacks (s t : State) (k : Nat) : Prop :=
  (∀ i, i / 2 ^ 24 ≠ k → fget t.tiles.tables i 0 = fget s.tiles.tables i 0) ∧ (∀ i, i / 2 ^ 19 ≠ k → fget t.tiles.slots i 0 = fget s.tiles.slots i 0) ∧
  (∀ i, i / 2 ^ 20 ≠ k → fget t.tiles.acc i 0 = fget s.tiles.acc i 0) ∧ ∀ b : BankId, b.stk.val ≠ k → t.bank b = s.bank b

/-- No column of a stack k that has left gate is fenced, those of the others are as they were, and tick runs (R129, R292). -/
abbrev GateLeft (s t : State) (k : Nat) : Prop :=
  StackBlank t k ∧ (∀ c, fget t.ursol.fenced c false = if c / 64 = k then false else fget s.ursol.fenced c false) ∧
  t.tick0 = some (s.tick0.getD s.now)

/-- A stack k has gone from one state to another that is not on: its TLBs are empty once it is not on; its SRAM is lost,
its Fold holds no line and its supervisor core is at reset, where it was on or idle and is not; its DRAM is lost in gate,
and out of gate it starts as R272 and R293 say. With no copies, no other byte of memory changes (R397, R398). -/
abbrev StackLeft (s t : State) (k : Nat) (old new : StackSt) : Prop :=
  let lost := (old = .on ∨ old = .idle) ∧ (new = .selfRefresh ∨ new = .gate)
  (old = .on → (∀ e ∈ t.mem.tlb, e.stk.val ≠ k) ∧ (∀ w ∈ t.mem.walkCache, w.stk.val ≠ k)) ∧
  (lost → StackBlank t k ∧ (∀ e ∈ t.mem.dir, e.1 / 2 ^ 30 % 8 ≠ k) ∧
    ∀ c, s.findCore (.sup (Fin.ofNat 8 k)) = some c → t.findCore (.sup (Fin.ofNat 8 k)) = some (supReset (Fin.ofNat 8 k))) ∧
  (old = .gate → GateLeft s t k) ∧ OtherStacks s t k ∧
  (new = .gate → ∀ a, stackOf a = k → fget t.mem.cells a 0 = 0) ∧
  (NoCopies s.mem → ∀ a, stackOf a ≠ k ∨ new ≠ .gate → fget t.mem.cells a 0 = fget s.mem.cells a 0)

/-- Where the Crook finds a virtual address of a command in memory, from its stack's TLB. -/
def crookPlace (u : State) (h : OpHdr) (va : W64) : Nat :=
  match tlbFind u.mem h.stk .stack h.asid va.toNat with
  | some e => leafPa e va
  | none => 0

/-- The Crook can read and write n bytes for a command: one leaf of its stack's TLB maps them, writable, in DRAM that
answers. -/
abbrev CrookReaches (u : State) (h : OpHdr) (va : W64) (n : Nat) : Prop :=
  va.toNat + n ≤ scratchBase ∧ ∃ e : TlbEntry, pteRights e.pte = 2 ∧ pteRemote e.pte = false ∧
    ∀ o, o < n → tlbFind u.mem h.stk .stack h.asid (va.toNat + o) = some e ∧ reachable u.ursol (leafPa e va + o) = true ∧
      leafPa e (va + BitVec.ofNat 64 o) = leafPa e va + o

/-- Bytes, a number and an entry of the tables as memory m holds them, and a number put there. -/
def crookBytes (u : State) (h : OpHdr) (m : FMap Byte) (va : W64) (n : Nat) : List Byte := readBytes m (crookPlace u h va) n
def crookNum (u : State) (h : OpHdr) (m : FMap Byte) (va : W64) (n : Nat) : Nat := natOf (crookBytes u h m va n)
def crookPut (u : State) (h : OpHdr) (m : FMap Byte) (va : W64) (n v : Nat) : FMap Byte := writeBytes m (crookPlace u h va) (bytesOf n v)
def crookEntry (u : State) (h : OpHdr) (d : KvDesc) (m : FMap Byte) (k : Nat) : KvEntry := entryOf (crookBytes u h m (d.entryVa k) 128)
def crookCtl (u : State) (h : OpHdr) (d : KvDesc) (m : FMap Byte) (k : Nat) : Nat := crookNum u h m (d.entryVa k + 0x50) 8

/-- A command that has not begun is at the head of a Crook's queue, no other has begun, its descriptor d has been read, in the
state u, and no agent holds a copy. -/
abbrev CrookNext (s u : State) (stk : Fin 8) (c : KvCmd) (d : KvDesc) : Prop :=
  (∃ rest, s.kvWaiting stk = c :: rest ∧ (∀ x ∈ c :: rest, x.prog = .start) ∧
    { s with eng := { s.eng with kvQ := finsert s.eng.kvQ stk.val rest } }.kvDesc stk c.hdr.asid = (u, .ok d)) ∧
  NoVictims s ∧ c.hdr.stk = stk ∧ NoCopies u.mem ∧ Sound u.mem

/-- A step of the Crook ends its operation with k, memory holds m, and nothing else has changed. -/
abbrev CrookRuns (s u : State) (h : OpHdr) (i : Instr) (k : KvEnd) (m : FMap Byte) : Prop :=
  ∃ t : State, exec i s = .next (t.endKv h k) ∧ (∀ a, fget t.mem.cells a 0 = fget m a 0) ∧ { t with mem := u.mem } = u

/-- The r-th slot a probe looks at, and whether an entry is that of a block (R327). -/
def probeSlot (d : KvDesc) (p : Nat) (tok : List Nat) (r : Nat) : Nat := (blockHash p tok % 2 ^ d.lgsz + r) % 2 ^ d.lgsz
def holdsBlock (e : KvEntry) (p : Nat) (tok : List Nat) : Bool := (e.state == 1 || e.state == 2) && e.pred == p && e.tok == tok

/-- Of the 8 slots of a bucket, the first that is empty or holds the block (R327). -/
def crookProbe (u : State) (h : OpHdr) (d : KvDesc) (m : FMap Byte) (p : Nat) (tok : List Nat) : Option Nat :=
  ((List.range 8).map (probeSlot d p tok)).find? fun k =>
    (crookEntry u h d m k).state == 0 || holdsBlock (crookEntry u h d m k) p tok

/-- One block of a lookup over memory m, from predecessor p with n blocks found; the last part is the status it ended
with, if it has (R332). -/
def lookStep (u : State) (h : OpHdr) (d : KvDesc) (l : LookRec) : FMap Byte × Nat × Nat × Option Nat → FMap Byte × Nat × Nat × Option Nat
  | (m, p, n, none) =>
    match crookProbe u h d m p (wordsOf (crookBytes u h m (l.tok + BitVec.ofNat 64 (64 * n)) 64) 0 16) with
    | some k =>
      if (crookEntry u h d m k).state = 0 then (m, p, n, some 0)
      else if l.pin = true ∧ crookCtl u h d m k / 2 ^ 32 = 2 ^ 32 - 1 then (m, p, n, some 0x0205)
      else
        let m := if l.pin then crookPut u h m (d.entryVa k + 0x50) 8 (crookCtl u h d m k + 2 ^ 32) else m
        (crookPut u h (crookPut u h m (d.entryVa k + 0x58) 4 u.ageNow) (l.out + BitVec.ofNat 64 (4 * n)) 4 k, k, n + 1, none)
    | none => (m, p, n, some 0)
  | q => q

/-- One id of a pin or an unpin over memory m; the last part is the status and the index it ended with (R337). -/
def pinStep (u : State) (h : OpHdr) (d : KvDesc) (unpin : Bool) (w : FMap Byte × Option (Nat × Nat)) (i : Nat) : FMap Byte × Option (Nat × Nat) :=
  match w with
  | (m, none) =>
    let k := crookNum u h m (h.va + BitVec.ofNat 64 (4 * i)) 4
    let v := crookCtl u h d m k
    if 2 ^ d.lgsz ≤ k then (m, some (0x0204, i))
    else if unpin then (if v / 2 ^ 32 = 0 then (m, some (0x0205, i)) else (crookPut u h m (d.entryVa k + 0x50) 8 (v - 2 ^ 32), none))
    else if v % 8 = 0 ∨ 4 < v % 8 then (m, some (0x0204, i))
    else if v / 2 ^ 32 = 2 ^ 32 - 1 then (m, some (0x0205, i))
    else (crookPut u h m (d.entryVa k + 0x50) 8 (v + 2 ^ 32), none)
  | w => w

/-- One (layer, head) pair of a signature over memory m, and the flags so far (R329, R339). -/
def signStep (u : State) (h : OpHdr) (d : KvDesc) (pa : Nat) (rows : Nat → Nat) (w : FMap Byte × Byte) (n : Nat) : FMap Byte × Byte :=
  let bs := readBytes w.1 (pa + n * 4096) 2048
  let sums := (List.range 128).map fun i => ((List.range 16).map fun t => e4m3Units (bs.getD (128 * t + i) 0).toNat).sum
  let proj := fun (j : Nat) => ((List.range 128).map fun i => if (rows j).testBit i then -sums.getD i 0 else sums.getD i 0).sum
  let sig := ((List.range 256).map fun j => if proj j < 0 then 2 ^ j else 0).sum
  (crookPut u h w.1 (d.sigVa h.va.toNat (n / d.nh) (n % d.nh)) 32 sig,
    w.2 ||| if bs.any fun b => (decodeFp .e4m3 b.toNat).isNan then 1 else 0)

/-! ## The element stream -/

/-- The element stream runs with no trap after its instruction, and vl is a legal count (R128). -/
abbrev Element (s : State) : Prop := QuietE s ∧ s.core.task.vl.toNat ≤ 32

/-- The stream record an instruction names, if any, delivers these cells and leaves the state u (R141):
no token is consumed where the loop, which starts at cell `start`, has no cell. -/
abbrev Feeds (s : State) (start : Nat) (ops : List VOp) (u : State) (toks : List W32) : Prop :=
  match ops.findSome? VOp.streamOf with
  | none => u = s ∧ toks = []
  | some (st, v) =>
    if s.core.task.vl.toNat ≤ start then u = s ∧ toks = []
    else ∃ t, s.nextToken st v = (u, .token t) ∧ toks = t.cells

/-- An exact integer as n bits, and the saturation flag where it was clamped to the range of the type
(R8, R32). -/
def narrowed (sat signed : Bool) (n : Nat) (v : Int) : Nat × Byte :=
  let lo : Int := if signed then -2 ^ (n - 1) else 0
  let hi : Int := if signed then 2 ^ (n - 1) - 1 else 2 ^ n - 1
  let r := if sat then max lo (min hi v) else v
  ((r % 2 ^ n).toNat, if r = v then 0 else 0x20)

/-- z is m / d rounded to an integer, of the sign neg, under a rounding mode (R37). -/
def RoundedTo (rm : Rm) (neg : Bool) (m d z : Nat) : Prop :=
  (z * d = m ∨ z = m / d ∨ z = m / d + 1) ∧ (m % d = 0 → z * d = m) ∧
  match rm with
  | .rtz => z * d ≤ m
  | .rdn => if neg then m ≤ z * d else z * d ≤ m
  | .rup => if neg then z * d ≤ m else m ≤ z * d
  | .rne => 2 * (z * d) ≤ 2 * m + d ∧ 2 * m ≤ 2 * (z * d) + d ∧ (2 * (m % d) = d → z % 2 = 0)
  | .rmm => 2 * (z * d) ≤ 2 * m + d ∧ 2 * m ≤ 2 * (z * d) + d ∧ (2 * (m % d) = d → m ≤ z * d)

/-- r is the exact number ±(n / d) × 2^e, not zero, rounded once to a format under a rounding mode, with its flags
(R37-R40): a multiple of the format's step at that magnitude, or what R39 and R40 give beyond the format. Underflow is
judged on the number rounded with no bound on its exponent (R38). -/
abbrev RoundedFp (ty : Ty) (rm : Rm) (neg : Bool) (n d : Nat) (e : Int) (r : Res) : Prop :=
  let f := fmtOf ty
  let sign := if neg then 2 ^ (ty.bits - 1) else 0
  -- the number is num q / den q steps of 2^q
  let num := fun (q : Int) => n * 2 ^ (e - q).toNat
  let den := fun (q : Int) => d * 2 ^ (q - e).toNat
  let fits := fun (q : Int) => num q < 2 ^ (f.frac + 1) * den q
  let fills := fun (q : Int) => 2 ^ f.frac * den q ≤ num q
  ∃ (q p : Int) (z y : Nat), f.low ≤ q ∧ fits q ∧ (f.low < q → fills q) ∧ RoundedTo rm neg (num q) (den q) z ∧
    fits p ∧ fills p ∧ RoundedTo rm neg (num p) (den p) y ∧
    (let code := (q - f.low).toNat * 2 ^ f.frac + z
     (code ≤ f.top → r = (sign + code, if z * den q = num q then 0 else
        if y * 2 ^ (p - f.low).toNat < 2 ^ f.frac * 2 ^ (f.low - p).toNat then 0x18 else 0x10)) ∧
     (f.top < code → r = (sign + (if ty = .e4m3 ∨ ty = .e5m2 then f.top else match rm with
       | .rne | .rmm => f.inf
       | .rtz => f.top
       | .rdn => if neg then f.inf else f.top
       | .rup => if neg then f.top else f.inf), 0x14)))

/-- The value of an element of an integer type (R29, R32). -/
def value (ty : Ty) (x : Nat) : Int := if ty.isSigned then (BitVec.ofNat ty.bits x).toInt else (x : Int)

/-- The conditions of VCMP, each with what it says of two values (R155). -/
def conds : List (Cond × (Int → Int → Bool)) :=
  [(.eq, fun x y => x == y), (.ne, fun x y => x != y), (.lt, fun x y => x < y), (.ge, fun x y => y ≤ x),
   (.gt, fun x y => y < x), (.le, fun x y => x ≤ y)]

/-- The conditions of VFCMP, each with its outcome and flags: ne and un hold of a NaN, lt, ge, gt and le
find any NaN invalid, the others a signalling one (R173). -/
def fconds : List (FCond × (Fp → Fp → Bool × Byte)) :=
  let any := fun (a b : Fp) => a.isNan || b.isNan
  let sig := fun (a b : Fp) => if a = .nan true ∨ b = .nan true then (0x01 : Byte) else 0
  let loud := fun (f : Int → Bool) (a b : Fp) => (!any a b && f (cmpFp a b), if any a b then (0x01 : Byte) else 0)
  [(.eq, fun a b => (!any a b && cmpFp a b == 0, sig a b)), (.ne, fun a b => (any a b || cmpFp a b != 0, sig a b)),
   (.lt, loud fun o => o < 0), (.ge, loud fun o => 0 ≤ o), (.gt, loud fun o => 0 < o), (.le, loud fun o => o ≤ 0),
   (.un, fun a b => (any a b, sig a b))]

/-- The cells of a vector, or of the pair of a 64-bit type, by their place in the squares (R31, R61). -/
def cellsOf (ty : Ty) : VOp → List Nat
  | .vec q dir i =>
    (List.range 32).map (cellKey q dir i.val) ++ if ty.is64 then (List.range 32).map (cellKey q dir (i.val + 1)) else []
  | _ => []

/-- All flags of a list together (R38). -/
def flagsOf (l : List Byte) : Byte := l.foldl (fun f g => f ||| g) 0

/-- An element instruction has completed in the state u: squares and flags apart, nothing has changed but
the place in the block and vstart (R143, R144). -/
abbrev OnlyCells (u t : State) : Prop :=
  { t with core := u.core } = u ∧
  { t.core with flags := u.core.flags, task := { t.core.task with cells := u.core.task.cells, dirty := u.core.task.dirty } } =
    { u.core with task := u.core.task.pastWord }

/-- An element instruction has completed and written the elements f gives, with their flags, into the
cells ks of its destination: every other element and every other cell keeps its value (R143). -/
abbrev WroteElems (u t : State) (ty : Ty) (d : VOp) (ks : List Nat) (f : Nat → Nat → Nat × Byte) : Prop :=
  OnlyCells u t ∧
  (∀ k j, k < 32 → j < ty.perCell →
    t.core.elem [] ty d k j = if k ∈ ks then (f k j).1 % 2 ^ ty.bits else u.core.elem [] ty d k j) ∧
  (∀ key, key ∉ cellsOf ty d → t.core.task.cell key = u.core.task.cell key) ∧
  t.core.flags = u.core.flags ||| flagsOf (ks.flatMap fun k => (List.range ty.perCell).map fun j => (f k j).2)

/-- The same for a mask destination: one bit of each cell. -/
abbrev WroteMask (u t : State) (m : MaskNo) (ks : List Nat) (f : Nat → Bool × Byte) : Prop :=
  { t with core := u.core } = u ∧
  { t.core with flags := u.core.flags, task := { t.core.task with m := u.core.task.m } } = { u.core with task := u.core.task.pastWord } ∧
  (∀ k, k < 32 → t.core.task.maskBit m k = if k ∈ ks then (f k).1 else u.core.task.maskBit m k) ∧
  (∀ m' : MaskNo, m' ≠ m → ∀ k, k < 32 → t.core.task.maskBit m' k = u.core.task.maskBit m' k) ∧
  t.core.flags = u.core.flags ||| flagsOf (ks.map fun k => (f k).2)

/-- The least and the greatest value of an integer type (R178). -/
def least (ty : Ty) : Int := if ty.isSigned then -2 ^ (ty.bits - 1) else 0
def greatest (ty : Ty) : Int := if ty.isSigned then 2 ^ (ty.bits - 1) - 1 else 2 ^ ty.bits - 1

/-- The elements of an integer type combined, from the identity of the operation, and narrowed once to w
bits (R178, R183, R186). -/
def combined (ty : Ty) (op : GOp) (sat : Bool) (w : Nat) (l : List Nat) : Nat × Byte :=
  match op with
  | .sum => narrowed sat ty.isSigned w (l.map (value ty)).sum
  | .max => narrowed false true w (l.foldl (fun m x => max m (value ty x)) (least ty))
  | .min => narrowed false true w (l.foldl (fun m x => min m (value ty x)) (greatest ty))
  | .and => (l.foldl (fun m x => m &&& x) (2 ^ ty.bits - 1), 0)
  | .or => (l.foldl (fun m x => m ||| x) 0, 0)
  | .xor => (l.foldl (fun m x => m ^^^ x) 0, 0)

/-- Whole cells of a square have been written, f of row and column, and no other cell (R187-R189). -/
abbrev WroteSquare (u t : State) (q : SqNo) (rows cols : Nat → Prop) [DecidablePred rows] [DecidablePred cols] (f : Nat → Nat → Nat × Byte)
    (flags : Byte) : Prop :=
  OnlyCells u t ∧
  (∀ i j, i < 32 → j < 32 → t.core.at q i j = if rows i ∧ cols j then (f i j).1 % 2 ^ 32 else u.core.at q i j) ∧
  (∀ key, key / 1024 ≠ q.val → t.core.task.cell key = u.core.task.cell key) ∧ t.core.flags = u.core.flags ||| flags

end Sys2Proof.Safety
end

