-- ==== Sys2Proof/Certificates/Slice0/Obligations.lean ====
section
/-!
DEFINITION. The statements about this model that the provers take up.
-/
open Sys2Proof Sys2Proof.Machine Sys2Proof.Safety

/-! ## Scalar registers and integer instructions -/

/-- R114, R57: x0 reads as zero and takes no write; a write to another register is read back and
changes no other. -/
def Obligations.RegisterFile : Prop :=
  ∀ (c : Core) (d r : Reg) (v : W64),
    (c.setReg d v).reg r = (if r = 0 then 0 else if r = d then v else c.reg r) ∧
    c.setReg 0 v = c ∧ { c.setReg d v with x := c.x } = c

/-- R118: every register form, its value in the rule's own arithmetic; nothing else changes but the pc. -/
def Claims.ScalarRegisterForms : Prop :=
  ∀ (s : State) (d a b : Reg) (k : BitVec 6), Quiet s → MayRun s [d, a, b] → MayRun s [d, a] →
    (let A := (s.core.reg a).toNat
     let B := (s.core.reg b).toNat
     let sA := (s.core.reg a).toInt
     let sB := (s.core.reg b).toInt
     let n := fun (v : Nat) => Host.Outcome.next (wrote s d (BitVec.ofNat 64 v))
     let i := fun (v : Int) => Host.Outcome.next (wrote s d (BitVec.ofInt 64 v))
     exec (.add d a b) s = n (A + B) ∧
     exec (.sub d a b) s = i ((A : Int) - (B : Int)) ∧
     exec (.and d a b) s = n (A &&& B) ∧
     exec (.or d a b) s = n (A ||| B) ∧
     exec (.xor d a b) s = n (A ^^^ B) ∧
     exec (.shl d a b) s = n (A * 2 ^ (B % 64)) ∧
     exec (.shr d a b) s = n (A / 2 ^ (B % 64)) ∧
     exec (.sra d a b) s = i (sA / (2 : Int) ^ (B % 64)) ∧
     exec (.slt d a b) s = n (if sA < sB then 1 else 0) ∧
     exec (.sltn d a b) s = n (if A < B then 1 else 0) ∧
     exec (.min d a b) s = i (min sA sB) ∧
     exec (.max d a b) s = i (max sA sB) ∧
     exec (.minn d a b) s = n (min A B) ∧
     exec (.maxn d a b) s = n (max A B) ∧
     exec (.fshl d a b k) s = n ((A * 2 ^ 64 + B) * 2 ^ k.toNat / 2 ^ 64) ∧
     exec (.fshr d a b k) s = n ((A * 2 ^ 64 + B) / 2 ^ k.toNat) ∧
     exec (.mul d a b) s = n (A * B) ∧
     exec (.mulh d a b) s = i (sA * sB / (2 : Int) ^ 64) ∧
     exec (.mulhn d a b) s = n (A * B / 2 ^ 64) ∧
     (∃ z, exec (.clz d a) s = n z ∧ z ≤ 64 ∧ (∀ j, 64 - z ≤ j → A.testBit j = false) ∧ (z < 64 → A.testBit (63 - z) = true)) ∧
     (∃ z, exec (.ctz d a) s = n z ∧ z ≤ 64 ∧ (∀ j, j < z → A.testBit j = false) ∧ (z < 64 → A.testBit z = true)) ∧
     exec (.popc d a) s = n ((List.range 64).map fun j => (A.testBit j).toNat).sum ∧
     exec (.sext d a k) s = i (if A.testBit k.toNat then (A % 2 ^ (k.toNat + 1) : Int) - 2 ^ (k.toNat + 1) else (A % 2 ^ (k.toNat + 1) : Int)) ∧
     exec (.zext d a k) s = n (A % 2 ^ (k.toNat + 1)))

/-- R119: division rounds toward zero, the remainder takes the dividend's sign, and the two corners
have their results; nothing traps. -/
def Obligations.ScalarDivision : Prop :=
  ∀ (s : State) (d a b : Reg), Quiet s → MayRun s [d, a, b] →
    (let A := s.core.reg a
     let B := s.core.reg b
     (B = 0 →
        exec (.div d a b) s = .next (wrote s d (BitVec.allOnes 64)) ∧ exec (.rem d a b) s = .next (wrote s d A) ∧
        exec (.divn d a b) s = .next (wrote s d (BitVec.allOnes 64)) ∧ exec (.remn d a b) s = .next (wrote s d A)) ∧
     (B ≠ 0 →
        exec (.div d a b) s = .next (wrote s d (BitVec.ofInt 64 (A.toInt.tdiv B.toInt))) ∧
        exec (.rem d a b) s = .next (wrote s d (BitVec.ofInt 64 (A.toInt.tmod B.toInt))) ∧
        exec (.divn d a b) s = .next (wrote s d (BitVec.ofNat 64 (A.toNat / B.toNat))) ∧
        exec (.remn d a b) s = .next (wrote s d (BitVec.ofNat 64 (A.toNat % B.toNat)))) ∧
     (A = BitVec.ofInt 64 (-2 ^ 63) → B = BitVec.allOnes 64 →
        exec (.div d a b) s = .next (wrote s d A) ∧ exec (.rem d a b) s = .next (wrote s d 0)))

/-- R121, R122: the immediate forms. -/
def Claims.ScalarImmediates : Prop :=
  ∀ (s : State) (d a : Reg) (imm : BitVec 15) (n : BitVec 6) (imm20 : BitVec 20), Quiet s → MayRun s [d, a] → MayRun s [d] →
    (let A := (s.core.reg a).toNat
     let sA := (s.core.reg a).toInt
     exec (.addi d a imm) s = .next (wrote s d (BitVec.ofInt 64 ((A : Int) + imm.toInt))) ∧
     exec (.andi d a imm) s = .next (wrote s d (BitVec.ofNat 64 (A &&& (BitVec.ofInt 64 imm.toInt).toNat))) ∧
     exec (.ori d a imm) s = .next (wrote s d (BitVec.ofNat 64 (A ||| imm.toNat))) ∧
     exec (.xori d a imm) s = .next (wrote s d (BitVec.ofNat 64 (A ^^^ imm.toNat))) ∧
     exec (.slti d a imm) s = .next (wrote s d (if sA < imm.toInt then 1 else 0)) ∧
     exec (.shli d a n) s = .next (wrote s d (BitVec.ofNat 64 (A * 2 ^ n.toNat))) ∧
     exec (.shri d a n) s = .next (wrote s d (BitVec.ofNat 64 (A / 2 ^ n.toNat))) ∧
     exec (.srai d a n) s = .next (wrote s d (BitVec.ofInt 64 (sA / (2 : Int) ^ n.toNat))) ∧
     exec (.lih d imm20) s = .next (wrote s d (BitVec.ofInt 64 (imm20.toInt * 2 ^ 15))))

/-- R123: the branches; no register is written. -/
def Claims.Branches : Prop :=
  ∀ (s : State) (a b : Reg) (off : BitVec 15), Quiet s → MayRun s [a, b] →
    (let A := (s.core.reg a).toNat
     let B := (s.core.reg b).toNat
     let sA := (s.core.reg a).toInt
     let sB := (s.core.reg b).toInt
     let go := fun (take : Bool) => Host.Outcome.next (wentTo s (BitVec.ofInt 56
       ((s.core.pc.toNat : Int) + if take then off.toInt * 4 else 4)))
     exec (.beq a b off) s = go (A == B) ∧ exec (.bne a b off) s = go (A != B) ∧
     exec (.blt a b off) s = go (sA < sB) ∧ exec (.bge a b off) s = go (sB ≤ sA) ∧
     exec (.bltn a b off) s = go (A < B) ∧ exec (.bgen a b off) s = go (B ≤ A))

/-- R124, R125: JAL and JALR link and jump; a JALR target that is not a multiple of 4 or not below 2^56
is an illegal-operand trap of the instruction as it stands, its register unwritten. -/
def Claims.Jumps : Prop :=
  ∀ (s : State) (d a : Reg) (off : BitVec 20) (imm : BitVec 15), Quiet s → MayRun s [d] → MayRun s [d, a] →
    (let link := BitVec.ofNat 64 ((s.core.pc.toNat + 4) % 2 ^ 56)
     let t := BitVec.ofInt 64 (((s.core.reg a).toNat : Int) + imm.toInt)
     exec (.jal d off) s = .next (wroteTo s d link (BitVec.ofInt 56 ((s.core.pc.toNat : Int) + off.toInt * 4))) ∧
     (t.toNat % 4 = 0 → t.toNat < 2 ^ 56 →
        exec (.jalr d a imm) s = .next (wroteTo s d link (BitVec.ofNat 56 t.toNat))) ∧
     (t.toNat % 4 ≠ 0 ∨ 2 ^ 56 ≤ t.toNat →
        exec (.jalr d a imm) s = .next (s.takeTrap
          { code := 0x0002, info := BitVec.ofNat 64 (wordOf (.jalr d a imm)), epc := s.core.pc, resume := s.core.pc })))

/-! ## Scalar memory instructions -/

/-- R239 in the scratchpad: a load reads the bytes at its window offset, sign- or zero-extended; the
scratchpad and every other register stand. LDA also acquires. -/
def Claims.ScratchpadLoads : Prop :=
  ∀ (s : State) (d a : Reg) (sz : Size) (pol : Pol) (scp : Scope) (off : BitVec 6) (o : Nat),
    s.core.id.isTask = true → NoBlock s → Quiet s → Unwatched s → s.core.task.buf = [] →
    (effAddr s a sz off).toNat = scratchBase + o → o % sizeBytes sz = 0 → o + sizeBytes sz ≤ 4096 * s.core.task.scr →
    s.core.task.scr ≤ 1024 →
    (let v := natOf (readBytes s.core.task.scratch o (sizeBytes sz))
     let x : W64 := if sizeSigned sz then (BitVec.ofNat (8 * sizeBytes sz) v).signExtend 64 else BitVec.ofNat 64 v
     exec (.ld d a sz pol off) s = .next (wrote s d x) ∧
     exec (.lda d a sz pol scp off) s =
       .next (wrote { s with mem := acquireAt s.mem s.core.agent scp } d x))

/-- R239 in the scratchpad: a store writes the low bytes of its register at its window offset and no
other byte; no register but the pc changes. A release changes no byte of memory when its agent holds
no copy. -/
def Claims.ScratchpadStores : Prop :=
  ∀ (s : State) (d a : Reg) (sz : Size) (pol : Pol) (scp : Scope) (off : BitVec 6) (o : Nat),
    s.core.id.isTask = true → NoBlock s → Quiet s → Unwatched s → s.core.task.buf = [] →
    (effAddr s a sz off).toNat = scratchBase + o → o % sizeBytes sz = 0 → o + sizeBytes sz ≤ 4096 * s.core.task.scr →
    s.core.task.scr ≤ 1024 →
    ∀ i ∈ [Instr.st d a sz pol off, Instr.stl d a sz pol scp off], ∃ t : State, exec i s = .next t ∧
      (∀ k, fget t.core.task.scratch k 0 =
        if o ≤ k ∧ k < o + sizeBytes sz then (s.core.reg d).extractLsb' (8 * (k - o)) 8 else fget s.core.task.scratch k 0) ∧
      { t.core with pc := s.core.pc, task := { t.core.task with scratch := s.core.task.scratch, dirty := s.core.task.dirty } } = s.core ∧
      t.core.pc = s.core.pc + 4 ∧ { t with core := s.core, mem := s.mem } = s ∧
      (s.mem.lines = [] → s.mem.reqs = [] → s.mem.notices = [] → t.mem.cells = s.mem.cells) ∧
      (i = Instr.st d a sz pol off → t.mem = s.mem)

/-- R238, R240 in the scratchpad: every AMO writes its operation's value and returns the old one; CAS
writes only where the old value is the expected one. -/
def Obligations.ScratchpadAtomics : Prop :=
  ∀ (s : State) (d a b : Reg) (sz : Size) (scp : Scope) (pl : Place) (o : Nat),
    s.core.id.isTask = true → NoBlock s → Quiet s → Unwatched s → s.core.task.buf = [] →
    sz = .w ∨ sz = .wn ∨ sz = .d → (s.core.reg a).toNat = scratchBase + o → o % sizeBytes sz = 0 →
    o + sizeBytes sz ≤ 4096 * s.core.task.scr → s.core.task.scr ≤ 1024 →
    (let w := 8 * sizeBytes sz
     let old := natOf (readBytes s.core.task.scratch o (sizeBytes sz))
     let v := (s.core.reg d).toNat % 2 ^ w
     let sg := fun (n : Nat) => (BitVec.ofNat w n).toInt
     let x : W64 := if sizeSigned sz then (BitVec.ofNat w old).signExtend 64 else BitVec.ofNat 64 old
     ∀ q ∈ [(Instr.amoSwap d a sz scp pl, v), (Instr.amoAdd d a sz scp pl, (old + v) % 2 ^ w),
         (Instr.amoAnd d a sz scp pl, old &&& v), (Instr.amoOr d a sz scp pl, old ||| v), (Instr.amoXor d a sz scp pl, old ^^^ v),
         (Instr.amoMin d a sz scp pl, if sg old ≤ sg v then old else v), (Instr.amoMax d a sz scp pl, if sg old ≤ sg v then v else old),
         (Instr.amoMinn d a sz scp pl, min old v), (Instr.amoMaxn d a sz scp pl, max old v),
         (Instr.cas d a b sz scp, if old = v then (s.core.reg b).toNat % 2 ^ w else old),
         (Instr.casNear d a b sz scp, if old = v then (s.core.reg b).toNat % 2 ^ w else old),
         (Instr.casFar d a b sz scp, if old = v then (s.core.reg b).toNat % 2 ^ w else old)],
       ∃ t : State, exec q.1 s = .next t ∧ natOf (readBytes t.core.task.scratch o (sizeBytes sz)) = q.2 ∧
         (∀ k, k < o ∨ o + sizeBytes sz ≤ k → fget t.core.task.scratch k 0 = fget s.core.task.scratch k 0) ∧
         { t.core with task := { t.core.task with scratch := s.core.task.scratch, dirty := s.core.task.dirty } } = (wrote s d x).core ∧
         { t with core := s.core, mem := s.mem } = s ∧
         (s.mem.lines = [] → s.mem.reqs = [] → s.mem.notices = [] → t.mem.cells = s.mem.cells))

/-- R239 at home, for an access that has passed its checks and a line no agent holds: ST writes its
bytes and no other byte of memory, LD reads them. -/
def Claims.HomeLoadsAndStores : Prop :=
  ∀ (s : State) (ms : MemSys) (d a : Reg) (sz : Size) (pol : Pol) (off : BitVec 6) (pa : Nat) (p : EffPol),
    NoBlock s → Quiet s → Unwatched s → s.core.task.buf = [] → pa % sizeBytes sz = 0 →
    NoCopies s.mem →
    (checkAccess s (effAddr s a sz off) (sizeBytes sz) .store pol false = (ms, .ok (.mem pa p)) → p = .nc ∨ p = .wt ∨ p = .wis →
      ∃ t : State, exec (.st d a sz pol off) s = .next t ∧ t.core = { s.core with pc := s.core.pc + 4 } ∧
        (∀ k, fget t.mem.cells k 0 =
          if pa ≤ k ∧ k < pa + sizeBytes sz then (s.core.reg d).extractLsb' (8 * (k - pa)) 8 else fget s.mem.cells k 0) ∧
        { t with core := s.core, mem := s.mem } = s) ∧
    (checkAccess s (effAddr s a sz off) (sizeBytes sz) .load pol false = (ms, .ok (.mem pa p)) →
      ∃ t : State, exec (.ld d a sz pol off) s = .next t ∧ t.mem.cells = s.mem.cells ∧
        (let v := natOf (readBytes s.mem.cells pa (sizeBytes sz))
         t.core = (wrote s d (if sizeSigned sz then (BitVec.ofNat (8 * sizeBytes sz) v).signExtend 64 else BitVec.ofNat 64 v)).core) ∧
        { t with core := s.core, mem := s.mem } = s)

/-- R236, R238, R240 at home, for an access whose translation is at hand and a line no agent holds: every AMO and CAS
returns the old value, and what its agent reads there afterwards is its operation's value; made far, or to an NC page,
it has changed the bytes at home, and otherwise a copy that the agent now owns. -/
def Claims.HomeAtomics : Prop :=
  ∀ (s : State) (d a b : Reg) (sz : Size) (scp : Scope) (pl : Place) (pa : Nat) (p : EffPol),
    NoBlock s → Quiet s → Unwatched s → s.core.task.buf = [] → sz = .w ∨ sz = .wn ∨ sz = .d → pa % sizeBytes sz = 0 → NoCopies s.mem →
    s.core.agent < 17 →
    checkAccess s (s.core.reg a) (sizeBytes sz) .atomic .dflt (scp != .plain) = (s.mem, .ok (.mem pa p)) →
    (let w := 8 * sizeBytes sz
     let old := natOf (readBytes s.mem.cells pa (sizeBytes sz))
     let v := (s.core.reg d).toNat % 2 ^ w
     let sg := fun (n : Nat) => (BitVec.ofNat w n).toInt
     let x : W64 := if sizeSigned sz then (BitVec.ofNat w old).signExtend 64 else BitVec.ofNat 64 old
     let swapped := if old = v then (s.core.reg b).toNat % 2 ^ w else old
     ∀ q ∈ [(Instr.amoSwap d a sz scp pl, v, pl), (.amoAdd d a sz scp pl, (old + v) % 2 ^ w, pl),
         (.amoAnd d a sz scp pl, old &&& v, pl), (.amoOr d a sz scp pl, old ||| v, pl), (.amoXor d a sz scp pl, old ^^^ v, pl),
         (.amoMin d a sz scp pl, if sg old ≤ sg v then old else v, pl), (.amoMax d a sz scp pl, if sg old ≤ sg v then v else old, pl),
         (.amoMinn d a sz scp pl, min old v, pl), (.amoMaxn d a sz scp pl, max old v, pl), (.cas d a b sz scp, swapped, .auto),
         (.casNear d a b sz scp, swapped, .near), (.casFar d a b sz scp, swapped, .far)],
       ∃ t : State, exec q.1 s = .next t ∧ t.core = (wrote s d x).core ∧ { t with core := s.core, mem := s.mem } = s ∧
         (agentLoad t.mem s.core.agent pa (sizeBytes sz) p false).2 = q.2.1 ∧
         (∀ k, k < pa ∨ pa + sizeBytes sz ≤ k → fget t.mem.cells k 0 = fget s.mem.cells k 0) ∧
         (q.2.2 = .far ∨ p = .nc → natOf (readBytes t.mem.cells pa (sizeBytes sz)) = q.2.1) ∧
         (q.2.2 = .near → p ≠ .nc → t.mem.cells = s.mem.cells ∧
           ∃ c, findCopy t.mem s.core.agent (lineOf pa) = some c ∧ c.mode = .o))

/-- R217, R239, R248: under every policy an agent reads back what it has stored, from a line no agent
held before. -/
def Claims.StoreThenLoad : Prop :=
  ∀ (ms : MemSys) (a : Fin 17) (pa n v : Nat) (p : EffPol),
    n = 1 ∨ n = 2 ∨ n = 4 ∨ n = 8 → pa % n = 0 → NoCopies ms →
    (agentLoad (agentStore ms a.val pa n v p) a.val pa n p false).2 = v % 2 ^ (8 * n)

/-- R191, R192, R198, R199, R239, R240: an address at 2^56 or above is a range fault, one in the window beyond
the task's share a scratchpad fault, an unaligned one inside it an alignment fault; outside the window, through a leaf
of the core's own TLB, an access that the leaf forbids is a permission fault, and an unaligned one that it allows an
alignment fault. The instruction, be it any load, store, AMO or CAS, traps as it stands and does nothing else. -/
def Obligations.AddressFaults : Prop :=
  ∀ (s : State) (d a b : Reg) (sz : Size) (pol : Pol) (scp : Scope) (pl : Place) (off : BitVec 6), NoBlock s →
    ∀ q ∈ [(Instr.ld d a sz pol off, AccKind.load, effAddr s a sz off), (Instr.lda d a sz pol scp off, AccKind.load, effAddr s a sz off),
        (Instr.st d a sz pol off, AccKind.store, effAddr s a sz off), (Instr.stl d a sz pol scp off, AccKind.store, effAddr s a sz off)] ++
        [Instr.amoSwap d a sz scp pl, .amoAdd d a sz scp pl, .amoAnd d a sz scp pl, .amoOr d a sz scp pl, .amoXor d a sz scp pl,
          .amoMin d a sz scp pl, .amoMax d a sz scp pl, .amoMinn d a sz scp pl, .amoMaxn d a sz scp pl,
          .cas d a b sz scp, .casNear d a b sz scp, .casFar d a b sz scp].map (fun i => (i, AccKind.atomic, s.core.reg a)),
      (let trap := fun (code : Nat) => s.takeTrap
         { code := code, info := q.2.2, epc := s.core.pc, resume := s.core.pc, kind := q.2.1.code }
       (2 ^ 56 ≤ q.2.2.toNat → exec q.1 s = .next (trap 0x0008)) ∧
       (scratchBase ≤ q.2.2.toNat → q.2.2.toNat < 2 ^ 56 → s.core.id.isTask = true →
         (scratchBase + 4096 * s.core.task.scr ≤ q.2.2.toNat → exec q.1 s = .next (trap 0x0009)) ∧
         (q.2.2.toNat < scratchBase + 4096 * s.core.task.scr → q.2.2.toNat % sizeBytes sz ≠ 0 → exec q.1 s = .next (trap 0x000E))) ∧
       (∀ e, q.2.2.toNat < scratchBase →
         tlbFind s.mem s.core.xctx.stk s.core.xctx.unit s.core.xctx.asid q.2.2.toNat = some e →
         (pteAllows e.pte (leafPa e q.2.2) s.core.xctx q.2.1 = false → exec q.1 s = .next (trap 0x000D)) ∧
         (pteAllows e.pte (leafPa e q.2.2) s.core.xctx q.2.1 = true → q.2.2.toNat % sizeBytes sz ≠ 0 → exec q.1 s = .next (trap 0x000E))))

/-- R102: with a block running, every instruction outside op7 0x01 to 0x0B, the branches and the jumps
waits, and so does each of those that reads or writes a register the block writes. -/
def Obligations.WaitingForABlock : Prop :=
  ∀ (s : State) (d a b e : Reg) (sz : Size) (pol : Pol) (scp : Scope) (pl : Place) (off : BitVec 6) (w : BitVec 12) (k : BitVec 6)
      (imm : BitVec 15) (far : BitVec 20) (wr cl wrap : Bool), s.core.inBlock = true → s.core.id.isTask = true →
    (∀ i ∈ [Instr.ld d a sz pol off, .st d a sz pol off, .lda d a sz pol scp off, .stl d a sz pol scp off,
        .amoSwap d a sz scp pl, .amoAdd d a sz scp pl, .amoAnd d a sz scp pl, .amoOr d a sz scp pl, .amoXor d a sz scp pl,
        .amoMin d a sz scp pl, .amoMax d a sz scp pl, .amoMinn d a sz scp pl, .amoMaxn d a sz scp pl,
        .cas d a b sz scp, .casNear d a b sz scp, .casFar d a b sz scp, .cwr d w, .cww a w, .cws a w, .cwc a w, .trap k, .eret,
        .fence scp, .fenceAcq scp, .fenceRel scp, .fenceFetch scp, .tfence, .scommit d, .sabort d, .etrig, .exit, .yield,
        .vsetl d a b, .vf far, .launch d a b, .wait d a b wrap, .poll d a b wrap, .arrive d a b e, .csigSig d a b, .csigSet d a,
        .rowact d a b e, .rowcls d a, .rowcon wr cl d a b, .cbld d a b, .tbld d a b e, .lka d a b e, .aclr d a, .adrn d a b,
        .kvlook d a, .kvins d a b e, .kvpin d a b, .kvunpin d a b, .kvapp d a b e, .kvsig d a,
        .kvbindBind a b, .kvbindSave a b, .kvbindUnbind a b, .cpy d a b e, .cpys d a b e],
      exec i s = .next s) ∧
    (∀ q ∈ [(Instr.add d a b, [d, a, b]), (.sub d a b, [d, a, b]), (.and d a b, [d, a, b]), (.or d a b, [d, a, b]), (.xor d a b, [d, a, b]),
        (.shl d a b, [d, a, b]), (.shr d a b, [d, a, b]), (.sra d a b, [d, a, b]), (.slt d a b, [d, a, b]), (.sltn d a b, [d, a, b]),
        (.min d a b, [d, a, b]), (.max d a b, [d, a, b]), (.minn d a b, [d, a, b]), (.maxn d a b, [d, a, b]),
        (.fshl d a b k, [d, a, b]), (.fshr d a b k, [d, a, b]), (.mul d a b, [d, a, b]), (.mulh d a b, [d, a, b]), (.mulhn d a b, [d, a, b]),
        (.div d a b, [d, a, b]), (.divn d a b, [d, a, b]), (.rem d a b, [d, a, b]), (.remn d a b, [d, a, b]),
        (.clz d a, [d, a]), (.ctz d a, [d, a]), (.popc d a, [d, a]), (.sext d a k, [d, a]), (.zext d a k, [d, a]),
        (.addi d a imm, [d, a]), (.andi d a imm, [d, a]), (.ori d a imm, [d, a]), (.xori d a imm, [d, a]), (.slti d a imm, [d, a]),
        (.shli d a k, [d, a]), (.shri d a k, [d, a]), (.srai d a k, [d, a]), (.lih d far, [d]),
        (.beq a b imm, [a, b]), (.bne a b imm, [a, b]), (.blt a b imm, [a, b]), (.bge a b imm, [a, b]), (.bltn a b imm, [a, b]),
        (.bgen a b imm, [a, b]), (.jal d far, [d]), (.jalr d a imm, [d, a])],
      ¬ MayRun s q.2 → exec q.1 s = .next s)

/-! ## Exceptions -/

/-- R131, R132: a trap on a supervisor core saves the pc, the cause and the info, sets inh and goes to
svec, or halts a core that is inside its handler; TRAP takes it, and ERET returns from it. Rests on
log entries 30 and 49. -/
def Obligations.SupervisorExceptions : Prop :=
  ∀ (s : State) (n : Fin 8) (k : BitVec 6) (i : TrapInfo), s.core.id = .sup n → NoBlock s →
    (s.core.sup.inh = false → s.takeTrap i = { s with core := { s.core with
        epc := i.epc, cause := BitVec.ofNat 17 (i.code % 2 ^ 16), info := i.info, pc := s.core.sup.svec,
        sup := { s.core.sup with inh := true } } }) ∧
    (s.core.sup.inh = true → s.takeTrap i = { s with
        core := { s.core with sup := { s.core.sup with halted := true } },
        ursol := { s.ursol with log := s.ursol.log ++ [.supHalted n.val] } }) ∧
    exec (.trap k) s = .next (s.takeTrap { code := 0x0003, info := k.setWidth 64, epc := s.core.pc, resume := s.core.pc + 4 }) ∧
    (s.core.sup.inh = true → exec .eret s = .next { s with core := { s.core with
        pc := s.core.epc, sup := { s.core.sup with inh := false } } }) ∧
    (s.core.sup.inh = false → exec .eret s = .next (s.takeTrap
        { code := 0x0001, info := 0x10000021, epc := s.core.pc, resume := s.core.pc }))

/-- R131, R376 to R379: a trap on a hart releases, saves the task's context in its frame and takes the task off
its slot; the task waits, parked, at the end of its stack's service queue, its buffered stores and flags kept, for
its resume object. Where the save fails or the resume object cannot be written the frame is lost and the task
ends. The frame holds the saved registers, the trap words and the resume pc at their offsets, wherever its pages
take writes. TRAP takes such a trap, to go on at the next word. Rests on
log entries 29 and 30. -/
def Obligations.HartExceptions : Prop :=
  ∀ (s : State) (t : TaskId) (k : BitVec 6) (i : TrapInfo), s.core.id = .task t → (s.farm? t.farm.val).isSome = true → NoBlock s →
    (let c := s.core.trapWords i
     let r := ({ s with core := c, mem := releaseWide s.mem c.agent } : State).unseat t i.resume i.level i.kind
     let o := r.1.resumeObject t
     let u := s.takeTrap i
     c.epc = i.epc ∧ c.cause = BitVec.ofNat 17 (i.code % 2 ^ 16 + if i.frec.isSome then 2 ^ 16 else 0) ∧ c.info = i.info ∧
     (i.frec = none → c.task.frec = 0) ∧ (∀ a, i.frec = some a → c.task.frec = BitVec.ofNat 64 (2 ^ 63 + a.toNat % 2 ^ 56)) ∧
     (r.2 = true → u.findCore (.task t) = none) ∧
     (∀ pa nc, r.2 = true → o.2 = some (pa, nc) →
       (∃ p ∈ u.parked, p.t = t ∧ p.wake = .resume pa false ∧ p.buf = s.core.task.buf ∧ p.flags = s.core.flags ∧ p.aps = s.core.task.aps) ∧
       ∃ e, (fget u.service s.core.task.stk.val []).getLast? = some e ∧ e.t = t ∧ e.frame = o.1.frameVa t) ∧
     (r.2 = false ∨ o.2 = none → FrameLost u t) ∧
     (∀ e, FrameReady s t e → r.2 = true ∧
       ∀ q ∈ FrameWords c i.resume, readBytes r.1.mem.cells (leafPa e (s.frameVa t) + q.1) 8 = bytesOf 8 q.2)) ∧
    exec (.trap k) s = .next (s.takeTrap { code := 0x0003, info := k.setWidth 64, epc := s.core.pc, resume := s.core.pc + 4 }) ∧
    exec .eret s = .next (s.takeTrap { code := 0x0001, info := 0x10000021, epc := s.core.pc, resume := s.core.pc })

/-- R390, R391: a task that single-steps traps after each instruction that retires, with what the instruction does
done; a load, store or atomic that touches a watched byte is done and then traps with its address; the trap resumes at
the next word. Rests on
log entries 22 and 30. -/
def Obligations.DebugTraps : Prop :=
  ∀ (s : State) (d a b e : Reg) (k : BitVec 6) (imm : BitVec 15) (far : BitVec 20) (sz : Size) (pol : Pol) (off : BitVec 6)
      (scp : Scope) (pl : Place) (cw : BitVec 12) (wrap wr cl : Bool) (m p r : MaskNo) (h : EHdr),
    s.core.id.isTask = true → s.core.task.watchHit = none →
    -- a watched load, store or atomic
    (NoBlock s →
      (let ea := effAddr s a sz off
       let at_ := s.core.reg a
       let n := sizeBytes sz
       let covered := fun (va : W64) (bit : Nat) => ∃ w ∈ s.core.task.watches, w.2.kind.getLsbD bit = true ∧
         w.2.va.toNat / 2 ^ w.2.lg.toNat * 2 ^ w.2.lg.toNat < va.toNat + n ∧
         va.toNat < w.2.va.toNat / 2 ^ w.2.lg.toNat * 2 ^ w.2.lg.toNat + 2 ^ w.2.lg.toNat
       let trap := fun (va : W64) (u : State) (c : Core) => Host.Outcome.next (({ u with core := c }).takeTrap
         { code := 0x0022, info := va, epc := s.core.pc, resume := s.core.pc + 4 })
       let acquired := fun (u : State) => ({ u with mem := acquireAt u.mem s.core.agent scp } : State)
       let unnoted := fun (c : Core) => ({ c with task := { c.task with watchHit := none } } : Core)
       (∀ u v, covered ea 0 → coreLoad s ea n pol false = (u, .ok v) → exec (.ld d a sz pol off) s = trap ea u (s.core.setReg d (extend sz v))) ∧
       (∀ u v, covered ea 0 → coreLoad s ea n pol (scp != .plain) = (u, .ok v) →
          exec (.lda d a sz pol scp off) s = trap ea (acquired u) (s.core.setReg d (extend sz v))) ∧
       (∀ u, covered ea 1 → coreStore s ea n (s.core.reg d).toNat pol = (u, .done) → exec (.st d a sz pol off) s = trap ea u (unnoted u.core)) ∧
       (∀ u, covered ea 1 → releaseStore s ea n (s.core.reg d).toNat pol scp = (u, .done) →
          exec (.stl d a sz pol scp off) s = trap ea u (unnoted u.core)) ∧
       (∀ u v ms t, covered at_ 0 ∨ covered at_ 1 → checkAccess s at_ n .atomic .dflt (scp != .plain) = (ms, .ok t) →
          ∀ q ∈ [(Instr.amoSwap d a sz scp pl, AtomOp.amo .swap (s.core.reg d), pl), (.amoAdd d a sz scp pl, .amo .add (s.core.reg d), pl),
              (.amoAnd d a sz scp pl, .amo .and (s.core.reg d), pl), (.amoOr d a sz scp pl, .amo .or (s.core.reg d), pl),
              (.amoXor d a sz scp pl, .amo .xor (s.core.reg d), pl), (.amoMin d a sz scp pl, .amo .min (s.core.reg d), pl),
              (.amoMax d a sz scp pl, .amo .max (s.core.reg d), pl), (.amoMinn d a sz scp pl, .amo .minn (s.core.reg d), pl),
              (.amoMaxn d a sz scp pl, .amo .maxn (s.core.reg d), pl), (.cas d a b sz scp, .cas (s.core.reg d) (s.core.reg b), .auto),
              (.casNear d a b sz scp, .cas (s.core.reg d) (s.core.reg b), .near), (.casFar d a b sz scp, .cas (s.core.reg d) (s.core.reg b), .far)],
            coreAtomic { s with mem := releaseAt ms s.core.agent scp } at_ n q.2.1 q.2.2 (scp != .plain) = (u, .ok v) →
            exec q.1 s = trap at_ (acquired u) (unnoted (u.core.setReg d (extend sz v)))) ∧
       (∀ u v, ¬ covered ea 0 → s.core.task.step = false → coreLoad s ea n pol false = (u, .ok v) →
          exec (.ld d a sz pol off) s = .next (wrote u d (extend sz v))))) ∧
    -- a single step of the scalar stream
    (NoBlock s → s.core.task.step = true → s.core.task.joinOp = none →
      (∀ i ∈ [Instr.add d a b, .sub d a b, .and d a b, .or d a b, .xor d a b, .shl d a b, .shr d a b, .sra d a b, .slt d a b, .sltn d a b,
          .min d a b, .max d a b, .minn d a b, .maxn d a b, .fshl d a b k, .fshr d a b k, .mul d a b, .mulh d a b, .mulhn d a b,
          .div d a b, .divn d a b, .rem d a b, .remn d a b, .clz d a, .ctz d a, .popc d a, .sext d a k, .zext d a k,
          .addi d a imm, .andi d a imm, .ori d a imm, .xori d a imm, .slti d a imm, .shli d a k, .shri d a k, .srai d a k, .lih d far,
          .beq a b imm, .bne a b imm, .blt a b imm, .bge a b imm, .bltn a b imm, .bgen a b imm, .jal d far, .vsetl d a b,
          .fence scp, .fenceAcq scp, .fenceRel scp, .fenceFetch scp],
        ∃ t : State, exec i (stepOff s) = .next t ∧
          exec i s = .next ((stepAt t s.core.pc).takeTrap
            { code := 0x0021, info := t.core.pc.setWidth 64, epc := s.core.pc, resume := t.core.pc })) ∧
      (∀ i ∈ [Instr.ld d a sz pol off, .st d a sz pol off, .lda d a sz pol scp off, .stl d a sz pol scp off,
          .amoSwap d a sz scp pl, .amoAdd d a sz scp pl, .amoAnd d a sz scp pl, .amoOr d a sz scp pl, .amoXor d a sz scp pl,
          .amoMin d a sz scp pl, .amoMax d a sz scp pl, .amoMinn d a sz scp pl, .amoMaxn d a sz scp pl,
          .cas d a b sz scp, .casNear d a b sz scp, .casFar d a b sz scp, .cwr d cw, .cww a cw, .cws a cw, .cwc a cw,
          .tfence, .sabort d, .etrig, .yield, .vf far, .wait e d a wrap, .poll e d a wrap, .arrive e d a b, .csigSig d a b, .csigSet d a,
          .kvbindBind a b, .kvbindSave a b, .kvbindUnbind a b] ++
          (if s.core.task.buf = [] then [Instr.scommit d] else []) ++
          (if s.core.task.sjoin then [] else [Instr.launch d a b, .rowact e d a b, .rowcls d a, .rowcon wr cl d a b, .cbld d a b, .tbld d a b e,
            .lka d a b e, .aclr d a, .adrn d a b, .kvlook d a, .kvins d a b e, .kvpin d a b, .kvunpin d a b, .kvapp d a b e, .kvsig d a,
            .cpy d a b e, .cpys d a b e]),
        ∀ t, exec i (stepOff s) = .next t → t.core.id = s.core.id → t.core.pc = s.core.pc + 4 →
          exec i s = .next ((stepAt t s.core.pc).takeTrap
            { code := 0x0021, info := (s.core.pc + 4).setWidth 64, epc := s.core.pc, resume := s.core.pc + 4 })) ∧
      (let link := BitVec.ofNat 64 ((s.core.pc.toNat + 4) % 2 ^ 56)
       let t := BitVec.ofInt 64 (((s.core.reg a).toNat : Int) + imm.toInt)
       t.toNat % 4 = 0 → t.toNat < 2 ^ 56 →
         exec (.jalr d a imm) s = .next (({ s with core := s.core.setReg d link }).takeTrap
           { code := 0x0021, info := t, epc := s.core.pc, resume := BitVec.ofNat 56 t.toNat }))) ∧
    -- a single step of the element stream
    (∀ bk, s.core.task.block = some bk → s.core.task.step = true →
      (let step := fun (t : State) => Host.Outcome.next ((stepAt t s.core.pc).takeTrap
         { code := 0x0021, info := (bk.bpc + 8).setWidth 64, epc := bk.bpc, resume := s.core.pc })
       (∀ i ∈ [Instr.vmand h m p r, .vmor h m p r, .vmxor h m p r, .vmnot h m p, .vmcnt h d p, .vmfirst h d p],
          ∃ t : State, exec i (stepOff s) = .next t ∧ exec i s = step t) ∧
       (∀ (ty : Ty) (x y z : VOp) (sat : Bool) (rm : Rm) (gs : Gs) (q : SqNo) (ml : VLdMods) (mst : VStMods),
          ∀ i ∈ [Instr.vadd h ty x y z sat, .vsub h ty x y z sat, .vmul h ty x y z sat, .vand h ty x y z, .vshl h ty x y z, .vmov h ty x y,
              .vmovx h ty x b 0, .vfadd h ty x y z rm, .vfma h ty x y z rm, .vrsum h ty d y sat, .vshuf h ty x y z gs, .opa h ty q y z false,
              .sqz false q, .vld h ty x a ml, .vlds h ty x a b ml, .vst h ty x a mst, .vsts h ty x a b mst],
            ∀ t, exec i (stepOff s) = .next t → t.core.id = s.core.id →
              t.core.task.block = some { bk with bpc := bk.bpc + 8, words := bk.words.tail } → exec i s = step t)))

/-- R74, R76, R116: a word that is no instruction, and one the core does not have, trap with the word;
the words R116 keeps from the supervisor core do so there. -/
def Claims.IllegalWords : Prop :=
  ∀ (s : State) (d a b : Reg) (word : W64) (off : BitVec 20),
    (NoBlock s → exec (.illegalEncoding word) s = .next (s.takeTrap { code := 0x0001, info := word, epc := s.core.pc, resume := s.core.pc })) ∧
    (∀ k, s.core.task.block = some k → exec (.illegalEncoding word) s = .next
      (({ s with core := { s.core with task := { s.core.task with vstart := 0 } } }).takeTrap
        { code := 0x0001, info := word, epc := k.bpc, resume := s.core.pc })) ∧
    (s.core.id.isSup = true →
      ∀ i ∈ [Instr.tfence, .scommit d, .sabort d, .etrig, .exit, .yield, .vsetl d a b, .vf off],
        exec i s = .next (s.takeTrap { code := 0x0001, info := BitVec.ofNat 64 (wordOf i), epc := s.core.pc, resume := s.core.pc }))

/-- R31, R75, R140: an element instruction one of whose operands names a square that the task does not have, a 64-bit pair
at an odd index or a stream record that is not bound traps with its word, as it stands, before any element; so does a
whole-square instruction. -/
def Claims.MissingOperands : Prop :=
  ∀ (s : State) (h : EHdr) (ty src : Ty) (d a b : VOp) (x y : Reg) (cv sat u alt tr wide ord : Bool) (k : BitVec 6) (e : BitVec 8) (m : MaskNo)
      (q r : SqNo) (i : Fin 32) (st : Fin 4) (gs : Gs) (op : GOp) (rm : Rm) (p : Fin 4) (cond : Cond) (fc : FCond) (ld : VLdMods) (sm : VStMods)
      (ao : AmoOp) (pl : Place),
    (let traps := fun (ins : Instr) => exec ins s = .next (s.takeTrap
       { code := 0x0002, info := s.core.eword, epc := s.core.bpc, resume := s.core.pc })
     let lacks := fun (o : Ty × VOp) => match o.2 with
       | .vec q _ i => s.core.task.sq ≤ q.val ∨ (o.1.is64 = true ∧ i.val % 2 = 1)
       | .stream st _ => (fget s.core.task.streams st.val {}).bound = false
       | .scalar _ => False
     let each := fun (is : List Instr) (os : List (Ty × VOp)) => (∃ o ∈ os, lacks o) → ∀ ins ∈ is, traps ins
     each [.vadd h ty d a b sat, .vsub h ty d a b sat, .vmul h ty d a b sat, .vmulh h ty d a b, .vmin h ty d a b, .vmax h ty d a b,
        .vminn h ty d a b, .vmaxn h ty d a b, .vand h ty d a b, .vor h ty d a b, .vxor h ty d a b, .vshl h ty d a b, .vshr h ty d a b,
        .vsra h ty d a b, .vfshl h ty d a b k, .vfshr h ty d a b k, .vcmp h ty (.vec d) a b cond, .vsel h ty d a b, .vfadd h ty d a b rm,
        .vfsub h ty d a b rm, .vfmul h ty d a b rm, .vfma h ty d a b rm, .vfmin h ty d a b, .vfmax h ty d a b, .vfdiv h ty d a b rm,
        .vfcmp h ty (.vec d) a b fc, .vshuf h ty d a b gs] [(ty, d), (ty, a), (ty, b)] ∧
     each [.vpopc h ty d a, .vclz h ty d a, .vabs h ty d a, .vsatn h ty d a k u, .vmov h ty d a, .vidx h ty d a e, .vfrcp h ty d a rm,
        .vfrsq h ty d a rm, .vfexp2 h ty d a rm, .vflog2 h ty d a rm, .vgred h ty d a gs op sat, .vslup h ty d a y gs, .vsldn h ty d a y gs,
        .vbcast h ty d a y gs, .vcmprs cv ty d a m, .vexpnd cv ty d a m, .vscan h ty d a gs op u sat] [(ty, d), (ty, a)] ∧
     each [.vcmp h ty (.mask m) a b cond, .vfcmp h ty (.mask m) a b fc] [(ty, a), (ty, b)] ∧
     each [.vext cv ty x a e, .vrsum h ty x a sat, .vrmax h ty x a, .vrmin h ty x a, .vrmaxi h ty x a y, .vrmini h ty x a y, .vrand h ty x a,
        .vror h ty x a, .vrxor h ty x a, .vfrsum h ty x a rm wide, .vfrmax h ty x a] [(ty, a)] ∧
     each [.vfcvt h ty d a rm src p, .vicvt h ty d a rm src p] [(ty, d), (src, a)] ∧
     each [.vmovx h ty d y e, .vld h ty d x ld, .vlds h ty d x y ld, .vst h ty d x sm, .vsts h ty d x y sm] [(ty, d)] ∧
     each [.vldx h ty d x b ld, .vstx h ty d x b sm, .vamo h ty d x b ao pl ord] [(ty, d), (ty, b)] ∧
     each [.vstb h d x b sm] [(.n32, d), (.n32, b)] ∧ each [.kvhash cv x a y] [(.n32, a)] ∧
     each [.vsign cv d a q] [(.e4m3, d), (.e4m3, a), (.e4m3, .vec q .row 0)] ∧
     each [.qkdot h d a st] [(.e4m3, d), (.e4m3, a), (.e4m3, .stream st false)] ∧
     each [.pvacc h q i a st] [(.fp32, .vec q .row i), (.fp32, a), (.e4m3, .stream st true)] ∧
     -- whole squares, and the pairs of an outer product
     each [.sqz cv q] [(.n32, .vec q .row 0)] ∧ each [.sqcp cv q r tr, .sqcvt cv ty q r rm] [(.n32, .vec q .row 0), (.n32, .vec r .row 0)] ∧
     each [.opa h ty q a b alt] [(.n32, .vec q .row 0), (.n64, a), (.n64, b)])

/-- R31, R74-R76, R116, R140: words that are no instruction, and operands that the task does not have. Rests on
log entry 30. -/
def Obligations.IllegalInstructions : Prop := Claims.IllegalWords ∧ Claims.MissingOperands

/-! ## Control words -/

/-- R126-R128: CWR reads each control word its core has, reserved bits as zero; a word the core does not
have is an illegal instruction. -/
def Claims.ControlWordReads : Prop :=
  ∀ (s : State) (d : Reg), NoBlock s → Quiet s →
    (let c := s.core
     let shared : List (BitVec 12 × W64) := [(0x006, c.asid.setWidth 64), (0x008, c.flags.setWidth 64), (0x010, c.epc.setWidth 64),
       (0x011, c.cause.setWidth 64), (0x012, c.info), (0x020, BitVec.ofNat 64 (match s.tick0 with
         | some t => (s.now - t) / 10
         | none => 0))]
     let hart : List (BitVec 12 × W64) := [(0x000, c.task.vl.setWidth 64), (0x001, c.task.vstart.setWidth 64),
       (0x002, BitVec.ofNat 64 (c.task.stk.val * 2 ^ 8 + c.task.cluster.val * 2 ^ 3 + c.task.hw.toNat)), (0x005, c.task.strip.setWidth 64), (0x009, c.task.tmask.setWidth 64), (0x013, c.task.frec)]
     let sup : List (BitVec 12 × W64) := [(0x100, c.sup.svec.setWidth 64), (0x101, if c.sup.inh then 1 else 0)]
     let illegal := fun (w : BitVec 12) => exec (.cwr d w) s = .next (s.takeTrap
       { code := 0x0001, info := BitVec.ofNat 64 (wordOf (.cwr d w)), epc := c.pc, resume := c.pc })
     (∀ q ∈ shared, exec (.cwr d q.1) s = .next (wrote s d q.2)) ∧
     (∀ t, c.id = .task t → (∀ q ∈ hart, exec (.cwr d q.1) s = .next (wrote s d q.2)) ∧ (∀ q ∈ sup, illegal q.1) ∧
       exec (.cwr d 0x003) s = .next (wrote s d (BitVec.ofNat 64 t.tid)) ∧
       exec (.cwr d 0x004) s = .next (wrote s d (BitVec.ofNat 64 t.farm.val))) ∧
     (c.id.isSup = true → (∀ q ∈ sup, exec (.cwr d q.1) s = .next (wrote s d q.2)) ∧ (∀ q ∈ hart, illegal q.1) ∧
       illegal 0x003 ∧ illegal 0x004))

/-- R129, R277: refph[t] tells the refresh window of a column at every instant: window k of column t is
[3900·k + 60·t, 3900·k + 60·t + 350) ns after tick 0, on layer k mod 16; before window 0 it tells when that starts. -/
def Claims.RefreshPhaseWord : Prop :=
  ∀ (s : State) (d : Reg) (t k o : Nat), NoBlock s → Quiet s → t < 64 →
    (o < 3900 → s.sinceTick0 = 3900 * k + 60 * t + o →
      exec (.cwr d (BitVec.ofNat 12 (0x040 + t))) s = .next (wrote s d (BitVec.ofNat 64
        (if o < 350 then k % 16 + 2 ^ 8 + (3900 - o) * 2 ^ 16 + (350 - o) * 2 ^ 32
         else (k + 1) % 16 + (3900 - o) * 2 ^ 16)))) ∧
    (s.sinceTick0 < 60 * t → exec (.cwr d (BitVec.ofNat 12 (0x040 + t))) s = .next (wrote s d (BitVec.ofNat 64
        ((60 * t - s.sinceTick0) * 2 ^ 16))))

/-- R126-R128: CWW, CWS and CWC write a legal value into a word the core may write and change no other
word; an illegal value, or any change of a read-only word, is an illegal operand that changes nothing;
CWS and CWC of zero do nothing. Rests on
log entry 30. -/
def Obligations.ControlWordWrites : Prop :=
  ∀ (s : State) (a : Reg), NoBlock s → Quiet s →
    (let v := s.core.reg a
     let hart : List (BitVec 12 × (W64 → Prop) × (Core → W64 → Core)) :=
       [(0x000, fun v => v.toNat ≤ 32, fun c v => { c with task := { c.task with vl := v.setWidth 6 } }),
        (0x001, fun v => v.toNat < 32, fun c v => { c with task := { c.task with vstart := v.setWidth 5 } }),
        (0x008, fun v => v.toNat < 256, fun c v => { c with flags := v.setWidth 8 }),
        (0x009, fun v => v.toNat < 256, fun c v => { c with task := { c.task with tmask := v.setWidth 8 } })]
     let sup : List (BitVec 12 × (W64 → Prop) × (Core → W64 → Core)) :=
       [(0x006, fun v => v.toNat < 2 ^ 14, fun c v => { c with asid := v.setWidth 14 }),
        (0x008, fun v => v.toNat < 256, fun c v => { c with flags := v.setWidth 8 }),
        (0x010, fun v => v.toNat < 2 ^ 56, fun c v => { c with epc := v.setWidth 56 }),
        (0x011, fun v => v.toNat < 2 ^ 17, fun c v => { c with cause := v.setWidth 17 }),
        (0x012, fun _ => True, fun c v => { c with info := v }),
        (0x100, fun v => v.toNat < 2 ^ 56 ∧ v.toNat % 4 = 0, fun c v => { c with sup := { c.sup with svec := v.setWidth 56 } }),
        (0x101, fun v => v.toNat < 2, fun c v => { c with sup := { c.sup with inh := v.getLsbD 0 } })]
     let put := fun (f : Core → W64 → Core) (x : W64) => Host.Outcome.next (wentTo { s with core := f s.core x } (s.core.pc + 4))
     let trap := fun (i : Instr) => Host.Outcome.next (s.takeTrap
       { code := 0x0002, info := BitVec.ofNat 64 (wordOf i), epc := s.core.pc, resume := s.core.pc })
     let writes := fun (w : BitVec 12) (ok : W64 → Prop) (f : Core → W64 → Core) =>
       (let up := v ||| cwRead s w.toNat
        let down := cwRead s w.toNat &&& ~~~ v
        (ok v → exec (.cww a w) s = put f v) ∧ (¬ ok v → exec (.cww a w) s = trap (.cww a w)) ∧
        (v ≠ 0 → (ok up → exec (.cws a w) s = put f up) ∧ (¬ ok up → exec (.cws a w) s = trap (.cws a w))) ∧
        (v ≠ 0 → (ok down → exec (.cwc a w) s = put f down) ∧ (¬ ok down → exec (.cwc a w) s = trap (.cwc a w))))
     let readOnly := fun (w : BitVec 12) => exec (.cww a w) s = trap (.cww a w) ∧
       (v ≠ 0 → exec (.cws a w) s = trap (.cws a w) ∧ exec (.cwc a w) s = trap (.cwc a w))
     (s.core.id.isTask = true → (∀ q ∈ hart, writes q.1 q.2.1 q.2.2) ∧
        ∀ w ∈ ([0x002, 0x003, 0x004, 0x005, 0x006, 0x010, 0x011, 0x012, 0x013, 0x020, 0x040, 0x07F] : List (BitVec 12)), readOnly w) ∧
     (s.core.id.isSup = true → (∀ q ∈ sup, writes q.1 q.2.1 q.2.2) ∧ ∀ w ∈ ([0x020, 0x040, 0x07F] : List (BitVec 12)), readOnly w) ∧
     (v = 0 → ∀ w : BitVec 12, cwForbidden s.core w.toNat = false →
        exec (.cws a w) s = .next (wentTo s (s.core.pc + 4)) ∧ exec (.cwc a w) s = .next (wentTo s (s.core.pc + 4))))

/-! ## Fences -/

/-- R264, R265, R228, R229: every kind of FENCE completes and changes nothing but the pc and the coherence words:
no TLB, no walk, no post and, where nothing is under way, no other agent's copy where it only acquires. An acquire at .stack or wider leaves its
agent no clean word in a U line. A release there leaves it no sis-dirty byte and no marker; with no owner and no
request in the way each of those bytes is at home after it, and no other byte of memory has changed. A narrower
release and an acquire change no byte of memory where nothing waits on the agent's lines. Rests on
log entries 37 and 47. -/
def Obligations.Fences : Prop :=
  ∀ (s : State) (scp : Scope), NoBlock s → Quiet s → s.core.agent < 17 →
    ∀ q ∈ [(Instr.fence scp, true, true), (Instr.fenceAcq scp, true, false), (Instr.fenceRel scp, false, true), (Instr.fenceFetch scp, true, false)],
      ∃ t : State, exec q.1 s = .next t ∧ t.core = { s.core with pc := s.core.pc + 4 } ∧ { t with core := s.core, mem := s.mem } = s ∧
        { t.mem with
            cells := s.mem.cells, lines := s.mem.lines, poison := s.mem.poison, dir := s.mem.dir, reqs := s.mem.reqs
            notices := s.mem.notices, hits := s.mem.hits, corrected := s.mem.corrected, uncorrectable := s.mem.uncorrectable
            dramWork := s.mem.dramWork } = s.mem ∧
        (q.2.2 = false → s.mem.reqs = [] → s.mem.notices = [] → { t.mem with lines := s.mem.lines, poison := s.mem.poison } = s.mem ∧
          ∀ a line, a < 17 → a ≠ s.core.agent → findCopy t.mem a line = findCopy s.mem a line) ∧
        (q.2.1 = true → scopeWide scp = true → ∀ line c, findCopy t.mem s.core.agent line = some c → c.mode = .u → c.valid = 0) ∧
        (q.2.2 = true → scopeWide scp = true →
          (∀ line c, findCopy t.mem s.core.agent line = some c → c.sdirty = 0) ∧ (∀ e ∈ t.mem.dir, e.2.nr.toNat ≠ s.core.agent) ∧
          (s.mem.reqs = [] → s.mem.notices = [] → (∀ e ∈ s.mem.dir, e.2.own = 31) →
            ∀ k, fget t.mem.cells k 0 = match findCopy s.mem s.core.agent (k / 64) with
              | some c => if c.sdirty.getLsbD (k % 64) then c.data.extractLsb' (8 * (k % 64)) 8 else fget s.mem.cells k 0
              | none => fget s.mem.cells k 0)) ∧
        (scopeWide scp = false → s.mem.reqs = [] → (∀ e ∈ s.mem.dir, e.2.nr = 31) → t.mem.cells = s.mem.cells)

/-! ## Strips, blocks and the end of a task -/

/-- R105, R107: VSETL sets vl to the exact difference of two i64 registers held within 0 to 32, and vstart
to 0; VF starts a block at its target with every register captured, and a target that is not a multiple
of 8 is an illegal operand. -/
def Claims.VsetlAndVf : Prop :=
  ∀ (s : State) (d a b : Reg) (off : BitVec 20), s.core.id.isTask = true → NoBlock s → Quiet s →
    (let n := (max 0 (min 32 ((s.core.reg a).toInt - (s.core.reg b).toInt))).toNat
     exec (.vsetl d a b) s = .next (wrote { s with core := { s.core with task := { s.core.task with
       vl := BitVec.ofNat 6 n, vstart := 0 } } } d (BitVec.ofNat 64 n))) ∧
    (let t := BitVec.ofInt 56 ((s.core.pc.toNat : Int) + off.toInt * 4)
     (t.toNat % 8 = 0 → exec (.vf off) s = .next (wentTo { s with core := { s.core with task := { s.core.task with
       block := some ⟨t, t, [], s.core.x⟩ } } } (s.core.pc + 4))) ∧
     (t.toNat % 8 ≠ 0 → exec (.vf off) s = .next (s.takeTrap
       { code := 0x0002, info := BitVec.ofNat 64 (wordOf (.vf off)), epc := s.core.pc, resume := s.core.pc })))

/-- R382, R383: TFENCE delivers the oldest undelivered fault record: its dlv byte in the frame becomes 1, and the trap
carries its status, its object and its address; a frame that takes no write is lost. With no record TFENCE traps on a
sticky flag that tmask names, to go on at the next word, and otherwise only goes on. Rests on
log entries 29 and 30. -/
def Obligations.TrapFence : Prop :=
  ∀ (s : State) (t : TaskId), s.core.id = .task t → NoBlock s → Quiet s →
    (let f := s.core.flags &&& s.core.task.tmask
     (∀ m, ((s.farm t.farm.val).undelivered t.tid).head? = some m →
        exec .tfence s = .next (s.deliverRecord t m) ∧
        (let off := 0x300 + 64 * m.k.val
         let w := s.frameWrite t (off + 9) [1]
         let marked := w.1.mapFarm t.farm.val fun f => { f with recs := f.recs.map fun n => if n = m then { n with delivered := true } else n }
         (w.2 = true → s.deliverRecord t m = marked.takeTrap
            { code := m.status.toNat, info := m.obj.getD 0, epc := s.core.pc, resume := s.core.pc
              frec := some (s.frameVa t + BitVec.ofNat 64 off) } ∧ marked.core = s.core ∧
            ((s.farm? t.farm.val).isSome = true → m ∉ (marked.farm t.farm.val).undelivered t.tid)) ∧
         ((s.farm? t.farm.val).isSome = true → w.2 = false → FrameLost (s.deliverRecord t m) t) ∧
         (∀ e, FrameReady s t e → w.2 = true ∧ readBytes w.1.mem.cells (leafPa e (s.frameVa t) + off + 9) 1 = [1]))) ∧
     ((s.farm t.farm.val).undelivered t.tid = [] → f = 0 → exec .tfence s = .next (wentTo s (s.core.pc + 4))) ∧
     ((s.farm t.farm.val).undelivered t.tid = [] → f ≠ 0 → exec .tfence s = .next (s.takeTrap
        { code := 0x0020, info := f.setWidth 64, epc := s.core.pc, resume := s.core.pc + 4 })))

/-- R96, R386, R387: with nothing buffered SCOMMIT counts the held strip as committed. SABORT reports the base of the
held strip as discarded and drops whatever is buffered, none of which reaches memory. Both claim the farm's next
strip into their register, or all ones with none left; with no strip held they only claim. -/
def Claims.StripEnds : Prop :=
  ∀ (s : State) (t : TaskId) (d : Reg) (f : Farm), s.core.id = .task t → s.farm? t.farm.val = some f → NoBlock s → Quiet s →
    (let left := f.stripLeft
     let base := f.nextBase
     let len := min f.lrec.slen (f.lrec.iters - base)
     let after := fun (p : TaskPart) =>
       if left then { p with strip := BitVec.ofNat 32 len, sbase := BitVec.ofNat 64 base, held := true }
       else { p with strip := 0, sbase := BitVec.allOnes 64, held := false }
     let v := if left then BitVec.ofNat 64 base else BitVec.allOnes 64
     (s.core.task.held = true → s.core.task.buf = [] → ∃ u : State, exec (.scommit d) s = .next u ∧
        u.core = (wrote { s with core := { s.core with task := after s.core.task } } d v).core ∧
        u.farm? t.farm.val = some { f with committed := f.committed + 1, nextBase := if left then base + f.lrec.slen else base } ∧
        u.others = s.others ∧ (s.mem.lines = [] → s.mem.reqs = [] → s.mem.notices = [] → u.mem.cells = s.mem.cells)) ∧
     (s.core.task.held = true → ∃ u : State, exec (.sabort d) s = .next u ∧
        u.core = (wrote { s with core := { s.core with task := after { s.core.task with buf := [], triggered := true } } } d v).core ∧
        -- no buffered byte reaches memory: it stays as it is, unless the farm's trig is signalled now
        (t.tid ∈ f.triggered ∨ f.trigSignalled = true ∨ f.triggered.length + 1 ≠ f.lrec.tasks → u.mem = s.mem) ∧
        (f.trigPa = none → s.mem.lines = [] → s.mem.reqs = [] → s.mem.notices = [] → u.mem.cells = s.mem.cells) ∧
        (u.farm t.farm.val).discarded = f.discarded ++ [s.core.task.sbase.toNat] ∧ t.tid ∈ (u.farm t.farm.val).triggered ∧
        (u.farm t.farm.val).nextBase = (if left then base + f.lrec.slen else base) ∧ u.others = s.others) ∧
     (s.core.task.held = false → ∀ i ∈ [Instr.scommit d, .sabort d], ∃ u : State, exec i s = .next u ∧
        u.core = (wrote { s with core := { s.core with task := after s.core.task } } d v).core ∧
        u.farm? t.farm.val = some { f with nextBase := if left then base + f.lrec.slen else base } ∧ u.mem = s.mem ∧ u.others = s.others))

/-- R244, R253, R387: SCOMMIT performs a buffered store at home: its bytes, and no other byte of memory,
change, and the buffer is empty. -/
def Claims.StripCommit : Prop :=
  ∀ (s : State) (t : TaskId) (d : Reg) (f : Farm) (e : BufElem) (va pa : Nat) (p : EffPol) (bs : List Byte),
    s.core.id = .task t → s.farm? t.farm.val = some f → NoBlock s → Quiet s → s.core.task.held = true →
    s.core.task.buf = [e] → e.kind = .store → e.stale = false → e.parts = [⟨va, .mem pa p, bs.map some⟩] → p ≠ .own →
    bs.length = 4 ∨ bs.length = 8 → pa % bs.length = 0 → reachable s.ursol pa = true →
    NoCopies s.mem →
    ∃ u : State, exec (.scommit d) s = .next u ∧ u.core.task.buf = [] ∧ (u.farm t.farm.val).committed = f.committed + 1 ∧
      u.core.pc = s.core.pc + 4 ∧ (∀ r : Reg, r ≠ d → u.core.reg r = s.core.reg r) ∧
      (∀ k, fget u.mem.cells k 0 = if pa ≤ k ∧ k < pa + bs.length then bs.getD (k - pa) 0 else fget s.mem.cells k 0)

/-- R109: ETRIG marks its task as triggered and goes on. -/
def Claims.Trigger : Prop :=
  ∀ (s : State) (t : TaskId), s.core.id = .task t → (s.farm? t.farm.val).isSome = true → NoBlock s → Quiet s →
    ∃ u : State, exec .etrig s = .next u ∧
      u.core = { s.core with pc := s.core.pc + 4, task := { s.core.task with triggered := true } } ∧
      t.tid ∈ (u.farm t.farm.val).triggered ∧ u.others = s.others ∧ u.parked = s.parked

/-- R110: EXIT waits for the engine operations of its task, then ends it: the task leaves its slot and
the parked tasks, counts as ended and triggered, its flags join the farm's, and a strip it held is
reported as discarded. -/
def Claims.TaskExit : Prop :=
  ∀ (s : State) (t : TaskId) (f : Farm), s.core.id = .task t → s.farm? t.farm.val = some f → NoBlock s →
    (s.opsPending t = true → exec .exit s = .next s) ∧
    (s.opsPending t = false → t.tid ∉ f.ended →
      ∃ u : State, exec .exit s = .next u ∧ u.findCore (.task t) = none ∧ (∀ p ∈ u.parked, p.t ≠ t) ∧
        t.tid ∈ (u.farm t.farm.val).ended ∧ t.tid ∈ (u.farm t.farm.val).triggered ∧
        (u.farm t.farm.val).flags = f.flags ||| s.core.flags ∧
        (u.farm t.farm.val).discarded = f.discarded ++ (if s.core.task.held then [s.core.task.sbase.toNat] else []))

/-- R111: YIELD has no effect unless a ready task of equal or higher priority could use the task's slot;
then the task is saved in its frame, parked and ready again, to go on at the next word; a frame that cannot be
used is lost and ends it. -/
def Claims.Yielding : Prop :=
  ∀ (s : State) (t : TaskId), s.core.id = .task t → (s.farm? t.farm.val).isSome = true → NoBlock s → Quiet s →
    (s.yieldWanted s.core = false → exec .yield s = .next (wentTo s (s.core.pc + 4))) ∧
    (s.yieldWanted s.core = true → ∃ u : State, exec .yield s = .next u ∧
      (let r := s.unseat t (s.core.pc + 4) 0 0
       (r.2 = true → u.findCore (.task t) = none ∧ (∃ p ∈ u.parked, p.t = t ∧ p.wake = .ready ∧ p.buf = s.core.task.buf) ∧ ⟨t, true⟩ ∈ u.drover.ready) ∧
       (r.2 = false → FrameLost u t) ∧
       (∀ e, FrameReady s t e → r.2 = true ∧
         ∀ q ∈ FrameWords s.core (s.core.pc + 4), readBytes r.1.mem.cells (leafPa e (s.frameVa t) + q.1) 8 = bytesOf 8 q.2)))

/-! ## Completion objects -/

/-- R263, R267: WAIT and POLL read an object at home. A satisfied WAIT gives its bits [63:0], a satisfied
POLL 1, and an unsatisfied POLL 0; an unsatisfied WAIT stays where it is; no byte of memory changes. -/
def Claims.WaitAndPoll : Prop :=
  ∀ (s : State) (ms : MemSys) (e c a : Reg) (wrap : Bool) (pa : Nat), NoBlock s → Quiet s →
    objCheck s.mem s.ursol s.core.xctx (s.core.reg c) = (ms, .ok pa) → homeCheck s.mem s.ursol (s.core.reg c) pa (wordsTouched (accessBytes (pa % 64) 16)) = none →
    NoCopies s.mem → pa % 16 = 0 →
    (let v := natOf (readBytes s.mem.cells pa 16)
     let cnt := v % 2 ^ 32
     let t := (s.core.reg a).toNat % 2 ^ 32
     let sat := if wrap then (cnt + 2 ^ 32 - t) % 2 ^ 32 < 2 ^ 31 else t ≤ cnt
     let same := fun (u : State) => u.mem.cells = s.mem.cells ∧ { u with core := s.core, mem := s.mem } = s
     (sat → s.pendingRecord (some (s.core.reg c)) = none →
        (∃ u : State, exec (.wait e c a wrap) s = .next u ∧ same u ∧
          u.core = (wrote { s with core := { s.core with task := { s.core.task with waiting := none } } } e (BitVec.ofNat 64 v)).core) ∧
        (∃ u : State, exec (.poll e c a wrap) s = .next u ∧ same u ∧ u.core = (wrote s e 1).core)) ∧
     (¬ sat →
        (∃ u : State, exec (.poll e c a wrap) s = .next u ∧ same u ∧ u.core = (wrote s e 0).core) ∧
        (∃ u : State, exec (.wait e c a wrap) s = .next u ∧ same u ∧ u.core.pc = s.core.pc ∧
          { u.core with task := { u.core.task with waiting := s.core.task.waiting } } = s.core ∧ u.core.task.waiting.isSome = true)))

/-- R268, R269: ARRIVE, CSIG.sig and CSIG.set make their one update of the object's 16 bytes, and of no
other byte; ARRIVE returns the old count. -/
def Claims.ObjectUpdates : Prop :=
  ∀ (s : State) (ms : MemSys) (e c a b : Reg) (pa : Nat), NoBlock s → Quiet s →
    objCheck s.mem s.ursol s.core.xctx (s.core.reg c) = (ms, .ok pa) → homeCheck s.mem s.ursol (s.core.reg c) pa (wordsTouched (accessBytes (pa % 64) 16)) = none →
    NoCopies s.mem → pa % 16 = 0 →
    (let o := Obj.ofNat (natOf (readBytes s.mem.cells pa 16))
     let A := (s.core.reg a).toNat
     let fl := (s.core.reg b).toNat % 256
     ∀ q ∈ [(Instr.arrive e c a b, { o with count := (o.count + A % 2 ^ 32) % 2 ^ 32, flags := o.flags ||| fl }, wrote s e (BitVec.ofNat 64 o.count)),
         (Instr.csigSig c a b, { o with count := (o.count + 1) % 2 ^ 32, status := A % 2 ^ 16, flags := o.flags ||| fl }, wentTo s (s.core.pc + 4)),
         (Instr.csigSet c a, { o with count := A % 2 ^ 32, status := 0, flags := 0, progress := 0, fidx := 0xFFFFFFFF }, wentTo s (s.core.pc + 4))],
       ∃ u : State, exec q.1 s = .next u ∧ Obj.ofNat (natOf (readBytes u.mem.cells pa 16)) = q.2.1 ∧
         (∀ k, k < pa ∨ pa + 16 ≤ k → fget u.mem.cells k 0 = fget s.mem.cells k 0) ∧ { u with mem := s.mem } = q.2.2)

/-! ## Engine commands at issue -/

/-- R112, R254, R261: LAUNCH of an aligned record address and a good object forks an operation of the
Drover; an unaligned record address is an illegal operand. -/
def Claims.LaunchIssue : Prop :=
  ∀ (s : State) (ms : MemSys) (c a b : Reg) (pa : Nat), NoBlock s → Quiet s → QuietE s →
    ((s.core.reg a).toNat % 128 = 0 → objCheck s.mem s.ursol s.core.xctx (s.core.reg c) = (ms, .ok pa) →
      ∃ t : State, exec (.launch c a b) s = .next t ∧ Forked s t ∧ t.dram = s.dram ∧ t.tiles = s.tiles ∧
        t.eng = { s.eng with launches := s.eng.launches ++ [({ s with mem := ms } : State).opHdr (.launch c a b) a b 0 (some pa) c] }) ∧
    ((s.core.reg a).toNat % 128 ≠ 0 → exec (.launch c a b) s = .next (s.takeTrap
      { code := 0x0002, info := BitVec.ofNat 64 (wordOf (.launch c a b)), epc := s.core.pc, resume := s.core.pc }))

/-- R279 to R281: ROWACT of a ROW page on its own stack and column activates an idle bank under the
activation budget and outside the refresh windows: the bank holds the row under the ASID with a new
tag, and the handle with status 0 goes to its register; the same row again hits with status 4. A refresh window in
progress or less than 32 ns away, a bank that is not idle, and a spent budget defer it with status 2, 1 or 3 and the ns
to wait, and change nothing else. -/
def Claims.RowActivation : Prop :=
  ∀ (s : State) (e c a b : Reg) (obj : Option Nat) (pa : Nat) (pte : W64), NoBlock s → Quiet s → QuietE s → NamesObject s c obj →
    (s.core.reg b).toNat < 64 →
    translate s.mem s.ursol { s.core.xctx with unit := .tile (Fin.ofNat 64 (s.core.reg b).toNat) } (s.core.reg a) .load = (s.mem, .ok (.leaf pa pte)) →
    pteRow pte = true → (s.core.reg a).toNat % 2048 = 0 → isDram pa = true → stackOf pa = s.core.stack.val →
    pa / 2 ^ 11 % 64 = (s.core.reg b).toNat → isFenced s.ursol pa = false →
    (let bk := bankOf pa
     let k := s.bank bk
     let handle := fun (tag : BitVec 16) (status : Nat) =>
       BitVec.ofNat 64 (tag.toNat * 2 ^ 32 + bk.layer.val * 2 ^ 16 + bk.col.val * 2 ^ 8 + status)
     (k.st = .idle → s.inRefresh bk = false → s.refreshWithin bk 32 = false → (s.budget bk).length < 8 →
       ∃ t : State, exec (.rowact e c a b) s = .next t ∧ t.core = (wrote s e (handle (nextTag k.tag) 0)).core ∧
         t.bank bk = ⟨.act, rowOf pa, some s.core.asid, s.now, nextTag k.tag, false, false, s.now,
           obj.toList.map fun o => s.opHdr (.rowact e c a b) a b e (some o) c⟩ ∧
         (16 * bk.stk.val + bk.layer.val, s.now) ∈ t.dram.acts ∧ (∀ b', bankKey b' ≠ bankKey bk → t.bank b' = s.bank b') ∧
         t.mem = s.mem ∧ t.others = s.others ∧ t.tiles = s.tiles ∧ t.eng = s.eng ∧ t.dram.cmds = s.dram.cmds) ∧
     (k.active = true → k.row = rowOf pa → k.asid = some s.core.asid → k.closing = false → obj = none →
       exec (.rowact e c a b) s = .next (wrote { s with seq := s.seq + 1 } e (handle k.tag 4))) ∧
     (let defers := fun (status wait : Nat) => exec (.rowact e c a b) s = .next (wrote s e (BitVec.ofNat 64
        (wait % 2 ^ 16 * 2 ^ 48 + bk.layer.val * 2 ^ 16 + bk.col.val * 2 ^ 8 + status)))
      let free := s.inRefresh bk = false ∧ s.refreshWithin bk 32 = false
      ¬ (k.active = true ∧ k.row = rowOf pa ∧ k.asid = some s.core.asid ∧ k.closing = false) →
        (s.inRefresh bk = true → defers 2 (s.refreshOf bk).rem) ∧
        (∀ r, s.inRefresh bk = false → s.refreshIn bk = some r → r < 32 → defers 2 (r + 350)) ∧
        (free → k.st = .close → defers 1 (k.tIn + 12 - s.now)) ∧
        (free → k.active = true → k.byFold = true → defers 1 (k.tAct + 32 - s.now)) ∧
        (free → k.st = .ref ∨ (k.active = true ∧ k.byFold = false) → defers 1 0) ∧
        (∀ t ts, free → k.st = .idle → s.budget bk = t :: ts → 7 ≤ ts.length → defers 3 (t + 32 - s.now))))

/-- R280, R282, R283, R286: what a row instruction takes instead of running, its object checked. ROWACT of a tile number
above 63, and ROWCON and ROWCLS of a handle with a reserved bit or of a slot above 3, are illegal operands. ROWACT then faults
with its address: a fault of its translation, a page that is not ROW, not a row's start, or in the scratchpad window or
outside DRAM (permission), a row of another stack or column, a fenced column. ROWCON faults with its handle, at the first of
R283's seven conditions; ROWCLS at a fenced column. -/
def Claims.RowFaults : Prop :=
  ∀ (s : State) (w cl : Bool) (e c a b : Reg) (obj : Option Nat), NoBlock s → NamesObject s c obj →
    (let v := s.core.reg a
     let n := (s.core.reg b).toNat
     let trap := fun (code : Nat) (info : W64) (level : Nat) => Host.Outcome.next (s.takeTrap
       { code := code, info := info, epc := s.core.pc, resume := s.core.pc, level := level })
     let operand := fun (i : Instr) => exec i s = trap 0x0002 (BitVec.ofNat 64 (wordOf i)) 0
     let bk := (handleOf v).bank s.core.stack
     let k := s.bank bk
     let tag := (handleOf v).tag
     let x := translate s.mem s.ursol { s.core.xctx with unit := .tile (Fin.ofNat 64 n) } v .load
     (64 ≤ n → operand (.rowact e c a b)) ∧ (4 ≤ n ∨ handleClean v = false → operand (.rowcon w cl c a b)) ∧
     (handleClean v = false → operand (.rowcls c a)) ∧
     (n < 64 →
       (∀ f, x = (s.mem, .error f) → exec (.rowact e c a b) s = trap f.code f.va f.level) ∧
       (∀ o, x = (s.mem, .ok (.scratch o)) → exec (.rowact e c a b) s = trap 0x000D v 0) ∧
       (∀ pa pte, x = (s.mem, .ok (.leaf pa pte)) →
         (let page := pteRow pte = true ∧ v.toNat % 2048 = 0 ∧ isDram pa = true
          let here := stackOf pa = s.core.stack.val ∧ pa / 2 ^ 11 % 64 = n
          (¬ page → exec (.rowact e c a b) s = trap 0x000D v 0) ∧ (page → ¬ here → exec (.rowact e c a b) s = trap 0x0012 v 0) ∧
          (page → here → isFenced s.ursol pa = true → exec (.rowact e c a b) s = trap 0x0013 v 0)))) ∧
     (let bad : List (Bool × Nat) := [(s.columnFenced bk, 0x0013), (tag == 0, 0x0010), (tag != k.tag, 0x0011), (k.asid != some s.core.asid, 0x0010),
        (k.lost, 0x0011), (k.closing || !k.active, 0x0010), (!w && k.st == .act, 0x0010)]
      n < 4 → handleClean v = true → ∀ (m : Nat) (code : Nat), bad[m]? = some (true, code) → (∀ j : Nat, j < m → (bad[j]?).map Prod.fst = some false) →
        exec (.rowcon w cl c a b) s = trap code v 0) ∧
     (handleClean v = true → s.columnFenced bk = true → exec (.rowcls c a) s = trap 0x0013 v 0))

/-- R282 to R287: ROWCON with a good handle of an open row is accepted by its tile, and with .c marks its
bank as closing; ROWCLS of such a row is accepted too, and one whose handle no longer names an open
row changes no bank. -/
def Claims.RowCommands : Prop :=
  ∀ (s : State) (w cl : Bool) (c a b : Reg) (obj : Option Nat), NoBlock s → QuietE s → NamesObject s c obj →
    handleClean (s.core.reg a) = true →
    (let v := s.core.reg a
     let bk := (handleOf v).bank s.core.stack
     let k := s.bank bk
     s.columnFenced bk = false →
     ((s.core.reg b).toNat < 4 → (handleOf v).tag ≠ 0 → (handleOf v).tag = k.tag → k.asid = some s.core.asid → k.lost = false →
       k.closing = false → k.st = .open ∨ (w = true ∧ k.st = .act) →
       ∃ t : State, exec (.rowcon w cl c a b) s = .next t ∧ Forked s t ∧ t.tiles = s.tiles ∧ t.eng = s.eng ∧
         t.dram.cmds = s.dram.cmds ++ [⟨s.opHdr (.rowcon w cl c a b) a b 0 obj c, bk, (handleOf v).tag, cl,
           some (Fin.ofNat 4 (s.core.reg b).toNat), s.now, k.row⟩] ∧
         t.bank bk = { k with closing := cl } ∧ ∀ b', bankKey b' ≠ bankKey bk → t.bank b' = s.bank b') ∧
     ((handleOf v).tag ≠ 0 → (handleOf v).tag = k.tag → k.asid = some s.core.asid → k.active = true → k.lost = false → k.closing = false →
       ∃ t : State, exec (.rowcls c a) s = .next t ∧ t.core = { s.core with pc := s.core.pc + 4 } ∧ t.mem = s.mem ∧
         t.dram.cmds = s.dram.cmds ++ [⟨s.opHdr (.rowcls c a) a 0 0 obj c, bk, k.tag, true, none, s.now, k.row⟩] ∧
         t.bank bk = { k with closing := true } ∧ ∀ b', bankKey b' ≠ bankKey bk → t.bank b' = s.bank b') ∧
     ((handleOf v).tag = 0 ∨ (handleOf v).tag ≠ k.tag → obj = none →
       exec (.rowcls c a) s = .next (wentTo { s with seq := s.seq + 1 } (s.core.pc + 4))))

/-- R299, R300, R303, R304: CBLD and TBLD that pass their checks join the builder's queue of their stack,
last; they wait while it holds 16, and the first of their checks that fails traps with its number. -/
def Claims.BuilderIssue : Prop :=
  ∀ (s : State) (c a b e : Reg) (obj : Option Nat), NoBlock s → QuietE s → NamesObject s c obj →
    (let k := s.core.stack.val
     let q := fget s.eng.buildQ k []
     let w := (s.core.reg b).toNat
     let x := (s.core.reg e).toNat
     let bits := x / 8 % 4 + 1
     let g := 2 ^ (x / 32 % 4)
     let e16 := x / 128 % 2 = 1
     let banks := if e16 ∧ bits * g = 8 then 2 else 1
     let operand := fun (n : Nat) => Host.Outcome.next (s.takeTrap
       { code := 0x0002, info := BitVec.ofNat 64 n, epc := s.core.pc, resume := s.core.pc })
     let goodC := w < 64 ∧ w / 8 % 2 = 0 ∧ s.shapeDenied (w / 16 + 1) false false = false
     let goodT := x < 2 ^ 30 ∧ bits * g ≤ 8 ∧ s.shapeDenied bits (x / 128 % 2 == 1) false = false ∧ 1 ≤ x / 512 % 2 ^ 11 ∧
       x / 2 ^ 20 + x / 512 % 2 ^ 11 * banks ≤ 1024 ∧ (x / 256 % 2 = 1 → (s.core.reg a).toNat % 4 = 0)
     (goodC → q.length < 16 → ∃ t : State, exec (.cbld c a b) s = .next t ∧ Forked s t ∧ t.dram = s.dram ∧ t.tiles = s.tiles ∧
        fget t.eng.buildQ k [] = q ++ [⟨false, s.opHdr (.cbld c a b) a b 0 obj c⟩]) ∧
     (goodT → q.length < 16 → ∃ t : State, exec (.tbld c a b e) s = .next t ∧ Forked s t ∧ t.dram = s.dram ∧ t.tiles = s.tiles ∧
        fget t.eng.buildQ k [] = q ++ [⟨true, s.opHdr (.tbld c a b e) a b e obj c⟩]) ∧
     (goodC → 16 ≤ q.length → exec (.cbld c a b) s = .next s) ∧ (goodT → 16 ≤ q.length → exec (.tbld c a b e) s = .next s) ∧
     -- the numbered checks: the first that fails
     (let badC := [decide (64 ≤ w ∨ w / 8 % 2 = 1), s.shapeDenied (w / 16 % 4 + 1) false false]
      let badT := [decide (2 ^ 30 ≤ x), decide (8 < bits * g), s.shapeDenied bits (x / 128 % 2 == 1) false,
        decide (x / 512 % 2 ^ 11 = 0 ∨ 1024 < x / 2 ^ 20 % 2 ^ 10 + x / 512 % 2 ^ 11 * banks), decide (x / 256 % 2 = 1 ∧ (s.core.reg a).toNat % 4 ≠ 0)]
      (∀ n, badC[n]? = some true → (∀ m, m < n → badC[m]? = some false) → exec (.cbld c a b) s = operand (n + 1)) ∧
      (∀ n, badT[n]? = some true → (∀ m, m < n → badT[m]? = some false) → exec (.tbld c a b e) s = operand (n + 1))))

/-- R299, R300, R309, R312, R314, R317: LKA, ACLR and ADRN that pass their checks join the queue of the
tile their command word names, last; they wait while it holds 16, and the first of their checks that fails traps with
its number. -/
def Claims.TileIssue : Prop :=
  ∀ (s : State) (c a b e : Reg) (obj : Option Nat), NoBlock s → QuietE s → NamesObject s c obj →
    (let v := (s.core.reg a).toNat
     let w := (s.core.reg b).toNat
     let t : TileId := ⟨s.core.stack, Fin.ofNat 64 v⟩
     let held := (s.tiles.cmds.filter fun d => d.tile == t && (d.op == .lka || d.op == .aclr || d.op == .adrn)).length
     let p := (w / 2 ^ 36 % 4 + 1) * 2 ^ (w / 2 ^ 38 % 4)
     let banks := if w / 2 ^ 40 % 2 = 1 ∧ p = 8 then 2 else 1
     let K := w / 2 ^ 21 % 2 ^ 11
     let G := w / 2 ^ 10 % 2 ^ 11
     let C := w % 2 ^ 10
     let lgL := w / 2 ^ 32 % 16
     let plain := v < 2 ^ 48 ∧ v / 2 ^ 22 % 2 ^ 9 = 0 ∧ v / 2 ^ 12 % 2 ^ 10 = 0 ∧ v / 2 ^ 6 % 4 = 0
     let goodL := v < 2 ^ 48 ∧ v / 2 ^ 31 % 2 = 0 ∧ w < 2 ^ 50 ∧ p ≤ 8 ∧
       s.shapeDenied (w / 2 ^ 36 % 4 + 1) (w / 2 ^ 40 % 2 == 1) (w / 2 ^ 41 % 2 == 1) = false ∧ 3 ≤ lgL ∧ lgL ≤ 10 ∧ 1 ≤ C ∧ 1 ≤ K ∧ K ≤ G ∧
       C * G ≤ 16384 / p ∧ v / 2 ^ 12 % 2 ^ 10 + G * banks ≤ 1024 ∧
       v / 2 ^ 22 % 2 ^ 9 + C ≤ (if w / 2 ^ 41 % 2 = 1 then 256 else 512) ∧ w / 2 ^ 42 = (K + 2 ^ lgL - 1) / 2 ^ lgL ∧ (s.core.reg e).toNat % 4 = 0
     let goodA := plain ∧ v / 2 ^ 31 % 2 = 0
     let goodD := plain ∧ w < 2 ^ 40 ∧ w / 2 ^ 25 % 2 ^ 7 = 0 ∧ w / 2 ^ 13 % 8 = 0 ∧ w / 2 ^ 6 % 4 = 0 ∧ 1 ≤ w / 2 ^ 16 % 2 ^ 9 ∧
       w / 2 ^ 32 + w / 2 ^ 16 % 2 ^ 9 ≤ 256 ∧ w / 2 ^ 8 % 2 ^ 5 + (w / 2 ^ 16 % 2 ^ 9 + 31) / 32 ≤ 32 ∧ w % 2 ^ 6 < s.core.task.sq
     let joins := fun (i : Instr) (op : TileOp) (h : OpHdr) =>
       (held < 16 → ∃ u : State, exec i s = .next u ∧ Forked s u ∧ u.dram = s.dram ∧ u.eng = s.eng ∧
          u.tiles = { s.tiles with cmds := s.tiles.cmds ++ [{ tile := t, op := op, hdr := h }] }) ∧
       (16 ≤ held → exec i s = .next s)
     (goodL → joins (.lka c a b e) .lka (s.opHdr (.lka c a b e) a b e obj c)) ∧
     (goodA → joins (.aclr c a) .aclr (s.opHdr (.aclr c a) a 0 0 obj c)) ∧
     (goodD → joins (.adrn c a b) .adrn (s.opHdr (.adrn c a b) a b 0 obj c)) ∧
     -- the numbered checks: the first that fails
     (let shape := s.shapeDenied (w / 2 ^ 36 % 4 + 1) (w / 2 ^ 40 % 2 == 1) (w / 2 ^ 41 % 2 == 1)
      let badL := [decide (2 ^ 48 ≤ v ∨ v / 2 ^ 31 % 2 = 1 ∨ 2 ^ 50 ≤ w), decide (8 < p), shape, decide (lgL < 3 ∨ 10 < lgL),
        decide (C = 0 ∨ G = 0 ∨ K = 0 ∨ G < K ∨ 16384 / p < C * G), decide (1024 < v / 2 ^ 12 % 2 ^ 10 + G * banks),
        decide ((if w / 2 ^ 41 % 2 = 1 then 256 else 512) < v / 2 ^ 22 % 2 ^ 9 + C), decide (w / 2 ^ 42 % 2 ^ 8 ≠ (K + 2 ^ lgL - 1) / 2 ^ lgL),
        decide ((s.core.reg e).toNat % 4 ≠ 0)]
      let badA := [decide ¬(plain ∧ v / 2 ^ 31 % 2 = 0)]
      let badD := [decide ¬(plain ∧ w < 2 ^ 40 ∧ w / 2 ^ 25 % 2 ^ 7 = 0 ∧ w / 2 ^ 13 % 8 = 0 ∧ w / 2 ^ 6 % 4 = 0),
        decide (w / 2 ^ 16 % 2 ^ 9 = 0 ∨ 256 < w / 2 ^ 32 % 2 ^ 8 + w / 2 ^ 16 % 2 ^ 9),
        decide (32 < w / 2 ^ 8 % 2 ^ 5 + (w / 2 ^ 16 % 2 ^ 9 + 31) / 32), decide (s.core.task.sq ≤ w % 2 ^ 6)]
      let refuses := fun (i : Instr) (bad : List Bool) => ∀ n, bad[n]? = some true → (∀ m, m < n → bad[m]? = some false) →
        exec i s = .next (s.takeTrap { code := 0x0002, info := BitVec.ofNat 64 (n + 1), epc := s.core.pc, resume := s.core.pc })
      refuses (.lka c a b e) badL ∧ refuses (.aclr c a) badA ∧ refuses (.adrn c a b) badD))

/-- R331 to R333, R337 to R339: a Crook command that passes its checks joins the Crook's queue of its
stack, last, KVAPP with the bytes of its two rows; it waits while the queue holds 16; the first check that fails is an
illegal operand with its number. -/
def Claims.CrookIssue : Prop :=
  ∀ (s : State) (c a b e : Reg) (obj : Option Nat), NoBlock s → QuietE s → NamesObject s c obj →
    (let k := s.core.stack.val
     let q := fget s.eng.kvQ k []
     let v := (s.core.reg a).toNat
     let w := (s.core.reg b).toNat
     let x := (s.core.reg e).toNat
     let row := fun (r : Nat) => (List.range 32).flatMap fun i => bytesOf 4 (fget s.core.task.cells (1024 * (v % 64) + 32 * r + i) 0).toNat
     let joins := fun (i : Instr) (d : KvCmd) =>
       (q.length < 16 → ∃ u : State, exec i s = .next u ∧ Forked s u ∧ u.dram = s.dram ∧ u.tiles = s.tiles ∧ fget u.eng.kvQ k [] = q ++ [d]) ∧
       (16 ≤ q.length → exec i s = .next s)
     (v % 32 = 0 → joins (.kvlook c a) { op := .look, hdr := s.opHdr (.kvlook c a) a 0 0 obj c }) ∧
     (w = 0 ∨ w = 4 → x = 0 → joins (.kvins c a b e) { op := .ins, hdr := s.opHdr (.kvins c a b e) a b e obj c }) ∧
     (s.core.id.isSup = true → (w = 1 ∨ w = 2) ∧ x % 4096 = 0 ∨ w = 3 ∧ x = 0 →
        joins (.kvins c a b e) { op := .ins, hdr := s.opHdr (.kvins c a b e) a b e obj c }) ∧
     (v % 4 = 0 → 1 ≤ w → w ≤ 65535 → joins (.kvpin c a b) { op := .pin, hdr := s.opHdr (.kvpin c a b) a b 0 obj c } ∧
        joins (.kvunpin c a b) { op := .unpin, hdr := s.opHdr (.kvunpin c a b) a b 0 obj c }) ∧
     (v < 2 ^ 21 → v / 2 ^ 13 % 8 = 0 → v / 2 ^ 6 % 4 = 0 → x < 2 ^ 60 → v % 64 < s.core.task.sq →
        joins (.kvapp c a b e) { op := .app, hdr := s.opHdr (.kvapp c a b e) a b e obj c, kRow := row (v / 2 ^ 8 % 32), vRow := row (v / 2 ^ 16) }) ∧
     joins (.kvsig c a) { op := .sig, hdr := s.opHdr (.kvsig c a) a 0 0 obj c } ∧
     -- the first check that fails gives its number
     (let refuses := fun (i : Instr) (bad : List Bool) => ∀ n : Nat, bad[n]? = some true → (∀ m : Nat, m < n → bad[m]? = some false) →
        exec i s = .next (s.takeTrap { code := 0x0002, info := BitVec.ofNat 64 (n + 1), epc := s.core.pc, resume := s.core.pc })
      let pins := [decide (v % 4 ≠ 0), decide (w = 0 ∨ 65535 < w)]
      refuses (.kvlook c a) [decide (v % 32 ≠ 0)] ∧
      refuses (.kvins c a b e) [decide (5 ≤ w), decide (1 ≤ w ∧ w ≤ 3 ∧ s.core.id.isTask = true),
        decide (if w = 1 ∨ w = 2 then x % 4096 ≠ 0 else x ≠ 0)] ∧
      refuses (.kvpin c a b) pins ∧ refuses (.kvunpin c a b) pins ∧
      refuses (.kvapp c a b e) [decide (2 ^ 21 ≤ v ∨ v / 2 ^ 13 % 8 ≠ 0 ∨ v / 2 ^ 6 % 4 ≠ 0 ∨ 2 ^ 60 ≤ x), decide (s.core.task.sq ≤ v % 64)]))

/-- R342: KVBIND binds a record read from memory, saves one, and unbinds one, by the mode in x[b]; a bad
mode word, and an unaligned address where one is used, are illegal operands with their check's number, and so are a
record that is not right, its cursor outside the KV space, and one for which staging is short (check 3 for any descriptor
that cannot be read: a choice of the model, log entry 51). -/
def Claims.StreamBinding : Prop :=
  ∀ (s : State) (a b : Reg) (n : Nat) (v : Nat), s.core.id.isTask = true → NoBlock s → Quiet s → Unwatched s → s.core.task.buf = [] → n < 4 →
    ∀ i ∈ [Instr.kvbindBind a b, .kvbindSave a b, .kvbindUnbind a b],
      (let w := (s.core.reg b).toNat
       let r := StreamRec.ofNat v
       let operand := fun (k : Nat) => Host.Outcome.next (s.takeTrap
         { code := 0x0002, info := BitVec.ofNat 64 k, epc := s.core.pc, resume := s.core.pc })
       (w = n → (s.core.reg a).toNat % 64 = 0 → ∀ u q, coreLoad s (s.core.reg a) 64 .dflt false = (u, .ok v) → bindBad u v = (q, false) →
          2 * boundWith s.core.task (Fin.ofNat 4 n) ≤ s.core.task.stg →
          ∃ t : State, exec i s = .next t ∧ fget t.core.task.streams n {} = { r with bound := true } ∧
            (∀ m, m ≠ n → fget t.core.task.streams m {} = fget s.core.task.streams m {}) ∧
            { t.core with pc := s.core.pc, task := { t.core.task with streams := s.core.task.streams } } = s.core ∧
            t.core.pc = s.core.pc + 4 ∧ t.mem = q.mem) ∧
       -- a record that cannot be read, check 3 and check 4
       (w = n → (s.core.reg a).toNat % 64 = 0 →
          (∀ u g, coreLoad s (s.core.reg a) 64 .dflt false = (u, .error g) → exec i s = .next (u.memTrap g .load)) ∧
          (∀ u, coreLoad s (s.core.reg a) 64 .dflt false = (u, .ok v) →
            (let traps := fun (t : State) (k : Nat) => exec i s = .next (t.takeTrap
               { code := 0x0002, info := BitVec.ofNat 64 k, epc := t.core.pc, resume := t.core.pc })
             let c := r.cur.toNat
             let reserved := v / 2 ^ 60 % 2 ^ 4 ≠ 0 ∨ v / 2 ^ 97 % 2 ^ 31 ≠ 0 ∨ v / 2 ^ 451 % 2 ^ 61 ≠ 0
             let bad := reserved ∨ 256 < r.rad.toNat ∨ r.fin.toNat < c % 2 ^ 24
             (bad → traps u 3) ∧
             (∀ q e, ¬ bad → u.kvDesc s.core.stack s.core.asid = (q, .error e) → traps q 3) ∧
             (∀ q d, ¬ bad → u.kvDesc s.core.stack s.core.asid = (q, .ok d) →
               (let past := d.nseq ≤ c / 2 ^ 40 % 2 ^ 20 ∨ d.nl ≤ c / 2 ^ 32 % 2 ^ 8 ∨ d.nh ≤ c / 2 ^ 24 % 2 ^ 8
                (past → traps q 3) ∧
                (¬ past → q.core.task.stg < 2 * boundWith q.core.task (Fin.ofNat 4 n) → traps q 4)))))) ∧
       (w = 4 + n → (s.core.reg a).toNat < scratchBase → (s.core.reg a).toNat % 64 = 0 →
          (∀ ms g, checkAccess s (s.core.reg a) 64 .store .dflt false = (ms, .error g) →
             exec i s = .next (({ s with mem := ms } : State).memTrap g .store)) ∧
          (∀ ms pa p, checkAccess s (s.core.reg a) 64 .store .dflt false = (ms, .ok (.mem pa p)) → p = .nc ∨ p = .wt ∨ p = .wis →
             pa % 64 = 0 → NoCopies s.mem →
             ∃ t : State, exec i s = .next t ∧ t.core = { s.core with pc := s.core.pc + 4 } ∧ { t with core := s.core, mem := s.mem } = s ∧
               readBytes t.mem.cells pa 64 = (fget s.core.task.streams n {}).bytes ∧
               (∀ k, k < pa ∨ pa + 64 ≤ k → fget t.mem.cells k 0 = fget s.mem.cells k 0))) ∧
       (w = 4 + n → scratchBase ≤ (s.core.reg a).toNat → (s.core.reg a).toNat + 64 ≤ scratchBase + 4096 * s.core.task.scr →
          s.core.task.scr ≤ 1024 → (s.core.reg a).toNat % 64 = 0 →
          ∃ t : State, exec i s = .next t ∧
            readBytes t.core.task.scratch ((s.core.reg a).toNat - scratchBase) 64 = (fget s.core.task.streams n {}).bytes ∧
            t.core.task.streams = s.core.task.streams ∧ t.core.pc = s.core.pc + 4 ∧ t.mem = s.mem) ∧
       (w = 8 + n → ∃ t : State, exec i s = .next t ∧ fget t.core.task.streams n {} = {} ∧
          (∀ m, m ≠ n → fget t.core.task.streams m {} = fget s.core.task.streams m {}) ∧
          { t.core with pc := s.core.pc, task := { t.core.task with streams := s.core.task.streams } } = s.core ∧
          t.core.pc = s.core.pc + 4 ∧ t.mem = s.mem) ∧
       (12 ≤ w → exec i s = operand 1) ∧
       (w < 8 → (s.core.reg a).toNat % 64 ≠ 0 → exec i s = operand 2))

/-- R355, R356: CPY and CPYS that pass their checks join the copy engine's queue of their stack, last,
with their rows, and wait while it is full; one into the scratchpad waits while a bank it writes is armed, and arms those
it writes; a copy of no bytes ends at once, and a bad length or stride record is an illegal operand. -/
def Claims.CopyIssue : Prop :=
  ∀ (s : State) (c a b e : Reg) (obj : Option Nat) (v : Nat), NoBlock s → QuietE s → NamesObject s c obj →
    (let k := s.core.stack.val
     let q := fget s.eng.copyQ k []
     let x := (s.core.reg e).toNat
     let one : CopyCmd := { hdr := s.opHdr (.cpy c a b e) a b e obj c, rows := 1, rlen := x, dstr := 0, sstr := 0 }
     let rlen := v / 2 ^ 128 % 2 ^ 32
     let rows := v / 2 ^ 160 % 2 ^ 32
     let many : CopyCmd := { hdr := s.opHdr (.cpys c a b e) a b e obj c, rows := rows, rlen := rlen,
                             dstr := BitVec.ofNat 64 v, sstr := BitVec.ofNat 64 (v / 2 ^ 64) }
     let operand := fun (n : Nat) => Host.Outcome.next (s.takeTrap
       { code := 0x0002, info := BitVec.ofNat 64 n, epc := s.core.pc, resume := s.core.pc })
     -- no bank of the scratchpad is named, or the issuer has none
     let plain := fun (d : CopyCmd) => d.banks = [] ∨ s.core.id.isTask = false
     let joins := fun (i : Instr) (d : CopyCmd) => ∃ t : State, exec i s = .next t ∧ Forked s t ∧ t.dram = s.dram ∧ t.tiles = s.tiles ∧
       fget t.eng.copyQ k [] = q ++ [d]
     (x < 2 ^ 32 → x ≠ 0 → plain one → q.length < 16 → joins (.cpy c a b e) one) ∧
     (x < 2 ^ 32 → x ≠ 0 → plain one → 16 ≤ q.length → exec (.cpy c a b e) s = .next s) ∧
     (x = 0 → obj = none → ∃ t : State, exec (.cpy c a b e) s = .next t ∧ Forked s t ∧ t.eng = s.eng) ∧
     (2 ^ 32 ≤ x → exec (.cpy c a b e) s = operand 1) ∧
     (x % 32 ≠ 0 → exec (.cpys c a b e) s = operand 1) ∧
     -- the stride record
     (∀ u f, x % 32 = 0 → coreLoad s (s.core.reg e) 32 .dflt false = (u, .error f) → exec (.cpys c a b e) s = .next (u.memTrap f .load)) ∧
     (∀ u, x % 32 = 0 → coreLoad s (s.core.reg e) 32 .dflt false = (u, .ok v) →
       (let bad := 2 ^ 192 ≤ v ∨ rows = 0 ∨ rlen = 0 ∨ 2 ^ 32 ≤ rows * rlen
        (bad → exec (.cpys c a b e) s = .next (u.takeTrap { code := 0x0002, info := BitVec.ofNat 64 2, epc := s.core.pc, resume := s.core.pc })) ∧
        (¬ bad → Unwatched s →
          (plain many → q.length < 16 → ∃ t : State, exec (.cpys c a b e) s = .next t ∧ Forked u t ∧ t.dram = s.dram ∧ t.tiles = s.tiles ∧
            fget t.eng.copyQ k [] = q ++ [many]) ∧
          (plain many → 16 ≤ q.length → exec (.cpys c a b e) s = .next u) ∧
          (s.core.id.isTask = true → many.banks ≠ [] →
            ((∃ j ∈ many.banks, (fget s.core.task.aps j {}).armed = true) → exec (.cpys c a b e) s = .next u) ∧
            ((∀ j ∈ many.banks, (fget s.core.task.aps j {}).armed = false) →
              (q.length < 16 → ∃ t : State, exec (.cpys c a b e) s = .next t ∧ fget t.eng.copyQ k [] = q ++ [{ many with scratch := true }] ∧
                t.core = { s.core with pc := s.core.pc + 4, task := { s.core.task with aps := armBanks many s.core.task.aps } }) ∧
              (16 ≤ q.length → exec (.cpys c a b e) s = .next u)))))) ∧
     -- into the scratchpad: it waits while a bank is armed, and arms its banks
     (s.core.id.isTask = true → x < 2 ^ 32 → x ≠ 0 → one.banks ≠ [] →
        ((∃ j ∈ one.banks, (fget s.core.task.aps j {}).armed = true) → exec (.cpy c a b e) s = .next s) ∧
        ((∀ j ∈ one.banks, (fget s.core.task.aps j {}).armed = false) →
          (q.length < 16 → ∃ t : State, exec (.cpy c a b e) s = .next t ∧ fget t.eng.copyQ k [] = q ++ [{ one with scratch := true }] ∧
            t.core = { s.core with pc := s.core.pc + 4, task := { s.core.task with aps := armBanks one s.core.task.aps } }) ∧
          (16 ≤ q.length → exec (.cpy c a b e) s = .next s))))

/-! ## Blocks and convoys -/

/-- R66-R69: a convoy that keeps the limits and whose destinations do not clash is taken whole, and
nothing else changes but what its fetches leave; otherwise its first offending word traps, with its own address,
before any instruction of the convoy has run. A word of it, or the one that ends it, that cannot be fetched traps
first, with the address of that word. -/
def Claims.ConvoyCheck : Prop :=
  ∀ (us : Nat → State) (b : Block) (ws : List W64) (e : W64) (is : List Instr) (f : MemFault),
    (us 0).core.task.block = some b → b.words = [] → ws.length < 2 ^ 53 →
    -- each word is fetched in the state the fetch before it has left
    (∀ (n : Nat) (w : W64), ws[n]? = some w → coreFetch (us n) (b.bpc + BitVec.ofNat 56 (8 * n)) 8 = (us (n + 1), .ok w.toNat) ∧
      isStopOp w = false ∧ (n ≠ 0 → startsConvoy w = false)) →
    (let u := us (ws.length + 1)
     let va := b.bpc + BitVec.ofNat 56 (8 * ws.length)
     coreFetch (us ws.length) va 8 = (u, .error f) → exec .convoyCheck (us 0) = .next (u.takeTrap
       { code := f.code, info := f.va, epc := va, resume := (us 0).core.pc, level := f.level, kind := 3 })) ∧
    (coreFetch (us ws.length) (b.bpc + BitVec.ofNat 56 (8 * ws.length)) 8 = (us (ws.length + 1), .ok e.toNat) →
    ws ≠ [] → isStopOp e = true ∨ startsConvoy e = true →
    (∀ (n : Nat) (i : Instr), is[n]? = some i → ∃ w : W64, ws[n]? = some w ∧ decodeE w.toNat = .ok i) →
    withinLimits is = true → is.Pairwise (fun i j => (edest i).clash (edest j) = false) →
    (let u := us (ws.length + 1)
     (is.length = ws.length → exec .convoyCheck (us 0) = .next { u with core := { u.core with task := { u.core.task with
        block := some { b with words := ws } } } }) ∧
     (∀ w, ws[is.length]? = some w →
       (∀ i, decodeE w.toNat = .ok i → withinLimits (is ++ [i]) = false ∨ ∃ j ∈ is, (edest j).clash (edest i) = true) →
       exec .convoyCheck (us 0) = .next (({ u with core := { u.core with task := { u.core.task with vstart := 0 } } }).takeTrap
         { code := 0x0001, info := w, epc := b.bpc + BitVec.ofNat 56 (8 * is.length), resume := u.core.pc }))))

/-- R106: STOP ends the block and sets vstart to 0; nothing else changes. A single-stepping task traps
after it (R390). -/
def Claims.BlockEnd : Prop :=
  ∀ (s : State) (b : Block) (cv : Bool), s.core.task.block = some b →
    (let u := { s with core := { s.core with task := { s.core.task with vstart := 0, block := none } } }
     (s.core.task.step = false → exec (.stop cv) s = .next u) ∧
     (s.core.task.step = true → exec (.stop cv) s = .next (u.takeTrap
       { code := 0x0021, info := s.core.pc.setWidth 64, epc := b.bpc, resume := s.core.pc })))

/-! ## Elementwise integer and mask instructions -/

/-- R143, R149-R153: the integer instructions of two sources write, for every cell of the loop with its
mask bit set, their value of the two elements, and nothing else. -/
def Claims.VectorIntegers : Prop :=
  ∀ (s u : State) (toks : List W32) (h : EHdr) (ty : Ty) (q : SqNo) (dir : Dir) (i : Fin 32) (a b : VOp) (sat : Bool) (k : BitVec 6),
    Element s → ty.isInt = true → s.core.task.holdsAll [(ty, .vec q dir i), (ty, a), (ty, b)] = true →
    Feeds s s.core.task.vstart.toNat [a, b] u toks →
    (let d := VOp.vec q dir i
     let n := ty.bits
     let sg := ty.isSigned
     let A := u.core.elem toks ty a
     let B := u.core.elem toks ty b
     let bin := fun (f : Int → Int → Int) (k j : Nat) => narrowed sat sg n (f (value ty (A k j)) (value ty (B k j)))
     let raw := fun (f : Nat → Nat → Nat) (k j : Nat) => ((f (A k j) (B k j), 0) : Nat × Byte)
     ∀ q ∈ [(Instr.vadd h ty d a b sat, bin fun x y => x + y), (.vsub h ty d a b sat, bin fun x y => x - y),
         (.vmul h ty d a b sat, bin fun x y => x * y),
         (.vmulh h ty d a b, fun k j => narrowed false sg n (value ty (A k j) * value ty (B k j) / 2 ^ n)),
         (.vmin h ty d a b, fun k j => narrowed false sg n (min (value ty (A k j)) (value ty (B k j)))),
         (.vmax h ty d a b, fun k j => narrowed false sg n (max (value ty (A k j)) (value ty (B k j)))),
         (.vminn h ty d a b, fun k j => narrowed false sg n (min (value ty (A k j)) (value ty (B k j)))),
         (.vmaxn h ty d a b, fun k j => narrowed false sg n (max (value ty (A k j)) (value ty (B k j)))),
         (.vand h ty d a b, raw fun x y => x &&& y), (.vor h ty d a b, raw fun x y => x ||| y), (.vxor h ty d a b, raw fun x y => x ^^^ y),
         (.vshl h ty d a b, raw fun x y => x * 2 ^ (y % n)), (.vshr h ty d a b, raw fun x y => x / 2 ^ (y % n)),
         (.vsra h ty d a b, fun k j => narrowed false true n ((BitVec.ofNat n (A k j)).toInt / 2 ^ (B k j % n))),
         (.vfshl h ty d a b k, raw fun x y => (x * 2 ^ n + y) * 2 ^ k.toNat / 2 ^ n),
         (.vfshr h ty d a b k, raw fun x y => (x * 2 ^ n + y) / 2 ^ k.toNat)],
       ∃ t : State, exec q.1 s = .next t ∧ WroteElems u t ty d (u.core.task.execCells h.msk) q.2)

/-- R143, R154-R158, R160: the integer instructions of one source, VMOV, VIDX, comparison into a vector,
selection by a mask, and the insertion of one element. -/
def Claims.VectorMoves : Prop :=
  ∀ (s u : State) (toks : List W32) (h : EHdr) (ty : Ty) (q : SqNo) (dir : Dir) (i : Fin 32) (a b : VOp) (m : BitVec 6) (uns : Bool)
      (st : BitVec 8) (r : Reg) (e : BitVec 8),
    Element s → ty.isInt = true → s.core.task.holdsAll [(ty, .vec q dir i), (ty, a), (ty, b)] = true →
    (let d := VOp.vec q dir i
     let n := ty.bits
     let V := value ty
     let ks := u.core.task.execCells h.msk
     let A := u.core.elem toks ty a
     let B := u.core.elem toks ty b
     (Feeds s s.core.task.vstart.toNat [a] u toks →
        (∀ q ∈ [(Instr.vmov h ty d a, fun k j => ((A k j, 0) : Nat × Byte)),
            (.vabs h ty d a, fun k j => narrowed true true n (V (A k j)).natAbs),
            (.vidx h ty d a st, fun k j => narrowed false true n ((A k j : Int) + (ty.perCell * k + j : Int) * st.toInt)),
            (.vpopc h ty d a, fun k j => (((List.range n).filter fun p => (A k j).testBit p).length, 0))],
          ∃ t : State, exec q.1 s = .next t ∧ WroteElems u t ty d ks q.2) ∧
        (∃ (t : State) (z : Nat → Nat → Nat), exec (.vclz h ty d a) s = .next t ∧ WroteElems u t ty d ks (fun k j => (z k j, 0)) ∧
           ∀ k j, z k j ≤ n ∧ (∀ p, n - z k j ≤ p → p < n → (A k j).testBit p = false) ∧
             (z k j < n → (A k j).testBit (n - 1 - z k j) = true)) ∧
        (1 ≤ m.toNat → m.toNat ≤ n → ∃ (t : State) (f : Nat → Nat → Nat × Byte), exec (.vsatn h ty d a m uns) s = .next t ∧
           WroteElems u t ty d ks f ∧
           ∀ k j,
             let lo : Int := if ty.isSigned ∧ uns = false then -2 ^ (m.toNat - 1) else 0
             let hi : Int := if ty.isSigned ∧ uns = false then 2 ^ (m.toNat - 1) - 1 else 2 ^ m.toNat - 1
             let c := max lo (min hi (V (A k j)))
             f k j = ((c % 2 ^ n).toNat, if c = V (A k j) then 0 else 0x20))) ∧
     (Feeds s s.core.task.vstart.toNat [a, b] u toks →
        (∀ c ∈ conds, ∃ t : State, exec (.vcmp h ty (.vec d) a b c.1) s = .next t ∧ WroteElems u t ty d ks fun k j =>
           (if c.2 (V (A k j)) (V (B k j)) then 2 ^ n - 1 else 0, 0)) ∧
        (∃ t : State, exec (.vsel h ty d a b) s = .next t ∧ WroteElems u t ty d u.core.task.loopCells fun k j =>
           (if u.core.task.maskBit h.msk k then A k j else B k j, 0))) ∧
     (e.toNat < 32 * ty.perCell → ∃ t : State, exec (.vmovx h ty d r e) s = .next t ∧
        WroteElems s t ty d ((s.core.task.execCells h.msk).filter fun k => k == e.toNat / ty.perCell) fun k j =>
          (if j = e.toNat % ty.perCell then (s.core.bcast r).toNat else s.core.elem [] ty d k j, 0)))

/-- R142, R155, R161: comparison into a mask and the mask instructions write one bit for every cell of the
loop with its governing bit set. -/
def Claims.MaskResults : Prop :=
  ∀ (s u : State) (toks : List W32) (h : EHdr) (ty : Ty) (m p r : MaskNo) (a b : VOp), Element s → m ≠ 0 →
    (let M := fun (x : MaskNo) (k : Nat) => s.core.task.maskBit x k
     (∀ q ∈ [(Instr.vmand h m p r, fun k => ((M p k && M r k, 0) : Bool × Byte)), (.vmor h m p r, fun k => (M p k || M r k, 0)),
         (.vmxor h m p r, fun k => (M p k ^^ M r k, 0)), (.vmnot h m p, fun k => (!M p k, 0))],
        ∃ t : State, exec q.1 s = .next t ∧ WroteMask s t m (s.core.task.execCells h.msk) q.2) ∧
     (ty.isInt = true → ty.perCell = 1 → s.core.task.holdsAll [(ty, a), (ty, b)] = true → Feeds s s.core.task.vstart.toNat [a, b] u toks →
        let V := fun (x : VOp) (k : Nat) => value ty (u.core.elem toks ty x k 0)
        ∀ c ∈ conds, ∃ t : State, exec (.vcmp h ty (.mask m) a b c.1) s = .next t ∧
          WroteMask u t m (u.core.task.execCells h.msk) fun k => (c.2 (V a k) (V b k), 0)))

/-- R159, R162: VEXT, VMCNT and VMFIRST write their scalar register and no cell: an element below vl or 0,
the number of cells, and the first of them or all ones. -/
def Claims.ElementToScalar : Prop :=
  ∀ (s u : State) (toks : List W32) (h : EHdr) (cv : Bool) (ty : Ty) (d : Reg) (a : VOp) (p : MaskNo) (e : BitVec 8), Element s →
    (let both := (List.range s.core.task.vl.toNat).filter fun k => s.core.task.maskBit p k && s.core.task.maskBit h.msk k
     exec (.vmcnt h d p) s = .next (completed s (s.core.setReg d (BitVec.ofNat 64 both.length))) ∧
     exec (.vmfirst h d p) s = .next (completed s (s.core.setReg d (match both.head? with
       | some k => BitVec.ofNat 64 k
       | none => BitVec.allOnes 64))) ∧
     (ty.isInt = true → s.core.task.holdsAll [(ty, a)] = true → Feeds s (e.toNat / ty.perCell) [a] u toks → exec (.vext cv ty d a e) s = .next (completed u
       (u.core.setReg d (if e.toNat / ty.perCell < s.core.task.vl.toNat then
         BitVec.ofInt 64 (value ty (u.core.elem toks ty a (e.toNat / ty.perCell) (e.toNat % ty.perCell))) else 0)))))

/-! ## Floating point -/

/-- R143, R168-R173: the floating-point instructions write, for every cell of the loop with its mask bit
set, their result of the elements, with its flags, and nothing else; VFMA reads its destination too, and
VFCMP writes a vector or a mask. That addFp, mulFp, fmaFp and divFp are the exact results rounded once is
Claims.ExactResults, in Obligations.FloatArithmetic. Rests on
log entry 28. -/
def Obligations.VectorFloats : Prop :=
  ∀ (s : State) (h : EHdr) (ty : Ty) (q : SqNo) (dir : Dir) (i : Fin 32) (a b : VOp) (rm : Rm) (m : MaskNo), Element s → ty.isFlt = true →
    a.isSrc = true → b.isSrc = true → s.core.task.holdsAll [(ty, .vec q dir i), (ty, a), (ty, b)] = true →
    (let d := VOp.vec q dir i
     let A := fun (k j : Nat) => decodeFp ty (s.core.elem [] ty a k j)
     let B := fun (k j : Nat) => decodeFp ty (s.core.elem [] ty b k j)
     let D := fun (k j : Nat) => decodeFp ty (s.core.elem [] ty d k j)
     let ks := s.core.task.execCells h.msk
     let pick := fun (greater : Bool) (k j : Nat) => pickFp ty greater (s.core.elem [] ty a k j) (s.core.elem [] ty b k j)
     (∀ q ∈ [(Instr.vfadd h ty d a b rm, fun k j => addFp ty rm (A k j) (B k j)), (.vfsub h ty d a b rm, fun k j => addFp ty rm (A k j) (negFp (B k j))),
         (.vfmul h ty d a b rm, fun k j => mulFp ty rm (A k j) (B k j)), (.vfma h ty d a b rm, fun k j => fmaFp ty rm (A k j) (B k j) (D k j)),
         (.vfmin h ty d a b, pick false), (.vfmax h ty d a b, pick true), (.vfdiv h ty d a b rm, fun k j => divFp ty rm (A k j) (B k j)),
         (.vfrcp h ty d a rm, fun k j => divFp ty rm (.fin false 1 0) (A k j)), (.vfrsq h ty d a rm, fun k j => rsqFp ty rm (A k j)),
         (.vfexp2 h ty d a rm, fun k j => exp2Fp ty rm (A k j)), (.vflog2 h ty d a rm, fun k j => log2Fp ty rm (A k j))],
        ∃ t : State, exec q.1 s = .next t ∧ WroteElems s t ty d ks q.2) ∧
     (∀ c ∈ fconds, (∃ t : State, exec (.vfcmp h ty (.vec d) a b c.1) s = .next t ∧ WroteElems s t ty d ks fun k j =>
          (if (c.2 (A k j) (B k j)).1 then 2 ^ ty.bits - 1 else 0, (c.2 (A k j) (B k j)).2)) ∧
        (ty = .fp32 → m ≠ 0 → ∃ t : State, exec (.vfcmp h ty (.mask m) a b c.1) s = .next t ∧
          WroteMask s t m ks fun k => c.2 (A k 0) (B k 0))))

/-- R35, R38, R168-R170: the sum, the product, the fused product and sum and the quotient of finite numbers are the exact
number rounded once, in every format and under every rounding mode; an exact zero has the sign of R35 or R169. An infinity
gives what IEEE 754 does: ∞ − ∞, 0 × ∞ and ∞ / ∞ are invalid, 0 × ∞ beside a NaN addend too. -/
def Claims.ExactResults : Prop :=
  ∀ (ty : Ty) (rm : Rm) (n k w : Bool) (m l j : Nat) (e g h : Int) (c : Fp), ty.isFlt = true →
    (let sign := fun (neg : Bool) => if neg then 2 ^ (ty.bits - 1) else 0
     let inf := fun (neg : Bool) => (sign neg + (fmtOf ty).inf, (0 : Byte))
     let invalid := (canonNaN ty, (0x01 : Byte))
     -- ±a × 2^x as a multiple of 2^q
     let signed := fun (neg : Bool) (a : Nat) (x q : Int) => ((if neg then -1 else 1) * (a * 2 ^ (x - q).toNat : Nat) : Int)
     -- r is ±a × 2^x plus ±b × 2^y
     let isSum := fun (s : Bool) (a : Nat) (x : Int) (t : Bool) (b : Nat) (y : Int) (r : Res) =>
       let q := min x y
       let v := signed s a x q + signed t b y q
       (v ≠ 0 → RoundedFp ty rm (v < 0) v.natAbs 1 q r) ∧
       (v = 0 → r = (sign (if a = 0 ∧ b = 0 ∧ s = t then s else rm == .rdn), 0))
     let a := Fp.fin n m e
     let b := Fp.fin k l g
     isSum n m e k l g (addFp ty rm a b) ∧
     (m * l ≠ 0 → RoundedFp ty rm (n != k) (m * l) 1 (e + g) (mulFp ty rm a b)) ∧ (m * l = 0 → mulFp ty rm a b = (sign (n != k), 0)) ∧
     isSum (n != k) (m * l) (e + g) w j h (fmaFp ty rm a b (.fin w j h)) ∧
     (m ≠ 0 → l ≠ 0 → RoundedFp ty rm (n != k) m l (e - g) (divFp ty rm a b)) ∧ (m = 0 → l ≠ 0 → divFp ty rm a b = (sign (n != k), 0)) ∧
     -- infinities
     addFp ty rm (.inf n) (.inf k) = (if n = k then inf n else invalid) ∧ addFp ty rm (.inf n) b = inf n ∧ addFp ty rm b (.inf n) = inf n ∧
     mulFp ty rm (.inf n) (.inf k) = inf (n != k) ∧ mulFp ty rm (.inf n) b = (if l = 0 then invalid else inf (n != k)) ∧
     divFp ty rm (.inf n) (.inf k) = invalid ∧ divFp ty rm (.inf n) b = inf (n != k) ∧ divFp ty rm a (.inf k) = (sign (n != k), 0) ∧
     (m = 0 → fmaFp ty rm a (.inf k) c = invalid ∧ fmaFp ty rm (.inf k) a c = invalid) ∧
     (m ≠ 0 → fmaFp ty rm a (.inf k) (.fin w j h) = inf (n != k) ∧ fmaFp ty rm a (.inf k) (.inf w) = (if (n != k) = w then inf w else invalid)) ∧
     fmaFp ty rm a b (.inf w) = inf w)

/-- R33-R40, R169-R171: a code that is no NaN is its own rounding, with no flag, in every format and under
every rounding mode; sums and products do not depend on the order of their operands; a NaN operand gives
the canonical NaN, invalid where it signals; a nonzero number divided by zero is an infinity with the
divide-by-zero flag, and zero by zero is invalid. -/
def Claims.FloatLaws : Prop :=
  ∀ (ty : Ty) (rm : Rm) (x y : Nat), ty.isPrd = true → x < 2 ^ ty.bits → y < 2 ^ ty.bits →
    (let a := decodeFp ty x
     let b := decodeFp ty y
     (a.isNan = false → encodeFp ty rm a = (x, 0)) ∧
     addFp ty rm a b = addFp ty rm b a ∧ mulFp ty rm a b = mulFp ty rm b a ∧
     (a.isNan = true → addFp ty rm a b = (canonNaN ty, if a = .nan true ∨ b = .nan true then 0x01 else 0) ∧
        mulFp ty rm a b = addFp ty rm a b ∧ divFp ty rm a b = addFp ty rm a b) ∧
     (a.isNan = true → b.isNan = false → ∀ g, (pickFp ty g x y).1 = y) ∧
     (ty.isFlt = true → y % 2 ^ (ty.bits - 1) = 0 → a.isNan = false →
        (x % 2 ^ (ty.bits - 1) = 0 → divFp ty rm a b = (canonNaN ty, 0x01)) ∧
        (x % 2 ^ (ty.bits - 1) ≠ 0 → (∀ n, a ≠ .inf n) → divFp ty rm a b =
          ((if a.isNeg = b.isNeg then 0 else 2 ^ (ty.bits - 1)) + (fmtOf ty).inf, 0x02))))

/-- R174-R176: a conversion writes, from the first source element of vstart to the last of vl, each element
of its part converted to the destination's type, where the mask names its cell, and leaves every other
element and every other cell as it was. -/
def Claims.ConvertedElements : Prop :=
  ∀ (s u : State) (toks : List W32) (h : EHdr) (ty src : Ty) (q : SqNo) (dir : Dir) (i : Fin 32) (a : VOp) (rm : Rm) (p : Fin 4),
    Element s → ty ≠ .o4 → p.val < max ty.perCell src.perCell / min ty.perCell src.perCell →
    s.core.task.holdsAll [(ty, .vec q dir i), (src, a)] = true → Feeds s s.core.task.vstart.toNat [a] u toks →
    (let d := VOp.vec q dir i
     let n := min ty.perCell src.perCell
     let from' := n * u.core.task.vstart.toNat
     let upto := n * u.core.task.vl.toNat
     let base := p.val * 32 * n
     -- the source element of a destination element, if the conversion reaches it
     let source := fun (e : Nat) =>
       if src.perCell ≤ ty.perCell then (if base + from' ≤ e ∧ e < base + upto then some (e - base) else none)
       else if from' ≤ e ∧ e < upto then some (base + e) else none
     let res := fun (k j : Nat) => match source (ty.perCell * k + j) with
       | some x => if u.core.task.maskBit h.msk k then some (convertRes ty rm (u.core.valAt toks src a x)) else none
       | none => none
     ∀ ins ∈ [Instr.vfcvt h ty d a rm src p, .vicvt h ty d a rm src p], ∃ t : State, exec ins s = .next t ∧ OnlyCells u t ∧
       (∀ k j, k < 32 → j < ty.perCell → t.core.elem [] ty d k j = match res k j with
          | some r => r.1 % 2 ^ ty.bits
          | none => u.core.elem [] ty d k j) ∧
       (∀ key, key ∉ cellsOf ty d → t.core.task.cell key = u.core.task.cell key) ∧
       t.core.flags = u.core.flags ||| flagsOf ((List.range 32).flatMap fun k => (List.range ty.perCell).map fun j => match res k j with
          | some r => r.2
          | none => 0))

/-- R44, R174-R176: a conversion to O4 writes each pair of elements it reaches, encoded together, where the mask
names its cell, and leaves every other byte as it was. -/
def Claims.ConvertedPairs : Prop :=
  ∀ (s u : State) (toks : List W32) (h : EHdr) (src : Ty) (q : SqNo) (dir : Dir) (i : Fin 32) (a : VOp) (rm : Rm) (p : Fin 4),
    Element s → src ≠ .o4 → 2 ≤ src.perCell → p.val < 8 / src.perCell →
    s.core.task.holdsAll [(.o4, .vec q dir i), (src, a)] = true → Feeds s s.core.task.vstart.toNat [a] u toks →
    (let d := VOp.vec q dir i
     let n := src.perCell
     let base := p.val * 32 * n
     let V := u.core.valAt toks src a
     -- the first source element of a byte of the destination, if the conversion reaches it
     let res := fun (k m : Nat) =>
       let e := 8 * k + 2 * m
       if base + n * u.core.task.vstart.toNat ≤ e ∧ e < base + n * u.core.task.vl.toNat ∧ u.core.task.maskBit h.msk k = true then
         some (convertPair rm (V (e - base)) (V (e - base + 1))) else none
     ∀ ins ∈ [Instr.vfcvt h .o4 d a rm src p, .vicvt h .o4 d a rm src p], ∃ t : State, exec ins s = .next t ∧ OnlyCells u t ∧
       (∀ k m, k < 32 → m < 4 → (t.core.src [] .o4 d k / 2 ^ (8 * m)) % 2 ^ 8 = match res k m with
          | some r => r.1
          | none => (u.core.src [] .o4 d k / 2 ^ (8 * m)) % 2 ^ 8) ∧
       (∀ key, key ∉ cellsOf .o4 d → t.core.task.cell key = u.core.task.cell key) ∧
       t.core.flags = u.core.flags ||| flagsOf ((List.range 32).flatMap fun k => (List.range 4).map fun m => match res k m with
          | some r => r.2
          | none => 0))

/-- R39-R41, R176: what a conversion of one element gives. An integer goes into an integer type clamped; a number
into one is rounded under rm and clamped, with invalid and saturation; NaN gives 0. A number in a floating-point format
is the multiple of the format's step at its magnitude that rm chooses, or what R39 and R40 give where that is
beyond the format; a NaN is canonical, and an infinity is one in its formats. An integer converts as the number it is
(from 65,520 into fp16: log entry 16). -/
def Claims.ConvertedValues : Prop :=
  ∀ (ty : Ty) (rm : Rm) (neg g : Bool) (m : Nat) (e x : Int),
    (ty.isInt = true →
      let lo : Int := if ty.isSigned then -2 ^ (ty.bits - 1) else 0
      let hi : Int := if ty.isSigned then 2 ^ (ty.bits - 1) - 1 else 2 ^ ty.bits - 1
      let code := fun (v : Int) => (v % 2 ^ ty.bits).toNat
      convertRes ty rm (.int x) = narrowed true ty.isSigned ty.bits x ∧
      convertRes ty rm (.flt (.nan g)) = (0, 0x01) ∧
      convertRes ty rm (.flt (.inf neg)) = (code (if neg then lo else hi), 0x21) ∧
      ∃ z, RoundedTo rm neg (m * 2 ^ e.toNat) (2 ^ (-e).toNat) z ∧
        (let v : Int := if neg then -z else z
         let c := max lo (min hi v)
         convertRes ty rm (.flt (.fin neg m e)) =
           (code c, if c ≠ v then 0x21 else if z * 2 ^ (-e).toNat = m * 2 ^ e.toNat then 0 else 0x10))) ∧
    (ty.isPrd = true ∨ ty.isFlt = true →
      let f := fmtOf ty
      let sign := if neg then 2 ^ (ty.bits - 1) else 0
      convertRes ty rm (.flt (.nan g)) = (canonNaN ty, if g then 0x01 else 0) ∧
      convertRes ty rm (.flt (.inf neg)) = (if ty = .e4m3 then (0x7F, 0x01) else (sign + f.inf, 0)) ∧
      convertRes ty rm (.flt (.fin neg 0 e)) = (sign, 0) ∧
      (ty ≠ .fp16 ∨ x.natAbs < 65520 → convertRes ty rm (.int x) = convertRes ty rm (.flt (.fin (x < 0) x.natAbs 0))) ∧
      (m ≠ 0 → RoundedFp ty rm neg m 1 e (convertRes ty rm (.flt (.fin neg m e)))))

/-- R42-R44: what a pair of elements becomes in O4, read back by R43: two values up to 7 as they are; the larger
outlier, the even one of two equals, as the nearest power of two from 8 to 1,024, the upper of two as near, and its
neighbour lost; an odd −8 as −7. Inexact says that the pair reads back otherwise, saturation that an outlier was cut
or given up. Numbers are rounded under rm first; a NaN counts as 0 and an infinity as 1,024 of its sign, with invalid, in either slot and beside any partner. -/
def Claims.OutlierPairs : Prop :=
  ∀ (rm : Rm) (x y : Int) (k j : Nat) (n n' g : Bool) (m m' : Nat) (e e' : Int),
    (let r := convertPair rm (.int x) (.int y)
     let back := o4Decode (r.1 % 16) (r.1 / 16)
     let power := fun (k : Nat) (v : Int) => 8 ≤ v.natAbs ∧ 3 ≤ k ∧ k ≤ 10 ∧
       if 1024 < v.natAbs then k = 10 else 3 * 2 ^ k ≤ 4 * v.natAbs ∧ 2 * v.natAbs < 3 * 2 ^ k
     let out := fun (k : Nat) (v : Int) => if v < 0 then -(2 : Int) ^ k else 2 ^ k
     (x.natAbs ≤ 7 → y.natAbs ≤ 7 → back = (x, y)) ∧
     (power k x → y.natAbs ≤ 7 ∨ (power j y ∧ j ≤ k) → back = (out k x, 0)) ∧
     (power j y → x.natAbs ≤ 7 ∨ (power k x ∧ k < j) → ¬ (y < 0 ∧ j = 3) → back = (0, out j y)) ∧
     (power 3 y → y < 0 → x.natAbs ≤ 7 → back = (x, -7)) ∧
     r.1 < 256 ∧
     r.2 = (if back = (x, y) then 0 else 0x10) |||
       (if 1024 < x.natAbs ∨ 1024 < y.natAbs ∨ (8 ≤ x.natAbs ∧ 8 ≤ y.natAbs) then 0x20 else 0)) ∧
    (∃ z z', RoundedTo rm n (m * 2 ^ e.toNat) (2 ^ (-e).toNat) z ∧ RoundedTo rm n' (m' * 2 ^ e'.toNat) (2 ^ (-e').toNat) z' ∧
      (let r := convertPair rm (.int (if n then -z else z)) (.int (if n' then -z' else z'))
       convertPair rm (.flt (.fin n m e)) (.flt (.fin n' m' e')) = (r.1, r.2 |||
         if z * 2 ^ (-e).toNat = m * 2 ^ e.toNat ∧ z' * 2 ^ (-e').toNat = m' * 2 ^ e'.toNat then 0 else 0x10))) ∧
    -- beside any partner, in either slot: an integer is the number it is, a NaN counts as 0
    (∀ w : Val,
      (let num := Val.flt (.fin (x < 0) x.natAbs 0)
       convertPair rm (.int x) w = convertPair rm num w ∧ convertPair rm w (.int x) = convertPair rm w num) ∧
      (let r := convertPair rm (.int 0) w
       let l := convertPair rm w (.int 0)
       convertPair rm (.flt (.nan g)) w = (r.1, r.2 ||| 0x01) ∧ convertPair rm w (.flt (.nan g)) = (l.1, l.2 ||| 0x01)) ∧
      -- an infinity in the even slot is the outlier; in the odd one it gives way to an even outlier as large, without inexact
      (let far := Val.int (if n then -1024 else 1024)
       let r := convertPair rm far w
       let l := convertPair rm w far
       let alone := convertPair rm w (.int 0)
       let kept := (o4Decode (l.1 % 16) (l.1 / 16)).1 ≠ 0
       convertPair rm (.flt (.inf n)) w = (r.1, r.2 ||| 0x21) ∧
       convertPair rm w (.flt (.inf n)) = (l.1, (if kept then alone.2 else l.2) ||| 0x21)))

/-! ## Reductions and cross-lane instructions -/

/-- R177-R180: the reductions read the elements of the active cells, write one scalar register and leave
every cell: sums exact and narrowed once, greatest, least, bitwise, with index, and the trees of R54. Rests on
log entry 28. -/
def Obligations.Reductions : Prop :=
  ∀ (s : State) (h : EHdr) (ty : Ty) (d b : Reg) (a : VOp) (sat : Bool) (rm : Rm) (wide : Bool), Element s → a.isSrc = true →
    s.core.task.holdsAll [(ty, a)] = true →
    (let A := s.core.elem [] ty a
     let active := fun (k : Nat) => s.core.task.maskBit h.msk k
     let E := ((List.range s.core.task.vl.toNat).filter active).flatMap fun k => (List.range ty.perCell).map (A k)
     let cands := (List.range 32).flatMap fun k => if k < s.core.task.vl.toNat && active k then
         (List.range ty.perCell).map fun j => (ty.perCell * k + j, value ty (A k j))
       else [(0xFFFFFFFF, value ty ((s.core.bcast b).toNat % 2 ^ ty.bits))]
     let places := (List.range s.core.task.vl.toNat).flatMap fun k => (List.range ty.perCell).map fun j => if active k then some (A k j) else none
     let gives := fun (ins : Instr) (v : W64) (f : Byte) => exec ins s = .next (completed s ((s.core.orFlags f).setReg d v))
     let best := fun (ins : Instr) (beats : Int → Int → Prop) => ∃ p ∈ cands, (∀ r ∈ cands, beats p.2 r.2 ∨ (p.2 = r.2 ∧ p.1 ≤ r.1)) ∧
       gives ins (BitVec.ofNat 64 (p.1 * 2 ^ 32 + (p.2 % 2 ^ 32).toNat)) 0
     (ty.isInt = true →
        gives (.vrsum h ty d a sat) (BitVec.ofNat 64 (combined ty .sum sat 64 E).1) (combined ty .sum sat 64 E).2 ∧
        gives (.vrmax h ty d a) (BitVec.ofNat 64 (combined ty .max false 64 E).1) 0 ∧
        gives (.vrmin h ty d a) (BitVec.ofNat 64 (combined ty .min false 64 E).1) 0 ∧
        gives (.vrand h ty d a) (BitVec.ofNat 64 (combined ty .and false 64 E).1) 0 ∧
        gives (.vror h ty d a) (BitVec.ofNat 64 (combined ty .or false 64 E).1) 0 ∧
        gives (.vrxor h ty d a) (BitVec.ofNat 64 (combined ty .xor false 64 E).1) 0 ∧
        (ty.is64 = false → best (.vrmaxi h ty d a b) (fun x y => y < x) ∧ best (.vrmini h ty d a b) (fun x y => x < y))) ∧
     (ty.isFlt = true →
        (let r := treeRes ty (addCodes ty rm) 0 places
         gives (.vfrsum h ty d a rm false) (BitVec.ofNat 64 r.1) r.2) ∧
        (let r := treeRes ty (pickFp ty true) (2 ^ (ty.bits - 1) + (fmtOf ty).inf) places
         gives (.vfrmax h ty d a) (BitVec.ofNat 64 r.1) r.2) ∧
        (wide = true → ty ≠ .fp32 →
         let r := treeRes .fp32 (addCodes .fp32 rm) 0 (places.map fun e => e.map fun x => (encodeFp .fp32 .rne (decodeFp ty x)).1)
         let sig := places.any fun e => e.any fun x => decodeFp ty x == .nan true
         gives (.vfrsum h ty d a rm wide) (BitVec.ofNat 64 r.1) (r.2 ||| if sig then 0x01 else 0))))

/-- R54: the tree adds neighbours level by level, an odd last value passing up: for any number of places up to 256 it
is its first places, the greatest power of two short of all, added to the rest. An empty place, which stands for the
identity, leaves its neighbour as it is. -/
def Claims.Tree : Prop :=
  ∀ (f : Nat → Nat → Res) (k : Nat) (l : List (Option Nat)), l.length ≤ 256 →
    (let t := treeFold f 8
     t [] = (none, 0) ∧ (∀ x, t [x] = (x, 0)) ∧
     (2 ^ k < l.length → l.length ≤ 2 * 2 ^ k →
       let a := t (l.take (2 ^ k))
       let b := t (l.drop (2 ^ k))
       t l = match a.1, b.1 with
         | some x, some y => (some (f x y).1, a.2 ||| b.2 ||| (f x y).2)
         | some x, none => (some x, a.2 ||| b.2)
         | none, y => (y, a.2 ||| b.2)))

/-- R181-R186: the cross-lane instructions write the active cells of their destination from the source's
groups: combinations, shuffles, slides, one element for all, compress, expand and prefixes. -/
def Claims.CrossLanes : Prop :=
  ∀ (s : State) (h : EHdr) (cv : Bool) (ty : Ty) (q : SqNo) (dir : Dir) (i : Fin 32) (a b : VOp) (r : Reg) (gs : Gs) (op : GOp) (excl sat : Bool)
      (sel : MaskNo), Element s → ty.isInt = true → a.isSrc = true → b.isSrc = true →
    s.core.task.holdsAll [(ty, .vec q dir i), (ty, a), (ty, b)] = true → (sat = true → op = .sum) →
    (let d := VOp.vec q dir i
     let p := ty.perCell
     let g := Gs.cells gs
     let vl := s.core.task.vl.toNat
     let A := s.core.elem [] ty a
     let ks := (List.range vl).filter fun k => s.core.task.maskBit h.msk k
     -- the source element at a position of the group of cell k, and the group's elements in order
     let S := fun (k x : Nat) => if x < g * p ∧ k / g * g + x / p < vl then A (k / g * g + x / p) (x % p) else 0
     let G := fun (k n : Nat) => ((List.range n).filter fun x => k / g * g + x / p < vl && s.core.task.maskBit h.msk (k / g * g + x / p)).map
       fun x => A (k / g * g + x / p) (x % p)
     let pos := fun (k j : Nat) => k % g * p + j
     let idx := fun (k j : Nat) => match b with
       | .scalar x => (s.core.bcast x).toNat % 2 ^ ty.bits
       | _ => s.core.elem [] ty b k j
     let N := (s.core.bcast r).toNat
     let chosen := (List.range vl).filter fun k => s.core.task.maskBit sel k
     (∀ q ∈ [(Instr.vgred h ty d a gs op sat, fun k _ => combined ty op sat ty.bits (G k (g * p))),
         (.vscan h ty d a gs op excl sat, fun k j => combined ty op sat ty.bits (G k (if excl then pos k j else pos k j + 1))),
         (.vshuf h ty d a b gs, fun k j => (S k (if ty.is64 then idx k j % 2 ^ 32 else idx k j), 0)),
         (.vslup h ty d a r gs, fun k j => (if pos k j < N then 0 else S k (pos k j - N), 0)),
         (.vsldn h ty d a r gs, fun k j => (S k (pos k j + N), 0)), (.vbcast h ty d a r gs, fun k _ => (S k N, 0))],
        ∃ t : State, exec q.1 s = .next t ∧ WroteElems s t ty d ks q.2) ∧
     (ty.isBit = true →
        (∃ t : State, exec (.vcmprs cv ty d a sel) s = .next t ∧ WroteElems s t ty d (List.range vl) fun k _ =>
          (match chosen[k]? with
           | some c => A c 0
           | none => 0, 0)) ∧
        (∃ t : State, exec (.vexpnd cv ty d a sel) s = .next t ∧ WroteElems s t ty d chosen fun k _ =>
          (A ((List.range k).filter fun c => s.core.task.maskBit sel c).length 0, 0))))

/-- R183, R171, R180: VGRED of a floating-point type gives every active cell the tree of its group's active
elements: their sum, rounded to nearest, their greatest or their least. -/
def Claims.GroupFloats : Prop :=
  ∀ (s : State) (h : EHdr) (ty : Ty) (q : SqNo) (dir : Dir) (i : Fin 32) (a : VOp) (gs : Gs), Element s → ty.isFlt = true → a.isSrc = true →
    s.core.task.holdsAll [(ty, .vec q dir i), (ty, a)] = true →
    (let p := ty.perCell
     let g := Gs.cells gs
     let active := fun (c : Nat) => c < s.core.task.vl.toNat && s.core.task.maskBit h.msk c
     let group := fun (k : Nat) => (List.range (g * p)).map fun x =>
       if active (k / g * g + x / p) then some (s.core.elem [] ty a (k / g * g + x / p) (x % p)) else none
     ∀ r ∈ [(GOp.sum, addCodes ty .rne), (.max, pickFp ty true), (.min, pickFp ty false)], ∃ t : State,
       exec (.vgred h ty (.vec q dir i) a gs r.1 false) s = .next t ∧
       WroteElems s t ty (.vec q dir i) ((List.range 32).filter active) fun k _ => treeRes ty r.2 0 (group k))

/-! ## Squares -/

/-- R187-R190: OPA adds to each cell of its rows and columns the exact sum of its products, rounded once;
SQZ clears, SQCP copies or transposes and SQCVT packs a square; no other cell changes. Rests on
log entry 28. -/
def Obligations.SquareInstructions : Prop :=
  ∀ (s : State) (h : EHdr) (cv alt : Bool) (ty : Ty) (d a : SqNo) (x y : VOp) (rm : Rm) (tr : Bool), Element s → d.val < s.core.task.sq →
    (let c := s.core
     let every := fun (_ : Nat) => True
     (ty.isPrd = true → c.task.holdsPair x = true → c.task.holdsPair y = true →
        let f := fun (i j : Nat) => dotRes (c.at d i j) (c.opaTerms ty (opaOther ty alt) x y i j)
        let rows := (List.range c.task.vl.toNat).filter fun i => c.task.maskBit h.msk i
        ∃ t : State, exec (.opa h ty d x y alt) s = .next t ∧
          WroteSquare s t d (fun i => i ∈ rows) (fun j => j < c.task.vl.toNat) f
            (flagsOf (rows.flatMap fun i => (List.range c.task.vl.toNat).map fun j => (f i j).2))) ∧
     (∃ t : State, exec (.sqz cv d) s = .next t ∧ WroteSquare s t d every every (fun _ _ => (0, 0)) 0) ∧
     (a.val < c.task.sq →
        (∃ t : State, exec (.sqcp cv d a tr) s = .next t ∧ WroteSquare s t d every every
          (fun i j => (if tr then c.at a j i else c.at a i j, 0)) 0) ∧
        (ty.isNrw = true →
          let r := fun (i k e : Nat) => encodeFp ty rm (decodeFp .fp32 (c.at a i (ty.perCell * k + e)))
          ∃ t : State, exec (.sqcvt cv ty d a rm) s = .next t ∧ WroteSquare s t d every every
            (fun i k => (if k < 32 / ty.perCell then ((List.range ty.perCell).map fun e => (r i k e).1 * 2 ^ (ty.bits * e)).sum else 0, 0))
            (flagsOf ((List.range 32).flatMap fun i => (List.range (32 / ty.perCell)).flatMap fun k => (List.range ty.perCell).map fun e => (r i k e).2)))))

/-! ## Vector memory instructions -/

/-- R241-R243, R362: a vector load reads, for every cell of the loop with its mask bit set, the bytes at
its element's address, in the scratchpad or in memory whose translation is at hand; the first element outside the address space stops it with
a precise trap, the earlier elements written; a chasing element behind an arrival pointer waits. -/
def Obligations.VectorLoads : Prop :=
  ∀ (s : State) (h : EHdr) (ty : Ty) (q : SqNo) (dir : Dir) (i : Fin 32) (a b : Reg) (x : VOp) (m : VLdMods) (off : Nat → Nat),
    Element s → s.core.id.isTask = true → Unwatched s → s.core.task.buf = [] → s.core.task.scr ≤ 1024 → ty.isBit = true →
    s.core.task.holdsAll [(ty, .vec q dir i), (ty, x)] = true →
    (let d := VOp.vec q dir i
     let n := if ty.is64 then 8 else 4
     let ks := s.core.task.execCells h.msk
     let inside := fun (addr : Nat → W64) (k : Nat) =>
       (addr k).toNat = scratchBase + off k ∧ off k % n = 0 ∧ off k + n ≤ 4096 * s.core.task.scr
     let bytes := fun (k _ : Nat) => ((natOf (readBytes s.core.task.scratch (off k) n), 0) : Nat × Byte)
     ∀ p ∈ [(Instr.vld h ty d a m, unitAddr s.core ty a), (.vlds h ty d a b m, strideAddr s.core a b), (.vldx h ty d a x m, indexAddr s.core a x)],
       ((∀ j, (fget s.core.task.aps j {}).armed = false) → (∀ k ∈ ks, inside p.2 k) →
          ∃ t : State, exec p.1 s = .next t ∧ WroteElems { s with mem := acquireAt s.mem s.core.agent m.scp } t ty d ks bytes) ∧
       (∀ leaf : Nat → TlbEntry, NoCopies s.mem → Sound s.mem → s.mem.poison = [] → (∀ k ∈ ks, AtHand s (p.2 k) n (leaf k)) →
          ∃ t : State, exec p.1 s = .next t ∧ t.mem.cells = s.mem.cells ∧ WroteElems { s with mem := t.mem } t ty d ks fun k _ =>
            (natOf (readBytes s.mem.cells (leafPa (leaf k) (p.2 k)) n), 0)) ∧
       (∀ pre k post, (∀ j, (fget s.core.task.aps j {}).armed = false) → ks = pre ++ k :: post → (∀ k ∈ pre, inside p.2 k) → 2 ^ 56 ≤ (p.2 k).toNat →
          ∃ t u : State, WroteElems s u ty d pre bytes ∧
            t = { s with core := { s.core with task := { s.core.task with cells := u.core.task.cells, dirty := u.core.task.dirty, vstart := BitVec.ofNat 5 k } } } ∧
            exec p.1 s = .next (t.takeTrap { code := 0x0008, info := p.2 k, epc := s.core.bpc, resume := s.core.pc, kind := AccKind.load.code })) ∧
       (∀ k post, m.chase = true → ks = k :: post → s.core.task.chaseWaits (p.2 k) n = true →
          exec p.1 s = .next { s with core := { s.core with task := { s.core.task with vstart := BitVec.ofNat 5 k } } }))

/-- R241, R242, R244, R384, R385: a vector store or VAMO whose elements translate puts one entry for each
into the strip buffer, in order, and changes no memory; without a strip it is an illegal operand, an
element that faults stops it there, and one more entry than the buffer holds discards the strip. -/
def Obligations.VectorStores : Prop :=
  ∀ (s : State) (h : EHdr) (ty : Ty) (src x : VOp) (a b : Reg) (m : VStMods) (op : AmoOp) (pl : Place) (ord : Bool) (tgt : W64 → Target),
    Element s → s.core.id.isTask = true → Unwatched s → src.isSrc = true → x.isSrc = true → ty.isBit = true →
    s.core.task.holdsAll [(ty, src), (ty, x)] = true → s.core.task.holdsAll [(.n32, src), (.n32, x)] = true →
    (let n := if ty.is64 then 8 else 4
     let ks := s.core.task.execCells h.msk
     let whole := fun (addr : Nat → W64) (k : Nat) => [(addr k, bytesOf n (s.core.src [] ty src k))]
     let bytewise := fun (k : Nat) => ((List.range 4).filter fun j => (s.core.src [] .n32 x k).testBit j).map fun j =>
       (s.core.bcast a + BitVec.ofNat 64 (4 * k + j), [BitVec.ofNat 8 (s.core.src [] .n32 src k / 2 ^ (8 * j))])
     ∀ p ∈ [(Instr.vst h ty src a m, BufKind.store, m.pol, m.ord, whole (unitAddr s.core ty a)),
         (.vsts h ty src a b m, .store, m.pol, m.ord, whole (strideAddr s.core a b)),
         (.vstx h ty src a x m, .store, m.pol, m.ord, whole (indexAddr s.core a x)), (.vstb h src a x m, .store, m.pol, m.ord, bytewise),
         (.vamo h ty src a x op pl ord, .amo op pl, .dflt, ord, whole (indexAddr s.core a x))],
       (let kind := p.2.1
        let parts := p.2.2.2.2
        let good := fun (k : Nat) => ∀ w ∈ parts k, stagePart s w.1 w.2.length kind.access p.2.2.1 = (s.mem, .ok (tgt w.1))
        let entries := fun (ks : List Nat) => (ks.filter fun k => (parts k).isEmpty = false).map fun k =>
          (⟨s.seq, k, p.2.2.2.1, kind, p.2.2.1, (parts k).map fun w => ⟨w.1.toNat, tgt w.1, w.2.map some⟩, false⟩ : BufElem)
        let buffered := fun (ks : List Nat) => { s.core with task := { s.core.task with buf := s.core.task.buf ++ entries ks } }
        (s.core.task.held = true → s.core.task.buf.length + (entries ks).length ≤ 2048 → (∀ k ∈ ks, good k) →
           exec p.1 s = .next (completed { s with seq := s.seq + 1 } (buffered ks))) ∧
        (s.core.task.held = false → exec p.1 s = .next s.operandE) ∧
        (s.core.task.held = true → 2048 < s.core.task.buf.length + (entries ks).length →
           exec p.1 s = .next (s.discardWith 0x0023 s.core.bpc)) ∧
        (s.core.task.held = true → s.core.task.buf.length + (entries ks).length ≤ 2048 →
           ∀ pre k post w rest f, ks = pre ++ k :: post → (∀ k ∈ pre, good k) → parts k = w :: rest →
           stagePart s w.1 w.2.length kind.access p.2.2.1 = (s.mem, .error f) →
           exec p.1 s = .next (({ s with seq := s.seq + 1, core := (buffered pre).withVstart k }).memTrapE f kind.access))))

/-- R386: a strip given up because its buffer is full leaves memory as it was, empties the buffer, counts the
strip as discarded, and starts the task again at its entry with the farm's next strip. -/
def Claims.FullBuffer : Prop :=
  ∀ (s : State) (t : TaskId) (f : Farm) (epc : VAddr), s.core.id = .task t → s.farm? t.farm.val = some f → s.core.task.held = true →
    f.aborted = false → f.nextBase < f.lrec.iters → t.tid ∈ f.triggered ∨ f.trigSignalled = true ∨ f.triggered.length + 1 ≠ f.lrec.tasks →
    (let u := s.discardWith 0x0023 epc
     u.mem = s.mem ∧ u.others = s.others ∧ u.core.id = s.core.id ∧ u.core.task.buf = [] ∧ u.core.task.block = none ∧
     u.core.cause = 0x0023 ∧ u.core.epc = epc ∧ u.core.info = s.core.task.sbase ∧ u.core.pc = f.lrec.entry.setWidth 56 ∧
     u.core.task.entryHigh.toNat = f.lrec.entry.toNat / 2 ^ 56 ∧ u.core.task.vl = 32 ∧ u.core.task.vstart = 0 ∧ u.core.flags = s.core.flags ∧
     u.core.task.held = true ∧ u.core.task.sbase = BitVec.ofNat 64 f.nextBase ∧
     u.core.reg 4 = BitVec.ofNat 64 f.nextBase ∧ u.core.reg 5 = BitVec.ofNat 64 t.tid ∧ u.core.reg 3 = f.lrec.args ∧
     s.core.task.sbase.toNat ∈ (u.farm t.farm.val).discarded ∧ (u.farm t.farm.val).nextBase = f.nextBase + f.lrec.slen)

/-! ## KV instructions -/

/-- R327, R329, R348, R349: KVHASH writes the hash of its predecessor and sixteen tokens; VSIGN writes the
256 signs of the projections of its 128 elements into cells 0 to 7. -/
def Obligations.HashAndSign : Prop :=
  ∀ (s : State) (cv : Bool) (r b : Reg) (q : SqNo) (dir : Dir) (i : Fin 32) (a : VOp) (m : SqNo), Element s → a.isSrc = true →
    s.core.task.holdsAll [(.e4m3, .vec q dir i), (.e4m3, a), (.n32, a)] = true →
    exec (.kvhash cv r a b) s = .next (completed s (s.core.setReg r (BitVec.ofNat 64
      (((s.core.bcast b).toNat % 2 ^ 32 * 31 + ((List.range 16).map fun k => s.core.src [] .n32 a k * (2 * k + 1)).sum) % 2 ^ 32)))) ∧
    (m.val < s.core.task.sq →
      ∃ t : State, exec (.vsign cv (.vec q dir i) a m) s = .next t ∧ OnlyCells s t ∧
        (let v := fun (e : Nat) => e4m3Units (s.core.elem [] .e4m3 a (e / 4) (e % 4))
         -- bit e of row j of the projection matrix, 128 bits to a row, four cells of the square
         let negative := fun (j e : Nat) => (s.core.task.cell (1024 * m.val + 4 * j + e / 32)).getLsbD (e % 32)
         ∀ k j, k < 8 → j < 32 → (t.core.task.cell (cellKey q dir i.val k)).getLsbD j =
           decide (((List.range 128).map fun e => if negative (32 * k + j) e then -v e else v e).sum < 0)) ∧
        (∀ key, (∀ k, k < 8 → key ≠ cellKey q dir i.val k) → t.core.task.cell key = s.core.task.cell key) ∧
        t.core.flags = s.core.flags ||| (if ∃ e ∈ s.core.e4m3s a, (decodeFp .e4m3 e).isNan = true then 0x01 else 0))

/-- R344-R346, R350, R351: of an exhausted stream QKDOT writes −∞ into the active cells of its loop and
PVACC nothing, and the record stands; of a masked token they write the same; a loop takes one token for each cell, in
turn; a token with data gives QKDOT its exact dot product, rounded once,
and PVACC 128 exact multiply-adds; a fault stops the instruction at its cell, the cursor in the info. Where the schedule
limits the tokens of a step, the instruction stands at the next cell and goes on from there, unlimited, in its next step
(R354; the limit is the model's choice, log entry 53). -/
def Claims.StreamOps : Prop :=
  ∀ (s : State) (h : EHdr) (q : SqNo) (dir : Dir) (i : Fin 32) (a w : VOp) (st : Fin 4), Element s → a.isSrc = true → w.isSrc = true →
    s.core.task.holdsAll [(.e4m3, .vec q dir i), (.e4m3, a), (.e4m3, .stream st false), (.fp32, .vec q .row i), (.fp32, w)] = true →
    (let d := VOp.vec q dir i
     let r := fget s.core.task.streams st.val {}
     let ks := s.core.task.loopCells
     let P := decodeFp .fp32
     let still := fun (u : State) => (∀ n, fget u.core.task.streams n {} = fget s.core.task.streams n {}) ∧ { u with core := s.core, eng := s.eng } = s ∧
       { u.core with task := { u.core.task with streams := s.core.task.streams } } = s.core
     (s.core.task.quota = none → r.fin.toNat ≤ kvPos r.cur →
        (∃ t u : State, exec (.qkdot h d a st) s = .next t ∧ still u ∧ WroteElems u t .n32 d (s.core.task.execCells h.msk) fun _ _ => (0xFF800000, 0)) ∧
        (∃ u : State, exec (.pvacc h q i w st) s = .next (completed u u.core) ∧ still u)) ∧
     (∀ j u bs, s.core.task.quota = none → ks = [j] → s.core.task.maskBit h.msk j = true →
        (s.nextToken st false = (u, .token (.data bs)) →
           ∃ t : State, exec (.qkdot h d a st) s = .next t ∧ WroteElems u t .n32 d [j] fun _ _ =>
             score ((List.range 128).map fun e => decodeFp .e4m3 (s.core.elem [] .e4m3 a (e / 4) (e % 4))) (.data bs)) ∧
        (s.nextToken st true = (u, .token (.data bs)) → i.val ≤ 28 →
           let sum := fun (e : Nat) => dotRes (s.core.at q (i.val + e / 32) (e % 32)) [(P (s.core.src [] .fp32 w j), decodeFp .e4m3 ((bs[e]?).getD 0).toNat)]
           ∃ t : State, exec (.pvacc h q i w st) s = .next t ∧ OnlyCells u t ∧
             (∀ e, e < 128 → t.core.at q (i.val + e / 32) (e % 32) = (sum e).1 % 2 ^ 32) ∧
             (∀ key, (∀ e, e < 128 → key ≠ 1024 * q.val + 32 * (i.val + e / 32) + e % 32) → t.core.task.cell key = u.core.task.cell key) ∧
             t.core.flags = u.core.flags ||| flagsOf ((List.range 128).map fun e => (sum e).2)) ∧
        -- a masked token, and one past the end
        (∀ tok ∈ [Token.masked, .exhausted],
          (s.nextToken st false = (u, .token tok) → ∃ t : State, exec (.qkdot h d a st) s = .next t ∧ WroteElems u t .n32 d [j] fun _ _ => (0xFF800000, 0)) ∧
          (s.nextToken st true = (u, .token tok) → exec (.pvacc h q i w st) s = .next (completed u u.core)))) ∧
     -- a loop of any length: for each cell in turn, active or not, one token, up to one that faults or to the step's limit
     (∀ (us vs : Nat → State) (toks : Nat → Token) (n : Nat), n ≤ ks.length → vs 0 = s →
        (let unlimited := fun (u : State) => ({ u with core := { u.core with task := { u.core.task with quota := none } } } : State)
         let limit := match s.core.task.quota with
           | some (m + 1) => min (m + 1) ks.length
           | _ => ks.length
         let active := fun (k j : Nat) => (us k).core.task.maskBit h.msk j = true
         let ends := fun (ins : Instr) (v : Bool) => (n = limit → n = ks.length → exec ins s = .next (completed (unlimited (vs n)) (unlimited (vs n)).core)) ∧
           (∀ j, n = limit → ks[n]? = some j →
              exec ins s = .next { vs n with core := { (vs n).core with task := { (vs n).core.task with vstart := BitVec.ofNat 5 j, quota := some 0 } } }) ∧
           ∀ u code j, n < limit → ks[n]? = some j → (vs n).nextToken st v = (u, .fault code) →
             exec ins s = .next ((unlimited u).streamFault st code j)
         let walks := fun (v : Bool) (change : Nat → Nat → Core) => ∀ k j, k < n → ks[k]? = some j →
           (vs k).nextToken st v = (us k, .token (toks k)) ∧ vs (k + 1) = { us k with core := change k j }
         (walks false (fun k j =>
            let c := (us k).core
            let r := score ((List.range 128).map fun e => decodeFp .e4m3 (c.elem [] .e4m3 a (e / 4) (e % 4))) (toks k)
            if active k j then { c.orFlags r.2 with task := (c.orFlags r.2).task.setVec .n32 d j r.1 } else c) → ends (.qkdot h d a st) false) ∧
         (walks true (fun k j =>
            let c := (us k).core
            match toks k with
            | .data bs => if active k j then c.accumulate q i (P (c.src [] .fp32 w j)) bs else c
            | _ => c) → ends (.pvacc h q i w st) true))) ∧
     (∀ u code, s.core.task.quota = none → ks ≠ [] →
        (s.nextToken st false = (u, .fault code) → exec (.qkdot h d a st) s = .next (u.streamFault st code s.core.task.vstart.toNat)) ∧
        (s.nextToken st true = (u, .fault code) → exec (.pvacc h q i w st) s = .next (u.streamFault st code s.core.task.vstart.toNat))))

/-- R320, R323-R326, R343-R345: the walk of a stream record, one block at a time: an exhausted record stands; a KV
descriptor that cannot be used, an address outside the KV space, a list entry outside the table and a block that is not
there are KV missing faults; a block whose signature is too far is skipped, which moves the cursor, counts, and sets the
skipped flag, and the walk goes on; a resident block and the tail give their token, or the copy of it that staging
holds; an absent block gives MASKED and sets the KV-degraded flag; a demoted and a poisoned one are faults. -/
def Claims.StreamWalk : Prop :=
  ∀ (s u : State) (st : Fin 4) (v : Bool),
    (let r := fget s.core.task.streams st.val {}
     let stk := s.core.task.stk
     let p := r.cur.toNat % 2 ^ 24
     let k := p / 16
     let layer := r.cur.toNat / 2 ^ 32 % 2 ^ 8
     let head := r.cur.toNat / 2 ^ 24 % 2 ^ 8
     let n := r.cur.toNat / 2 ^ 40 % 2 ^ 20
     let res := s.nextToken st v
     let consumed := fun (q : StreamRec) => { q with cur := BitVec.ofNat 64 (q.cur.toNat / 2 ^ 24 * 2 ^ 24 + (p + 1) % 2 ^ 24), clr := q.clr && (p + 1) % 16 != 0 }
     -- the read answers t, the record is then q, and these flags are set
     let gives := fun (q : StreamRec) (flags : Byte) (t : TokRes) => res.2 = t ∧ fget res.1.core.task.streams st.val {} = q ∧
       (∀ i : Fin 4, i ≠ st → fget res.1.core.task.streams i.val {} = fget s.core.task.streams i.val {}) ∧
       res.1.core.flags = s.core.flags ||| flags ∧ (∀ a, fget res.1.mem.cells a 0 = fget s.mem.cells a 0) ∧
       { res.1.core with flags := s.core.flags, task := { res.1.core.task with streams := s.core.task.streams } } = s.core ∧
       { res.1 with core := s.core, mem := s.mem, eng := s.eng } = s
     let staged := fun (bs : List Byte) => match s.staged s.core.taskId st p v with
       | some g => TokRes.token (.data g.data)
       | none => .token (.data bs)
     NoCopies s.mem → Sound s.mem →
       (r.fin.toNat ≤ p → gives r 0 (.token .exhausted)) ∧
       (p < r.fin.toNat → s.kvDesc stk s.core.asid = (u, .error 0x0201) → gives r 0 (.fault 0x001A)) ∧
       (∀ e, p < r.fin.toNat → s.kvDesc stk s.core.asid = (u, .error e) → e ≠ 0x0201 → gives r 0 (.fault 0x001B)) ∧
       (∀ d, p < r.fin.toNat → s.kvDesc stk s.core.asid = (u, .ok d) →
         (let h : OpHdr := { stk := stk, asid := s.core.asid }
          let m := s.mem.cells
          let inside := n < d.nseq ∧ layer < d.nl ∧ head < d.nh
          let q := seqOf (crookBytes u h m (d.seqVa n) 128)
          let at_ := fun (base : Nat) => base + ((layer * d.nh + head) * 2 + (if v then 1 else 0)) * 2048 + p % 16 * 128
          let there := fun (base : Nat) => ∀ o, o < 128 → reachable u.ursol (at_ base + o) = true
          let id := crookNum u h m (q.list + BitVec.ofNat 64 (4 * k)) 4
          let e := crookEntry u h d m id
          let sig := crookNum u h m (d.sigVa id layer head) 32
          let tested := r.clr = false ∧ r.sig = true ∧ e.sigv = true
          let far := r.rad.toNat < popCount (sig ^^^ r.qsig.toNat) 256
          let stop := min (16 * (k + 1)) r.fin.toNat
          let passed : StreamRec := { r with skip := r.skip + BitVec.ofNat 32 (stop - p), cur := BitVec.ofNat 64 (r.cur.toNat / 2 ^ 24 * 2 ^ 24 + stop % 2 ^ 24), clr := false }
          let walks := streamWalk stk (kvCtx stk s.core.asid true) v
          (¬ inside → gives r 0 (.fault 0x001A)) ∧
          (inside → CrookReaches u h (d.seqVa n) 128 →
            (q.nb ≤ k → ¬ (k = q.nb ∧ q.tail ≠ 0 ∧ p < q.len) → gives r 0 (.fault 0x001A)) ∧
            (k = q.nb → q.tail ≠ 0 → p < q.len → there q.tail → gives (consumed r) 0 (staged (readBytes m (at_ q.tail) 128))) ∧
            (k < q.nb → CrookReaches u h (q.list + BitVec.ofNat 64 (4 * k)) 4 →
              (2 ^ d.lgsz ≤ id → gives r 0 (.fault 0x001A)) ∧
              (id < 2 ^ d.lgsz → CrookReaches u h (d.entryVa id) 128 → (tested → CrookReaches u h (d.sigVa id layer head) 32) →
                (tested ∧ far → (stop = r.fin.toNat → gives passed 0x80 (.token .exhausted)) ∧
                  ∃ w : State, w.core = { s.core with flags := s.core.flags ||| 0x80 } ∧ { w with core := s.core, mem := s.mem } = s ∧
                    (∀ a, fget w.mem.cells a 0 = fget m a 0) ∧ ∀ fuel, walks (fuel + 1) s r = walks fuel w passed) ∧
                (¬ (tested ∧ far) →
                  (let seen := { r with clr := true }
                   (e.state = 1 → there e.pa → gives (consumed seen) 0 (staged (readBytes m (at_ e.pa) 128))) ∧
                   (e.state = 4 → gives (consumed { seen with dgid := BitVec.ofNat 32 id }) 0x40 (.token .masked)) ∧
                   (e.state = 2 → gives seen 0 (.fault 0x0018)) ∧ (e.state = 3 → gives seen 0 (.fault 0x0019)) ∧
                   (e.state = 0 ∨ 4 < e.state → gives seen 0 (.fault 0x001A))))))))))

/-- R320-R326, R343-R346, R350, R351: stream tokens, and QKDOT and PVACC, which consume them. Rests on
log entries 27 and 53. -/
def Obligations.StreamConsumers : Prop := Claims.StreamOps ∧ Claims.StreamWalk

/-! ## The ends of engine operations -/

/-- R255, R262, R381: an operation that ends makes one update of its object, at home: count up by one, its status,
progress and fault index, flags joined; no other byte changes. Without an object nothing changes. A task's operation
that ends with a fault first writes its record, the 64 bytes of R381, into the first free place of its frame; one of
the supervisor core writes none. -/
def Claims.OperationEnds : Prop :=
  ∀ (s : State) (h : OpHdr) (u : UnitCode) (status progress fidx : Nat) (flags : Byte) (pa : Nat),
    (h.obj = none → s.finishOp h u status progress fidx flags false = s) ∧
    (h.obj = some pa → pa % 16 = 0 → reachable s.ursol pa = true → status < 2 ^ 16 → progress < 2 ^ 32 → fidx < 2 ^ 32 →
      NoCopies s.mem →
      (let t := s.finishOp h u status progress fidx flags false
       let o := Obj.ofNat (natOf (readBytes s.mem.cells pa 16))
       Obj.ofNat (natOf (readBytes t.mem.cells pa 16)) =
         { o with count := (o.count + 1) % 2 ^ 32, status := status, flags := o.flags ||| flags.toNat, progress := progress, fidx := fidx } ∧
       (∀ k, k < pa ∨ pa + 16 ≤ k → fget t.mem.cells k 0 = fget s.mem.cells k 0) ∧ { t with mem := s.mem } = s)) ∧
    (h.core.isTask = false → s.finishOp h u status progress fidx flags true = s.finishOp h u status progress fidx flags false) ∧
    (status < 2 ^ 16 → progress < 2 ^ 32 → fidx < 2 ^ 32 →
      (let r := recordBytes h u status progress fidx
       r.length = 64 ∧ numAt r 0x00 8 = h.ipc.toNat ∧ numAt r 0x08 1 = u.code ∧ numAt r 0x09 1 = 0 ∧ numAt r 0x0A 2 = status ∧
       numAt r 0x0C 4 = h.word.toNat ∧ numAt r 0x10 8 = h.va.toNat ∧ numAt r 0x18 8 = h.vb.toNat ∧ numAt r 0x20 8 = h.ve.toNat ∧
       numAt r 0x28 8 = (if h.obj.isSome then h.objVa.toNat else 0) ∧ numAt r 0x30 4 = progress ∧ numAt r 0x34 4 = fidx ∧ numAt r 0x38 8 = 0)) ∧
    (∀ t k, h.core = .task t → (s.farm? t.farm.val).isSome = true → t.tid ∉ (s.farm t.farm.val).ended →
      (s.farm t.farm.val).freeRecord t.tid = some k →
      (let w := s.writeRecord t h u status progress fidx
       let m : RecMark := ⟨t.tid, k, s.seq, if h.obj.isSome then some h.objVa else none, BitVec.ofNat 16 status, false⟩
       m ∈ (w.1.farm t.farm.val).undelivered t.tid ∧
       (w.2 = true → s.finishOp h u status progress fidx flags true = w.1.finishOp h u status progress fidx flags false) ∧
       (w.2 = false → FrameLost (s.finishOp h u status progress fidx flags true) t ∨ s.findCore (.task t) = none) ∧
       (∀ e, FrameReady s t e → w.2 = true ∧
         readBytes w.1.mem.cells (leafPa e (s.frameVa t) + 0x300 + 64 * k.val) 64 = recordBytes h u status progress fidx)))

/-! ## Banks -/

/-- R273-R278, R281, R284, R287: the banks' own moves. 16 ns after its activation a row is consumable, and every ROWACT
object that waits for it is signalled; 2,000 ns after it, or 12 ns before its refresh window, hardware closes it and it
is lost, and the ROWCONs held, but not one whose transfer is under way, and the ROWACT objects waiting fail with 0x0101; a close takes 12 ns, a refresh 350; an
accepted ROWCLS closes once no earlier ROWCON is held. A Fold access that is still to be made to a row takes the bus of
its open row for 4 ns, after a transfer that waits where the Fold had the bus last; or it activates an idle bank of its
own and closes it after its bus slot, 20 ns on. Which access is made when is log entry 46. -/
def Claims.BankMoves : Prop :=
  ∀ (s : State) (b : BankId) (row : Fin 32768),
    (let k := s.bank b
     let set := fun (k' : Bank) => Host.Outcome.next (s.setBank b k')
     let idle : Bank := { k with st := .idle, tIn := s.now }
     let lost : Bank := { k with st := .close, tIn := s.now, closing := true, lost := true, objs := [] }
     let col := 64 * b.stk.val + b.col.val
     let others := fun (t : State) => ∀ b', bankKey b' ≠ bankKey b → t.bank b' = s.bank b'
     -- an access to this line is one to this row (R205)
     let mine := fun (line : Nat) => line / 2 ^ 30 % 8 = b.stk.val ∧ line / 2 ^ 5 % 64 = b.col.val ∧ line / 2 ^ 11 % 16 = b.layer.val ∧
       line / 2 ^ 15 % 2 ^ 15 = row.val
     -- the Fold's own activation closes, its bus slot behind it
     let closed := fun (t : State) => t.bank b = { k with st := .close, tIn := k.tAct + 20 } ∧ others t ∧
       fget t.dram.busUntil col 0 = max (fget s.dram.busUntil col 0) (k.tAct + 20) ∧
       (fget t.dram.busFold col false = true ↔ fget s.dram.busFold col false = true ∨ fget s.dram.busUntil col 0 < k.tAct + 20) ∧
       { t with mem := s.mem, dram := s.dram } = s
     -- the row is consumable
     (k.st = .act → k.tAct + 16 ≤ s.now → exec (.rowConsumable b) s =
        .next (k.objs.foldl (fun s h => s.endOp h .tile 1 0) (s.setBank b { k with st := .open, tIn := s.now, objs := [] }))) ∧
     -- hardware closes it
     (∀ i, i = Instr.rowOpenLimit b ∧ k.tAct + 2000 ≤ s.now ∨ i = .refreshPreclose b ∧ (s.inRefresh b = true ∨ s.refreshWithin b 13 = true) →
        k.active = true →
        (∃ t : State, exec i s = .next t ∧ t.bank b = lost ∧ others t ∧ t.tiles = s.tiles ∧
           t.dram.cmds = s.dram.cmds.filter fun c => !(c.bank == b && (if c.slot.isSome then !s.transferring c else c.close))) ∧
        (k.objs = [] → (∀ c ∈ s.dram.cmds, c.bank ≠ b) → exec i s = set lost) ∧
        (∀ c slot, k.objs = [] → s.dram.cmds = [c] → c.bank = b → c.slot = some slot →
           (s.transferring c = false → ∃ u : State,
             exec i s = .next (u.failOp c.hdr .tile 0x0101 0 0 0) ∧ u.bank b = lost ∧ u.dram.cmds = [] ∧ { u with dram := s.dram } = s) ∧
           (s.transferring c = true → ∃ u : State, exec i s = .next u ∧ u.bank b = lost ∧ u.dram.cmds = [c] ∧ { u with dram := s.dram } = s)) ∧
        (∀ h, k.objs = [h] → (∀ c ∈ s.dram.cmds, c.bank ≠ b) → exec i s = .next ((s.setBank b lost).failOp h .tile 0x0101 0 0 0))) ∧
     -- refresh, and the end of a close
     (k.st = .idle → s.inRefresh b = true →
        exec (.refreshWindowStart b) s = set { k with st := .ref, tIn := s.now - (350 - (s.refreshOf b).rem) }) ∧
     (k.st = .ref → k.tIn + 350 ≤ s.now → exec (.refreshWindowEnd b) s = set idle) ∧
     (k.st = .close → k.tIn + 12 ≤ s.now → exec (.bankCloseEnd b) s = set idle) ∧
     -- a ROWCLS
     (∀ c rest, s.dram.cmds = c :: rest → c.bank = b → c.tag = k.tag → c.slot = none → c.close = true → (∀ d ∈ rest, d.bank ≠ b) → k.st = .open →
        ∃ u : State, exec (.rowclsClose b) s = .next (u.endOp c.hdr .tile 1 0) ∧ u.dram.cmds = rest ∧ others u ∧
          u.bank b = { k with st := .close, tIn := s.now, closing := true } ∧ { u with dram := s.dram } = s) ∧
     (∀ c d slot, s.dram.cmds = [d, c] → c.bank = b → c.tag = k.tag → c.slot = none → c.close = true → d.bank = b → d.tag = k.tag →
        d.slot = some slot → d.hdr.seq < c.hdr.seq → exec (.rowclsClose b) s = .next s) ∧
     -- accesses of the Fold
     (serves s.ursol b.stk.val = false → exec (.foldDramAccess b row) s = .next s) ∧
     (serves s.ursol b.stk.val = true → k.byFold = false ∨ k.active = false → (∀ l ∈ s.mem.dramWork, ¬ mine l) → exec (.foldDramAccess b row) s = .next s) ∧
     (serves s.ursol b.stk.val = true → ∀ before l after, s.mem.dramWork = before ++ l :: after → mine l → (∀ x ∈ before, ¬ mine x) →
        (let served : MemSys := { s.mem with dramWork := before ++ after }
         (k.st = .open → k.byFold = false → k.row = row.val →
           (s.foldTakesBus b = true → ∃ t : State, exec (.foldDramAccess b row) s = .next t ∧ fget t.dram.busUntil col 0 = s.now + 4 ∧ t.mem = served ∧
             fget t.dram.busFold col false = true ∧ { t with mem := s.mem, dram := { t.dram with busUntil := s.dram.busUntil, busFold := s.dram.busFold } } = s) ∧
           (s.foldTakesBus b = false → exec (.foldDramAccess b row) s = .next s)) ∧
         (k.st = .open → k.byFold = true → k.row = row.val → k.tAct + 20 ≤ s.now →
           ∃ t : State, exec (.foldDramAccess b row) s = .next t ∧ closed t ∧ t.mem = served) ∧
         (k.st = .idle → s.inRefresh b = false → s.refreshWithin b 32 = false → (s.budget b).length < 8 → s.foldSlots b.stk b.col = [] →
           ∃ t : State, exec (.foldDramAccess b row) s = .next t ∧
             t.bank b = { k with st := .act, row := row.val, asid := none, tAct := s.now, tIn := s.now, closing := true, objs := [] } ∧
             others t ∧ (16 * b.stk.val + b.layer.val, s.now) ∈ t.dram.acts ∧ { t with dram := s.dram } = s))) ∧
     -- its activation is closed again, whether or not its access has been made meanwhile
     (serves s.ursol b.stk.val = true → (∀ l ∈ s.mem.dramWork, ¬ mine l) → k.st = .open → k.byFold = true → k.row = row.val → k.tAct + 20 ≤ s.now →
        ∃ t : State, exec (.foldDramAccess b row) s = .next t ∧ closed t ∧ t.mem = s.mem) ∧
     -- a transfer and the Fold take the bus in turn
     (fget s.dram.busUntil col 0 ≤ s.now → s.foldSlots b.stk b.col = [] → s.heldTransfers b = [] → s.foldTakesBus b = true) ∧
     (∀ c t, s.heldTransfers b = [c] → s.transferStart c = some t → t ≤ s.now →
        fget s.dram.busFold col false = true ∨ (∃ b' : BankId, b'.stk = b.stk ∧ b'.col = b.col ∧ (s.bank b').byFold = true ∧ (s.bank b').active = true ∧
          (s.bank b').tAct + 20 ≤ s.now ∧ fget s.dram.busUntil col 0 ≤ (s.bank b').tAct + 16) → s.foldTakesBus b = false))

/-- R284, R285, R291, R294: a row transfer whose time has come copies the 2,048 bytes of the row its ROWCON named into its
slot, which takes the issuer's tag and the row's number, and takes the command out; a .c command's bank begins to close. A
row with a word of uncorrectable error leaves its slot poisoned and its object with status 0x0108 and the first such
word; the words with errors are counted for the column. It ends 4 ns after its bank is open, its slot free and its bus
free; one that has begun ends although its row is closed meanwhile. -/
def Claims.RowTransfers : Prop :=
  ∀ (s : State) (stk : Fin 8) (col : Fin 64) (c : RowCmd) (slot : Fin 4) (rest : List RowCmd),
    s.dram.cmds = c :: rest → c.bank.stk = stk → c.bank.col = col → c.slot = some slot → s.transferable c = true →
    (∀ d ∈ rest, d.hdr.seq ≠ c.hdr.seq) →
    (let k := s.bank c.bank
     let pa := stk.val * 2 ^ 36 + c.row % 2 ^ 15 * 2 ^ 21 + c.bank.layer.val * 2 ^ 17 + col.val * 2 ^ 11
     let tile := 64 * stk.val + col.val
     let base := 2 ^ 13 * tile + 2 ^ 11 * slot.val
     let bad := (List.range 256).filter fun w => s.mem.bad.contains (pa / 8 + w)
     let weak := (List.range 256).filter fun w => s.mem.weak.contains (pa / 8 + w) && !s.mem.bad.contains (pa / 8 + w)
     (s.transferring c = false → k.st = .open ∧ c.tag = k.tag ∧ k.tIn + 4 ≤ s.now ∧ fget s.dram.busUntil tile 0 + 4 ≤ s.now) ∧
     ∃ t : State, exec (.rowTransfer stk col) s =
         .next (t.finishOp c.hdr .tile (if bad = [] then 0 else 0x0108) 1 (bad.headD 0xFFFFFFFF) 0 false) ∧
       readBytes t.tiles.slots base 2048 = readBytes s.mem.cells pa 2048 ∧
       (∀ a, a < base ∨ base + 2048 ≤ a → fget t.tiles.slots a 0 = fget s.tiles.slots a 0) ∧
       fget t.tiles.slotPoison (4 * tile + slot.val) false = !bad.isEmpty ∧ fget t.tiles.slotTag (4 * tile + slot.val) 0 = c.hdr.asid.toNat + 1 ∧
       fget t.tiles.slotRow (4 * tile + slot.val) 0 = pa / 2 ^ 11 % 2 ^ 28 ∧
       t.dram.cmds = rest ∧ t.bank c.bank = (if c.close ∧ k.st = .open ∧ k.tag = c.tag then { k with st := .close, tIn := s.now, closing := true } else k) ∧
       (∀ b', bankKey b' ≠ bankKey c.bank → t.bank b' = s.bank b') ∧ fget t.dram.busUntil tile 0 = s.now ∧
       fget t.dram.corrected tile 0 = fget s.dram.corrected tile 0 + weak.length ∧
       fget t.dram.uncorrectable tile 0 = fget s.dram.uncorrectable tile 0 + bad.length ∧
       { t with tiles := s.tiles, dram := s.dram } = s ∧ t.tiles.tables = s.tiles.tables ∧ t.tiles.acc = s.tiles.acc ∧ t.tiles.cmds = s.tiles.cmds ∧
       t.tiles.runs = s.tiles.runs ∧ ∀ j, j ≠ 4 * tile + slot.val → fget t.tiles.slotTag j 0 = fget s.tiles.slotTag j 0)

/-! ## The table builder -/

/-- R302-R307, R319: the builder runs its queue in order. A CBLD reads its entries and writes them, with its ASID,
into its codebook slot, in the state u its read has left; a TBLD whose codebook slot it may read takes its reservation
at every tile of its mask, last among what has arrived there and before what its hart, or one whose own TBLD is still to
come, issued to that tile behind it, and one that may not ends with 0x0141; then
its groups are written in order, each when every named tile allows it: every entry of a group's table is the exact sum of R47, held to its width; a read
that fails ends the operation with 0x0143 or 0x0144 and the group's number. -/
def Claims.BuilderSteps : Prop :=
  ∀ (s u : State) (stk : Fin 8) (h : OpHdr) (rest : List BuildCmd) (bs : List Byte),
    (let n := 2 ^ (h.vb.toNat / 16 % 4 + 1)
     let slot := h.vb.toNat % 8
     let popped := s.setBuildQ stk rest
     NoVictims s → s.buildAside stk = [] → s.building stk = none → s.buildWaiting stk = ⟨false, h⟩ :: rest →
        (popped.opRead h h.va n = (u, .ok bs) → bs.length = n →
          ∃ t : State, exec (.cbldExecute stk) s = .next (t.endOp h .builder n 0) ∧ readBytes t.tiles.codebook (128 * stk.val + 16 * slot) n = bs ∧
            (∀ a, a < 128 * stk.val + 16 * slot ∨ 128 * stk.val + 16 * slot + n ≤ a → fget t.tiles.codebook a 0 = fget s.tiles.codebook a 0) ∧
            fget t.tiles.codebookTag (8 * stk.val + slot) 0 = h.asid.toNat + 1 ∧ { t with tiles := s.tiles } = u ∧
            { t.tiles with codebook := s.tiles.codebook, codebookTag := s.tiles.codebookTag } = s.tiles) ∧
        (∀ poison, popped.opRead h h.va n = (u, .error poison) →
          exec (.cbldExecute stk) s = .next (u.failOp h .builder (if poison then 0x0144 else 0x0143) 0 0 0))) ∧
    (let x := h.ve.toNat
     let b := x / 8 % 4 + 1
     let g := 2 ^ (x / 32 % 4)
     let e16 : Bool := x / 128 % 2 == 1
     let e := if e16 then 16 else 8
     let units := if e16 && b * g == 8 then 2 else 1
     let base := x / 2 ^ 20 % 2 ^ 10
     let groups := x / 512 % 2 ^ 11
     let tiles := maskTiles stk h.vb
     let popped := s.setBuildQ stk rest
     let behind := fun (d : TileCmd) => ∃ g ∈ h :: (rest.filter (·.tbld)).map (·.hdr),
       g.core = d.hdr.core ∧ g.seq < d.hdr.seq ∧ g.vb.getLsbD d.tile.t.val = true
     let tag := fget s.tiles.codebookTag (8 * stk.val + x % 8) 0
     let lo : Int := -2 ^ (e - 1)
     let hi : Int := 2 ^ (e - 1) - 1
     let code := fun (k : Nat) => ((fget s.tiles.codebook (128 * stk.val + 16 * (x % 8) + k) 0).toInt : Int)
     (NoVictims s → s.buildAside stk = [] → s.building stk = none → s.buildWaiting stk = ⟨true, h⟩ :: rest →
        (tag = 0 ∨ tag = h.asid.toNat + 1 →
          ∃ t : State, exec (.tbldExecute stk) s = .next (t.setBuilding stk (some { hdr := h, next := 0, sat := false })) ∧
            { t with tiles := s.tiles } = popped ∧ { t.tiles with cmds := s.tiles.cmds } = s.tiles ∧
            (∀ tile ∈ tiles, ∃ before after, t.tiles.cmds = before ++ { tile := tile, op := .reserve base (groups * units), hdr := h } :: after ∧
              ∀ d ∈ s.tiles.cmds, d.tile = tile → (behind d → d ∈ after) ∧ (¬ behind d → d ∈ before)) ∧
            (t.tiles.cmds.filter fun c => c.hdr.seq != h.seq).Perm (s.tiles.cmds.filter fun c => c.hdr.seq != h.seq) ∧
            ((∀ d ∈ s.tiles.cmds, ¬ behind d) → t.tiles.cmds = s.tiles.cmds ++ tiles.map fun tile => { tile := tile, op := .reserve base (groups * units), hdr := h })) ∧
        (tag ≠ 0 → tag ≠ h.asid.toNat + 1 → exec (.tbldExecute stk) s = .next (popped.failOp h .builder 0x0141 0 0 0))) ∧
     (∀ r, s.building stk = some r → r.hdr = h → NoVictims s →
        (∀ t ∈ tiles, s.groupAllowed t h (base + r.next * units) units = true) → s.nextTbld stk = some r) ∧
     (∀ r, s.building stk = some r → r.hdr = h → ∀ t ∈ tiles, s.groupAllowed t h (base + r.next * units) units = false → s.nextTbld stk ≠ some r) ∧
     (∀ v r poison, s.nextTbld stk = some r → r.hdr = h →
        s.opRead h (actRange h r.next).1 (actRange h r.next).2 = (v, .error poison) →
        exec (.tbldGroupWrite stk) s = .next ((v.endBuild stk h).failOp h .builder (if poison then 0x0144 else 0x0143) r.next r.next (Flag.saturation.when r.sat))) ∧
     (∀ v j sat, s.building stk = some ⟨h, j, sat, []⟩ → s.nextTbld stk = some ⟨h, j, sat, []⟩ → j < groups → h.stk = stk → b * g ≤ 8 →
        base + groups * units ≤ 1024 → s.opRead h (actRange h j).1 (actRange h j).2 = (v, .ok bs) →
        (let acts := actValues h j bs
         let total := fun (pat : Nat) => ((List.range g).map fun i => acts.getD i 0 * code (pat / 2 ^ (b * i) % 2 ^ b)).sum
         let held := fun (pat : Nat) => max lo (min hi (total pat))
         ∃ (t : State) (sat' : Bool), exec (.tbldGroupWrite stk) s =
             .next (if j + 1 = groups then (t.endBuild stk h).endOp h .builder groups (Flag.saturation.when sat') else t.setBuilding stk (some ⟨h, j + 1, sat', []⟩)) ∧
           (sat' = true ↔ sat = true ∨ ∃ pat, pat < 2 ^ (b * g) ∧ held pat ≠ total pat) ∧
           (∀ tile ∈ tiles, (∀ pat, pat < 2 ^ (b * g) →
               natOf (readBytes t.tiles.tables (2 ^ 18 * tileNo tile + 256 * (base + j * units) + e / 8 * pat) (e / 8)) = (held pat % 2 ^ e).toNat) ∧
             ∀ i, i < units → fget t.tiles.tableTag (1024 * tileNo tile + base + j * units + i) 0 = h.asid.toNat + 1) ∧
           (∀ a, (∀ tile ∈ tiles, a < 2 ^ 18 * tileNo tile + 256 * (base + j * units) ∨ 2 ^ 18 * tileNo tile + 256 * (base + (j + 1) * units) ≤ a) →
              fget t.tiles.tables a 0 = fget s.tiles.tables a 0) ∧
           { t with tiles := s.tiles } = v)) ∧
     -- the activations of a group of 8-bit values
     (∀ j, x / 256 % 2 = 0 → actRange h j = (h.va + BitVec.ofNat 64 (j * g), g) ∧
        (bs.length = g → actValues h j bs = bs.map fun v => v.toInt)))

/-! ## Tile commands -/

/-- R310-R317: of a tile's commands the first that may start starts. An LKA reads its scales, and its run holds
for each column the accumulator through its blocks of products looked up in the tables, scaled, rounded and
held to its width, with the saturation flag where one was, unless a scale cannot be read, a tag names another ASID, the
slot is poisoned or a word it uses has an error, in this order; ACLR zeroes its block and gives it its version; ADRN's run holds
the cells of its block, and in the clearing form the zeros they become; a run that fails holds its status and nothing else
(the index of a failing cell counts from the drain's first cell: a choice of the model, log entry 51). -/
def Claims.TileSteps : Prop :=
  ∀ (s : State) (t : TileId) (d : TileCmd) (bs : List Byte), s.nextStart t = some d →
    (let h := d.hdr
     let v := h.va.toNat
     let w := h.vb.toNat
     let blk := v / 2 ^ 8 % 16
     let tile := 64 * t.stk.val + t.t.val
     let dropped := s.dropTileCmd h
     (d.op = .lka →
        let l := lkaShape h.vb
        let a := if l.a32 then 32 else 16
        let tb := v / 2 ^ 12 % 2 ^ 10
        let slot := v / 2 ^ 6 % 4
        let row := natOf (readBytes s.tiles.slots (2 ^ 13 * tile + 2 ^ 11 * slot) 2048)
        let lo : Int := -2 ^ (a - 1)
        let hi : Int := 2 ^ (a - 1) - 1
        let accAt := fun (col : Nat) => 2 ^ 14 * tile + 1024 * blk + a / 8 * (v / 2 ^ 22 % 2 ^ 9 + col)
        let start := fun (col : Nat) => (BitVec.ofNat a (natOf (readBytes s.tiles.acc (accAt col) (a / 8)))).toInt
        -- the partial sum of block kb, and its scale
        let part := fun (col kb : Nat) => ((List.range (min (2 ^ l.lgL) (l.k - kb * 2 ^ l.lgL))).map fun i =>
          entryAt s.tiles t tb l.sh (kb * 2 ^ l.lgL + i) (row / 2 ^ (l.sh.p * (col * l.g + kb * 2 ^ l.lgL + i)) % 2 ^ l.sh.p)).sum
        let scale := fun (kb : Nat) => (BitVec.ofNat 4 (natOf bs / 2 ^ (4 * kb))).toInt
        -- a column's accumulator after the first n blocks
        let after := fun (col n : Nat) => (List.range n).foldl (fun q kb => max lo (min hi (q + scaleBy (part col kb) (scale kb)))) (start col)
        let read := (dropped.freeRowSlot t slot).opRead h h.ve (4 * ((l.nsc + 7) / 8))
        let runs := fun (u : State) (P : TileRun → Prop) => ∃ r : TileRun, exec (.lkaStart t) s = .next (u.addRun r) ∧ r.tile = t ∧ r.op = .lka ∧
          r.hdr = h ∧ r.blk = blk ∧ r.cells = [] ∧ P r
        -- what R315 tests after the scales: the tags (R294), the slot's poison, and the SRAM words that a column uses
        let own := fun (tag : Nat) => tag = 0 ∨ tag = h.asid.toNat + 1
        let wide := if l.sh.e16 = true ∧ l.sh.p = 8 then 2 else 1
        let mine := (∀ i, i < l.k * wide → own (fget s.tiles.tableTag (1024 * tile + tb + i) 0)) ∧ own (fget s.tiles.slotTag (4 * tile + slot) 0) ∧
          own (fget s.tiles.accTag (16 * tile + blk) 0)
        let poisoned := fget s.tiles.slotPoison (4 * tile + slot) false = true
        let sick := fun (col : Nat) => accAt col / 8 ∈ s.tiles.badAcc ∨ ∃ j, j < l.k ∧
          (let bit := l.sh.p * (col * l.g + j)
           let pat := row / 2 ^ bit % 2 ^ l.sh.p
           let word := 2 ^ 10 * tile + 2 ^ 8 * slot
           word + bit / 64 ∈ s.tiles.badSlot ∨ word + (bit + l.sh.p - 1) / 64 ∈ s.tiles.badSlot ∨
             (2 ^ 18 * tile + 256 * (tb + j * wide) + (if l.sh.e16 then 2 * pat else pat)) / 8 ∈ s.tiles.badTable)
        (∀ u, read = (u, .ok bs) → mine → ¬ poisoned → (∀ col, col < l.c → ¬ sick col) → runs u fun r => r.status = 0 ∧ r.setTag = true ∧ r.progress = 1 ∧
          (r.acc = (List.range l.c).flatMap fun col =>
            (List.range (a / 8)).map fun i => (accAt col + i, BitVec.ofNat 8 ((after col l.nsc % 2 ^ a).toNat / 2 ^ (8 * i)))) ∧
          -- the saturation flag: some sum was held to the width
          (r.sat = true ↔ ∃ col kb, col < l.c ∧ kb < l.nsc ∧ (let x := after col kb + scaleBy (part col kb) (scale kb); x < lo ∨ hi < x))) ∧
        -- a run that will end with a fault adds nothing
        (let fails := fun (u : State) (st fidx : Nat) => runs u fun r => r.status = BitVec.ofNat 16 st ∧ r.fidx = BitVec.ofNat 32 fidx ∧ r.progress = 0 ∧
          r.sat = false ∧ r.setTag = false ∧ r.acc = []
         (∀ u poison, read = (u, .error poison) → fails u (if poison then 0x0144 else 0x0143) 0) ∧
         (∀ u, read = (u, .ok bs) →
            (¬ mine → fails u 0x0141 0) ∧ (mine → poisoned → fails u 0x0140 (fget s.tiles.slotRow (4 * tile + slot) 0)) ∧
            (∀ col, mine → ¬ poisoned → col < l.c → sick col → (∀ j, j < col → ¬ sick j) → fails u 0x0145 col)))) ∧
     (d.op = .aclr →
        ∃ u : State, exec (.aclrExecute t) s = .next (u.endOp h .tile 1 0) ∧ (∀ i, i < 1024 → fget u.tiles.acc (2 ^ 14 * tile + 1024 * blk + i) 0 = 0) ∧
          (∀ a, a / 1024 ≠ 16 * tile + blk → fget u.tiles.acc a 0 = fget s.tiles.acc a 0) ∧
          u.verOf t blk = tcmdVer h.va ∧ { u with tiles := s.tiles } = s ∧ u.tiles.cmds = dropped.tiles.cmds) ∧
     (d.op = .adrn →
        (let tag := fget s.tiles.accTag (16 * tile + blk) 0
         let mine := tag = 0 ∨ tag = h.asid.toNat + 1
         let n := w / 2 ^ 16 % 2 ^ 9
         let cell := fun (k : Nat) => 2 ^ 14 * tile + 1024 * blk + 4 * (w / 2 ^ 32 % 2 ^ 8 + k)
         let bad := fun (k : Nat) => k < n ∧ cell k / 8 ∈ s.tiles.badAcc
         let clr := v / 2 ^ 31 % 2 = 1
         let runs := fun (P : TileRun → Prop) => ∃ r : TileRun, exec (.adrnStart t) s = .next (dropped.addRun r) ∧ r.tile = t ∧ r.op = .adrn ∧ r.hdr = h ∧
           r.blk = blk ∧ r.sat = false ∧ P r
         (mine → (∀ k, ¬ bad k) → runs fun r => r.status = 0 ∧ r.progress = n ∧
            (r.cells = (List.range n).map fun k => (1024 * (w % 2 ^ 6) + 32 * (w / 2 ^ 8 % 2 ^ 5) + k,
              BitVec.ofNat 32 (natOf (readBytes s.tiles.acc (cell k) 4)))) ∧
            -- the clearing form: zeros in the cells that it drains, and its ASID as the block's tag
            (clr → r.setTag = true ∧ r.acc = (List.range (4 * n)).map fun i => (cell 0 + i, 0)) ∧
            (¬ clr → r.setTag = false ∧ r.acc = [])) ∧
         (let fails := fun (st fidx : Nat) => runs fun r => r.status = BitVec.ofNat 16 st ∧ r.fidx = BitVec.ofNat 32 fidx ∧ r.progress = 0 ∧
            r.setTag = false ∧ r.acc = [] ∧ r.cells = []
          (¬ mine → fails 0x0141 0) ∧
          (∀ k, mine → bad k → (∀ j, j < k → ¬ bad j) → fails 0x0145 k)))))

/-- R310, R311, R315, R317: a run that ends puts its accumulator bytes in place, counts its block's version up
and tags it, and an ADRN's cells appear in the squares of the core that issued it; a command held for 1,000,000 ns
leaves its tile with status 0x0142. -/
def Claims.TileEnds : Prop :=
  ∀ (s : State) (t : TileId) (r : TileRun), s.tiles.runs = [r] → r.tile = t →
    (let key := 16 * (64 * t.stk.val + t.t.val) + r.blk
     let done := fun (u : State) => u.tiles.runs = [] ∧ u.tiles.acc = r.acc.foldl (fun m q => fset m q.1 q.2 0) s.tiles.acc ∧
       fget u.tiles.ver key 0 = tcmdVer r.hdr.va + 1 ∧ (r.setTag = true → fget u.tiles.accTag key 0 = r.hdr.asid.toNat + 1) ∧
       (∀ k, k ≠ key → fget u.tiles.ver k 0 = fget s.tiles.ver k 0) ∧ u.tiles.cmds = s.tiles.cmds ∧ u.tiles.tables = s.tiles.tables ∧
       u.mem = s.mem
     let ended := fun (u : State) => u.finishOp r.hdr .tile r.status.toNat r.progress r.fidx.toNat (Flag.saturation.when r.sat) (r.status != 0)
     (r.op = .lka → ∃ u : State, exec (.lkaComplete t) s = .next (ended u) ∧ done u ∧ { u with tiles := s.tiles } = s) ∧
     (r.op = .adrn → s.core.id = r.hdr.core → ∃ u : State, exec (.adrnComplete t) s = .next (ended u) ∧ done u ∧
        (∀ k, u.core.task.cell k = match (r.cells.filter fun q => q.1 == k).getLast? with
          | some q => q.2
          | none => s.core.task.cell k) ∧
        { u with tiles := s.tiles, core := s.core } = s)) ∧
    (∀ d, s.tiles.cmds = [d] → d.tile = t → d.op = .lka ∨ d.op = .adrn → 1000000 ≤ d.waited →
        exec (.versionWaitExpiry t) s = .next ((s.dropTileCmd d.hdr).failOp d.hdr .tile 0x0142 0 (s.verOf t (tcmdBlock d.hdr.va)).toNat 0))

/-! ## The Crook -/

/-- R322, R331-R340: the command at the head of a Crook's queue is served to its end, unit after unit, once the
descriptor of its ASID has been read, and its end is reported; an unusable descriptor ends it with 0x0201. -/
def Claims.CrookService : Prop :=
  ∀ (s : State) (stk : Fin 8) (c : KvCmd) (rest : List KvCmd), s.kvWaiting stk = c :: rest → NoVictims s → (∀ x ∈ c :: rest, x.prog = .start) →
    (let popped := { s with eng := { s.eng with kvQ := finsert s.eng.kvQ stk.val rest } }
     let h := c.hdr
     ∀ q ∈ [(Instr.kvLookup stk, c.op = .look), (.kvSeal stk, c.op = .ins ∧ h.vb = 0), (.kvDemote stk, c.op = .ins ∧ h.vb = 1),
         (.kvPromote stk, c.op = .ins ∧ h.vb = 2), (.kvAbsent stk, c.op = .ins ∧ h.vb = 3), (.kvRemove stk, c.op = .ins ∧ h.vb = 4),
         (.kvPin stk, c.op = .pin), (.kvUnpin stk, c.op = .unpin), (.kvAppend stk, c.op = .app), (.kvSign stk, c.op = .sig)],
       q.2 →
         (∀ u d, popped.kvDesc stk h.asid = (u, .ok d) → ∃ v e, kvRest c d u = (v, e) ∧ exec q.1 s = .next (v.endKv h e)) ∧
         (∀ u, popped.kvDesc stk h.asid = (u, .error 0x0201) → exec q.1 s = .next (u.endKv h ⟨0x0201, 0, 0, 0⟩)))

/-- R328, R331, R388: a Crook may stop after any unit of a command and take it up again from there, so that another Crook's
units come between: a claim whose slot has been taken meanwhile, and a pin whose entry has changed since its tag was compared,
fail and change nothing; and it acknowledges a pre-emption only at the end of a block. -/
def Claims.CrookUnits : Prop :=
  ∀ (s u : State) (stk : Fin 8) (c : KvCmd) (rest : List KvCmd) (d : KvDesc), s.kvWaiting stk = c :: rest →
    (∀ x ∈ rest, x.prog.midBlock = false) →
    (∀ (p : Preempt) (t : TaskId), s.drover.preempts = [p] → p.stk = stk → p.victims = [t] → .crook ∈ p.due → c.hdr.core = .task t →
       (c.prog.midBlock = true → exec (.preemptAck stk .crook) s = .next s) ∧
       (c.prog.midBlock = false → ∃ r : State, exec (.preemptAck stk .crook) s = .next r ∧
          r.drover.preempts = [{ p with due := p.due.filter fun w => w != .crook }] ∧ { r with drover := s.drover } = s)) ∧
    (NoVictims s → (if c.prog = .start then s.kvDesc stk c.hdr.asid = (u, .ok d) else u = s ∧ c.desc = d) →
     let h := c.hdr
     let queue := fun (v : State) (q : List KvCmd) => ({ v with eng := { v.eng with kvQ := finsert v.eng.kvQ stk.val q } } : State)
     (∀ v e, kvUnit c d u c.prog = (v, .ended e) → s.crookUnit stk = (queue v rest).endKv h e) ∧
     (∀ v p, kvUnit c d u c.prog = (v, .more p) → s.crookUnit stk = queue v ({ c with prog := p, desc := d } :: rest)) ∧
     (NoCopies u.mem → Sound u.mem → h.stk = stk → ∀ k, (d.entryVa k).toNat % 128 = 0 → CrookReaches u h (d.entryVa k) 128 →
       (let v := crookCtl u h d u.mem.cells k
        (∀ q p, c.prog = .probed q p none (some k) → ∃ (t : State) (e : KvNext), kvUnit c d u c.prog = (t, e) ∧ { t with mem := u.mem } = u ∧
           (v % 8 = 0 ∨ v % 8 = 5 → e = .more (.claimed q p k) ∧
             ∀ a, fget t.mem.cells a 0 =
               fget (crookPut u h u.mem.cells (d.entryVa k + 0x50) 8 (6 + (v / 2 ^ 16 + 1) % 2 ^ 16 * 2 ^ 16 + v / 2 ^ 32 % 2 ^ 32 * 2 ^ 32)) a 0) ∧
           (¬ (v % 8 = 0 ∨ v % 8 = 5) → e = .ended ⟨0x0203, 0, 0, 0⟩ ∧ ∀ a, fget t.mem.cells a 0 = fget u.mem.cells a 0)) ∧
        (∀ l n st gen, c.prog = .matched l n k st gen → v % 8 ≠ st ∨ v / 2 ^ 16 % 2 ^ 16 ≠ gen →
           ∃ (t : State) (e : KvEnd), kvUnit c d u c.prog = (t, .ended e) ∧ (∀ a, fget t.mem.cells a 0 = fget u.mem.cells a 0) ∧
             { t with mem := u.mem } = u ∧ (v / 2 ^ 32 ≠ 2 ^ 32 - 1 → e = ⟨0, n, n, 0⟩)))))

/-- R328, R333: absent and remove test an entry's control double and change it in one update at home: a demoted
or poisoned entry becomes absent; an entry in use without pins becomes removed, its signature invalid; the
double's other fields and every other byte of memory stand, where the command names no object; another entry changes
nothing. -/
def Claims.EntryChanges : Prop :=
  ∀ (s u : State) (ms : MemSys) (stk : Fin 8) (c : KvCmd) (rest : List KvCmd) (d : KvDesc) (pa : Nat) (p : EffPol), s.kvWaiting stk = c :: rest → NoVictims s →
    (∀ x ∈ c :: rest, x.prog = .start) → c.op = .ins →
    c.hdr.core.isTask = false → c.hdr.obj = none → c.hdr.va.toNat < 2 ^ d.lgsz →
    { s with eng := { s.eng with kvQ := finsert s.eng.kvQ stk.val rest } }.kvDesc stk c.hdr.asid = (u, .ok d) →
    engineTargets u.mem u.ursol c.hdr.kvCtx .atomic [((d.entryVa c.hdr.va.toNat + 0x50).toNat, 8)] = (ms, .ok [(.mem pa p, 8)]) →
    Sound u.mem → NoCopies u.mem → pa % 8 = 0 →
    (let v := natOf (readBytes u.mem.cells pa 8)
     let state := v % 8
     let put := fun (ins : Instr) (w : Nat) => ∃ t : State, exec ins s = .next t ∧ natOf (readBytes t.mem.cells pa 8) = w ∧
       (∀ k, k < pa ∨ pa + 8 ≤ k → fget t.mem.cells k 0 = fget u.mem.cells k 0) ∧ { t with mem := u.mem } = u
     (c.hdr.vb = 3 → put (.kvAbsent stk) (if state = 2 ∨ state = 3 then v / 8 * 8 + 4 else v)) ∧
     (c.hdr.vb = 4 → put (.kvRemove stk)
        (if 1 ≤ state ∧ state ≤ 4 ∧ v / 2 ^ 32 % 2 ^ 32 = 0 then v / 16 * 16 + 5 else v)))

/-- R327, R332: a lookup whose tables its stack's TLB maps follows the chain of its blocks, notes age and id of each it
finds, and pins it where asked. -/
def Claims.CrookLookup : Prop :=
  ∀ (s u : State) (stk : Fin 8) (c : KvCmd) (d : KvDesc), CrookNext s u stk c d → c.op = .look →
    (let h := c.hdr
     let l := lookOf (crookBytes u h u.mem.cells h.va 32)
     let r := (List.range l.nblk).foldl (fun q _ => lookStep u h d l q) (u.mem.cells, l.pred, 0, none)
     CrookReaches u h h.va 32 → (∀ k, k < 2 ^ d.lgsz → CrookReaches u h (d.entryVa k) 128) →
     CrookReaches u h l.tok (64 * l.nblk) → CrookReaches u h l.out (4 * l.nblk) →
       CrookRuns s u h (.kvLookup stk) ⟨r.2.2.2.getD 0, r.2.2.1, r.2.2.1, 0⟩ r.1)

/-- R325-R328, R334: a seal joins an equal block of its bucket to the sequence, or claims the first free slot for it. -/
def Claims.CrookSeal : Prop :=
  ∀ (s u : State) (stk : Fin 8) (c : KvCmd) (d : KvDesc), CrookNext s u stk c d → c.op = .ins → c.hdr.vb = 0 →
    (let h := c.hdr
     let id := h.va.toNat
     let m := u.mem.cells
     let q := seqOf (crookBytes u h m (d.seqVa id) 128)
     let pred := if q.nb = 0 then 0xFFFFFFFF else crookNum u h m (q.list + BitVec.ofNat 64 (4 * (q.nb - 1))) 4
     let joined := fun (m : FMap Byte) (k : Nat) =>
       crookPut u h (crookPut u h m (q.list + BitVec.ofNat 64 (4 * q.nb)) 4 k) (d.seqVa id + 0x10) 4 (q.nb + 1)
     let found := (crookProbe u h d m pred q.ttok).filter fun k => (crookEntry u h d m k).state != 0
     let free := ((List.range 8).map (probeSlot d pred q.ttok)).find? fun k => (crookEntry u h d m k).state == 0 || (crookEntry u h d m k).state == 5
     (d.nseq ≤ id → CrookRuns s u h (.kvSeal stk) ⟨0x020C, 0, 0, 0⟩ m) ∧
     (id < d.nseq → CrookReaches u h (d.seqVa id) 128 → (∀ k, k < 2 ^ d.lgsz → CrookReaches u h (d.entryVa k) 128) →
       (q.tail = 0 ∨ q.len ≠ 16 * (q.nb + 1) ∨ q.cap ≤ q.nb → CrookRuns s u h (.kvSeal stk) ⟨0x0206, 0, 0, 0⟩ m) ∧
       (q.tail ≠ 0 → q.len = 16 * (q.nb + 1) → q.nb < q.cap → CrookReaches u h q.list (4 * (q.nb + 1)) →
         (∀ k, found = some k → CrookRuns s u h (.kvSeal stk) ⟨0x0202, 1, k, 0⟩ (joined m k)) ∧
         (found = none → free = none → CrookRuns s u h (.kvSeal stk) ⟨0x0203, 0, 0, 0⟩ m) ∧
         (∀ k, found = none → free = some k →
           (let m1 := writeBytes m (crookPlace u h (d.entryVa k)) (bytesOf 4 pred ++ q.ttok.flatMap (bytesOf 4))
            let m2 := crookPut u h (crookPut u h m1 (d.entryVa k + 0x48) 8 q.tail) (d.entryVa k + 0x58) 4 u.ageNow
            let m3 := crookPut u h m2 (d.entryVa k + 0x50) 8 (1 + ((crookEntry u h d m k).gen + 1) % 2 ^ 16 * 2 ^ 16)
            CrookRuns s u h (.kvSeal stk) ⟨0, 1, k, 0⟩ (crookPut u h (joined m3 k) (d.seqVa id + 8) 8 0))))))

/-- R328, R333, R335: a demotion and a promotion test an entry's control double and change it, and its block's
address; a promotion whose chunks' CRCs or tag are not right leaves the entry poisoned. -/
def Claims.CrookMoves : Prop :=
  ∀ (s u : State) (stk : Fin 8) (c : KvCmd) (d : KvDesc), CrookNext s u stk c d → c.op = .ins →
    (let h := c.hdr
     let id := h.va.toNat
     let m := u.mem.cells
     let v := crookCtl u h d m id
     let moved := fun (st : Nat) => crookPut u h (crookPut u h m (d.entryVa id + 0x48) 8 h.ve.toNat) (d.entryVa id + 0x50) 8 (v / 8 * 8 + st)
     let pa := h.ve.toNat
     let chunks := d.nl * d.nh
     let block := readBytes m pa (chunks * 4096)
     let trailer := readBytes m (pa + chunks * 4096) (8 + 4 * chunks)
     let good := natOf (trailer.take 8) = h.asid.toNat * 2 ^ 48 + v / 2 ^ 16 % 2 ^ 16 * 2 ^ 32 + id ∧
       ∀ k, k < chunks → natOf ((trailer.drop (8 + 4 * k)).take 4) = crc32c ((block.drop (4096 * k)).take 4096)
     (2 ^ d.lgsz ≤ id → (h.vb = 1 → CrookRuns s u h (.kvDemote stk) ⟨0x020C, 1, id % 2 ^ 32, 0⟩ m) ∧
       (h.vb = 2 → CrookRuns s u h (.kvPromote stk) ⟨0x020C, 1, id % 2 ^ 32, 0⟩ m)) ∧
     (id < 2 ^ d.lgsz → CrookReaches u h (d.entryVa id) 128 →
       (h.vb = 1 → v % 8 = 1 ∧ v / 2 ^ 32 = 0 → CrookRuns s u h (.kvDemote stk) ⟨0, 1, id, 0⟩ (moved 2)) ∧
       (h.vb = 1 → ¬ (v % 8 = 1 ∧ v / 2 ^ 32 = 0) → CrookRuns s u h (.kvDemote stk) ⟨0x0204, 1, id % 2 ^ 32, 0⟩ m) ∧
       (h.vb = 2 → v % 8 ≠ 2 → v % 8 ≠ 3 → CrookRuns s u h (.kvPromote stk) ⟨0x0204, 1, id % 2 ^ 32, 0⟩ m) ∧
       (h.vb = 2 → v % 8 = 2 ∨ v % 8 = 3 →
         (dramEnd ≤ pa ∨ dramEnd ≤ pa + chunks * 4096 → CrookRuns s u h (.kvPromote stk) ⟨0x0207, 0, id, 0⟩ m) ∧
         (0 < chunks → (∀ o, o < chunks * 4096 + 8 + 4 * chunks → reachable u.ursol (pa + o) = true) →
           (good → CrookRuns s u h (.kvPromote stk) ⟨0, 1, id, 0⟩ (moved 1)) ∧
           (¬ good → CrookRuns s u h (.kvPromote stk) ⟨0x0209, 1, id % 2 ^ 32, 0⟩ (crookPut u h m (d.entryVa id + 0x50) 8 (v / 8 * 8 + 3)))))))

/-- R337: pins and unpins change the pin counts of the ids of a list, up to the first that cannot. -/
def Claims.CrookPins : Prop :=
  ∀ (s u : State) (stk : Fin 8) (c : KvCmd) (d : KvDesc), CrookNext s u stk c d →
    ∀ q ∈ [(Instr.kvPin stk, KvOp.pin, false), (.kvUnpin stk, .unpin, true)], c.op = q.2.1 →
    (let h := c.hdr
     let n := h.vb.toNat
     let r := (List.range n).foldl (pinStep u h d q.2.2) (u.mem.cells, none)
     n < 2 ^ 16 → (∀ k, k < 2 ^ d.lgsz → CrookReaches u h (d.entryVa k) 128) → CrookReaches u h h.va (4 * n) →
       (r.2 = none → CrookRuns s u h q.1 ⟨0, n, n, 0⟩ r.1) ∧ (∀ st i, r.2 = some (st, i) → CrookRuns s u h q.1 ⟨st, i, i, 0⟩ r.1))

/-- R323, R324, R338: an append writes its two rows into the tail block, the token where it is the first of its position,
and the length, which wraps at 2^24 (a choice of the model, log entry 51). -/
def Claims.CrookAppend : Prop :=
  ∀ (s u : State) (stk : Fin 8) (c : KvCmd) (d : KvDesc), CrookNext s u stk c d → c.op = .app → c.kRow.length = 128 → c.vRow.length = 128 →
    (let h := c.hdr
     let a := h.ve.toNat
     let n := a / 2 ^ 40 % 2 ^ 20
     let layer := a / 2 ^ 32 % 2 ^ 8
     let head := a / 2 ^ 24 % 2 ^ 8
     let p := a % 2 ^ 24
     let inside := n < d.nseq ∧ layer < d.nl ∧ head < d.nh
     let m := u.mem.cells
     let q := seqOf (crookBytes u h m (d.seqVa n) 128)
     let half := fun (v : Nat) => q.tail + ((layer * d.nh + head) * 2 + v) * 2048 + p % 16 * 128
     let m1 := writeBytes (writeBytes m (half 0) c.kRow) (half 1) c.vRow
     let m2 := if layer = 0 ∧ head = 0 then crookPut u h m1 (d.seqVa n + BitVec.ofNat 64 (0x40 + 4 * (p % 16))) 4 h.vb.toNat else m1
     let len := crookNum u h m2 (d.seqVa n + 0x18) 8
     (¬ inside → CrookRuns s u h (.kvAppend stk) ⟨0x020C, 0, 0, 0⟩ m) ∧
     (inside → CrookReaches u h (d.seqVa n) 128 →
       (q.tail = 0 → CrookRuns s u h (.kvAppend stk) ⟨0x0206, 0, 0, 0⟩ m) ∧
       (q.tail ≠ 0 → p / 16 ≠ q.nb → CrookRuns s u h (.kvAppend stk) ⟨0x020A, 0, 0, 0⟩ m) ∧
       (q.tail ≠ 0 → p / 16 = q.nb → (∀ o, o < 128 → reachable u.ursol (half 0 + o) = true ∧ reachable u.ursol (half 1 + o) = true) →
         CrookRuns s u h (.kvAppend stk) ⟨0, 1, 0xFFFFFFFF, 0⟩
           (crookPut u h m2 (d.seqVa n + 0x18) 8 (len / 2 ^ 24 * 2 ^ 24 + max (len % 2 ^ 24) (p + 1) % 2 ^ 24)))))

/-- R329, R339: a signature of a resident entry is computed, layer by layer and head by head, from the sums of its
block's K vectors, and the entry is marked as signed. -/
def Claims.CrookSign : Prop :=
  ∀ (s u : State) (stk : Fin 8) (c : KvCmd) (d : KvDesc), CrookNext s u stk c d → c.op = .sig →
    (let h := c.hdr
     let id := h.va.toNat
     let m := u.mem.cells
     let e := crookEntry u h d m id
     let pairs := d.nl * d.nh
     let r := (List.range pairs).foldl (signStep u h d e.pa fun j => crookNum u h m (d.proj + BitVec.ofNat 64 (16 * j)) 16) (m, 0)
     let v := crookCtl u h d r.1 id
     (2 ^ d.lgsz ≤ id → CrookRuns s u h (.kvSign stk) ⟨0x020C, 0, 0, 0⟩ m) ∧
     (id < 2 ^ d.lgsz → CrookReaches u h (d.entryVa id) 128 →
       (e.state ≠ 1 → CrookRuns s u h (.kvSign stk) ⟨0x020B, 0, 0, 0⟩ m) ∧
       (e.state = 1 → CrookReaches u h d.proj 4096 → (∀ n, n < pairs → CrookReaches u h (d.sigVa id (n / d.nh) (n % d.nh)) 32) →
         (∀ o, o < pairs * 4096 → reachable u.ursol (e.pa + o) = true) →
         CrookRuns s u h (.kvSign stk) ⟨0, pairs, 0xFFFFFFFF, r.2⟩ (crookPut u h r.1 (d.entryVa id + 0x50) 8 (v / 16 * 16 + v % 8 + 8)))))

/-! ## Copies -/

/-- R138, R357: with fewer than four copies in progress the oldest that waits starts. -/
def Claims.CopyStarts : Prop :=
  ∀ (s : State) (stk : Fin 8) (c : CopyCmd) (rest : List CopyCmd), s.copyWaiting stk = c :: rest → NoVictims s → c.scratch = false →
    (∀ d ∈ s.copying stk, d.paused = false) → (s.copying stk).length < 4 →
    ∃ t : State, exec (.copyStart stk) s = .next t ∧ t.copyWaiting stk = rest ∧ t.copying stk = s.copying stk ++ [{ c with paused := false }] ∧
      { t with eng := s.eng } = s

/-- R355, R358, R360, R368: a chunk whose source and destination are memory lands, where the source's home serves
it and no line of it is poisoned: its bytes at the destination, no other byte changed, and the copy notes it; a
copy with all its bytes ends with their number, and one that failed, with no chunk below the failed one still in
flight, with its status and the offset of the first byte not written. -/
def Claims.CopyProgress : Prop :=
  ∀ (s : State) (stk : Fin 8) (n m : Nat) (c : CopyCmd), (s.copying stk)[n]? = some c →
    (∀ (k : Chunk) (src dst : Nat) (p q : EffPol) (m1 m2 : MemSys), (s.copying stk) = [c] → c.chunk m = some k → s.movesChunks stk c = true → s.mayLand c m = true → c.scratch = false →
       0 < k.len → NoCopies s.mem → (∀ i, i < k.len → serves s.ursol (stackOf (src + i)) = true ∧ linePoisoned s.mem (lineOf (src + i)) = false) →
       copyTargets s.ursol (s.copyCtx c.hdr) .engineRead 0x0301 s.mem (pagePieces k.src.toNat (k.len / 2048 + 2) k.len) = (m1, .ok [(.mem src p, k.len)]) →
       copyTargets s.ursol (s.copyCtx c.hdr) .engineWrite 0x0302 m1 (pagePieces k.dst.toNat (k.len / 2048 + 2) k.len) = (m2, .ok [(.mem dst q, k.len)]) →
       ∃ t : State, exec (.copyChunkLand stk n m) s = .next t ∧
         (∀ a, fget t.mem.cells a 0 = if dst ≤ a ∧ a < dst + k.len then fget s.mem.cells (src + (a - dst)) 0 else fget s.mem.cells a 0) ∧
         t.copying stk = [{ c with landed := m :: c.landed, got := c.got + k.len }] ∧ { t with mem := s.mem, eng := s.eng } = s) ∧
    (c.scratch = false → c.wins = [] →
       (let gone := { s with eng := { s.eng with copyRun := finsert s.eng.copyRun stk.val ((s.copying stk).eraseIdx n) } }
        (c.fail = none → c.got = c.rows * c.rlen → exec (.copyEnd stk n) s = .next (gone.finishOp c.hdr .copy 0 (c.rows * c.rlen) 0xFFFFFFFF 0 false)) ∧
        (∀ st f, c.fail = some (st, f) → c.settled (s.resident c.hdr) = true →
          exec (.copyEnd stk n) s = .next (gone.finishOp c.hdr .copy st c.firstMissing c.firstMissing 0 true))))

/-- R343, R362: a prefetch takes the next token of a bound record, both halves, into staging; a chasing load
that waited runs on from its element. -/
def Claims.StreamHelpers : Prop :=
  ∀ (s : State) (t : TaskId) (st : Fin 4), s.core.id = .task t →
    (let r := fget s.core.task.streams st.val {}
     let stk := s.core.task.stk
     let p := s.nextStage t st 32 (kvPos r.cur)
     let off := fun (d : KvDesc) (v : Bool) => d.tokOff (kvLayer r.cur) (kvHead r.cur) (p % 16) v
     r.bound = true → p < r.fin.toNat → p < kvPos r.cur + 32 →
     ∀ d base kb vb u u' v w, s.kvDesc stk s.core.asid = (u, .ok d) → u.prefetchBase stk s.core.asid d r p = (u', some base) →
       u'.physRead stk (base + off d false) 128 = (v, .ok kb) → v.physRead stk (base + off d true) 128 = (w, .ok vb) →
       exec (.streamPrefetch t st) s = .next { w with eng := { s.eng with staging := s.eng.staging ++ [⟨t, st, p, false, kb⟩, ⟨t, st, p, true, vb⟩] } }) ∧
    (∀ (h : EHdr) (ty : Ty) (d : VOp) (a b : Reg) (x : VOp) (m : VLdMods), s.coreRuns = true → s.core.inBlock = true → s.core.eword ≠ 0 →
      ∀ i ∈ [Instr.vld h ty d a m, .vlds h ty d a b m, .vldx h ty d a x m], decodeE s.core.eword.toNat = .ok i →
        ∃ u : State, exec i s = .next u ∧ exec (.chaseElementRead t) s = .next u)

/-! ## The Fold -/

/-- R221, R225, R229, R238: requests that find no other agent with the line: a GetS leaves a tracked copy, a
GetO an owned one, a Read nothing, a Write its bytes and a Far its result at home, a Marker its agent's mark, a
PutO the owner's dirty words at home and no copy; a dirty notice is noted in its line's mask. A line that the Fold does
not hold is read from the DRAM, and one that it evicts is written back where the DRAM lacks bytes of it (R216, R273; the
queue of such accesses is the model's, log entry 46). -/
def Claims.FoldRequests : Prop :=
  ∀ (s : State) (a : Fin 17) (line : Nat) (r : Requester) (words : BitVec 16) (en : BitVec 64) (data : LineData) (acq : Bool) (sz : Size) (op : AmoOp)
      (v : W64) (off : Nat), s.mem.ring = none →
    (let home := homeLine s.mem line
     let same := fun (t : State) => t.mem.cells = s.mem.cells ∧ { t with mem := s.mem } = s
     (NoCopies s.mem → s.canAsk a.val line = true →
        (∃ t : State, exec (.gets a line acq) s = .next t ∧ same t ∧ findCopy t.mem a.val line = some ⟨.t, BitVec.allOnes 16, 0, 0, 0, home⟩ ∧
          (dirOf t.mem line).shr.getLsbD a.val = true) ∧
        (a.val < 16 → ∃ t : State, exec (.geto a line acq) s = .next t ∧ same t ∧
          findCopy t.mem a.val line = some ⟨.o, BitVec.allOnes 16, 0, 0, 0, home⟩ ∧ (dirOf t.mem line).own.toNat = a.val)) ∧
     (NoCopies s.mem → s.canAsk (requesterNo r) line = true →
        (∃ t : State, exec (.read r line words acq) s = .next t ∧ same t ∧ t.mem.lines = [] ∧
          t.mem.dramWork = s.mem.dramWork ++ (if s.mem.dir.all fun q => q.1 ≠ line then [line] else [])) ∧
        (∃ t : State, exec (.write r line en data) s = .next t ∧ LineWritten s.mem t.mem line en data ∧ t.mem.lines = [] ∧ { t with mem := s.mem } = s) ∧
        (sz = .w ∨ sz = .wn ∨ sz = .d → off < 64 → off % sizeBytes sz = 0 →
           let n := 8 * sizeBytes sz
           let old := home.toNat / 2 ^ (8 * off) % 2 ^ n
           let arg := v.toNat % 2 ^ n
           let sg := fun (x : Nat) => (BitVec.ofNat n x).toInt
           let new := match op with
             | .swap => arg
             | .add => (old + arg) % 2 ^ n
             | .and => old &&& arg
             | .or => old ||| arg
             | .xor => old ^^^ arg
             | .min => if sg old ≤ sg arg then old else arg
             | .max => if sg old ≤ sg arg then arg else old
             | .minn => min old arg
             | .maxn => max old arg
           ∃ t : State, exec (.far r (64 * line + off) sz op v acq) s = .next t ∧ t.mem.lines = [] ∧ { t with mem := s.mem } = s ∧
             LineWritten s.mem t.mem line (BitVec.ofNat 64 ((2 ^ sizeBytes sz - 1) * 2 ^ off)) (BitVec.ofNat 512 (new * 2 ^ (8 * off))))) ∧
     (∀ c, s.mem.lines = [(32 * line + a.val, c)] → s.mem.dir = [] → s.mem.reqs = [] → s.mem.notices = [] → c.mode = .u → c.sdirty ≠ 0 →
        s.canAsk a.val line = true → a.val < 16 →
        ∃ t : State, exec (.marker a line) s = .next t ∧ same t ∧ t.mem.lines = s.mem.lines ∧ (dirOf t.mem line).nr.toNat = a.val) ∧
     (∀ c e, s.mem.lines = [(32 * line + a.val, c)] → s.mem.dir = [(line, e)] → s.mem.reqs = [] → s.mem.notices = [] → c.mode = .o →
        e.own.toNat = a.val → homeServes s.ursol line = true →
        ∃ t : State, exec (.puto a line) s = .next t ∧ LineWritten s.mem t.mem line (bytesOfWords c.odirty) c.data ∧ t.mem.lines = [] ∧
          dirOf t.mem line = { e with
            own := 31, dirty := 0, changed := e.changed || c.odirty ≠ 0
            poison := (e.poison &&& ~~~ c.odirty) ||| (poisonOf s.mem a.val line &&& c.odirty) } ∧ { t with mem := s.mem } = s) ∧
     -- a Fold evicts a line that no agent has: what the DRAM lacks is written back
     (∀ e, NoCopies s.mem → s.mem.dir = [(line, e)] → s.ursol.boot ≠ .unpowered → s.ursol.switching = false →
        s.hardwareMove (.evictHome line) = { s with mem := { s.mem with
          dir := [], dramWork := s.mem.dramWork ++ (if e.changed then [line] else []) } }) ∧
     (∀ fold word e, s.mem.notices = [⟨a.val, line, word⟩] → line / 2 ^ 30 % 8 = fold.val → s.mem.dir = [(line, e)] → e.own.toNat = a.val → word < 16 →
        ∃ t : State, exec (.dirtyNotice a fold) s = .next t ∧ same t ∧ t.mem.notices = [] ∧ t.mem.lines = s.mem.lines ∧
          dirOf t.mem line = { e with dirty := e.dirty ||| BitVec.ofNat 16 (2 ^ word) }))

/-- R222, R225, R230, R231: the one agent that a request under way waits for answers: an invalidated sharer
loses its clean copy and the Write goes on; an owner returns its dirty words for a Write, those of the aligned doubles
that the Write asks for (R204, R258; log entry 37), whose bytes it is then sent, takes them, or returns everything for
another's GetO; a forced publish brings an agent's sis-dirty bytes home before a Read. -/
def Claims.AgentAnswers : Prop :=
  ∀ (s : State) (a b : Fin 16) (line : Nat) (who : Nat) (en : BitVec 64) (data : LineData) (words : BitVec 16) (c : CacheLine) (e : DirEntry),
    s.mem.ring = none → s.mem.notices = [] → 32 ≤ who → a ≠ b → s.mem.lines = [(32 * line + a.val, c)] → s.mem.dir = [(line, e)] →
    (let reqs := fun (w : Nat) (k : ReqKind) (m : HomeMsg) (done : Bool) => s.mem.reqs = [⟨w, line, k, [m], done⟩]
     let frame := fun (t : State) => { t with mem := s.mem } = s
     let owned := c.mode = .o ∧ e.own.toNat = a.val
     (c.mode = .t → c.sdirty = 0 → e.own = 31 → reqs who (.write en data) (.inv a.val) false →
        ∃ t : State, exec (.invalidation (Fin.castSucc a) line) s = .next t ∧ frame t ∧ t.mem.lines = [] ∧ t.mem.reqs = [] ∧
          LineWritten s.mem t.mem line en data) ∧
     (∀ ds : BitVec 16, (∀ i, i < 16 → ds.getLsbD i = (words.getLsbD i || words.getLsbD (i ^^^ 1))) →
        owned → reqs who (.write en data) (.pull a.val words) false →
        ∃ t : State, exec (.pull (Fin.castSucc a) line) s = .next t ∧ frame t ∧ t.mem.reqs = [⟨who, line, .write en data, [.fwd a.val en data], true⟩] ∧
          findCopy t.mem a.val line = some { c with odirty := c.odirty &&& ~~~ ds, noticed := c.noticed &&& ~~~ (c.odirty &&& ds) } ∧
          ∃ u : MemSys, LineWritten s.mem u line (bytesOfWords (c.odirty &&& ds)) c.data ∧ LineWritten u t.mem line en data) ∧
     (owned → reqs who (.write en data) (.fwd a.val en data) true →
        ∃ t : State, exec (.forward (Fin.castSucc a) line) s = .next t ∧ frame t ∧ t.mem.reqs = [] ∧ t.mem.cells = s.mem.cells ∧
          findCopy t.mem a.val line = some { c with
            data := mergeLine c.data data en, odirty := c.odirty &&& ~~~ wordsCovered en, noticed := c.noticed &&& ~~~ wordsCovered en }) ∧
     (owned → reqs b.val (.getO false) (.recall a.val) false →
        ∃ t : State, exec (.recall (Fin.castSucc a) line) s = .next t ∧ frame t ∧ t.mem.reqs = [] ∧ findCopy t.mem a.val line = none ∧
          LineWritten s.mem t.mem line (bytesOfWords c.odirty) c.data ∧ (dirOf t.mem line).own.toNat = b.val ∧
          findCopy t.mem b.val line = some ⟨.o, BitVec.allOnes 16, 0, 0, 0, homeLine t.mem line⟩) ∧
     (c.mode = .u → c.sdirty ≠ 0 → e.own = 31 → e.nr.toNat = a.val → (∀ k : Nat, k < 17 → e.shr.getLsbD k = false) →
        reqs who (.read words) (.publish a.val) false →
        ∃ t : State, exec (.forcedPublish (Fin.castSucc a) line) s = .next t ∧ frame t ∧ t.mem.reqs = [] ∧
          LineWritten s.mem t.mem line c.sdirty c.data ∧ (dirOf t.mem line).nr = 31 ∧
          (∀ c', findCopy t.mem a.val line = some c' → c'.sdirty = 0)))

/-! ## Walkers and shootdowns -/

/-- R203, R204, R207, R208, R212, R213: the oldest walk of a stack starts while fewer than 32 run, and ends without
changing memory where no agent holds a copy (a walk is a Read at home: log entry 12), and a miss that waited for a
place joins the walk of its piece, or takes the place; a shootdown record removes exactly the TLB and walk-cache entries it covers on its stack and
leaves a completion due, whose object it then updates once; the host's doorbell posts the hub's record, with the bytes it has
at that instant, and drops it where no stack is on then (choices of the model, log entry 51). -/
def Claims.WalksAndShootdowns : Prop :=
  ∀ (s : State) (stk : Fin 8),
    (let ms := s.mem
     let withMem := fun (m : MemSys) => ({ s with mem := m } : State)
     (∀ m rest, ms.walkQ = m :: rest → m.stk = stk → (ms.walks.filter fun m => m.stk == stk).length < 32 →
        exec (.pageWalk stk) s = .next (withMem { ms with walkQ := rest, walks := ms.walks ++ [m] })) ∧
     (∀ m rest, ms.walks = m :: rest → m.stk = stk →
        ∃ t : State, exec (.pageWalkResult stk) s = .next t ∧ { t with mem := ms } = s ∧
          (NoCopies ms → t.mem.cells = ms.cells ∧ NoCopies t.mem) ∧
          (let queues := fun (q w v : List Miss) => t.mem.walkQ = q ∧ t.mem.walks = w ∧ t.mem.walkWait = v
           ((∀ w ∈ ms.walkWait, w.stk ≠ stk) → queues ms.walkQ rest ms.walkWait) ∧
           -- a miss that waits joins the walk of its piece, or takes the place, or waits on
           (∀ w left, ms.walkWait = w :: left → w.stk = stk → (∀ v ∈ left, v.stk ≠ stk) →
              (let page := fun (m : Miss) => (m.stk, m.asid, m.va64k)
               let join := fun (m : Miss) => if page m = page w then { m with units := m.units ++ w.units } else m
               let met := ∃ m, (m ∈ ms.walkQ ∨ m ∈ rest) ∧ page m = page w
               let full := 256 ≤ outstanding { ms with walks := rest } stk
               (met → queues (ms.walkQ.map join) (rest.map join) left) ∧
               (¬ met → outstanding { ms with walks := rest } stk < 256 → queues (ms.walkQ ++ [w]) rest left) ∧
               (¬ met → full → queues ms.walkQ rest (left ++ [w])))))) ∧
     (∀ q rest bs pa, ms.shootQ = q :: rest → q.stk = stk → q.host = none → isOn s.ursol stk.val = true →
        (let popped := withMem { ms with shootQ := rest }
         let r := shootRecOf bs
         ∀ u v, engineLoad popped (engineCtx stk q.asid false 0) q.va 32 = (u, .ok bs) →
         objCheck u.mem s.ursol (engineCtx stk q.asid false 0) r.cobj = (v, .ok pa) → isFenced s.ursol pa = false →
         (let nc := ncAt v s.ursol (engineCtx stk q.asid false 0) r.cobj
          (r.malformed = true → exec (.shootdownExecute stk) s = .next ({ u with mem := { v with shootDone := ms.shootDone ++ [⟨stk, pa, 0x0040, 0, 0xFFFFFFFF, q.asid, nc⟩] } } : State)) ∧
          (r.malformed = false → r.pkg = false → ∃ t : State, exec (.shootdownExecute stk) s = .next t ∧
            (let tlb := v.tlb.filter fun e => !(e.stk == stk && r.coversTlb e)
             let walks := v.walkCache.filter fun w => !(w.stk == stk && r.coversWalk w)
             t.mem = { v with shootDone := ms.shootDone ++ [⟨stk, pa, 0, 1, 0xFFFFFFFF, q.asid, nc⟩], tlb := tlb, walkCache := walks }) ∧
            { t.core with task := { t.core.task with buf := s.core.task.buf } } = s.core ∧ t.drover = s.drover ∧ t.ursol = s.ursol)))) ∧
     (∀ d, ms.shootDone = [d] → d.stk = stk → d.cobj % 16 = 0 → reachable s.ursol d.cobj = true → NoCopies ms → d.progress < 2 ^ 32 →
        (let o := Obj.ofNat (natOf (readBytes ms.cells d.cobj 16))
         ∃ t : State, exec (.shootdownComplete stk) s = .next t ∧ t.mem.shootDone = [] ∧
           (let fidx := if d.status = 0 then o.fidx else d.fidx.toNat
            Obj.ofNat (natOf (readBytes t.mem.cells d.cobj 16)) = ⟨(o.count + 1) % 2 ^ 32, d.status.toNat, o.flags, o.rsv, d.progress, fidx⟩) ∧
           (∀ k, k < d.cobj ∨ d.cobj + 16 ≤ k → fget t.mem.cells k 0 = fget ms.cells k 0) ∧ { t with mem := ms } = s)) ∧
     (s.ursol.boot = .up → (ms.shootQ.filter fun q => q.host.isSome).length < 16 →
        ((∃ k : Fin 8, isOn s.ursol k.val = true) → exec .hostShootdownDoorbell s = .next (withMem { ms with
           shootQ := ms.shootQ ++ [⟨0, 0, 0, some (readBytes s.drover.hub 0x21000 32)⟩] })) ∧
        ((∀ k : Fin 8, isOn s.ursol k.val = false) → exec .hostShootdownDoorbell s = .next (s.log .noStackForShootdown))))

/-! ## The Drover -/

/-- R1, R84, R86, R88, R101, R112, R113, R370: a tail the host writes to a package whose ports are up is kept, and an
overrun logged; the head record of a host queue is checked once, and one that fails leaves its queue with status 0x0010
in its done object, or an entry in the log; a LAUNCH puts a record that passes its checks last in its queue, and reports
how it went; one whose record cannot be read leaves a fault record too (progress and fidx 0 in it: a choice of the
model, log entry 49). -/
def Claims.LaunchRecords : Prop :=
  ∀ (s : State),
    (∀ (q : Fin 16) (v : W64),
       (let t := { s with drover := { s.drover with tails := finsert s.drover.tails q.val (v.setWidth 32) } }
        let overrun := 64 < (v.toNat % 2 ^ 32 + 2 ^ 32 - (fget s.drover.heads q.val 0).toNat) % 2 ^ 32
        (s.ursol.boot ≠ .up → exec (.hostQueueTail q v) s = .next s) ∧
        (s.ursol.boot = .up → overrun → exec (.hostQueueTail q v) s = .next (t.log (.overrun q.val))) ∧
        (s.ursol.boot = .up → ¬ overrun → exec (.hostQueueTail q v) s = .next t))) ∧
    (∀ (q : Fin 16) (pa : Nat) (ms : MemSys),
       (let head := fget s.drover.heads q.val 0
        let r := recordOf (readBytes s.drover.hub (8192 * q.val + 128 * (head.toNat % 64)) 128)
        let popped := { s with drover := { s.drover with heads := finsert s.drover.heads q.val (head + 1), queues := finsert s.drover.queues q.val { s.queue q.val with recs := [], checked := false } } }
        fget s.drover.tails q.val 0 ≠ head → (s.queue q.val).checked = false →
        (r.ok = true → exec (.hostRecordCheck q) s = .next (s.setQueue q.val { s.queue q.val with recs := [r], checked := true })) ∧
        (r.ok = false → r.done = 0 ∨ r.done.toNat % 16 ≠ 0 → exec (.hostRecordCheck q) s = .next (popped.log (.hostRecordDropped q.val))) ∧
        (r.ok = false → r.done ≠ 0 → r.done.toNat % 16 = 0 → objCheck s.mem s.ursol r.ctx r.done = (ms, .ok pa) → ObjHome s pa →
           ∃ t : State, exec (.hostRecordCheck q) s = .next t ∧ { t with mem := s.mem } = popped ∧
             ObjChanged s.mem t.mem pa fun o => { o with count := (o.count + 1) % 2 ^ 32, status := 0x0010, progress := 0, fidx := 0xFFFFFFFF }))) ∧
    (∀ (h : OpHdr) (rest : List OpHdr), s.eng.launches = h :: rest →
       (let q := h.vb.toNat
        let popped := { s with eng := { s.eng with launches := rest } }
        let told := fun (u : State) (st : Nat) => exec .launchEnqueue s = .next (u.reportLaunch h st)
        (q < 16 ∨ 63 < q → told popped 0x0002) ∧
        (16 ≤ q → q ≤ 63 → 64 ≤ (s.queue q).recs.length → told popped 0x0001) ∧
        (∀ u e, 16 ≤ q → q ≤ 63 → (s.queue q).recs.length < 64 → popped.opRead h h.va 128 = (u, .error e) →
           told (u.recordFault h .drover 0x0004 0 0) 0x0004) ∧
        (∀ u bs, 16 ≤ q → q ≤ 63 → (s.queue q).recs.length < 64 → popped.opRead h h.va 128 = (u, .ok bs) →
           (let l := recordOf bs
            let mine := ∃ c, (s.queue q).bound = some (h.asid, c) ∧ l.asid = h.asid
            (¬ mine → told u 0x0003) ∧ (mine → l.ok = false → told u 0x0010) ∧
            (mine → l.ok = true → told (u.setQueue q { s.queue q with recs := (s.queue q).recs ++ [l] }) 0))))) ∧
    -- what a LAUNCH object takes
    (∀ (h : OpHdr) (st : Nat), st < 2 ^ 16 → (h.obj = none → s.reportLaunch h st = s) ∧
       (∀ pa, h.obj = some pa → ObjHome s pa → { s.reportLaunch h st with mem := s.mem } = s ∧
          ObjChanged s.mem (s.reportLaunch h st).mem pa fun o => { o with count := (o.count + 1) % 2 ^ 32, status := st }))

/-- R87, R89-R91, R93, R95, R96, R98, R101: of the head records those of the highest priority, and of these the first
after the queue served last at that priority, takes a free farm slot (the lowest: a choice of the model, log entry 49)
and waits; with every slot in use each record waits where it is; with every dependence satisfied, its shape within the cap, its stacks on and its rectangle trained it runs,
and otherwise its slot is free and its done object has the status; a running farm makes its tasks ready in ascending
order while a strip is left, and a task without one has ended; a farm all of whose tasks have ended closes, with
its result in its done object (a fault for which no record was free counts as one its task did not observe: a choice of the
model, log entry 48; an aborted farm with an unusable frame reports the abort: a choice of the model, log entry 51). A
dependence in use is satisfied once its object's count reaches its value, and stays so, and an update ends the wait of a
parked task (R91, R267, R377). -/
def Claims.FarmLife : Prop :=
  ∀ (s : State),
    -- the reports of the Folds after a step: a dependence in use is satisfied once its count is reached, and stays so; an
    -- update ends the wait of a parked task
    (s.drover.ending = [] → NoCopies s.mem →
       (let count := fun (pa : Nat) => (Obj.ofNat (natOf (readBytes s.mem.cells pa 16))).count
        (∀ (k : Nat) (f : Farm), s.farm? k = some f → ∃ g, s.observe.farm? k = some g ∧ { g with deps := f.deps } = f ∧ g.deps.length = f.deps.length ∧
           (f.st ≠ .waiting → g = f) ∧
           ∀ i pa v sat, f.deps[i]? = some (pa, v, sat) → ∃ now, g.deps[i]? = some (pa, v, now) ∧
             (now = true ↔ sat = true ∨ (f.st = .waiting ∧ i ∉ f.unreg ∧ ∃ a, pa = some a ∧ reachable s.ursol a = true ∧ v.toNat ≤ count a))) ∧
        s.observe.parked.length = s.parked.length ∧
        ∀ (i : Nat) (p : Parked), s.parked[i]? = some p → ∃ w, s.observe.parked[i]? = some { p with wake := w } ∧
          (p.wake = .ready → w = .ready) ∧
          (∀ pa sig, p.wake = .resume pa sig → ∃ now, w = .resume pa now ∧ (now = true ↔ sig = true ∨ (reachable s.ursol pa = true ∧ 1 ≤ count pa))) ∧
          (∀ pa t wrap met, p.wake = .waitObj pa t wrap met → ∃ now, w = .waitObj pa t wrap now ∧
             (now = true ↔ met = true ∨ (reachable s.ursol pa = true ∧
               if wrap then (count pa + 2 ^ 32 - t.toNat) % 2 ^ 32 < 2 ^ 31 else t.toNat ≤ count pa))))) ∧
    -- the head record of a queue, with its priority
    (∀ (q : Nat) (r : LaunchRec) (rest : List LaunchRec), (s.queue q).recs = r :: rest →
       (q < 16 → s.headOf q = if (s.queue q).checked then some (r, r.prio) else none) ∧
       (∀ a c, 16 ≤ q → (s.queue q).bound = some (a, c) → s.headOf q = some (r, min r.prio c))) ∧
    (∀ q, (s.queue q).recs = [] → s.headOf q = none) ∧
    (∀ (slot : Fin 1024) (q : Nat) (r : LaunchRec) (pr : Nat), q < 64 → s.headOf q = some (r, pr) →
       (let turn := fun (p : Nat) => (p + 63 * (fget s.drover.lastServed pr 63 + 1)) % 64
        (∀ p, p < 64 → p ≠ q → ∀ r' pr', s.headOf p = some (r', pr') → pr' < pr ∨ (pr' = pr ∧ turn q < turn p))) →
       s.farm? slot.val = none → (∀ j, j < slot.val → (s.farm? j).isSome = true) →
       ∃ (t : State) (f : Farm), exec .farmSlotAssign s = .next t ∧ t.farm? slot.val = some f ∧
         { f with deps := [], unreg := [], donePa := none, trigPa := none, doneNc := false, trigNc := false, inherited := 0 } =
           { lrec := r, queue := q, prio := pr, st := .waiting, deps := [], donePa := none, trigPa := none, inherited := 0 } ∧
         (∀ k, k < 4 → r.dobj[k]? = some 0 → (r.dval[k]?).isSome = true → ∃ v, f.deps[k]? = some (none, v, true)) ∧
         t.queue q = (if q < 16 then { s.queue q with recs := [], checked := false } else { s.queue q with recs := (s.queue q).recs.drop 1 }) ∧
         fget t.drover.heads q 0 = fget s.drover.heads q 0 + (if q < 16 then 1 else 0) ∧ fget t.drover.lastServed pr 63 = q ∧
         (∀ p, p ≠ q → t.queue p = s.queue p) ∧
         (∀ j, j ≠ slot.val → (t.farm? j).map (fun f => { f with inherited := 0 }) = (s.farm? j).map fun f => { f with inherited := 0 }) ∧
         t.core = s.core ∧ t.others = s.others ∧ t.parked = s.parked ∧ (NoCopies s.mem → t.mem.cells = s.mem.cells)) ∧
    ((∀ j, j < 1024 → (s.farm? j).isSome = true) → exec .farmSlotAssign s = .next s) ∧
    (∀ (slot : Fin 1024) (f : Farm) (pa : Nat), s.farm? slot.val = some f → f.st = .waiting → f.aborted = false → (∀ d ∈ f.deps, d.2.2 = true) →
       (let r := f.lrec
        let shape := r.smaxb ≤ s.ursol.cap.maxb ∧ (r.se16 = true → s.ursol.cap.e16 = true) ∧ (r.sa32 = true → s.ursol.cap.a32 = true)
        let on := ∀ k ∈ r.rect, stackState s.ursol k = .on
        let trained := fget s.drover.routes r.route false = true ∨
          ∀ k port e, k < 8 → port < 4 → edgeOf k port = some e → routeHasEdge r.route e = true → fget s.ursol.edgeFenced e false = false ∧ fget s.ursol.edgeDown e false = false
        let fails := fun (st : Nat) => ∃ t : State, exec (.dependenceSatisfied slot) s = .next t ∧ t.farm? slot.val = none ∧
          (∀ j, j ≠ slot.val → t.farm? j = s.farm? j) ∧
          (ObjChanged s.mem t.mem pa fun o => { o with count := (o.count + 1) % 2 ^ 32, status := st, progress := 0, fidx := 0xFFFFFFFF }) ∧
          { t with mem := s.mem, drover := s.drover } = s
        let ends := f.donePa = some pa ∧ f.lrec.trig = 0 ∧ ObjHome s pa
        (shape → on → trained → ∃ t : State, exec (.dependenceSatisfied slot) s = .next t ∧ t.farm? slot.val = some { f with st := .running } ∧
           (∀ j, j ≠ slot.val → t.farm? j = s.farm? j) ∧ fget t.drover.routes r.route false = true ∧
           { t with drover := { t.drover with farms := s.drover.farms, routes := s.drover.routes } } = s) ∧
        (ends → ¬ shape → fails 0x0013) ∧ (ends → shape → ¬ on → fails 0x0015) ∧
        (ends → shape → on → ¬ trained → fails 0x0015))) ∧
    (∀ (slot : Fin 1024) (f : Farm), s.farm? slot.val = some f → f.st = .running → f.aborted = false → f.nextTid < f.lrec.tasks →
       (let ready := s.drover.ready
        let mapped := s.setFarm slot.val { f with nextTid := f.nextTid + 1 }
        (4096 ≤ ready.length → exec (.readyTaskCreate slot) s = .next s) ∧
        (ready.length < 4096 → f.nextBase < f.lrec.iters → exec (.readyTaskCreate slot) s = .next
          { mapped with drover := { mapped.drover with ready := ready ++ [⟨⟨slot, f.nextTid⟩, false⟩] } }) ∧
        (ready.length < 4096 → f.lrec.iters ≤ f.nextBase → f.nextTid ∉ f.ended →
          ∃ t : State, exec (.readyTaskCreate slot) s = .next t ∧ (t.farm slot.val).nextTid = f.nextTid + 1 ∧
            f.nextTid ∈ (t.farm slot.val).ended ∧ f.nextTid ∈ (t.farm slot.val).triggered))) ∧
    (∀ (slot : Fin 1024) (f : Farm) (pa : Nat), s.farm? slot.val = some f → f.st = .running ∨ f.st = .closing → f.ended.length = f.lrec.tasks →
       (∀ h ∈ s.opHdrs, ∀ t, h.core = .task t → t.farm ≠ slot) → f.donePa = some pa → f.lrec.trig = 0 ∨ f.trigSignalled = true → ObjHome s pa →
       (let status := if f.aborted then 0x0401 else if f.frameLost then 0x0402 else if f.faultTask.isSome ∨ f.lost ≠ [] then 0x0021
          else if f.discarded = [] then 0 else 0x0020
        let lowest := fun (b : Nat) => b ∈ f.discarded ∧ ∀ b' ∈ f.discarded, b ≤ b'
        ∃ (t : State) (fidx : Nat), exec (.farmClose slot) s = .next t ∧ t.farm? slot.val = none ∧ (∀ j, j ≠ slot.val → t.farm? j = s.farm? j) ∧
          (ObjChanged s.mem t.mem pa fun o => { o with count := (o.count + 1) % 2 ^ 32, status := status, flags := o.flags ||| f.flags.toNat, progress := f.committed % 2 ^ 32, fidx := fidx % 2 ^ 32 }) ∧
          (∀ b, lowest b → fidx = b % 2 ^ 32) ∧ (f.discarded = [] → fidx = f.faultTask.getD 0xFFFFFFFF) ∧
          { t with mem := s.mem, drover := s.drover } = s))

/-- R95-R99, R388, R389, R441: the ready task that finds its slot free is placed with the registers of R97; a running
task of lower priority is pre-empted for the highest ready one, its hart saves it in its frame, ready again where it
stood, unless the frame cannot take it, and with every acknowledgement there the task is placed. -/
def Claims.Placing : Prop :=
  ∀ (s : State) (stk : Fin 8) (t : TaskId) (f : Farm), s.farm? t.farm.val = some f → f.aborted = false → f.nextBase < f.lrec.iters →
    s.readyStack ⟨t, false⟩ = stk → poolShare f.lrec.poolw ≤ 1024 → isOn s.ursol stk.val = true →
    (s.drover.ready = [⟨t, false⟩] → (∀ c ∈ s.cores, c.id.isTask = false) → s.drover.loans = [] → s.drover.preempts = [] →
       ∃ (u : State) (c : Core), exec (.taskPlace stk) s = .next u ∧ u.findCore (.task t) = some c ∧ u.drover.ready = [] ∧
         (u.farm t.farm.val).nextBase = f.nextBase + f.lrec.slen ∧
         (∀ r : Reg, c.reg r = if r = 2 then f.lrec.sbase + BitVec.ofNat 64 ((t.tid + 1) * f.lrec.ssz) else if r = 3 then f.lrec.args
           else if r = 4 then BitVec.ofNat 64 f.nextBase else if r = 5 then BitVec.ofNat 64 t.tid else 0) ∧
         c.pc = f.lrec.entry.setWidth 56 ∧ c.task.entryHigh = (f.lrec.entry >>> 56).setWidth 8 ∧ c.asid = f.lrec.asid ∧ c.flags = 0 ∧ c.task.stk = stk ∧ c.task.cluster = 0 ∧ c.task.hw = f.lrec.hw ∧
         c.task.vl = 32 ∧ c.task.vstart = 0 ∧ c.task.tmask = 0 ∧ c.task.m = [] ∧ c.task.cells = [] ∧ c.task.scratch = [] ∧ c.task.streams = [] ∧
         c.task.strip = BitVec.ofNat 32 (min f.lrec.slen (f.lrec.iters - f.nextBase)) ∧ c.task.held = true ∧
         c.task.sbase = BitVec.ofNat 64 f.nextBase) ∧
    (∀ (c : Core) (v : TaskId), s.core = c → c.id = .task v → c.task.stk = stk → (∀ d ∈ s.others, d.id.isTask = false) → c.task.cluster = 0 → c.task.hw = 0 →
       c.task.share ≤ 1024 → s.drover.ready = [⟨t, false⟩] → s.drover.loans = [] → s.prioOf v < s.prioOf t → t ≠ v →
       (s.drover.preempts = [] → ∃ p : Preempt, exec (.preemptRequest stk) s = .next { s with drover := { s.drover with preempts := [p] } } ∧
          p.stk = stk ∧ p.cause = t ∧ p.victims = [v] ∧ p.abort = false ∧ p.first = 0 ∧ p.width = 8 / 2 ^ f.lrec.hw.toNat ∧ .hart v ∈ p.due) ∧
       (∀ p, s.drover.preempts = [p] → p.stk = stk → p.victims = [v] → .hart v ∈ p.due → c.task.quota ≠ some 0 → (s.farm v.farm.val).aborted = false → (s.farm? v.farm.val).isSome = true → s.isEnding v = false →
          ∃ u : State, exec (.preemptAck stk (.hart v)) s = .next u ∧ (∀ q ∈ u.drover.preempts, .hart v ∉ q.due) ∧
            (let r := s.unseat v c.pc 0 0
             (r.2 = true → u.findCore (.task v) = none ∧ u.mem = r.1.mem ∧ ⟨v, true⟩ ∈ u.drover.ready ∧
               ∃ k ∈ u.parked, k.t = v ∧ k.wake = .ready ∧ k.buf = c.task.buf ∧ k.flags = c.flags ∧ k.victim = true) ∧
             (r.2 = false → FrameLost u v) ∧
             (∀ e, FrameReady s v e → r.2 = true ∧
               ∀ q ∈ FrameWords c c.pc, readBytes r.1.mem.cells (leafPa e (s.frameVa v) + q.1) 8 = bytesOf 8 q.2)))) ∧
    (∀ p, s.drover.preempts = [p] → p.stk = stk → p.due = [] → p.abort = false →
       -- its victims that are parked, or are ending, stay victims; then the task is placed
       (let parked := s.parked.map fun k => if k.t ∈ p.victims then { k with victim := true } else k
        let ending := s.drover.ending.map fun e => if e.t ∈ p.victims then { e with victim := true } else e
        ∃ u : State, exec (.preemptComplete stk) s = .next u ∧
          exec (.taskPlace stk) { s with parked := parked, drover := { s.drover with preempts := [], ending := ending } } = .next u))

/-- R100, R267, R376, R377, R396, R440: a WAIT unsatisfied for 8,192 cycles parks its task, saved in its frame, unless
the frame cannot take it; a parked task whose update has come is ready again, last; the supervisor core of a stack that
may trap takes the task trap of the oldest entry of the service queue, or Kyrek's firmware takes it and serves the
entry, writing its action into the frame and the log and signalling the resume object. -/
def Claims.Waking : Prop :=
  ∀ (s : State) (t : TaskId),
    (∀ c w, s.findCore (.task t) = some c → c.task.waiting = some w → (s.farm? t.farm.val).isSome = true → s.tiles.runs = [] → s.isEnding t = false →
       (w.age < 8192000 → exec (.waitTimeoutPark t) s = .next s) ∧
       (8192000 ≤ w.age → ∃ u : State, exec (.waitTimeoutPark t) s = .next u ∧
          (let r := s.unseat t c.pc 0 0
           (r.2 = true → u.findCore (.task t) = none ∧ u.mem = r.1.mem ∧
             ∃ p ∈ u.parked, p.t = t ∧ p.wake = .waitObj w.pa w.target w.wrap false ∧ p.buf = c.task.buf ∧ p.flags = c.flags) ∧
           (r.2 = false → FrameLost u t) ∧
           (∀ e, s.core = c → FrameReady s t e → r.2 = true ∧
             ∀ q ∈ FrameWords c c.pc, readBytes r.1.mem.cells (leafPa e (s.frameVa t) + q.1) 8 = bytesOf 8 q.2)))) ∧
    (∀ p, s.parked = [p] → p.t = t →
       (let woken := { s with parked := [{ p with wake := .ready }], drover := { s.drover with ready := s.drover.ready ++ [⟨t, true⟩] } }
        (∀ pa n wrap, p.wake = .waitObj pa n wrap true → exec (.waitWake t) s = .next woken) ∧
        (∀ pa n wrap, p.wake = .waitObj pa n wrap false → exec (.waitWake t) s = .next s) ∧
        (∀ pa, p.wake = .resume pa true → exec (.taskResume t) s = .next woken) ∧
        (∀ pa, p.wake = .resume pa false → exec (.taskResume t) s = .next s))) ∧
    (∀ (stk : Fin 8) (c : Core) (e : SvcEntry) (rest : List SvcEntry), s.findCore (.sup stk) = some c → fget s.service stk.val [] = e :: rest →
       (c.sup.inh = true ∨ c.sup.halted = true ∨ isOn s.ursol stk.val = false → ∀ k, exec (.taskTrapService stk k) s = .next s) ∧
       (c.sup.inh = false → c.sup.halted = false → isOn s.ursol stk.val = true →
          (let taken : State := { s with service := finsert s.service stk.val rest }
           let trapped := taken.mapCore (.sup stk) fun d => { d with epc := d.pc, cause := 0x0030, info := e.frame }
           (∃ u : State, exec (.taskTrapService stk false) s = .next u ∧ fget u.service stk.val [] = rest ∧ u.mem = s.mem ∧
              u.findCore (.sup stk) = some { c with
                epc := c.pc, cause := 0x0030, info := e.frame, pc := c.sup.svec, sup := { c.sup with inh := true } }) ∧
           trapped.findCore (.sup stk) = some { c with epc := c.pc, cause := 0x0030, info := e.frame } ∧
           (∀ u bs, trapped.frameRead e.t 0x128 32 = (u, some bs) →
              (let cause := wordAt bs 0x10 8 % 2 ^ 17
               let action := if cause = 0x0021 ∨ cause = 0x0022 then 0 else 1
               let logged := u.log (.service (BitVec.ofNat 17 cause) (BitVec.ofNat 56 (wordAt bs 8 8)) (BitVec.ofNat 64 (wordAt bs 0x18 8)))
               let acted := (logged.frameWrite e.t 0x188 (bytesOf 8 action)).1
               cause ∈ [0x0021, 0x0022, 0x0001, 0x0002, 0x0008] → exec (.taskTrapService stk true) s = .next (match acted.resumeObject e.t with
                 | (v, some (pa, nc)) => v.objUpdate (8 + stk.val) pa (fun o => { o with count := o.count + 1, status := 0 }) nc
                 | (v, none) => v))))))

/-! ## Links and the host's accesses -/

/-- R94, R365, R366, R367, R373: a compressed packet whose tokens do not produce its length is counted and thrown
away, and one that the expander takes is not; an edge that fails to retrain is fenced, one that retrains is up, and
either drops the route entries over it; a queue pair in error stays in the error state. That an Ethernet port takes packets
while its queue pair is ready to receive or to send is a choice of the model (log entry 40), and so is that the hub's ends
count their rejects (log entry 24). -/
def Claims.Links : Prop :=
  ∀ (s : State),
    (∀ (node : PortNode) (port : Fin 4) (len : BitVec 13) (lits : List Byte) (k lo hi : Byte) (tail : List Byte),
       (portTakes s.ursol node port.val = false → ∀ wire, exec (.packetReject node port len wire) s = .next s) ∧
       (portTakes s.ursol node port.val = true →
         (let n := match node with
            | .mesh stk => 4 * stk.val + port.val
            | .ether _ => 32 + port.val
            | .hub => 36 + port.val
          let counted := Host.Outcome.next { s with ursol := { s.ursol with rejects := finsert s.ursol.rejects n (fget s.ursol.rejects n 0 + 1) } }
          let goes := fun (wire : List Byte) (bad : Prop) =>
            (bad → exec (.packetReject node port len wire) s = counted) ∧ (¬ bad → exec (.packetReject node port len wire) s = .next s)
          -- a literal run; a run of zeros; a reach back over bytes not yet there; a literal, then its first byte again
          (1 ≤ lits.length → lits.length ≤ 128 → goes (BitVec.ofNat 8 (lits.length - 1) :: lits) (lits.length ≠ len.toNat)) ∧
          goes [0xFF, k] (k.toNat + 4 ≠ len.toNat) ∧
          (128 ≤ k.toNat → k.toNat < 255 → goes (k :: lo :: hi :: tail) True ∧ goes [0, lo, k, 0, 0] (k.toNat - 128 + 4 ≠ len.toNat))))) ∧
    -- the ports a compressed packet can come to: the ports of a gated stack are off (R397)
    (let up := fun (e : Nat) => fget s.ursol.edgeFenced e false = false ∧ fget s.ursol.edgeDown e false = false ∧
       ∀ k p, k < 8 → p < 4 → edgeOf k p = some e → stackState s.ursol k ≠ .gate
     (∀ (stk : Fin 8) (port : Fin 4), portTakes s.ursol (.mesh stk) port.val = true ↔ ∃ e, edgeOf stk.val port.val = some e ∧ up e) ∧
     (∀ port : Fin 4, portTakes s.ursol .hub port.val = true ↔ (port = 0 ∧ up 3) ∨ (port = 1 ∧ up 7)) ∧
     (∀ (qp : Fin 4096) (port : Fin 4), portTakes s.ursol (.ether qp) port.val = true ↔
        ∃ q : Qp, fget s.ursol.qps qp.val none = some q ∧ q.f2f = true ∧ q.port = port.val ∧ (q.st = .rtr ∨ q.st = .rts))) ∧
    (∀ (stk : Fin 8) (port : Fin 4) (e : Nat), edgeOf stk.val port.val = some e →
       (let routes := s.drover.routes.filter fun r => !routeHasEdge r.1 e
        exec (.linkRetrain stk port) s = .next { s with
          ursol := { s.ursol with edgeDown := ferase s.ursol.edgeDown e }, drover := { s.drover with routes := routes } } ∧
        exec (.linkRetrainFail stk port) s = .next { s with
          ursol := { s.ursol with edgeDown := finsert s.ursol.edgeDown e true, edgeFenced := finsert s.ursol.edgeFenced e true }, drover := { s.drover with routes := routes } })) ∧
    (∀ (stk : Fin 8) (port : Fin 4), edgeOf stk.val port.val = none →
       exec (.linkRetrain stk port) s = .next s ∧ exec (.linkRetrainFail stk port) s = .next s) ∧
    (∀ (qp : Fin 4096) (p : Qp), fget s.ursol.qps qp.val none = some p →
       exec (.queuePairError qp) s = .next { s with ursol := { s.ursol with qps := finsert s.ursol.qps qp.val (some { p with st := .error }) } })

/-- R219, R367, R370-R372: the host writes the slots of the hub region and reads its heads; a granted range and the
physical region read and write memory at home, byte for byte; a SEND fills the next buffer of its ring; what is not
granted, not free or not supported is answered with the NAK the manual names, and nothing else changes; each answer carries
the extension header where the queue pair is between two F2 packages (R369). -/
def Claims.HostAccesses : Prop :=
  ∀ (s : State) (va : W64) (data : List Byte) (n rkey : Nat) (qp : Fin 4096) (imm : W32) (q : Qp), s.ursol.boot = .up →
    fget s.ursol.qps qp.val none = some q →
    (let answers := fun (i : Instr) (m : OutMsg) => exec i s = .next (s.send m)
     let out := fun (t : State) (m : OutMsg) => { t with mem := s.mem } = s.send m
     let x := q.f2f
     let hub : RkeyUse := ⟨qp, Config.hubRkey.toNat⟩
     let req : RkeyUse := ⟨qp, rkey⟩
     let granting := rkey ≠ Config.hubRkey.toNat
     -- the whole access is one piece of a line, at pa
     let one := fun (k : AccKind) (asid : BitVec 14) (va n pa : Nat) => ∃ w, hostPieces asid k (piecesOf va n) s = (s, some [⟨pa, n, w⟩])
     let written := fun (t : State) (pa : Nat) => ∀ a, fget t.mem.cells a 0 =
       if pa ≤ a ∧ a < pa + data.length then data.getD (a - pa) 0 else fget s.mem.cells a 0
     answers (.rdmaAtomicIn qp) (.nakInvalidRequest qp.val x) ∧
     (q.st ≠ .rtr ∧ q.st ≠ .rts → ∀ i ∈ [Instr.rdmaWriteIn req va data, .rdmaReadIn req va n, .sendIn qp data imm,
        .physicalRegionAccess ⟨qp, true⟩ va.toNat n data, .physicalRegionAccess ⟨qp, false⟩ va.toNat n data], exec i s = .next s) ∧
     (q.st = .rtr ∨ q.st = .rts →
     (va.toNat + data.length ≤ 0x20000 → exec (.rdmaWriteIn hub va data) s = .next
        (({ s with drover := { s.drover with hub := writeBytes s.drover.hub va.toNat data } }).send (.ack x))) ∧
     (0x21028 < va.toNat + data.length → answers (.rdmaWriteIn hub va data) (.nakRemoteAccess x)) ∧
     (0x20100 ≤ va.toNat → va.toNat + n ≤ 0x20180 → va.toNat % 8 = 0 → n = 8 →
        answers (.rdmaReadIn hub va n) (.readReply (bytesOf 8 (fget s.drover.heads ((va.toNat - 0x20100) / 8) 0).toNat) x)) ∧
     (va.toNat < 0x20100 ∨ 0x20180 < va.toNat + n → answers (.rdmaReadIn hub va n) (.nakRemoteAccess x)) ∧
     (granting → (∀ k, fget s.ursol.rkeys rkey none = some k → k.wr = false ∨ va.toNat < k.base ∨ k.base + k.len < va.toNat + data.length) →
        answers (.rdmaWriteIn req va data) (.nakRemoteAccess x)) ∧
     (granting → (∀ k, fget s.ursol.rkeys rkey none = some k → k.rd = false ∨ va.toNat < k.base ∨ k.base + k.len < va.toNat + n) →
        answers (.rdmaReadIn req va n) (.nakRemoteAccess x)) ∧
     (∀ k pa, granting → fget s.ursol.rkeys rkey none = some k → k.base ≤ va.toNat → NoCopies s.mem → pa % 64 + data.length ≤ 64 → pa % 64 + n ≤ 64 →
        (k.wr = true → va.toNat + data.length ≤ k.base + k.len → 0 < data.length → one .engineWrite k.asid va.toNat data.length pa →
           ∃ t : State, exec (.rdmaWriteIn req va data) s = .next t ∧ out t (.ack x) ∧ written t pa) ∧
        (k.rd = true → va.toNat + n ≤ k.base + k.len → 0 < n → one .engineRead k.asid va.toNat n pa →
           ∃ t : State, exec (.rdmaReadIn req va n) s = .next t ∧ out t (.readReply (readBytes s.mem.cells pa n) x) ∧ t.mem.cells = s.mem.cells)) ∧
     ((fget s.ursol.rings qp.val none = none → answers (.sendIn qp data imm) (.rnrNak qp.val x)) ∧
        (∀ r, fget s.ursol.rings qp.val none = some r →
           (r.free = 0 → answers (.sendIn qp data imm) (.rnrNak qp.val x)) ∧
           (r.free ≠ 0 → r.bufSize < data.length → answers (.sendIn qp data imm) (.nakInvalidRequest qp.val x)) ∧
           (∀ pa, r.free ≠ 0 → 0 < data.length → data.length ≤ r.bufSize → NoCopies s.mem → pa % 64 + data.length ≤ 64 → homeStack s r.asid r.cobj = none →
              one .engineWrite r.asid (r.base.toNat + r.next * r.bufSize) data.length pa →
              ∃ t : State, exec (.sendIn qp data imm) s = .next t ∧ written t pa ∧ t.core = s.core ∧ t.ursol.out = s.ursol.out ++ [.ack x] ∧
                fget t.ursol.rings qp.val none = some { r with
                  next := if r.next + 1 = r.bufs then 0 else r.next + 1, free := r.free - 1 }))) ∧
     (s.ursol.physRegion = none → ∀ wr, answers (.physicalRegionAccess ⟨qp, wr⟩ va.toNat n data) (.nakRemoteAccess x)) ∧
     -- a home takes host accesses on a stack that is on or idle (R397), in a column that is not fenced
     (∀ pa, hostReaches s.ursol pa = true ↔ isDram pa = true ∧ isFenced s.ursol pa = false ∧
        (stackState s.ursol (stackOf pa) = .on ∨ stackState s.ursol (stackOf pa) = .idle)) ∧
     (∀ pa, s.ursol.physRegion.isSome = true → hostReaches s.ursol pa = true → NoCopies s.mem →
        (0 < data.length → pa % 64 + data.length ≤ 64 →
           ∃ t : State, exec (.physicalRegionAccess ⟨qp, true⟩ pa n data) s = .next t ∧ out t (.ack x) ∧ written t pa) ∧
        (0 < n → pa % 64 + n ≤ 64 → linePoisoned s.mem (pa / 64) = false →
           ∃ t : State, exec (.physicalRegionAccess ⟨qp, false⟩ pa n data) s = .next t ∧ out t (.readReply (readBytes s.mem.cells pa n) x) ∧
             t.mem.cells = s.mem.cells))))

/-! ## Power and the host's commands -/

/-- R1, R28, R396, R397, R399, R403, R404: Ursol starts the firmware of an image it accepts, and comes up in recovery
mode with any other, where only an image that it accepts starts firmware; a reading above the trip temperature puts
the clocks in state H, stops them on their way and tells the host; a switch of the grade ends with its answer, and until
then no unit on those clocks makes a step (R24); a stack whose wake time has passed is on, out of idle and self-refresh as
it was left, out of gate with blank tiles, slots and banks and no column fenced (R129, R272, R292, R293); a package without power has lost all but what it had sent. -/
def Claims.Power : Prop :=
  ∀ (s : State) (img : FwImage),
    (let h := img.header
     let body := img.body.take (natOf ((h.drop 0x48).take 8))
     let good := h.length = 256 ∧ sha256 (h.take 64) = Config.romKeyDigest ∧
       ecdsaVerifies (h.take 64) (h.take 0x70) ((h.drop 0x70).take 64) = true ∧ sha256 body = (h.drop 0x50).take 32 ∧
       (∀ b ∈ h.drop 0xB0, b = 0) ∧ Config.fusedMinVersion ≤ natOf ((h.drop 0x40).take 8)
     let up := Host.Outcome.next { s with ursol := { s.ursol with
       boot := .up, fwVersion := BitVec.ofNat 64 (natOf ((h.drop 0x40).take 8)), fwDigest := (h.drop 0x50).take 32 } }
     let down := Host.Outcome.next { s with ursol := { s.ursol with boot := .recovery, log := s.ursol.log ++ [.bootFailed] } }
     (s.ursol.boot = .powered ∨ s.ursol.boot = .unpowered →
        (good ∧ exec (.powerOn img) s = up) ∨ (¬ good ∧ exec (.powerOn img) s = down)) ∧
     (s.ursol.boot = .recovery → (good ∧ exec (.recoveryImage img) s = up) ∨ (¬ good ∧ exec (.recoveryImage img) s = down)) ∧
     (s.ursol.boot = .up → exec (.powerOn img) s = .next s ∧ exec (.recoveryImage img) s = .next s)) ∧
    -- the clocks stop on their way to the lowest grade unless they run at it; a SETGRADE under way answers 2
    (s.ursol.trip < s.ursol.temp → s.ursol.hold = false → s.ursol.boot ≠ .unpowered →
       (let answered := if s.ursol.switching = true then [OutMsg.answer 1 2 []] else []
        exec .thermalTrip s = .next { s with ursol := { s.ursol with
          hold := true, grade := 3, switching := s.ursol.switching || s.ursol.grade != 3
          log := s.ursol.log ++ [.trip], out := s.ursol.out ++ answered ++ [.unsolicited 0xFFFF0001] } })) ∧
    (s.ursol.temp ≤ s.ursol.trip ∨ s.ursol.hold = true → exec .thermalTrip s = .next s) ∧
    (let ended := { s.ursol with switching := false }
     (s.ursol.switching = true → s.ursol.hold = false → exec .gradeSwitchEnd s = .next { s with
        ursol := { ended with out := s.ursol.out ++ [.answer 1 0 []] } }) ∧
     (s.ursol.switching = true → s.ursol.hold = true → exec .gradeSwitchEnd s = .next { s with ursol := ended }) ∧
     (s.ursol.switching = false → exec .gradeSwitchEnd s = .next s)) ∧
    -- while the clocks are stopped no unit on them makes a step
    (s.ursol.switching = true → s.coreRuns = false ∧ (∀ i, s.unitOf i ≠ .own → s.eventRuns i = false) ∧
       (∀ (k : Fin 8) (col : Fin 64) (b : BankId) (row : Fin 32768) (qp : Fin 4096) (rg : RegionUse) (off n line : Nat) (data : List Byte) (imm : W32)
            (r : Fin 17) (f : Fin 1024),
         ∀ i ∈ [Instr.foldDramAccess b row, .rowTransfer k col, .lkaStart ⟨k, col⟩, .lkaComplete ⟨k, col⟩, .aclrExecute ⟨k, col⟩, .adrnComplete ⟨k, col⟩,
             .sendIn qp data imm, .physicalRegionAccess rg off n data, .kvLookup k, .kvSign k, .copyStart k, .cbldExecute k, .tbldGroupWrite k,
             .pageWalk k, .pageWalkResult k, .gets r line true, .puto r line, .forcedPublish r line, .launchEnqueue, .farmClose f, .preemptRequest k],
           s.eventRuns i = false) ∧
       ∀ (k : Fin 8) (r : Fin 17) (line n : Nat) (m : Miss), ∀ v ∈ [Move.evictCopy r line, .evictHome line, .tlbDrop n, .walkRequest m, .crookUnit k],
         s.hardwareMove v = s) ∧
    -- a stack is on again, with what it kept, or, out of gate, blank
    (∀ (k : Fin 8) (w : Nat), fget s.ursol.waking k.val 0 = w → w ≠ 0 →
       (s.now < w → exec (.stackReturnToOn k) s = .next s) ∧
       (w ≤ s.now → ∃ t : State, exec (.stackReturnToOn k) s = .next t ∧
          (∀ j, stackState t.ursol j = if j = k.val then .on else stackState s.ursol j) ∧ fget t.ursol.waking k.val 0 = 0 ∧
          (stackState s.ursol k.val = .idle ∨ stackState s.ursol k.val = .selfRefresh →
             { t with ursol := { t.ursol with stackSts := s.ursol.stackSts, waking := s.ursol.waking } } = s) ∧
          (stackState s.ursol k.val = .gate → GateLeft s t k.val ∧ OtherStacks s t k.val ∧ { t with
             tiles := s.tiles, dram := s.dram, tick0 := s.tick0
             ursol := { t.ursol with stackSts := s.ursol.stackSts, waking := s.ursol.waking, fenced := s.ursol.fenced } } = s))) ∧
    exec .packageUnpowered s = .next { State.reset with
      ursol := { State.reset.ursol with boot := .unpowered, out := s.ursol.out, temp := s.ursol.temp }, sched := s.sched, now := s.now, free := s.free, seq := s.seq }

/-- R394: while no command is being executed and firmware runs, each command is answered; one with an argument missing
or out of range, and a code that names no command, answers 3 and changes nothing; a running switch of the grade
lets every command wait. A fence of a column closes its rows and fails its held ROWCONs (R292); the report of ATTEST has
the fields of R405; the watch ring's count starts at 0 (which double of the DRAM holds it is open: log entry 10). -/
def Claims.HostCommands : Prop :=
  ∀ (s : State) (args : List W64),
    (let a := fun (k : Nat) => (args.getD k 0).toNat
     let d := fun (k : Nat) => args.getD k 0
     let n := args.length
     let reply := fun (t : State) (code status : Nat) (payload : List Byte) =>
       Host.Outcome.next ({ t with ursol := { t.ursol with out := t.ursol.out ++ [.answer code status payload] } } : State)
     let u := s.ursol
     -- a SETGRADE is being executed; the switch of clocks of a trip is no command
     let busy := u.switching = true ∧ u.hold = false
     let with' := fun (v : Ursol) => ({ s with ursol := v } : State)
     let code := fun (st : StackSt) => (match st with
       | .gate => 0
       | .idle => 1
       | .selfRefresh => 2
       | .on => 3)
     let commands : List (Instr × Nat × Prop) :=
       [(.setgrade args, 1, 1 ≤ n ∧ a 0 ≤ 3), (.stackstate args, 2, 2 ≤ n ∧ a 0 ≤ 7 ∧ a 1 ≤ 3), (.setcap args, 3, 3 ≤ n ∧ a 0 ≤ 4 ∧ a 1 ≤ 1 ∧ a 2 ≤ 1),
        (.fencecol args, 4, 2 ≤ n ∧ a 0 ≤ 7 ∧ a 1 ≤ 63), (.settrip args, 5, 1 ≤ n ∧ 85 ≤ a 0 ∧ a 0 ≤ 105), (.attest args, 6, 4 ≤ n),
        (.setasiddir args, 7, 1 ≤ n ∧ isDram (a 0) = true ∧ a 0 % 2 ^ 19 = 0),
        (.bindqueue args, 8, 4 ≤ n ∧ 16 ≤ a 0 ∧ a 0 ≤ 63 ∧ a 1 ≤ 1 ∧ a 2 ≤ 16383 ∧ a 3 ≤ 31),
        (.qpsetup args, 9, 10 ≤ n ∧ a 0 ≤ 4095 ∧ a 1 ≤ 4 ∧ a 5 ≤ 3 ∧ (a 6 = 1024 ∨ a 6 = 2048 ∨ a 6 = 4096) ∧ a 9 ≤ 1),
        (.setwindow args, 0x0A, 7 ≤ n ∧ 1 ≤ a 0 ∧ a 0 ≤ 510 ∧ a 1 ≤ 1 ∧ a 2 ≤ 3 ∧ a 3 ≤ 4095 ∧ a 5 < 2 ^ 32 ∧ a 6 ≤ 1),
        (.setrkey args, 0x0B, (5 ≤ n ∧ a 0 = 0 ∧ a 1 ≤ 16383 ∧ a 2 % 65536 = 0 ∧ a 3 % 65536 = 0 ∧ 1 ≤ a 4 ∧ a 4 ≤ 3) ∨
          (2 ≤ n ∧ a 0 = 1 ∧ (fget u.rkeys (a 1) none).isSome = true)),
        (.setring args, 0x0C, 6 ≤ n ∧ a 0 ≤ 4095 ∧ a 1 ≤ 16383 ∧ a 3 % 64 = 0 ∧ a 5 % 16 = 0),
        (.homewatch args, 0x0D, 5 ≤ n ∧ a 0 ≤ 7 ∧ a 1 ≤ 15 ∧ isDram (a 2) = true ∧ a 2 % 64 = 0 ∧ a 3 ≤ 65535 ∧ a 4 ≤ 1),
        (.homering args, 0x0E, 2 ≤ n ∧ isDram (a 0) = true ∧ a 0 % 4096 = 0 ∧ ∃ k, 6 ≤ k ∧ k ≤ 20 ∧ a 1 = 2 ^ k),
        (.abortfarm args, 0x0F, 2 ≤ n ∧ ∃ k f, k < 1024 ∧ s.farm? k = some f ∧ f.st ≠ .closing ∧ f.lrec.asid.toNat = a 0 ∧ f.lrec.done.toNat = a 1),
        (.fenceedge args, 0x10, 2 ≤ n ∧ a 0 ≤ 7 ∧ a 1 ≤ 3 ∧ (edgeOf (a 0) (a 1)).isSome = true), (.readcounts args, 0x11, 1 ≤ n ∧ a 0 ≤ 7),
        (.physwindow args, 0x13, 1 ≤ n ∧ a 0 ≤ 1)]
     (∀ c ∈ commands, (u.boot ≠ .up ∨ busy → exec c.1 s = .next s) ∧
        (u.boot = .up → ¬ busy → ¬ c.2.2 → exec c.1 s = reply s c.2.1 3 [])) ∧
     (u.boot = .up → ¬ busy →
        (∀ code : W32, code = 0 ∨ 0x13 < code.toNat → exec (.unknownHostCommand code) s = reply s code.toNat 3 []) ∧
        (∀ c ∈ commands, c.2.2 →
          (c.2.1 = 1 → (u.hold = true → u.trip - 5 < u.temp → exec c.1 s = reply s 1 2 []) ∧
             (u.hold = false ∨ u.temp ≤ u.trip - 5 → u.grade.val = a 0 → u.switching = false → exec c.1 s = reply (with' { u with hold := false }) 1 0 []) ∧
             (u.hold = false ∨ u.temp ≤ u.trip - 5 → u.grade.val ≠ a 0 ∨ u.switching = true → exec c.1 s = .next (with' { u with
               hold := false, grade := Fin.ofNat 4 (a 0), switching := true }))) ∧
          (c.2.1 = 2 → (let k := a 0
             let routes := s.drover.routes.filter fun r => !routeHas r.1 k
             (∀ st, stackState u k = st → code st = a 1 → exec c.1 s = reply (with' { u with waking := ferase u.waking k }) 2 0 []) ∧
             (stackState u k = .on → a 1 ≠ 3 → (∃ f ∈ s.drover.farms, f.2.st = .running ∧ k ∈ f.2.lrec.rect) → exec c.1 s = reply s 2 1 []) ∧
             (∀ old new, stackState u k = old → code new = a 1 → old ≠ new → new ≠ .on →
                (old = .on → ∀ f ∈ s.drover.farms, f.2.st = .running → k ∉ f.2.lrec.rect) →
                (new = .gate → portsNeeded u k = true → exec c.1 s = reply s 2 3 []) ∧
                (new ≠ .gate ∨ portsNeeded u k = false → ∃ t : State, exec c.1 s = reply t 2 0 [] ∧ StackLeft s t k old new ∧
                   (∀ j, stackState t.ursol j = if j = k then new else stackState u j) ∧ fget t.ursol.waking k 0 = 0 ∧ t.drover.routes = routes)) ∧
             (∀ w st, stackState u k = st → (st = .gate ∧ w = 2000000) ∨ (st = .selfRefresh ∧ w = 50000) ∨ (st = .idle ∧ w = 10000) → a 1 = 3 →
                fget u.waking k 0 = 0 → ∃ t : State, exec c.1 s = reply t 2 0 [] ∧ fget t.ursol.waking k 0 = s.now + w ∧ t.drover.routes = routes ∧
                  stackState t.ursol k = st ∧ t.mem = s.mem ∧ t.core = s.core ∧ t.others = s.others))) ∧
          (c.2.1 = 3 → exec c.1 s = reply (with' { u with cap := ⟨a 0, a 1 == 1, a 2 == 1⟩ }) 3 0 []) ∧
          (c.2.1 = 4 → (let col : Nat := 64 * a 0 + a 1
             ((∃ f ∈ s.drover.farms, f.2.st = .running ∧ a 0 ∈ f.2.lrec.rect) → exec c.1 s = reply s 4 1 []) ∧
             ((∀ f ∈ s.drover.farms, f.2.st = .running → a 0 ∉ f.2.lrec.rect) →
                (let mine := fun (b : BankId) => b.stk.val = a 0 ∧ b.col.val = a 1
                 let lost := fun (k : Bank) => ({ k with st := .close, tIn := s.now, closing := true, lost := true, objs := [] } : Bank)
                 let fenced := fun (v : State) => ({ v with ursol := { v.ursol with fenced := finsert v.ursol.fenced col true } } : State)
                 -- every open row of the column closes, and what is held there goes
                 (∃ t : State, exec c.1 s = reply t 4 0 [] ∧ { t.ursol with log := u.log } = { u with fenced := finsert u.fenced col true } ∧ t.tiles = s.tiles ∧
                   (∀ b, t.bank b = if mine b ∧ (s.bank b).active = true then lost (s.bank b) else s.bank b) ∧
                   t.dram.cmds = s.dram.cmds.filter fun q =>
                     !(decide (mine q.bank) && (if q.slot.isSome then !s.transferring q else (s.bank q.bank).active && q.close))) ∧
                 (s.dram.banks = [] → s.dram.cmds = [] → exec c.1 s = reply (fenced s) 4 0 []) ∧
                 -- a held ROWCON fails with 0x0102, and a ROWACT's object that waits for the row with 0x0101
                 (∀ b, mine b → (s.bank b).active = true → (∀ b', mine b' → b' ≠ b → (s.bank b').active = false) →
                   (let down := fun (v : State) => v.bank b = lost (s.bank b) ∧ v.dram.cmds = [] ∧ { v with dram := s.dram } = s
                    (∀ q slot, (s.bank b).objs = [] → s.dram.cmds = [q] → q.bank = b → q.slot = some slot → s.transferring q = false →
                       ∃ v : State, down v ∧ exec c.1 s = reply (fenced (v.failOp q.hdr .tile 0x0102 0 0 0)) 4 0 []) ∧
                    (∀ h, (s.bank b).objs = [h] → s.dram.cmds = [] →
                       ∃ v : State, down v ∧ exec c.1 s = reply (fenced (v.failOp h .tile 0x0101 0 0 0)) 4 0 []))))))) ∧
          (c.2.1 = 5 → exec c.1 s = reply (with' { u with trip := a 0 }) 5 0 []) ∧
          (c.2.1 = 6 → ∃ r, exec c.1 s = reply s 6 0 r ∧ r.length = 288 ∧
             (let part := fun (off size : Nat) => (r.drop off).take size
              part 0 32 = ((args.take 4).flatMap fun x => bytesOf 8 x.toNat) ∧
              part 0x20 16 = [0x4B, 0x59, 0x2D, 0x46, 0x32, 0x2D, 0x35, 0x31, 0x32, 0x41, 0, 0, 0, 0, 0, 0] ∧
              natOf (part 0x30 8) = u.fwVersion.toNat ∧ (u.fwDigest.length = 32 → part 0x38 32 = u.fwDigest) ∧
              (u.cap.maxb ≤ 4 → natOf (part 0x58 4) = u.cap.maxb + (if u.cap.e16 then 8 else 0) + (if u.cap.a32 then 16 else 0)) ∧
              natOf (part 0x5C 4) < 2 ^ 19 ∧ natOf (part 0x5C 4) % 4 = u.grade.val ∧ (natOf (part 0x5C 4)).testBit 2 = u.hold ∧
              (∀ k, k < 8 → natOf (part 0x5C 4) / 2 ^ (3 + 2 * k) % 4 = code (stackState u k)) ∧
              (∀ k t, k < 8 → t < 64 → (natOf (part (0x60 + 8 * k) 8)).testBit t = fget u.fenced (64 * k + t) false) ∧
              part 0xA0 64 = identityKey ∧ part 0xE0 64 = padTo 64 (identitySign (r.take 0xE0) 8))) ∧
          (c.2.1 = 7 → ((∃ k, k < 8 ∧ stackState u k = .on) → exec c.1 s = reply s 7 4 []) ∧
             ((∀ k, k < 8 → stackState u k ≠ .on) → exec c.1 s = reply (with' { u with asidDir := a 0 }) 7 0 [])) ∧
          (c.2.1 = 8 → ((s.queue (a 0)).recs ≠ [] → exec c.1 s = reply s 8 4 []) ∧
             ((s.queue (a 0)).recs = [] → exec c.1 s = reply (s.setQueue (a 0) { s.queue (a 0) with
               bound := if a 1 = 1 then some (BitVec.ofNat 14 (a 2), a 3) else none }) 8 0 [])) ∧
          (c.2.1 = 9 → ∃ st, [QpSt.reset, .init, .rtr, .rts, .error][a 1]? = some st ∧
             exec c.1 s = reply (with' { u with qps := finsert u.qps (a 0) (some ⟨st, d 2, d 3, d 4, a 5, a 6, d 7, d 8, a 9 == 1⟩) }) 9 0 []) ∧
          (c.2.1 = 0x0A → exec c.1 s = reply (with' { u with
             windows := finsert u.windows (a 0) ⟨a 1 == 1, a 2, a 3, d 4, BitVec.ofNat 32 (a 5), a 6 == 1⟩ }) 0x0A 0 []) ∧
          (c.2.1 = 0x0B → (a 0 = 0 → ∃ k : W32, exec c.1 s = reply { s with
               free := s.free + 1, ursol := { u with rkeys := finsert u.rkeys k.toNat (some ⟨BitVec.ofNat 14 (a 1), a 2, a 3, a 4 % 2 == 1, a 4 / 2 % 2 == 1⟩) } } 0x0B 0 (bytesOf 8 k.toNat)) ∧
             (a 0 = 1 → exec c.1 s = reply (with' { u with rkeys := ferase u.rkeys (a 1) }) 0x0B 0 [])) ∧
          (c.2.1 = 0x0C → exec c.1 s = reply (with' { u with
             rings := finsert u.rings (a 0) (some ⟨BitVec.ofNat 14 (a 1), d 2, a 3, a 4, 0, a 4, d 5⟩) }) 0x0C 0 []) ∧
          (c.2.1 = 0x0D → exec c.1 s = reply { s with
             mem := { s.mem with watch := finsert s.mem.watch (16 * a 0 + a 1) ⟨a 2 / 64, BitVec.ofNat 16 (a 3), a 4 == 1⟩ } } 0x0D 0 []) ∧
          -- the ring starts, with its count of entries at 0
          (c.2.1 = 0x0E → ∃ (addr : Nat) (t : State), exec c.1 s = reply t 0x0E 0 (bytesOf 8 addr) ∧ isDram addr = true ∧ addr % 8 = 0 ∧
             { t with mem := s.mem } = s ∧ t.mem.ring = some (a 0, a 1) ∧ t.mem.ringDone = 0 ∧ t.mem.watch = s.mem.watch ∧
             (reachable u addr = false → t.mem = { s.mem with ring := some (a 0, a 1), hits := [], ringDone := 0 }) ∧
             (reachable u addr = true → NoCopies s.mem →
               ∀ k, fget t.mem.cells k 0 = if addr ≤ k ∧ k < addr + 8 then 0 else fget s.mem.cells k 0)) ∧
          (c.2.1 = 0x0F → ∃ (k : Nat) (t : State), exec c.1 s = reply t 0x0F 0 [] ∧ (t.farm k).aborted = true ∧ (t.farm k).nextTid = (t.farm k).lrec.tasks ∧
             ((t.farm k).st = .closing ↔ (t.farm k).ended.length = (t.farm k).lrec.tasks ∧
               ∀ h ∈ t.opHdrs, ∀ v, h.core = .task v → v.farm.val ≠ k) ∧
             (t.farm k).lrec.asid.toNat = a 0 ∧ (t.farm k).lrec.done.toNat = a 1) ∧
          (c.2.1 = 0x10 → ∀ e, edgeOf (a 0) (a 1) = some e →
             ((∃ f ∈ s.drover.farms, f.2.st = .running ∧ routeHasEdge f.2.lrec.route e = true) → exec c.1 s = reply s 0x10 1 []) ∧
             ((∀ f ∈ s.drover.farms, f.2.st = .running → routeHasEdge f.2.lrec.route e = false) → exec c.1 s = reply { s with
                ursol := { u with edgeFenced := finsert u.edgeFenced e true }, drover := { s.drover with routes := s.drover.routes.filter fun r => !routeHasEdge r.1 e } } 0x10 0 [])) ∧
          (c.2.1 = 0x11 → ∃ r, exec c.1 s = reply s 0x11 0 r ∧ r.length = 544 ∧
             (∀ p, p < 4 → natOf ((r.drop (512 + 4 * p)).take 4) = fget u.rejects (4 * a 0 + p) 0 % 2 ^ 32 ∧
               natOf ((r.drop (528 + 4 * p)).take 4) = fget u.rejects (32 + p) 0 % 2 ^ 32) ∧ ∀ t, t < 64 →
             natOf ((r.drop (8 * t)).take 4) = (fget s.dram.corrected (64 * a 0 + t) 0 + fget s.mem.corrected (64 * a 0 + t) 0) % 2 ^ 32 ∧
             natOf ((r.drop (8 * t + 4)).take 4) = (fget s.dram.uncorrectable (64 * a 0 + t) 0 + fget s.mem.uncorrectable (64 * a 0 + t) 0) % 2 ^ 32) ∧
          (c.2.1 = 0x13 → (a 0 = 0 → exec c.1 s = reply (with' { u with physRegion := none }) 0x13 0 []) ∧
             (a 0 = 1 → ∃ k : W32, exec c.1 s = reply { s with
                free := s.free + 1, ursol := { u with physRegion := some k } } 0x13 0 (bytesOf 8 k.toNat)))) ∧
        exec (.readlog args) s = .next { s with
          ursol := { u with log := u.log.drop 64, out := u.out ++ [.logAnswer (u.log.take 64)] } }))

/-! ## Encodings -/

/-- R56-R65, R117-R126 and the tables of the families: words written out from their encodings decode to their
instructions. -/
def Obligations.DecodeWords : Prop :=
  (∀ q ∈ ([(0x2468A38B, .lih 7 0x2468A), (0xCF127385, .ori 7 7 0x6789), (0xFFFE6303, .addi 6 6 0x7FFF), (0xFFFE0311, .bne 6 0 0x7FFF),
      (0xA0208401, .min 8 8 16), (0x70009682, .clz 13 9), (0x000A0D20, .cwr 26 0x005), (0x01400021, .trap 5), (0x900D6021, .vsetl 0 22 6),
      (0x40000221, .scommit 4), (0x0848A498, .ld 9 10 .w .wis 2), (0x002C8499, .st 9 8 .d .wt 0), (0x8408A49C, .amoAdd 9 10 .w .plain .far),
      (0x1300B529, .arrive 12 10 11 0), (0x0380D529, .wait 14 10 13 false), (0x0274702A, .rowact 9 0 7 26), (0x381A902A, .rowcon true true 0 9 13),
      (0x0E2F552B, .tbld 10 21 23 24), (0x17BBC5AB, .lka 11 28 29 30), (0x23167FAC, .kvapp 31 7 11 12), (0x3024002C, .kvbindBind 0 18),
      (0x0B58B52D, .cpys 10 11 12 13)] : List (Nat × Instr)), decodeTableWord 32 q.1 = some q.2) ∧
  (∀ q ∈ ([(0x0000000000000001, .stop false), (0x0004080042028E10, .vadd ⟨true, 3⟩ .i32 (.vec 2 .row 1) (.vec 0 .row 1) (.vec 1 .row 1) false),
      (0x00FF380084050243, .vfma ⟨true, 0⟩ .fp32 (.vec 4 .row 2) (.vec 0 .row 2) (.scalar 7) .rne), (0x0000000001000271, .sqz true 1),
      (0x00FF8820BFD26054, .vrmini ⟨false, 0⟩ .n16 9 (.vec 1 .row 2) 17), (0x020007FA8140A280, .vld ⟨true, 0⟩ .n32 (.vec 1 .col 0) 10 ⟨.wt, .plain, false, false⟩),
      (0x0003000002016292, .qkdot ⟨true, 0⟩ (.vec 2 .row 0) (.vec 0 .row 0) 0)] : List (Nat × Instr)), decodeTableWord 64 q.1 = some q.2)

/-- R56-R64, R115-R126, R261, R265: every well-formed S-form instruction is read back from its word; the three uses of
KVBIND share a word, and the decoder names the first (R342). Rests on
log entry 45. -/
def Obligations.ScalarEncoding : Prop :=
  ∀ (i : Instr) (w : Nat), i.WellFormed → encode i = some (32, w) → w < 2 ^ 32 ∧ decodeS w = .ok i.canonical

/-- R56-R65, R141, R145: every well-formed E-form instruction is read back from its word. -/
def Obligations.ElementEncoding : Prop :=
  ∀ (i : Instr) (w : Nat), i.WellFormed → encode i = some (64, w) → w < 2 ^ 64 ∧ decodeE w = .ok i

/-! ## Steps, reset and the invariant of memory -/

/-- R56, R74, R86, R102, R115: a core that may move, by itself or where the schedule names it, fetches the word at its pc
and runs the instruction it decodes to, or the illegal encoding it is; the scalar stream meets an illegal word behind a
running block and waits, but a fetch of it that faults does so at once, behind a running block too (a choice of the
model, log entry 51), and in step mode it waits for the block's end (R390); an entry address above the address range takes its range fault (R191); a running block runs the next word of its checked convoy, or checks the next convoy; a scheduled step of the opcode table's second part runs
where its unit may, and so does a move that has no row; a limit on tokens reaches a stream consumer only (log entry 53); and
after each the reports of the Folds change only what the Drover knows of farms and parked
tasks, and what a tile knows of the transfers it holds. Rests on
log entries 17 and 21. -/
def Obligations.StepRunsDecoded : Prop :=
  (∀ (s u : State) (w : Nat) (i : Instr), s.coreRuns = true → s.joinWait = none →
    (let o := runStream s .scalar
     (s.core.inBlock = true → s.core.task.step = true → o = .next s.observe) ∧
     (s.core.inBlock = false ∨ s.core.task.step = false →
     (s.core.task.entryHigh = 0 → coreFetch s s.core.pc 4 = (u, .ok w) →
       (decodeS w = .ok i → o = settle (exec i u)) ∧
       ((∀ j, decodeS w ≠ .ok j) →
         (NoBlock u → o = settle (exec (.illegalEncoding (BitVec.ofNat 64 w)) u)) ∧
         (∀ b, u.core.task.block = some b → u.core.id.isTask = true → o = .next u.observe))) ∧
     (∀ f, s.core.task.entryHigh = 0 → coreFetch s s.core.pc 4 = (u, .error f) → o = .next (u.memTrap f .fetch).observe) ∧
     (s.core.task.entryHigh ≠ 0 → o = .next
       (s.memTrap ⟨0x0008, BitVec.ofNat 64 (s.core.pc.toNat + 2 ^ 56 * s.core.task.entryHigh.toNat), 0⟩ .fetch).observe))) ∧
    (let o := runStream s .element
     (NoBlock s → o = .next s.observe) ∧
     (∀ b x rest, s.core.task.block = some b → b.words = x :: rest →
       (decodeE x.toNat = .ok i → o = settle (exec i s)) ∧
       ((∀ j, decodeE x.toNat ≠ .ok j) → o = settle (exec (.illegalEncoding (BitVec.ofNat 64 x.toNat)) s))) ∧
     (∀ b, s.core.task.block = some b → b.words = [] → coreFetch s b.bpc 8 = (u, .ok w) →
       (isStopOp (BitVec.ofNat 64 w) = true → decodeE w = .ok i → o = settle (exec i u)) ∧
       (isStopOp (BitVec.ofNat 64 w) = false → o = settle (exec .convoyCheck s))) ∧
     (∀ b f, s.core.task.block = some b → b.words = [] → coreFetch s b.bpc 8 = (u, .error f) → o = settle (exec .convoyCheck s)))) ∧
  (∀ (s : State), s.sched = [] → s.core.inBlock = false → step s = runStream s .scalar) ∧
  (∀ (s : State), s.sched = [] → s.core.inBlock = true → step s = runStream s .element) ∧
  (∀ (s u : State) (dt : Nat) (c : CoreId) (st : Stream) (rest : List Turn), s.sched = ⟨dt, .core c st⟩ :: rest →
    ((({ s with sched := rest } : State).advance dt).focus c = some u → step s = runStream u st) ∧
    ((({ s with sched := rest } : State).advance dt).focus c = none → step s = .fault .noSuchCore)) ∧
  (∀ (s u : State) (st : Stream), (s.coreRuns = false → runStream s st = .next s.observe) ∧
    (s.coreRuns = true → s.joinWait = some u → runStream s st = .next u.observe)) ∧
  (∀ (s v : State) (i : Instr) (dt : Nat) (rest : List Turn), s.sched = ⟨dt, .step i⟩ :: rest → encode i = none →
    (∀ x, i ≠ .illegalEncoding x) → i ≠ .convoyCheck → v = ({ s with sched := rest } : State).advance dt →
    (v.eventRuns i = true → step s = settle (exec i v)) ∧ (v.eventRuns i = false → step s = .next v.observe)) ∧
  -- a stream consumer under a limit on its tokens, and a move that has no row
  (∀ (s u : State) (dt n : Nat) (c : CoreId) (rest : List Turn) (b : Block) (x : W64) (ws : List W64) (i : Instr),
    s.sched = ⟨dt, .tokens c n⟩ :: rest → (({ s with sched := rest } : State).advance dt).focus c = some u → u.coreRuns = true → u.joinWait = none →
    u.core.task.block = some b → b.words = x :: ws → decodeE x.toNat = .ok i →
    ((∃ h d a st, i = .qkdot h d a st) ∨ (∃ h q k a st, i = .pvacc h q k a st) → n ≠ 0 →
      step s = settle (exec i { u with core := { u.core with task := { u.core.task with quota := some n } } })) ∧
    (n = 0 → step s = .next u.observe)) ∧
  (∀ (s : State) (m : Move) (dt : Nat) (rest : List Turn), s.sched = ⟨dt, m⟩ :: rest →
    (∀ c st, m ≠ .core c st) → (∀ c n, m ≠ .tokens c n) → (∀ i, m ≠ .step i) →
    step s = .next ((({ s with sched := rest } : State).advance dt).hardwareMove m).observe) ∧
  (∀ t : State, settle (.next t) = .next t.observe ∧ (t.drover.ending = [] →
    t.observe.core = t.core ∧ t.observe.others = t.others ∧ (t.mem.ring = none → t.mem.fits = true → t.observe.mem = t.mem) ∧
    { t.observe.dram with couldAt := t.dram.couldAt } = t.dram ∧ t.observe.tiles = t.tiles ∧ t.observe.eng = t.eng ∧ t.observe.ursol = t.ursol ∧
    t.observe.drover.ready = t.drover.ready ∧ t.observe.drover.queues = t.drover.queues))

/-- R28, R128, R129, R370, R372, R399, R401: right after power is applied no stack is on, no task runs, the trip temperature is
95, the cap is (4, 1, 1), the physical region and every grant are absent; the zeros of the supervisor cores' registers,
and those of memory, are the model's choice (log entries 1 and 2), and so is the last clause: a step for which nothing is
scheduled, at a state in which no core can move, changes nothing (log entries 17 and 18). -/
def Obligations.ResetState : Prop :=
  (∀ k, stackState State.reset.ursol k = .gate) ∧ (∀ c ∈ State.reset.cores, c.id.isTask = false) ∧ State.reset.tick0 = none ∧
  (∀ k : Fin 8, ∃ c, State.reset.findCore (.sup k) = some c ∧ c.pc = 0 ∧ c.sup.svec = 0 ∧ c.sup.inh = false ∧ c.sup.halted = false ∧
    ∀ r, c.reg r = 0) ∧
  State.reset.ursol.trip = 95 ∧ State.reset.ursol.hold = false ∧ State.reset.ursol.cap = ⟨4, true, true⟩ ∧ State.reset.ursol.physRegion = none ∧
  (∀ k, fget State.reset.ursol.rkeys k none = none) ∧ (∀ a, fget State.reset.mem.cells a 0 = 0) ∧ State.reset.mem.lines = [] ∧
  (∀ t, State.reset.farm? t = none) ∧ State.reset.parked = [] ∧ State.reset.ursol.boot = .powered ∧ step State.reset = .next State.reset

/-- The memory of the reset state has the canonical form (a choice of the model, log entry 9). -/
def Obligations.InvReset : Prop := Inv State.reset

/-- Every step keeps the canonical form of memory: addresses strictly rising, no listed zero (a choice of the model, log
entry 9). -/
def Obligations.InvStep : Prop := ∀ s t : State, Inv s → step s = .next t → Inv t

/-! ## The statements put together -/

/-- R123-R125: the branches, JAL and JALR. Rests on
log entry 30. -/
def Obligations.ControlFlow : Prop := Claims.Branches ∧ Claims.Jumps

/-- R118, R121, R122: the register and the immediate forms. -/
def Obligations.ScalarIntegers : Prop := Claims.ScalarRegisterForms ∧ Claims.ScalarImmediates

/-- R126-R129, R277: reading control words, the refresh phases among them. Rests on
log entry 30. -/
def Obligations.ControlWordValues : Prop := Claims.ControlWordReads ∧ Claims.RefreshPhaseWord

/-- R239 in the scratchpad: loads and stores. -/
def Obligations.ScratchpadAccesses : Prop := Claims.ScratchpadLoads ∧ Claims.ScratchpadStores

/-- R217, R239, R248: loads and stores of memory. Rests on
log entry 9. -/
def Obligations.HomeAccesses : Prop := Claims.HomeLoadsAndStores ∧ Claims.HomeAtomics ∧ Claims.StoreThenLoad

/-- R244, R253, R384, R386, R387: the ends of strips, and a full buffer. Rests on
log entry 29. -/
def Obligations.Strips : Prop := Claims.StripEnds ∧ Claims.StripCommit ∧ Claims.FullBuffer

/-- R109-R111: ETRIG, EXIT and YIELD. Rests on
log entry 29. -/
def Obligations.TaskEnds : Prop := Claims.Trigger ∧ Claims.TaskExit ∧ Claims.Yielding

/-- R262, R263, R267-R269: WAIT and POLL, ARRIVE and CSIG, and the ends of operations. Rests on
log entry 29. -/
def Obligations.CompletionObjects : Prop := Claims.WaitAndPoll ∧ Claims.ObjectUpdates ∧ Claims.OperationEnds

/-- R279-R287: ROWACT, ROWCON and ROWCLS. Rests on
log entries 30 and 53. -/
def Obligations.RowInstructions : Prop := Claims.RowActivation ∧ Claims.RowCommands ∧ Claims.RowFaults

/-- R299-R317: the commands of the builder and of the tiles. Rests on
log entry 30. -/
def Obligations.TableCommands : Prop := Claims.BuilderIssue ∧ Claims.TileIssue

/-- R112, R355, R356: LAUNCH, CPY and CPYS. Rests on
log entries 30 and 31. -/
def Obligations.LaunchAndCopy : Prop := Claims.LaunchIssue ∧ Claims.CopyIssue

/-- R331-R342: the Crook's commands, and KVBIND. Rests on
log entries 30, 45 and 51. -/
def Obligations.KvCommands : Prop := Claims.CrookIssue ∧ Claims.StreamBinding

/-- R66-R69, R105-R107: VSETL, VF, the check of a convoy, and STOP. Rests on
log entries 21, 22 and 30. -/
def Obligations.Blocks : Prop := Claims.VsetlAndVf ∧ Claims.ConvoyCheck ∧ Claims.BlockEnd

/-- R143, R149-R160: the integer element instructions. -/
def Obligations.ElementIntegers : Prop := Claims.VectorIntegers ∧ Claims.VectorMoves

/-- R142, R155, R159, R161, R162: mask results and scalar results. Rests on
log entry 20. -/
def Obligations.MasksAndScalars : Prop := Claims.MaskResults ∧ Claims.ElementToScalar

/-- R33-R40, R54, R169-R171: the formats' arithmetic, and the tree of a reduction. Rests on
log entry 28. -/
def Obligations.FloatArithmetic : Prop := Claims.FloatLaws ∧ Claims.ExactResults ∧ Claims.Tree

/-- R44, R174-R176: conversions, to O4 and to every other type. Rests on
log entries 16 and 28. -/
def Obligations.Conversions : Prop :=
  Claims.ConvertedElements ∧ Claims.ConvertedPairs ∧ Claims.ConvertedValues ∧ Claims.OutlierPairs

/-- R171, R180-R186: the cross-lane instructions. Rests on
log entries 20 and 28. -/
def Obligations.CrossLane : Prop := Claims.CrossLanes ∧ Claims.GroupFloats

/-- R273-R287, R294: the banks' own moves and the row transfer. Rests on
log entries 32, 38 and 46. -/
def Obligations.BankSteps : Prop := Claims.BankMoves ∧ Claims.RowTransfers

/-- R302-R307: the table builder's steps. Rests on
log entry 32. -/
def Obligations.BuilderRuns : Prop := Claims.BuilderSteps

/-- R310-R317: the tiles' steps. Rests on
log entries 32, 51 and 53. -/
def Obligations.TileRuns : Prop := Claims.TileSteps ∧ Claims.TileEnds

/-- R322, R328, R331-R340: the Crook's steps. Rests on
log entries 33 and 51. -/
def Obligations.CrookRuns : Prop :=
  Claims.CrookService ∧ Claims.CrookUnits ∧ Claims.EntryChanges ∧ Claims.CrookLookup ∧ Claims.CrookSeal ∧ Claims.CrookMoves ∧ Claims.CrookPins ∧
  Claims.CrookAppend ∧ Claims.CrookSign

/-- R138, R343, R355-R362, R368: the copy engine's steps, prefetches and chasing elements. Rests on
log entries 34 and 35. -/
def Obligations.CopyRuns : Prop := Claims.CopyStarts ∧ Claims.CopyProgress ∧ Claims.StreamHelpers

/-- R221, R225, R229, R238: requests at a home. Rests on
log entries 9, 37 and 46. -/
def Obligations.CoherenceRequests : Prop := Claims.FoldRequests

/-- R222, R225, R230, R231: what agents answer a home. Rests on
log entries 9, 37 and 47. -/
def Obligations.CoherenceAnswers : Prop := Claims.AgentAnswers

/-- R203, R204, R207, R208, R212: walks and shootdowns. Rests on
log entries 12 and 51. -/
def Obligations.WalksAndShootdowns : Prop := Claims.WalksAndShootdowns

/-- R84-R88, R101, R112, R113, R370: launch records on their way to a farm slot. Rests on
log entries 31 and 49. -/
def Obligations.LaunchRecords : Prop := Claims.LaunchRecords

/-- R89-R101: the life of a farm. Rests on
log entries 29, 48, 49 and 51. -/
def Obligations.FarmLife : Prop := Claims.FarmLife

/-- R95-R99, R388, R389, R441: placing tasks and pre-empting them. Rests on
log entry 29. -/
def Obligations.Placing : Prop := Claims.Placing

/-- R100, R267, R376, R377, R440: parked tasks and their service. Rests on
log entries 7 and 46. -/
def Obligations.Waking : Prop := Claims.Waking

/-- R94, R365-R367, R373: links. Rests on
log entries 24 and 40. -/
def Obligations.Links : Prop := Claims.Links

/-- R219, R367, R370-R372: the host's accesses. Rests on
log entries 39 and 40. -/
def Obligations.HostAccesses : Prop := Claims.HostAccesses

/-- R1, R28, R396, R397, R399, R403, R404: power and trust. Rests on
log entries 5, 41, 42 and 44. -/
def Obligations.Power : Prop := Claims.Power

/-- R394: the host's commands. Rests on
log entries 10, 41, 42, 43 and 53. -/
def Obligations.HostCommands : Prop := Claims.HostCommands
end

