-- ==== Sys2Proof/Laws/Store.lean ====
section
/-!
SUPPORT. Tables and byte strings: what is read after a write, and that every operation on a byte table
keeps its canonical form.
-/
namespace Sys2Proof.Machine
open Sys2Proof

/-! ## Read after write -/

theorem flook_ferase {α : Type} (m : FMap α) (k j : Nat) : flook (ferase m k) j = if j = k then none else flook m j := by
  induction m with
  | nil => simp [ferase, flook]
  | cons p r ih =>
    obtain ⟨i, u⟩ := p
    simp only [ferase, List.filter_cons] at ih ⊢
    by_cases hik : i = k
    · subst hik
      simp only [bne_self_eq_false, Bool.false_eq_true, if_false, ih, flook]
      split <;> simp_all
      intro h; omega
    · simp only [bne_iff_ne, ne_eq, hik, not_false_eq_true, if_true, flook, ih]
      split
      · simp_all
      · rfl

theorem flook_finsert {α : Type} (m : FMap α) (k j : Nat) (v : α) :
    flook (finsert m k v) j = if j = k then some v else flook m j := by
  induction m with
  | nil => simp [finsert, flook, eq_comm]
  | cons p r ih =>
    obtain ⟨i, u⟩ := p
    simp only [finsert]
    split
    · simp [flook, eq_comm]
    · split
      · rename_i h1 h2
        subst h2
        simp only [flook]
        split <;> simp_all
        intro h; omega
      · rename_i h1 h2
        simp only [flook, ih]
        split
        · rename_i h3; subst h3; simp [Ne.symm h2]
        · rfl

theorem fget_ferase {α : Type} (m : FMap α) (k j : Nat) (d : α) : fget (ferase m k) j d = if j = k then d else fget m j d := by
  unfold fget
  rw [flook_ferase]
  split <;> rfl

theorem fget_finsert {α : Type} (m : FMap α) (k j : Nat) (v d : α) :
    fget (finsert m k v) j d = if j = k then v else fget m j d := by
  unfold fget
  rw [flook_finsert]
  split <;> rfl

theorem fget_fset {α : Type} [DecidableEq α] (m : FMap α) (k j : Nat) (v d : α) :
    fget (fset m k v d) j d = if j = k then v else fget m j d := by
  unfold fset
  split
  · rename_i h; rw [fget_ferase, h]
  · exact fget_finsert m k j v d

/-- A byte string that is written is read back, byte for byte, and every other byte is as before. -/
theorem fget_writeBytes (bs : List Byte) : ∀ (m : FMap Byte) (a k : Nat),
    fget (writeBytes m a bs) k 0 = if a ≤ k ∧ k < a + bs.length then bs.getD (k - a) 0 else fget m k 0 := by
  induction bs with
  | nil => intro m a k; rw [if_neg (by simp)]; rfl
  | cons b r ih =>
    intro m a k
    rw [show writeBytes m a (b :: r) = writeBytes (fset m a b 0) (a + 1) r from rfl, ih, fget_fset]
    by_cases h1 : k = a
    · subst h1
      rw [if_neg (by omega), if_pos rfl, if_pos (by simp)]
      simp
    · by_cases h2 : a + 1 ≤ k ∧ k < a + 1 + r.length
      · obtain ⟨j, rfl⟩ : ∃ j, k = a + 1 + j := ⟨k - (a + 1), by omega⟩
        rw [if_pos h2, if_pos (by simp only [List.length_cons]; omega), show a + 1 + j - a = j + 1 by omega,
          show a + 1 + j - (a + 1) = j by omega]
        simp
      · rw [if_neg h2, if_neg h1, if_neg (by simp only [List.length_cons]; omega)]

theorem readBytes_length (m : FMap Byte) (a n : Nat) : (readBytes m a n).length = n := by simp [readBytes]

theorem readBytes_writeBytes (m : FMap Byte) (a : Nat) (bs : List Byte) : readBytes (writeBytes m a bs) a bs.length = bs := by
  apply List.ext_getElem
  · simp [readBytes]
  · intro i h1 h2
    rw [show (readBytes (writeBytes m a bs) a bs.length)[i] = fget (writeBytes m a bs) (a + i) 0 by simp [readBytes],
      fget_writeBytes, if_pos (by omega)]
    simp [h2]

/-! ## Numbers and their bytes -/

@[simp] theorem bytesOf_length (n v : Nat) : (bytesOf n v).length = n := by simp [bytesOf]

theorem bytesOf_succ (n v : Nat) : bytesOf (n + 1) v = BitVec.ofNat 8 v :: bytesOf n (v / 256) := by
  simp only [bytesOf, List.range_succ_eq_map, List.map_cons, List.map_map]
  congr 1
  · simp
  · refine List.map_congr_left fun i _ => ?_
    show BitVec.ofNat 8 (v / 2 ^ (8 * (i + 1))) = BitVec.ofNat 8 (v / 256 / 2 ^ (8 * i))
    rw [Nat.div_div_eq_div_mul, show (256 : Nat) = 2 ^ 8 by rfl, ← Nat.pow_add, show 8 * (i + 1) = 8 + 8 * i by omega]

theorem natOf_bytesOf (n v : Nat) : natOf (bytesOf n v) = v % 2 ^ (8 * n) := by
  induction n generalizing v with
  | zero => simp [bytesOf, natOf, Nat.mod_one]
  | succ n ih =>
    rw [bytesOf_succ, natOf, ih, BitVec.toNat_ofNat, show 8 * (n + 1) = 8 + 8 * n by omega, Nat.pow_add, Nat.mod_mul]

/-! ## The canonical form -/

/-- The canonical form says: keys strictly rising, and no listed zero. -/
theorem wf_iff (m : FMap Byte) : FMap.wf m = true ↔ m.Pairwise (fun p q => p.1 < q.1) ∧ ∀ p ∈ m, p.2 ≠ 0 := by
  induction m with
  | nil => simp [FMap.wf]
  | cons p r ih =>
    obtain ⟨j, v⟩ := p
    cases r with
    | nil => simp [FMap.wf]
    | cons q r =>
      obtain ⟨k, u⟩ := q
      simp only [FMap.wf, Bool.and_eq_true, bne_iff_ne, decide_eq_true_eq, ih]
      constructor
      · rintro ⟨⟨h1, h2⟩, h3, h4⟩
        refine ⟨List.pairwise_cons.2 ⟨?_, h3⟩, ?_⟩
        · intro x hx
          rcases List.mem_cons.1 hx with rfl | hx
          · exact h2
          · exact lt_trans h2 ((List.pairwise_cons.1 h3).1 x hx)
        · intro x hx
          rcases List.mem_cons.1 hx with rfl | hx
          · exact h1
          · exact h4 x hx
      · rintro ⟨h1, h2⟩
        have h3 := List.pairwise_cons.1 h1
        exact ⟨⟨h2 (j, v) (by simp), h3.1 (k, u) (by simp)⟩, h3.2, fun x hx => h2 x (List.mem_cons_of_mem _ hx)⟩

theorem wf_filter {m : FMap Byte} (h : FMap.wf m = true) (p : Nat × Byte → Bool) : FMap.wf (m.filter p) = true := by
  rw [wf_iff] at *
  exact ⟨h.1.filter p, fun q hq => h.2 q (List.mem_of_mem_filter hq)⟩

theorem wf_ferase {m : FMap Byte} (h : FMap.wf m = true) (k : Nat) : FMap.wf (ferase m k) = true := wf_filter h _

theorem mem_finsert {α : Type} (k : Nat) (v : α) (p : Nat × α) : ∀ m : FMap α, p ∈ finsert m k v → p = (k, v) ∨ p ∈ m
  | [], h => by simpa [finsert] using h
  | (j, u) :: r, h => by
    simp only [finsert] at h
    split at h
    · simpa using h
    · split at h
      · rcases List.mem_cons.1 h with h | h
        · exact .inl h
        · exact .inr (List.mem_cons_of_mem _ h)
      · rcases List.mem_cons.1 h with h | h
        · exact .inr (by simp [h])
        · rcases mem_finsert k v p r h with h | h
          · exact .inl h
          · exact .inr (List.mem_cons_of_mem _ h)

theorem flook_mem {α : Type} {k : Nat} {v : α} : ∀ {m : FMap α}, flook m k = some v → (k, v) ∈ m
  | [], h => by simp [flook] at h
  | (j, u) :: r, h => by
    unfold flook at h
    split at h
    · rename_i hj; simp_all
    · exact List.mem_cons_of_mem _ (flook_mem h)

theorem mem_of_mem_ferase {α : Type} {k : Nat} {p : Nat × α} {m : FMap α} (h : p ∈ ferase m k) : p ∈ m := (List.mem_filter.1 h).1

theorem pairwise_finsert {α : Type} (k : Nat) (v : α) : ∀ m : FMap α, m.Pairwise (fun p q => p.1 < q.1) →
    (finsert m k v).Pairwise (fun p q => p.1 < q.1)
  | [], _ => by simp [finsert]
  | (j, u) :: r, h => by
    have h' := List.pairwise_cons.1 h
    simp only [finsert]
    split
    · rename_i hk
      refine List.pairwise_cons.2 ⟨?_, h⟩
      intro q hq
      rcases List.mem_cons.1 hq with rfl | hq
      · exact hk
      · exact lt_trans hk (h'.1 q hq)
    · split
      · rename_i hk; subst hk; exact List.pairwise_cons.2 h'
      · refine List.pairwise_cons.2 ⟨?_, pairwise_finsert k v r h'.2⟩
        intro q hq
        rcases mem_finsert k v q r hq with rfl | hq
        · show j < k; omega
        · exact h'.1 q hq

theorem wf_finsert {m : FMap Byte} (h : FMap.wf m = true) (k : Nat) {v : Byte} (hv : v ≠ 0) : FMap.wf (finsert m k v) = true := by
  rw [wf_iff] at *
  refine ⟨pairwise_finsert k v m h.1, fun p hp => ?_⟩
  rcases mem_finsert k v p m hp with rfl | hp
  · exact hv
  · exact h.2 p hp

theorem wf_fset {m : FMap Byte} (h : FMap.wf m = true) (k : Nat) (v : Byte) : FMap.wf (fset m k v 0) = true := by
  unfold fset
  split
  · exact wf_ferase h k
  · rename_i hv; exact wf_finsert h k hv

theorem wf_writeBytes (bs : List Byte) : ∀ {m : FMap Byte}, FMap.wf m = true → ∀ a, FMap.wf (writeBytes m a bs) = true := by
  induction bs with
  | nil => intro m h a; exact h
  | cons b r ih => intro m h a; exact ih (wf_fset h a b) _

end Sys2Proof.Machine
end

