-- ==== Sys2Proof/Laws/Coherence.lean ====
section
/-!
SUPPORT. The operations of the Fold and the first-level caches: which of them leave home memory as it is,
and that every one keeps its canonical form.
-/
namespace Sys2Proof.Machine
open Sys2Proof

/-- Home memory has its canonical form. -/
abbrev MemSys.Canonical (ms : MemSys) : Prop := Memory.wf ms.cells = true

/-- A chain of operations each of which keeps a property keeps it. -/
theorem foldl_keeps {α β : Type} {P : β → Prop} {f : β → α → β} (h : ∀ b x, P b → P (f b x)) :
    ∀ (l : List α) (b : β), P b → P (l.foldl f b)
  | [], _, hb => hb
  | x :: r, b, hb => foldl_keeps h r (f b x) (h b x hb)

/-- A chain of operations each of which leaves a value as it is leaves it. -/
theorem foldl_same {α β γ : Type} {g : β → γ} {f : β → α → β} (h : ∀ b x, g (f b x) = g b) :
    ∀ (l : List α) (b : β), g (l.foldl f b) = g b
  | [], _ => rfl
  | x :: r, b => (foldl_same h r (f b x)).trans (h b x)

/-! ## Operations that leave home memory as it is -/

@[simp] theorem watchApply_cells (ms : MemSys) (line : Nat) (w : BitVec 16) (who : Nat) (n r : Bool) :
    (watchApply ms line w who n r).cells = ms.cells := by unfold watchApply; split <;> rfl

@[simp] theorem putCopy_cells (ms : MemSys) (a line : Nat) (c : CacheLine) : (putCopy ms a line c).cells = ms.cells := by
  unfold putCopy; split <;> rfl

@[simp] theorem dropCopy_cells (ms : MemSys) (a line : Nat) : (dropCopy ms a line).cells = ms.cells := rfl

@[simp] theorem setPoison_cells (ms : MemSys) (a line : Nat) (w b : BitVec 16) : (setPoison ms a line w b).cells = ms.cells := rfl

@[simp] theorem setHomePoison_cells (ms : MemSys) (line : Nat) (w b : BitVec 16) : (setHomePoison ms line w b).cells = ms.cells := by
  unfold setHomePoison; split <;> rfl

@[simp] theorem dramAccess_cells (ms : MemSys) (line : Nat) : (dramAccess ms line).cells = ms.cells := rfl

@[simp] theorem setChanged_cells (ms : MemSys) (line : Nat) (b : Bool) : (setChanged ms line b).cells = ms.cells := by
  unfold setChanged; split <;> rfl

@[simp] theorem ncThrough_cells (old ms : MemSys) (line : Nat) (w p : Bool) : (ncThrough old ms line w p).cells = ms.cells := by
  unfold ncThrough; split <;> simp

@[simp] theorem dropEntry_cells (ms : MemSys) (line : Nat) : (dropEntry ms line).cells = ms.cells := by
  unfold dropEntry; dsimp only; split <;> rfl

@[simp] theorem countRead_cells (ms : MemSys) (line : Nat) : (countRead ms line).cells = ms.cells := rfl

@[simp] theorem putDir_cells (ms : MemSys) (line : Nat) (e : DirEntry) : (putDir ms line e).cells = ms.cells := by
  unfold putDir; split <;> rfl

@[simp] theorem fillLine_cells (ms : MemSys) (line : Nat) (nc : Bool) : (fillLine ms line nc).cells = ms.cells := by
  unfold fillLine; split
  · rfl
  · split <;> simp

@[simp] theorem dropNotices_cells (ms : MemSys) (a line : Nat) (w : BitVec 16) : (dropNotices ms a line w).cells = ms.cells := rfl

@[simp] theorem sendNotices_cells (ms : MemSys) (a line : Nat) (w : BitVec 16) : (sendNotices ms a line w).cells = ms.cells := rfl

@[simp] theorem deliverNotice_cells (ms : MemSys) (n : Notice) : (deliverNotice ms n).cells = ms.cells := by
  simp only [deliverNotice]; split <;> simp

@[simp] theorem deliverNotices_cells (ms : MemSys) (a : Nat) : (deliverNotices ms a).cells = ms.cells :=
  foldl_same (g := MemSys.cells) deliverNotice_cells _ _

@[simp] theorem noticesArrive_cells (ms : MemSys) (a line : Nat) : (noticesArrive ms a line).cells = ms.cells :=
  foldl_same (g := MemSys.cells) deliverNotice_cells _ _

@[simp] theorem doInvalidate_cells (ms : MemSys) (a line : Nat) : (doInvalidate ms a line).cells = ms.cells := by
  unfold doInvalidate
  split
  · split <;> simp
  · rfl

@[simp] theorem doForward_cells (ms : MemSys) (a line : Nat) (en : BitVec 64) (d : LineData) :
    (doForward ms a line en d).cells = ms.cells := by
  unfold doForward
  split
  · split <;> simp
  · rfl

@[simp] theorem installShared_cells (ms : MemSys) (who line : Nat) : (installShared ms who line).cells = ms.cells := by
  unfold installShared
  dsimp only
  rw [setPoison_cells]
  split
  · split <;> simp
  · simp

@[simp] theorem installOwned_cells (ms : MemSys) (who line : Nat) : (installOwned ms who line).cells = ms.cells := by
  unfold installOwned
  dsimp only
  rw [setPoison_cells]
  split <;> simp

@[simp] theorem dropWords_cells (ms : MemSys) (a line : Nat) (w : BitVec 16) : (dropWords ms a line w).cells = ms.cells := by
  unfold dropWords
  split
  · split <;> simp
  · rfl

@[simp] theorem ownCopyTakes_cells (ms : MemSys) (a line : Nat) (en : BitVec 64) (d : LineData) :
    (ownCopyTakes ms a line en d).cells = ms.cells := by unfold ownCopyTakes; split <;> simp

@[simp] theorem forgetNotices_cells (ms : MemSys) (a line : Nat) (w : BitVec 16) : (forgetNotices ms a line w).cells = ms.cells := by
  unfold forgetNotices; split <;> simp

@[simp] theorem unmark_cells (ms : MemSys) (ls : List Nat) : (unmark ms ls).cells = ms.cells := rfl

@[simp] theorem tagHits_cells (old ms : MemSys) (who : Nat) (asid : BitVec 14) : (tagHits old ms who asid).cells = ms.cells := rfl

@[simp] theorem installRead_cells (ms : MemSys) (a line : Nat) (w : BitVec 16) : (installRead ms a line w).cells = ms.cells := by
  unfold installRead
  split
  · split <;> simp
  · simp

@[simp] theorem clearMarkers_cells (ms : MemSys) (a : Nat) : (clearMarkers ms a).cells = ms.cells := rfl

@[simp] theorem dropClean_cells (ms : MemSys) (a : Nat) (s : Scope) : (dropClean ms a s).cells = ms.cells := by
  unfold dropClean; split <;> rfl

@[simp] theorem writeOwned_cells (ms : MemSys) (a line : Nat) (en : BitVec 64) (d : LineData) :
    (writeOwned ms a line en d).cells = ms.cells := by
  unfold writeOwned; split <;> simp

@[simp] theorem writeSis_cells (ms : MemSys) (a line : Nat) (en : BitVec 64) (d : LineData) :
    (writeSis ms a line en d).cells = ms.cells := by
  unfold writeSis
  split
  · split <;> simp
  · simp

/-! ## The canonical form is kept -/

theorem ite_canonical {β : Type} {c : Prop} [Decidable c] {x y : MemSys × β} (hx : x.1.Canonical) (hy : y.1.Canonical) :
    (if c then x else y).1.Canonical := by split <;> assumption

theorem applyHome_wf {ms : MemSys} (h : ms.Canonical) (line : Nat) (en : BitVec 64) (d : LineData) (who : Nat) :
    (applyHome ms line en d who).Canonical := by
  unfold MemSys.Canonical applyHome
  rw [watchApply_cells, setChanged_cells, setHomePoison_cells]
  refine foldl_keeps (P := fun m => Memory.wf m = true) ?_ _ _ h
  intro m i hm
  split
  · exact wf_fset hm _ _
  · exact hm

/-- Bytes applied at home are there, and every other byte of memory is as before. -/
theorem applyHome_read (ms : MemSys) (line : Nat) (en : BitVec 64) (d : LineData) (who k : Nat) :
    fget (applyHome ms line en d who).cells k 0 =
      if k / 64 = line ∧ en.getLsbD (k % 64) = true then BitVec.ofNat 8 (d.toNat / 2 ^ (8 * (k % 64))) else fget ms.cells k 0 := by
  unfold applyHome
  rw [watchApply_cells, setChanged_cells, setHomePoison_cells]
  dsimp only
  have key : ∀ (n : Nat) (m : FMap Byte), n ≤ 64 → fget ((List.range n).foldl (fun c i =>
      if en.getLsbD i then fset c (line * 64 + i) (BitVec.ofNat 8 (d.toNat / 2 ^ (8 * i))) 0 else c) m) k 0 =
      if k / 64 = line ∧ k % 64 < n ∧ en.getLsbD (k % 64) = true then BitVec.ofNat 8 (d.toNat / 2 ^ (8 * (k % 64))) else fget m k 0 := by
    intro n
    induction n with
    | zero => intro m _; simp
    | succ n ih =>
      intro m hn
      rw [List.range_succ, List.foldl_append]
      simp only [List.foldl_cons, List.foldl_nil]
      by_cases he : en.getLsbD n = true
      · rw [if_pos he, fget_fset]
        by_cases hk : k = line * 64 + n
        · rw [if_pos hk, if_pos]
          · rw [show k % 64 = n by omega]
          · rw [show k % 64 = n by omega]; exact ⟨by omega, by omega, he⟩
        · rw [if_neg hk, ih m (by omega)]
          congr 1
          apply propext
          constructor
          · rintro ⟨h1, h2, h3⟩; exact ⟨h1, by omega, h3⟩
          · rintro ⟨h1, h2, h3⟩; exact ⟨h1, by omega, h3⟩
      · rw [if_neg he, ih m (by omega)]
        congr 1
        apply propext
        constructor
        · rintro ⟨h1, h2, h3⟩; exact ⟨h1, by omega, h3⟩
        · rintro ⟨h1, h2, h3⟩
          refine ⟨h1, ?_, h3⟩
          rcases Nat.lt_succ_iff_lt_or_eq.1 h2 with h | h
          · exact h
          · rw [h] at h3; exact absurd h3 he
  rw [key 64 ms.cells (le_refl _)]
  congr 1
  apply propext
  constructor
  · rintro ⟨h1, -, h3⟩; exact ⟨h1, h3⟩
  · rintro ⟨h1, h3⟩; exact ⟨h1, Nat.mod_lt _ (by omega), h3⟩

theorem returnWords_wf {ms : MemSys} (h : ms.Canonical) (a line : Nat) (w : BitVec 16) (d : LineData) :
    (returnWords ms a line w d).Canonical := by
  simpa [returnWords, MemSys.Canonical] using applyHome_wf h _ _ _ _

theorem doPull_wf {ms : MemSys} (h : ms.Canonical) (a line : Nat) (w : BitVec 16) : (doPull ms a line w).Canonical := by
  unfold doPull
  split
  · simpa [MemSys.Canonical] using returnWords_wf h _ _ _ _
  · exact h

theorem doRecall_wf {ms : MemSys} (h : ms.Canonical) (a line : Nat) : (doRecall ms a line).Canonical := by
  unfold doRecall
  split
  · simpa [MemSys.Canonical] using returnWords_wf h _ _ _ _
  · exact h

theorem answerAsk_wf (line : Nat) {ms : MemSys} (h : ms.Canonical) (m : HomeMsg) : (answerAsk line ms m).Canonical := by
  have ha : ∀ a, (noticesArrive ms a line).Canonical := fun a => by simpa [MemSys.Canonical] using h
  cases m <;> simp only [answerAsk]
  case inv a => simpa [MemSys.Canonical] using h
  case pull a w => exact doPull_wf (ha a) _ _ _
  case fwd a en d => simpa [MemSys.Canonical] using h
  case publish => exact h
  exact doRecall_wf (ha _) _ _

theorem answerAsks_wf (line : Nat) {ms : MemSys} (h : ms.Canonical) (l : List HomeMsg) : (l.foldl (answerAsk line) ms).Canonical :=
  foldl_keeps (P := MemSys.Canonical) (fun _ m hb => answerAsk_wf line hb m) l ms h

theorem farAct_wf {ms : MemSys} (h : ms.Canonical) (who line off n : Nat) (new : Option Nat) : (farAct ms who line off n new).1.Canonical := by
  have hp : ∀ e, (putDir ms line e).Canonical := fun e => by simpa [MemSys.Canonical] using h
  unfold farAct
  split
  · simp only [MemSys.Canonical, putDir_cells]
    exact applyHome_wf (hp _) _ _ _ _
  · exact hp _

theorem homeAct_wf {ms : MemSys} (h : ms.Canonical) (who line : Nat) (k : ReqKind) : (homeAct ms who line k).1.Canonical := by
  cases k with
  | getS =>
    simp only [homeAct, MemSys.Canonical, installShared_cells]
    split
    · split <;> simpa using h
    · simpa using h
  | getO b => simpa [homeAct, MemSys.Canonical] using h
  | read w => simpa [homeAct, MemSys.Canonical] using h
  | write en d =>
    have hp : (putDir ms line (dirOf ms line)).Canonical := by simpa [MemSys.Canonical] using h
    have h1 := applyHome_wf hp line en d who
    simp only [homeAct]
    split
    · simpa [MemSys.Canonical] using h1
    · split <;> simpa [MemSys.Canonical] using h1
  | far off n op => exact farAct_wf h _ _ _ _ _
  | marker => simpa [homeAct, MemSys.Canonical] using h

theorem runReq_wf {ms : MemSys} (h : ms.Canonical) (who line : Nat) (k : ReqKind) : (runReq ms who line k).Canonical := by
  unfold runReq
  refine answerAsks_wf line (homeAct_wf (answerAsks_wf line ?_ _) who line k) _
  simpa [MemSys.Canonical] using h

theorem runReqNc_wf {ms : MemSys} (h : ms.Canonical) (who line : Nat) (k : ReqKind) : (runReqNc ms who line k).Canonical := by
  unfold runReqNc
  split
  · simpa [MemSys.Canonical] using runReq_wf h who line k
  · exact runReq_wf h who line k

/-- An operation of a line keeps the canonical form. -/
abbrev KeepsForm (dr : MemSys → Nat → MemSys) : Prop := ∀ ms l, ms.Canonical → (dr ms l).Canonical

theorem publishLine_wf {dr : MemSys → Nat → MemSys} (hd : KeepsForm dr) (a : Nat) {ms : MemSys} (h : ms.Canonical) (line : Nat) :
    (publishLine dr a ms line).Canonical := by
  have h1 := hd _ line h
  unfold publishLine
  dsimp only
  generalize dr ms line = d at h1 ⊢
  split
  · split
    · exact h1
    · split
      · simpa [MemSys.Canonical] using runReq_wf h1 _ _ _
      · exact runReq_wf h1 _ _ _
  · exact h1

theorem settleAgent_wf {dr : MemSys → Nat → MemSys} (hd : KeepsForm dr) {ms : MemSys} (h : ms.Canonical) (a : Nat) :
    (settleAgent dr ms a).Canonical := by
  simpa [settleAgent, MemSys.Canonical] using
    foldl_keeps (P := MemSys.Canonical) (fun _ line hb => hd _ line hb) (pendingLines ms a) ms h

theorem publishLines_wf {dr : MemSys → Nat → MemSys} (hd : KeepsForm dr) {ms : MemSys} (h : ms.Canonical) (a : Nat) :
    (publishLines dr ms a).Canonical :=
  foldl_keeps (P := MemSys.Canonical) (fun _ line hb => publishLine_wf hd a hb line) _ _ h

theorem publishAll_wf {dr : MemSys → Nat → MemSys} (hd : KeepsForm dr) {ms : MemSys} (h : ms.Canonical) (a : Nat) :
    (publishAll dr ms a).Canonical := publishLines_wf hd (settleAgent_wf hd h a) a

theorem forcedPublishBy_wf {dr : MemSys → Nat → MemSys} (hd : KeepsForm dr) {ms : MemSys} (h : ms.Canonical) (a : Nat) :
    (forcedPublishBy dr ms a).Canonical := publishLines_wf hd (settleAgent_wf hd h a) a

theorem finishReq_wf {dr : MemSys → Nat → MemSys} (hd : KeepsForm dr) {ms : MemSys} (h : ms.Canonical) (r : HomeReq) :
    (finishReq dr ms r).Canonical := by
  have h1 : ∀ l : List HomeMsg, MemSys.Canonical (l.foldl (fun ms m => match m with
      | .publish a => (homeAsks (forcedPublishBy dr ms a) r.who r.line r.kind).foldl (answerAsk r.line) (forcedPublishBy dr ms a)
      | m => answerAsk r.line ms m) ms) := fun l =>
    foldl_keeps (P := MemSys.Canonical) (fun b m hb => by
      cases m with
      | publish a => exact answerAsks_wf r.line (forcedPublishBy_wf hd hb a) _
      | _ => exact answerAsk_wf r.line hb _) l ms h
  unfold finishReq
  dsimp only
  split
  · exact h1 _
  · exact answerAsks_wf r.line (homeAct_wf (h1 _) _ _ _) _

theorem drainN_wf : ∀ (n : Nat) (busy : List Nat), KeepsForm (drainN n busy)
  | 0, _ => fun _ _ h => h
  | n + 1, busy => fun ms line h => by
    unfold drainN
    split
    · exact h
    · split
      · exact h
      · refine drainN_wf n busy _ _ (finishReq_wf (drainN_wf n (line :: busy)) ?_ _)
        exact h

theorem drainLine_wf {ms : MemSys} (h : ms.Canonical) (line : Nat) : (drainLine ms line).Canonical := drainN_wf _ _ _ _ h

theorem drainLine_keeps : KeepsForm drainLine := fun _ line h => drainLine_wf h line

theorem forcedPublishOf_wf {ms : MemSys} (h : ms.Canonical) (a line : Nat) : (forcedPublishOf ms a line).Canonical :=
  forcedPublishBy_wf (fun _ l hm => drainN_wf _ _ _ l hm) h a

theorem forcePublish_wf {ms : MemSys} (h : ms.Canonical) (who line : Nat) : (forcePublish ms who line).Canonical := by
  unfold forcePublish
  dsimp only
  split
  · exact forcedPublishOf_wf h _ _
  · exact h

theorem releaseWide_wf {ms : MemSys} (h : ms.Canonical) (a : Nat) : (releaseWide ms a).Canonical := publishAll_wf drainLine_keeps h a

theorem markLine_wf (a : Nat) {ms : MemSys} (h : ms.Canonical) (line : Nat) : (markLine a ms line).Canonical :=
  runReq_wf (forcePublish_wf (drainLine_wf h line) a line) _ _ _

theorem releaseNarrow_wf {ms : MemSys} (h : ms.Canonical) (a : Nat) : (releaseNarrow ms a).Canonical :=
  foldl_keeps (P := MemSys.Canonical) (fun _ line hb => markLine_wf a hb line) _ ms h

theorem releaseAt_wf {ms : MemSys} (h : ms.Canonical) (a : Nat) (s : Scope) : (releaseAt ms a s).Canonical := by
  unfold releaseAt
  split
  · exact releaseWide_wf h a
  · split
    · exact h
    · exact releaseNarrow_wf h a

theorem acquireAt_wf {ms : MemSys} (h : ms.Canonical) (a : Nat) (s : Scope) : (acquireAt ms a s).Canonical := by
  unfold acquireAt
  split
  · exact h
  · simpa [MemSys.Canonical] using settleAgent_wf drainLine_keeps h a

theorem fenceAt_wf {ms : MemSys} (h : ms.Canonical) (a : Nat) (s : Scope) : (fenceAt ms a s).Canonical := by
  unfold fenceAt
  split
  · exact h
  · simpa [MemSys.Canonical] using releaseAt_wf (settleAgent_wf drainLine_keeps h a) a s

/-! ## Requests under way -/

theorem arriveReq_wf {ms : MemSys} (h : ms.Canonical) (who line : Nat) (k : ReqKind) (acq : Bool) :
    (arriveReq ms who line k acq).Canonical := by
  have h1 : (noticesArrive (drainLine ms line) who line).Canonical := by
    simpa [MemSys.Canonical] using drainLine_wf h line
  unfold arriveReq
  dsimp only
  split
  · split <;> exact homeAct_wf h1 _ _ _
  · exact h1

theorem settleReqs_wf {ms : MemSys} (h : ms.Canonical) : (settleReqs ms).Canonical := by
  unfold settleReqs
  split
  · exact h
  · dsimp only
    split
    · exact h
    · split <;> (refine homeAct_wf ?_ _ _ _; exact h)

theorem answerReq_wf {ms : MemSys} (h : ms.Canonical) (line : Nat) (p : HomeMsg → Bool) : (answerReq ms line p).Canonical := by
  unfold answerReq
  split
  · exact h
  · split
    · exact h
    · dsimp only
      apply settleReqs_wf
      split
      · exact forcedPublishOf_wf (by exact h) _ _
      · refine answerAsk_wf line ?_ _; exact h

/-! ## Accesses -/

theorem loadLine_wf {ms : MemSys} (h : ms.Canonical) (a line : Nat) (en : BitVec 64) (p : EffPol) (acq : Bool) :
    (loadLine ms a line en p acq).Canonical := by
  have h1 := drainLine_wf h line
  unfold loadLine
  dsimp only
  generalize drainLine ms line = d at h1 ⊢
  have h2 : (if acq = true then forcePublish d a line else d).Canonical := by
    split
    · exact forcePublish_wf h1 _ _
    · exact h1
  generalize (if acq = true then forcePublish d a line else d) = m at h2 ⊢
  have h3 : ∀ q : EffPol, MemSys.Canonical (match q with
      | .own => runReq m a line (.getO false)
      | .wis => runReq m a line .getS
      | .nc => runReqNc m a line (.read (wordsTouched en))
      | _ => installRead (runReq m a line (.read (wordsTouched en))) a line (wordsTouched en)) := fun q => by
    cases q <;> first
      | exact runReq_wf h2 _ _ _
      | exact runReqNc_wf h2 _ _ _
      | (show Memory.wf (installRead _ _ _ _).cells = true; rw [installRead_cells]; exact runReq_wf h2 _ _ _)
  split
  · split
    · exact h1
    · exact h3 p
  · exact h3 p

theorem agentLoad_wf {ms : MemSys} (h : ms.Canonical) (a pa n : Nat) (p : EffPol) (acq : Bool) :
    (agentLoad ms a pa n p acq).1.Canonical := loadLine_wf h _ _ _ _ _

theorem runReqAs_wf {ms : MemSys} (h : ms.Canonical) (nc : Bool) (who line : Nat) (k : ReqKind) : (runReqAs nc ms who line k).Canonical := by
  unfold runReqAs
  split
  · exact runReqNc_wf h _ _ _
  · exact runReq_wf h _ _ _

theorem writeThrough_wf {ms : MemSys} (h : ms.Canonical) (a line : Nat) (en : BitVec 64) (d : LineData) (p : EffPol) :
    (writeThrough ms a line en d p).Canonical := by
  have h1 : ∀ b : Bool, MemSys.Canonical (if b then writeOwned ms a line en d else ownCopyTakes ms a line en d) := by
    intro b; cases b <;> simpa [MemSys.Canonical] using h
  have h2 : ∀ {m : MemSys} (b : Bool), m.Canonical →
      MemSys.Canonical (if b then runReqNc m a line (.write en d) else runReq m a line (.write en d)) := by
    intro m b hm; split
    · exact runReqNc_wf hm _ _ _
    · exact runReq_wf hm _ _ _
  have h3 : ∀ {m : MemSys} (b : Bool), m.Canonical → MemSys.Canonical (if b then forgetNotices m a line (wordsCovered en) else m) := by
    intro m b hm; split
    · simpa [MemSys.Canonical] using hm
    · exact hm
  exact h3 _ (h2 _ (h1 _))

theorem agentStore_wf {ms : MemSys} (h : ms.Canonical) (a pa n v : Nat) (p : EffPol) : (agentStore ms a pa n v p).Canonical := by
  have h1 := drainLine_wf h (lineOf pa)
  unfold agentStore
  cases p with
  | own =>
    simp only [MemSys.Canonical, writeOwned_cells]
    split
    · split
      · exact h1
      · exact runReq_wf h1 _ _ _
    · exact runReq_wf h1 _ _ _
  | sis => simpa [MemSys.Canonical] using h1
  | wt => exact writeThrough_wf h1 _ _ _ _ _
  | wis => exact writeThrough_wf h1 _ _ _ _ _
  | nc => exact writeThrough_wf h1 _ _ _ _ _

theorem farPerform_wf {ms : MemSys} (h : ms.Canonical) (who line off n : Nat) (f : Nat → Option Nat) : (farPerform ms who line off n f).1.Canonical := by
  unfold farPerform
  dsimp only
  simp only [MemSys.Canonical, dropWords_cells]
  refine answerAsks_wf line (farAct_wf ?_ _ _ _ _ _) _
  have h1 : MemSys.Canonical ((farPulls (noticesArrive ms who line) line off n).foldl (answerAsk line) (noticesArrive ms who line)) :=
    answerAsks_wf line (by simpa [MemSys.Canonical] using h) _
  split
  · exact answerAsks_wf line h1 _
  · exact h1

theorem farNc_wf {ms : MemSys} (h : ms.Canonical) (who line off n : Nat) (f : Nat → Option Nat) (nc : Bool) :
    (farNc ms who line off n f nc).1.Canonical := by
  have h1 := farPerform_wf h who line off n f
  unfold farNc
  dsimp only
  split
  · exact h1
  · split
    · exact h1
    · simpa [MemSys.Canonical] using h1

theorem agentAtomic_wf {ms : MemSys} (h : ms.Canonical) (a pa n : Nat) (op : AtomOp) (pl : Place) (p : EffPol) (acq : Bool)
    (seen : Nat → Nat) : (agentAtomic ms a pa n op pl p acq seen).1.Canonical := by
  have h1 := drainLine_wf h (lineOf pa)
  have hf : ∀ {m : MemSys} (b : Bool), m.Canonical → (if b then forcePublish m a (lineOf pa) else m).Canonical := by
    intro m b hm; split
    · exact forcePublish_wf hm _ _
    · exact hm
  unfold agentAtomic
  dsimp only
  refine ite_canonical ?_ ?_
  · have h2 : ∀ o : Bool, MemSys.Canonical (if o then drainLine ms (lineOf pa) else
        runReq (if acq then forcePublish (drainLine ms (lineOf pa)) a (lineOf pa) else drainLine ms (lineOf pa)) a (lineOf pa) (.getO true)) := by
      intro o; split
      · exact h1
      · exact runReq_wf (hf acq h1) _ _ _
    split
    · simpa [MemSys.Canonical] using h2 _
    · exact h2 _
  · refine farNc_wf (hf acq ?_) _ _ _ _ _ _
    split
    · split
      · exact publishLine_wf drainLine_keeps a h1 _
      · exact h1
    · exact h1

theorem engineRead_wf {ms : MemSys} (h : ms.Canonical) (who pa n : Nat) (nc : Bool := false) : (engineRead ms who pa n nc).1.Canonical :=
  foldl_keeps (P := MemSys.Canonical) (fun _ _ hb => runReqAs_wf (drainLine_wf hb _) _ _ _ _) _ ms h

theorem engineWrite_wf {ms : MemSys} (h : ms.Canonical) (who pa : Nat) (bs : List Byte) (nc : Bool := false) :
    (engineWrite ms who pa bs nc).Canonical :=
  foldl_keeps (P := MemSys.Canonical) (fun b x hb => by
    refine runReqAs_wf ?_ _ _ _ _
    simpa [MemSys.Canonical] using drainLine_wf hb (lineOf x.1)) _ ms h

theorem farUpdate_wf {ms : MemSys} (h : ms.Canonical) (who pa n : Nat) (f : Nat → Nat) (nc : Bool := false) :
    (farUpdate ms who pa n f nc).1.Canonical := farNc_wf (drainLine_wf h _) _ _ _ _ _ _

theorem homeRead_wf {ms : MemSys} (h : ms.Canonical) (who pa n : Nat) (acq : Bool) (nc : Bool := false) :
    (homeRead ms who pa n acq nc).1.Canonical := by
  unfold homeRead
  apply engineRead_wf
  split
  · exact forcePublish_wf (drainLine_wf h _) _ _
  · exact drainLine_wf h _

theorem agentFetch_wf {ms : MemSys} (h : ms.Canonical) (a pa n : Nat) (nc : Bool) : (agentFetch ms a pa n nc).1.Canonical := by
  have h1 := drainLine_wf h (lineOf pa)
  have h2 : ∀ b : Bool, MemSys.Canonical (if b then drainLine ms (lineOf pa) else
      runReqAs nc (drainLine ms (lineOf pa)) a (lineOf pa) (.read (wordsTouched (accessBytes (pa % 64) n)))) := by
    intro b; cases b
    · exact runReqAs_wf h1 _ _ _ _
    · exact h1
  exact h2 _

theorem meetPoison_wf {ms : MemSys} (h : ms.Canonical) (ps : List (Nat × Nat)) (nc : Bool) : (meetPoison ms ps nc).Canonical := by
  unfold meetPoison
  split
  · simpa [MemSys.Canonical] using drainLine_wf h _
  · exact h

/-! ## Evictions -/

theorem doPutO_wf {ms : MemSys} (h : ms.Canonical) (a line : Nat) : (doPutO ms a line).Canonical := by
  have h1 : (noticesArrive ms a line).Canonical := by simpa [MemSys.Canonical] using h
  unfold doPutO
  split
  · split
    · rename_i c _ _
      have h2 := returnWords_wf h1 a line c.odirty c.data
      simpa [MemSys.Canonical] using h2
    · exact h
  · exact h

theorem evictCopy_wf {ms : MemSys} (h : ms.Canonical) (a line : Nat) : (evictCopy ms a line).Canonical := by
  have h1 := drainLine_wf h line
  unfold evictCopy
  dsimp only
  split
  · split
    · exact doPutO_wf h1 _ _
    · exact publishLine_wf drainLine_keeps a h1 _
  · exact h1

theorem evictHome_wf {ms : MemSys} (h : ms.Canonical) (line : Nat) : (evictHome ms line).Canonical := by
  have h1 := forcePublish_wf (drainLine_wf h line) 99 line
  unfold evictHome
  simp only [MemSys.Canonical, dropEntry_cells]
  refine answerAsks_wf line (ms := ite _ _ _) ?_ _
  split
  · exact h1
  · exact answerAsk_wf line h1 _

theorem trimFold_wf : ∀ (n : Nat) {ms : MemSys}, ms.Canonical → ∀ k, (trimFold n ms k).Canonical
  | 0, _, h, _ => h
  | n + 1, _, h, k => by
    unfold trimFold
    dsimp only
    split
    · exact h
    · exact trimFold_wf n (foldl_keeps (P := MemSys.Canonical) (fun _ l hb => evictHome_wf hb l) _ _ h) k

theorem trimCopies_wf {ms : MemSys} (h : ms.Canonical) (a : Nat) : (trimCopies ms a).Canonical := by
  unfold trimCopies
  exact foldl_keeps (P := MemSys.Canonical) (f := fun ms l => evictCopy ms a l) (fun _ l hb => evictCopy_wf hb a l) _ ms h

theorem trimFolds_wf {ms : MemSys} (h : ms.Canonical) (ks : List Nat) :
    (ks.foldl (fun ms k => trimFold (ms.lines.length + 1) ms k) ms).Canonical :=
  foldl_keeps (P := MemSys.Canonical) (f := fun ms k => trimFold (ms.lines.length + 1) ms k) (fun _ k hb => trimFold_wf _ hb k) ks ms h

/-- The evictions that the sizes of the stores ask for keep the canonical form. -/
theorem trim_wf {ms : MemSys} (h : ms.Canonical) : ms.trim.Canonical := by
  have h1 : ∀ l : List Nat, (l.foldl trimCopies ms).Canonical := fun l =>
    foldl_keeps (P := MemSys.Canonical) (f := trimCopies) (fun _ a hb => trimCopies_wf hb a) l ms h
  have h2 := trimFolds_wf (h1 (List.range 17)) (List.range 8)
  rw [MemSys.trim]
  cases ms.fits
  · exact h2
  · exact h

/-- Stores with places enough evict nothing. -/
theorem trim_fits {ms : MemSys} (h : ms.fits = true) : ms.trim = ms := by simp [MemSys.trim, h]

end Sys2Proof.Machine
end

