-- ==== Sys2Proof/Laws/State.lean ====
section
/-!
SUPPORT. What each update of the state leaves, field by field, so that no proof unfolds one.
-/
namespace Sys2Proof.Machine
open Sys2Proof Sys2Proof.Safety

/-! ### State.log -/

@[simp] theorem State.log_core (s : State) (e : LogEntry) : (s.log e).core = s.core := rfl
@[simp] theorem State.log_others (s : State) (e : LogEntry) : (s.log e).others = s.others := rfl
@[simp] theorem State.log_parked (s : State) (e : LogEntry) : (s.log e).parked = s.parked := rfl
@[simp] theorem State.log_service (s : State) (e : LogEntry) : (s.log e).service = s.service := rfl
@[simp] theorem State.log_mem (s : State) (e : LogEntry) : (s.log e).mem = s.mem := rfl
@[simp] theorem State.log_dram (s : State) (e : LogEntry) : (s.log e).dram = s.dram := rfl
@[simp] theorem State.log_tiles (s : State) (e : LogEntry) : (s.log e).tiles = s.tiles := rfl
@[simp] theorem State.log_eng (s : State) (e : LogEntry) : (s.log e).eng = s.eng := rfl
@[simp] theorem State.log_drover (s : State) (e : LogEntry) : (s.log e).drover = s.drover := rfl
@[simp] theorem State.log_ursol (s : State) (e : LogEntry) : (s.log e).ursol = { s.ursol with log := s.ursol.log ++ [e] } := rfl
@[simp] theorem State.log_sched (s : State) (e : LogEntry) : (s.log e).sched = s.sched := rfl
@[simp] theorem State.log_now (s : State) (e : LogEntry) : (s.log e).now = s.now := rfl
@[simp] theorem State.log_tick0 (s : State) (e : LogEntry) : (s.log e).tick0 = s.tick0 := rfl
@[simp] theorem State.log_free (s : State) (e : LogEntry) : (s.log e).free = s.free := rfl
@[simp] theorem State.log_seq (s : State) (e : LogEntry) : (s.log e).seq = s.seq := rfl

/-! ### State.send -/

@[simp] theorem State.send_core (s : State) (m : OutMsg) : (s.send m).core = s.core := rfl
@[simp] theorem State.send_others (s : State) (m : OutMsg) : (s.send m).others = s.others := rfl
@[simp] theorem State.send_parked (s : State) (m : OutMsg) : (s.send m).parked = s.parked := rfl
@[simp] theorem State.send_service (s : State) (m : OutMsg) : (s.send m).service = s.service := rfl
@[simp] theorem State.send_mem (s : State) (m : OutMsg) : (s.send m).mem = s.mem := rfl
@[simp] theorem State.send_dram (s : State) (m : OutMsg) : (s.send m).dram = s.dram := rfl
@[simp] theorem State.send_tiles (s : State) (m : OutMsg) : (s.send m).tiles = s.tiles := rfl
@[simp] theorem State.send_eng (s : State) (m : OutMsg) : (s.send m).eng = s.eng := rfl
@[simp] theorem State.send_drover (s : State) (m : OutMsg) : (s.send m).drover = s.drover := rfl
@[simp] theorem State.send_ursol (s : State) (m : OutMsg) : (s.send m).ursol = { s.ursol with out := s.ursol.out ++ [m] } := rfl
@[simp] theorem State.send_sched (s : State) (m : OutMsg) : (s.send m).sched = s.sched := rfl
@[simp] theorem State.send_now (s : State) (m : OutMsg) : (s.send m).now = s.now := rfl
@[simp] theorem State.send_tick0 (s : State) (m : OutMsg) : (s.send m).tick0 = s.tick0 := rfl
@[simp] theorem State.send_free (s : State) (m : OutMsg) : (s.send m).free = s.free := rfl
@[simp] theorem State.send_seq (s : State) (m : OutMsg) : (s.send m).seq = s.seq := rfl

/-! ### State.setFarm -/

@[simp] theorem State.setFarm_core (s : State) (n : Nat) (f : Farm) : (s.setFarm n f).core = s.core := rfl
@[simp] theorem State.setFarm_others (s : State) (n : Nat) (f : Farm) : (s.setFarm n f).others = s.others := rfl
@[simp] theorem State.setFarm_parked (s : State) (n : Nat) (f : Farm) : (s.setFarm n f).parked = s.parked := rfl
@[simp] theorem State.setFarm_service (s : State) (n : Nat) (f : Farm) : (s.setFarm n f).service = s.service := rfl
@[simp] theorem State.setFarm_mem (s : State) (n : Nat) (f : Farm) : (s.setFarm n f).mem = s.mem := rfl
@[simp] theorem State.setFarm_dram (s : State) (n : Nat) (f : Farm) : (s.setFarm n f).dram = s.dram := rfl
@[simp] theorem State.setFarm_tiles (s : State) (n : Nat) (f : Farm) : (s.setFarm n f).tiles = s.tiles := rfl
@[simp] theorem State.setFarm_eng (s : State) (n : Nat) (f : Farm) : (s.setFarm n f).eng = s.eng := rfl
@[simp] theorem State.setFarm_drover (s : State) (n : Nat) (f : Farm) : (s.setFarm n f).drover = { s.drover with farms := finsert s.drover.farms n f } := rfl
@[simp] theorem State.setFarm_ursol (s : State) (n : Nat) (f : Farm) : (s.setFarm n f).ursol = s.ursol := rfl
@[simp] theorem State.setFarm_sched (s : State) (n : Nat) (f : Farm) : (s.setFarm n f).sched = s.sched := rfl
@[simp] theorem State.setFarm_now (s : State) (n : Nat) (f : Farm) : (s.setFarm n f).now = s.now := rfl
@[simp] theorem State.setFarm_tick0 (s : State) (n : Nat) (f : Farm) : (s.setFarm n f).tick0 = s.tick0 := rfl
@[simp] theorem State.setFarm_free (s : State) (n : Nat) (f : Farm) : (s.setFarm n f).free = s.free := rfl
@[simp] theorem State.setFarm_seq (s : State) (n : Nat) (f : Farm) : (s.setFarm n f).seq = s.seq := rfl

/-! ### State.freeFarm -/

@[simp] theorem State.freeFarm_core (s : State) (n : Nat) : (s.freeFarm n).core = s.core := rfl
@[simp] theorem State.freeFarm_others (s : State) (n : Nat) : (s.freeFarm n).others = s.others := rfl
@[simp] theorem State.freeFarm_parked (s : State) (n : Nat) : (s.freeFarm n).parked = s.parked := rfl
@[simp] theorem State.freeFarm_service (s : State) (n : Nat) : (s.freeFarm n).service = s.service := rfl
@[simp] theorem State.freeFarm_mem (s : State) (n : Nat) : (s.freeFarm n).mem = s.mem := rfl
@[simp] theorem State.freeFarm_dram (s : State) (n : Nat) : (s.freeFarm n).dram = s.dram := rfl
@[simp] theorem State.freeFarm_tiles (s : State) (n : Nat) : (s.freeFarm n).tiles = s.tiles := rfl
@[simp] theorem State.freeFarm_eng (s : State) (n : Nat) : (s.freeFarm n).eng = s.eng := rfl
@[simp] theorem State.freeFarm_drover (s : State) (n : Nat) : (s.freeFarm n).drover = { s.drover with farms := ferase s.drover.farms n } := rfl
@[simp] theorem State.freeFarm_ursol (s : State) (n : Nat) : (s.freeFarm n).ursol = s.ursol := rfl
@[simp] theorem State.freeFarm_sched (s : State) (n : Nat) : (s.freeFarm n).sched = s.sched := rfl
@[simp] theorem State.freeFarm_now (s : State) (n : Nat) : (s.freeFarm n).now = s.now := rfl
@[simp] theorem State.freeFarm_tick0 (s : State) (n : Nat) : (s.freeFarm n).tick0 = s.tick0 := rfl
@[simp] theorem State.freeFarm_free (s : State) (n : Nat) : (s.freeFarm n).free = s.free := rfl
@[simp] theorem State.freeFarm_seq (s : State) (n : Nat) : (s.freeFarm n).seq = s.seq := rfl

/-! ### State.setQueue -/

@[simp] theorem State.setQueue_core (s : State) (n : Nat) (q : Queue) : (s.setQueue n q).core = s.core := rfl
@[simp] theorem State.setQueue_others (s : State) (n : Nat) (q : Queue) : (s.setQueue n q).others = s.others := rfl
@[simp] theorem State.setQueue_parked (s : State) (n : Nat) (q : Queue) : (s.setQueue n q).parked = s.parked := rfl
@[simp] theorem State.setQueue_service (s : State) (n : Nat) (q : Queue) : (s.setQueue n q).service = s.service := rfl
@[simp] theorem State.setQueue_mem (s : State) (n : Nat) (q : Queue) : (s.setQueue n q).mem = s.mem := rfl
@[simp] theorem State.setQueue_dram (s : State) (n : Nat) (q : Queue) : (s.setQueue n q).dram = s.dram := rfl
@[simp] theorem State.setQueue_tiles (s : State) (n : Nat) (q : Queue) : (s.setQueue n q).tiles = s.tiles := rfl
@[simp] theorem State.setQueue_eng (s : State) (n : Nat) (q : Queue) : (s.setQueue n q).eng = s.eng := rfl
@[simp] theorem State.setQueue_drover (s : State) (n : Nat) (q : Queue) : (s.setQueue n q).drover = { s.drover with queues := finsert s.drover.queues n q } := rfl
@[simp] theorem State.setQueue_ursol (s : State) (n : Nat) (q : Queue) : (s.setQueue n q).ursol = s.ursol := rfl
@[simp] theorem State.setQueue_sched (s : State) (n : Nat) (q : Queue) : (s.setQueue n q).sched = s.sched := rfl
@[simp] theorem State.setQueue_now (s : State) (n : Nat) (q : Queue) : (s.setQueue n q).now = s.now := rfl
@[simp] theorem State.setQueue_tick0 (s : State) (n : Nat) (q : Queue) : (s.setQueue n q).tick0 = s.tick0 := rfl
@[simp] theorem State.setQueue_free (s : State) (n : Nat) (q : Queue) : (s.setQueue n q).free = s.free := rfl
@[simp] theorem State.setQueue_seq (s : State) (n : Nat) (q : Queue) : (s.setQueue n q).seq = s.seq := rfl

/-! ### State.forked -/

@[simp] theorem State.forked_core (s : State) : (s.forked).core = s.core := rfl
@[simp] theorem State.forked_others (s : State) : (s.forked).others = s.others := rfl
@[simp] theorem State.forked_parked (s : State) : (s.forked).parked = s.parked := rfl
@[simp] theorem State.forked_service (s : State) : (s.forked).service = s.service := rfl
@[simp] theorem State.forked_mem (s : State) : (s.forked).mem = releaseWide s.mem s.core.agent := rfl
@[simp] theorem State.forked_dram (s : State) : (s.forked).dram = s.dram := rfl
@[simp] theorem State.forked_tiles (s : State) : (s.forked).tiles = s.tiles := rfl
@[simp] theorem State.forked_eng (s : State) : (s.forked).eng = s.eng := rfl
@[simp] theorem State.forked_drover (s : State) : (s.forked).drover = s.drover := rfl
@[simp] theorem State.forked_ursol (s : State) : (s.forked).ursol = s.ursol := rfl
@[simp] theorem State.forked_sched (s : State) : (s.forked).sched = s.sched := rfl
@[simp] theorem State.forked_now (s : State) : (s.forked).now = s.now := rfl
@[simp] theorem State.forked_tick0 (s : State) : (s.forked).tick0 = s.tick0 := rfl
@[simp] theorem State.forked_free (s : State) : (s.forked).free = s.free := rfl
@[simp] theorem State.forked_seq (s : State) : (s.forked).seq = s.seq + 1 := rfl

/-! ### State.setBank -/

@[simp] theorem State.setBank_core (s : State) (b : BankId) (k : Bank) : (s.setBank b k).core = s.core := rfl
@[simp] theorem State.setBank_others (s : State) (b : BankId) (k : Bank) : (s.setBank b k).others = s.others := rfl
@[simp] theorem State.setBank_parked (s : State) (b : BankId) (k : Bank) : (s.setBank b k).parked = s.parked := rfl
@[simp] theorem State.setBank_service (s : State) (b : BankId) (k : Bank) : (s.setBank b k).service = s.service := rfl
@[simp] theorem State.setBank_mem (s : State) (b : BankId) (k : Bank) : (s.setBank b k).mem = s.mem := rfl
@[simp] theorem State.setBank_tiles (s : State) (b : BankId) (k : Bank) : (s.setBank b k).tiles = s.tiles := rfl
@[simp] theorem State.setBank_eng (s : State) (b : BankId) (k : Bank) : (s.setBank b k).eng = s.eng := rfl
@[simp] theorem State.setBank_drover (s : State) (b : BankId) (k : Bank) : (s.setBank b k).drover = s.drover := rfl
@[simp] theorem State.setBank_ursol (s : State) (b : BankId) (k : Bank) : (s.setBank b k).ursol = s.ursol := rfl
@[simp] theorem State.setBank_sched (s : State) (b : BankId) (k : Bank) : (s.setBank b k).sched = s.sched := rfl
@[simp] theorem State.setBank_now (s : State) (b : BankId) (k : Bank) : (s.setBank b k).now = s.now := rfl
@[simp] theorem State.setBank_tick0 (s : State) (b : BankId) (k : Bank) : (s.setBank b k).tick0 = s.tick0 := rfl
@[simp] theorem State.setBank_free (s : State) (b : BankId) (k : Bank) : (s.setBank b k).free = s.free := rfl
@[simp] theorem State.setBank_seq (s : State) (b : BankId) (k : Bank) : (s.setBank b k).seq = s.seq := rfl

/-! ### State.request -/

@[simp] theorem State.request_core (s : State) (w l : Nat) (k : ReqKind) (q : Bool) : (s.request w l k q).core = s.core := rfl
@[simp] theorem State.request_others (s : State) (w l : Nat) (k : ReqKind) (q : Bool) : (s.request w l k q).others = s.others := rfl
@[simp] theorem State.request_parked (s : State) (w l : Nat) (k : ReqKind) (q : Bool) : (s.request w l k q).parked = s.parked := rfl
@[simp] theorem State.request_service (s : State) (w l : Nat) (k : ReqKind) (q : Bool) : (s.request w l k q).service = s.service := rfl
@[simp] theorem State.request_mem (s : State) (w l : Nat) (k : ReqKind) (q : Bool) : (s.request w l k q).mem = arriveReq s.mem w l k q := rfl
@[simp] theorem State.request_dram (s : State) (w l : Nat) (k : ReqKind) (q : Bool) : (s.request w l k q).dram = s.dram := rfl
@[simp] theorem State.request_tiles (s : State) (w l : Nat) (k : ReqKind) (q : Bool) : (s.request w l k q).tiles = s.tiles := rfl
@[simp] theorem State.request_eng (s : State) (w l : Nat) (k : ReqKind) (q : Bool) : (s.request w l k q).eng = s.eng := rfl
@[simp] theorem State.request_drover (s : State) (w l : Nat) (k : ReqKind) (q : Bool) : (s.request w l k q).drover = s.drover := rfl
@[simp] theorem State.request_ursol (s : State) (w l : Nat) (k : ReqKind) (q : Bool) : (s.request w l k q).ursol = s.ursol := rfl
@[simp] theorem State.request_sched (s : State) (w l : Nat) (k : ReqKind) (q : Bool) : (s.request w l k q).sched = s.sched := rfl
@[simp] theorem State.request_now (s : State) (w l : Nat) (k : ReqKind) (q : Bool) : (s.request w l k q).now = s.now := rfl
@[simp] theorem State.request_tick0 (s : State) (w l : Nat) (k : ReqKind) (q : Bool) : (s.request w l k q).tick0 = s.tick0 := rfl
@[simp] theorem State.request_free (s : State) (w l : Nat) (k : ReqKind) (q : Bool) : (s.request w l k q).free = s.free := rfl
@[simp] theorem State.request_seq (s : State) (w l : Nat) (k : ReqKind) (q : Bool) : (s.request w l k q).seq = s.seq := rfl

/-! ### State.answer -/

@[simp] theorem State.answer_core (s : State) (l : Nat) (p : HomeMsg → Bool) : (s.answer l p).core = s.core := rfl
@[simp] theorem State.answer_others (s : State) (l : Nat) (p : HomeMsg → Bool) : (s.answer l p).others = s.others := rfl
@[simp] theorem State.answer_parked (s : State) (l : Nat) (p : HomeMsg → Bool) : (s.answer l p).parked = s.parked := rfl
@[simp] theorem State.answer_service (s : State) (l : Nat) (p : HomeMsg → Bool) : (s.answer l p).service = s.service := rfl
@[simp] theorem State.answer_mem (s : State) (l : Nat) (p : HomeMsg → Bool) : (s.answer l p).mem = answerReq s.mem l p := rfl
@[simp] theorem State.answer_dram (s : State) (l : Nat) (p : HomeMsg → Bool) : (s.answer l p).dram = s.dram := rfl
@[simp] theorem State.answer_tiles (s : State) (l : Nat) (p : HomeMsg → Bool) : (s.answer l p).tiles = s.tiles := rfl
@[simp] theorem State.answer_eng (s : State) (l : Nat) (p : HomeMsg → Bool) : (s.answer l p).eng = s.eng := rfl
@[simp] theorem State.answer_drover (s : State) (l : Nat) (p : HomeMsg → Bool) : (s.answer l p).drover = s.drover := rfl
@[simp] theorem State.answer_ursol (s : State) (l : Nat) (p : HomeMsg → Bool) : (s.answer l p).ursol = s.ursol := rfl
@[simp] theorem State.answer_sched (s : State) (l : Nat) (p : HomeMsg → Bool) : (s.answer l p).sched = s.sched := rfl
@[simp] theorem State.answer_now (s : State) (l : Nat) (p : HomeMsg → Bool) : (s.answer l p).now = s.now := rfl
@[simp] theorem State.answer_tick0 (s : State) (l : Nat) (p : HomeMsg → Bool) : (s.answer l p).tick0 = s.tick0 := rfl
@[simp] theorem State.answer_free (s : State) (l : Nat) (p : HomeMsg → Bool) : (s.answer l p).free = s.free := rfl
@[simp] theorem State.answer_seq (s : State) (l : Nat) (p : HomeMsg → Bool) : (s.answer l p).seq = s.seq := rfl

/-! ### State.setBuilding -/

@[simp] theorem State.setBuilding_core (s : State) (k : Fin 8) (r : Option TbldRun) : (s.setBuilding k r).core = s.core := rfl
@[simp] theorem State.setBuilding_others (s : State) (k : Fin 8) (r : Option TbldRun) : (s.setBuilding k r).others = s.others := rfl
@[simp] theorem State.setBuilding_parked (s : State) (k : Fin 8) (r : Option TbldRun) : (s.setBuilding k r).parked = s.parked := rfl
@[simp] theorem State.setBuilding_service (s : State) (k : Fin 8) (r : Option TbldRun) : (s.setBuilding k r).service = s.service := rfl
@[simp] theorem State.setBuilding_mem (s : State) (k : Fin 8) (r : Option TbldRun) : (s.setBuilding k r).mem = s.mem := rfl
@[simp] theorem State.setBuilding_dram (s : State) (k : Fin 8) (r : Option TbldRun) : (s.setBuilding k r).dram = s.dram := rfl
@[simp] theorem State.setBuilding_tiles (s : State) (k : Fin 8) (r : Option TbldRun) : (s.setBuilding k r).tiles = s.tiles := rfl
@[simp] theorem State.setBuilding_drover (s : State) (k : Fin 8) (r : Option TbldRun) : (s.setBuilding k r).drover = s.drover := rfl
@[simp] theorem State.setBuilding_ursol (s : State) (k : Fin 8) (r : Option TbldRun) : (s.setBuilding k r).ursol = s.ursol := rfl
@[simp] theorem State.setBuilding_sched (s : State) (k : Fin 8) (r : Option TbldRun) : (s.setBuilding k r).sched = s.sched := rfl
@[simp] theorem State.setBuilding_now (s : State) (k : Fin 8) (r : Option TbldRun) : (s.setBuilding k r).now = s.now := rfl
@[simp] theorem State.setBuilding_tick0 (s : State) (k : Fin 8) (r : Option TbldRun) : (s.setBuilding k r).tick0 = s.tick0 := rfl
@[simp] theorem State.setBuilding_free (s : State) (k : Fin 8) (r : Option TbldRun) : (s.setBuilding k r).free = s.free := rfl
@[simp] theorem State.setBuilding_seq (s : State) (k : Fin 8) (r : Option TbldRun) : (s.setBuilding k r).seq = s.seq := rfl

/-! ### State.setTbld -/

@[simp] theorem State.setTbld_core (s : State) (k : Fin 8) (seq : Nat) (r : Option TbldRun) : (s.setTbld k seq r).core = s.core := by
  unfold State.setTbld; split <;> rfl
@[simp] theorem State.setTbld_others (s : State) (k : Fin 8) (seq : Nat) (r : Option TbldRun) : (s.setTbld k seq r).others = s.others := by
  unfold State.setTbld; split <;> rfl
@[simp] theorem State.setTbld_parked (s : State) (k : Fin 8) (seq : Nat) (r : Option TbldRun) : (s.setTbld k seq r).parked = s.parked := by
  unfold State.setTbld; split <;> rfl
@[simp] theorem State.setTbld_service (s : State) (k : Fin 8) (seq : Nat) (r : Option TbldRun) : (s.setTbld k seq r).service = s.service := by
  unfold State.setTbld; split <;> rfl
@[simp] theorem State.setTbld_mem (s : State) (k : Fin 8) (seq : Nat) (r : Option TbldRun) : (s.setTbld k seq r).mem = s.mem := by
  unfold State.setTbld; split <;> rfl
@[simp] theorem State.setTbld_dram (s : State) (k : Fin 8) (seq : Nat) (r : Option TbldRun) : (s.setTbld k seq r).dram = s.dram := by
  unfold State.setTbld; split <;> rfl
@[simp] theorem State.setTbld_tiles (s : State) (k : Fin 8) (seq : Nat) (r : Option TbldRun) : (s.setTbld k seq r).tiles = s.tiles := by
  unfold State.setTbld; split <;> rfl
@[simp] theorem State.setTbld_drover (s : State) (k : Fin 8) (seq : Nat) (r : Option TbldRun) : (s.setTbld k seq r).drover = s.drover := by
  unfold State.setTbld; split <;> rfl
@[simp] theorem State.setTbld_ursol (s : State) (k : Fin 8) (seq : Nat) (r : Option TbldRun) : (s.setTbld k seq r).ursol = s.ursol := by
  unfold State.setTbld; split <;> rfl
@[simp] theorem State.setTbld_sched (s : State) (k : Fin 8) (seq : Nat) (r : Option TbldRun) : (s.setTbld k seq r).sched = s.sched := by
  unfold State.setTbld; split <;> rfl
@[simp] theorem State.setTbld_now (s : State) (k : Fin 8) (seq : Nat) (r : Option TbldRun) : (s.setTbld k seq r).now = s.now := by
  unfold State.setTbld; split <;> rfl
@[simp] theorem State.setTbld_tick0 (s : State) (k : Fin 8) (seq : Nat) (r : Option TbldRun) : (s.setTbld k seq r).tick0 = s.tick0 := by
  unfold State.setTbld; split <;> rfl
@[simp] theorem State.setTbld_free (s : State) (k : Fin 8) (seq : Nat) (r : Option TbldRun) : (s.setTbld k seq r).free = s.free := by
  unfold State.setTbld; split <;> rfl
@[simp] theorem State.setTbld_seq (s : State) (k : Fin 8) (seq : Nat) (r : Option TbldRun) : (s.setTbld k seq r).seq = s.seq := by
  unfold State.setTbld; split <;> rfl

/-! ### State.countTransfer -/

@[simp] theorem State.countTransfer_core (s : State) (b : BankId) (c u : Nat) : (s.countTransfer b c u).core = s.core := rfl
@[simp] theorem State.countTransfer_others (s : State) (b : BankId) (c u : Nat) : (s.countTransfer b c u).others = s.others := rfl
@[simp] theorem State.countTransfer_parked (s : State) (b : BankId) (c u : Nat) : (s.countTransfer b c u).parked = s.parked := rfl
@[simp] theorem State.countTransfer_service (s : State) (b : BankId) (c u : Nat) : (s.countTransfer b c u).service = s.service := rfl
@[simp] theorem State.countTransfer_mem (s : State) (b : BankId) (c u : Nat) : (s.countTransfer b c u).mem = s.mem := rfl
@[simp] theorem State.countTransfer_tiles (s : State) (b : BankId) (c u : Nat) : (s.countTransfer b c u).tiles = s.tiles := rfl
@[simp] theorem State.countTransfer_eng (s : State) (b : BankId) (c u : Nat) : (s.countTransfer b c u).eng = s.eng := rfl
@[simp] theorem State.countTransfer_drover (s : State) (b : BankId) (c u : Nat) : (s.countTransfer b c u).drover = s.drover := rfl
@[simp] theorem State.countTransfer_ursol (s : State) (b : BankId) (c u : Nat) : (s.countTransfer b c u).ursol = s.ursol := rfl
@[simp] theorem State.countTransfer_sched (s : State) (b : BankId) (c u : Nat) : (s.countTransfer b c u).sched = s.sched := rfl
@[simp] theorem State.countTransfer_now (s : State) (b : BankId) (c u : Nat) : (s.countTransfer b c u).now = s.now := rfl
@[simp] theorem State.countTransfer_tick0 (s : State) (b : BankId) (c u : Nat) : (s.countTransfer b c u).tick0 = s.tick0 := rfl
@[simp] theorem State.countTransfer_free (s : State) (b : BankId) (c u : Nat) : (s.countTransfer b c u).free = s.free := rfl
@[simp] theorem State.countTransfer_seq (s : State) (b : BankId) (c u : Nat) : (s.countTransfer b c u).seq = s.seq := rfl

/-! ### State.freeRowSlot -/

@[simp] theorem State.freeRowSlot_core (s : State) (t : TileId) (n : Nat) : (s.freeRowSlot t n).core = s.core := rfl
@[simp] theorem State.freeRowSlot_others (s : State) (t : TileId) (n : Nat) : (s.freeRowSlot t n).others = s.others := rfl
@[simp] theorem State.freeRowSlot_parked (s : State) (t : TileId) (n : Nat) : (s.freeRowSlot t n).parked = s.parked := rfl
@[simp] theorem State.freeRowSlot_service (s : State) (t : TileId) (n : Nat) : (s.freeRowSlot t n).service = s.service := rfl
@[simp] theorem State.freeRowSlot_mem (s : State) (t : TileId) (n : Nat) : (s.freeRowSlot t n).mem = s.mem := rfl
@[simp] theorem State.freeRowSlot_tiles (s : State) (t : TileId) (n : Nat) : (s.freeRowSlot t n).tiles = s.tiles := rfl
@[simp] theorem State.freeRowSlot_eng (s : State) (t : TileId) (n : Nat) : (s.freeRowSlot t n).eng = s.eng := rfl
@[simp] theorem State.freeRowSlot_drover (s : State) (t : TileId) (n : Nat) : (s.freeRowSlot t n).drover = s.drover := rfl
@[simp] theorem State.freeRowSlot_ursol (s : State) (t : TileId) (n : Nat) : (s.freeRowSlot t n).ursol = s.ursol := rfl
@[simp] theorem State.freeRowSlot_sched (s : State) (t : TileId) (n : Nat) : (s.freeRowSlot t n).sched = s.sched := rfl
@[simp] theorem State.freeRowSlot_now (s : State) (t : TileId) (n : Nat) : (s.freeRowSlot t n).now = s.now := rfl
@[simp] theorem State.freeRowSlot_tick0 (s : State) (t : TileId) (n : Nat) : (s.freeRowSlot t n).tick0 = s.tick0 := rfl
@[simp] theorem State.freeRowSlot_free (s : State) (t : TileId) (n : Nat) : (s.freeRowSlot t n).free = s.free := rfl
@[simp] theorem State.freeRowSlot_seq (s : State) (t : TileId) (n : Nat) : (s.freeRowSlot t n).seq = s.seq := rfl

/-! ### State.withQuota -/

@[simp] theorem State.withQuota_core (s : State) (n : Option Nat) : (s.withQuota n).core = { s.core with task := { s.core.task with quota := n } } := rfl
@[simp] theorem State.withQuota_others (s : State) (n : Option Nat) : (s.withQuota n).others = s.others := rfl
@[simp] theorem State.withQuota_parked (s : State) (n : Option Nat) : (s.withQuota n).parked = s.parked := rfl
@[simp] theorem State.withQuota_service (s : State) (n : Option Nat) : (s.withQuota n).service = s.service := rfl
@[simp] theorem State.withQuota_mem (s : State) (n : Option Nat) : (s.withQuota n).mem = s.mem := rfl
@[simp] theorem State.withQuota_dram (s : State) (n : Option Nat) : (s.withQuota n).dram = s.dram := rfl
@[simp] theorem State.withQuota_tiles (s : State) (n : Option Nat) : (s.withQuota n).tiles = s.tiles := rfl
@[simp] theorem State.withQuota_eng (s : State) (n : Option Nat) : (s.withQuota n).eng = s.eng := rfl
@[simp] theorem State.withQuota_drover (s : State) (n : Option Nat) : (s.withQuota n).drover = s.drover := rfl
@[simp] theorem State.withQuota_ursol (s : State) (n : Option Nat) : (s.withQuota n).ursol = s.ursol := rfl
@[simp] theorem State.withQuota_sched (s : State) (n : Option Nat) : (s.withQuota n).sched = s.sched := rfl
@[simp] theorem State.withQuota_now (s : State) (n : Option Nat) : (s.withQuota n).now = s.now := rfl
@[simp] theorem State.withQuota_tick0 (s : State) (n : Option Nat) : (s.withQuota n).tick0 = s.tick0 := rfl
@[simp] theorem State.withQuota_free (s : State) (n : Option Nat) : (s.withQuota n).free = s.free := rfl
@[simp] theorem State.withQuota_seq (s : State) (n : Option Nat) : (s.withQuota n).seq = s.seq := rfl

/-! ### State.setKvQ -/

@[simp] theorem State.setKvQ_core (s : State) (k : Fin 8) (q : List KvCmd) : (s.setKvQ k q).core = s.core := rfl
@[simp] theorem State.setKvQ_others (s : State) (k : Fin 8) (q : List KvCmd) : (s.setKvQ k q).others = s.others := rfl
@[simp] theorem State.setKvQ_parked (s : State) (k : Fin 8) (q : List KvCmd) : (s.setKvQ k q).parked = s.parked := rfl
@[simp] theorem State.setKvQ_service (s : State) (k : Fin 8) (q : List KvCmd) : (s.setKvQ k q).service = s.service := rfl
@[simp] theorem State.setKvQ_mem (s : State) (k : Fin 8) (q : List KvCmd) : (s.setKvQ k q).mem = s.mem := rfl
@[simp] theorem State.setKvQ_dram (s : State) (k : Fin 8) (q : List KvCmd) : (s.setKvQ k q).dram = s.dram := rfl
@[simp] theorem State.setKvQ_tiles (s : State) (k : Fin 8) (q : List KvCmd) : (s.setKvQ k q).tiles = s.tiles := rfl
@[simp] theorem State.setKvQ_eng (s : State) (k : Fin 8) (q : List KvCmd) : (s.setKvQ k q).eng = { s.eng with kvQ := finsert s.eng.kvQ k.val q } := rfl
@[simp] theorem State.setKvQ_drover (s : State) (k : Fin 8) (q : List KvCmd) : (s.setKvQ k q).drover = s.drover := rfl
@[simp] theorem State.setKvQ_ursol (s : State) (k : Fin 8) (q : List KvCmd) : (s.setKvQ k q).ursol = s.ursol := rfl
@[simp] theorem State.setKvQ_sched (s : State) (k : Fin 8) (q : List KvCmd) : (s.setKvQ k q).sched = s.sched := rfl
@[simp] theorem State.setKvQ_now (s : State) (k : Fin 8) (q : List KvCmd) : (s.setKvQ k q).now = s.now := rfl
@[simp] theorem State.setKvQ_tick0 (s : State) (k : Fin 8) (q : List KvCmd) : (s.setKvQ k q).tick0 = s.tick0 := rfl
@[simp] theorem State.setKvQ_free (s : State) (k : Fin 8) (q : List KvCmd) : (s.setKvQ k q).free = s.free := rfl
@[simp] theorem State.setKvQ_seq (s : State) (k : Fin 8) (q : List KvCmd) : (s.setKvQ k q).seq = s.seq := rfl

/-! ### State.foldServed -/

@[simp] theorem State.foldServed_core (s : State) (b : BankId) (r : Nat) : (s.foldServed b r).core = s.core := rfl
@[simp] theorem State.foldServed_others (s : State) (b : BankId) (r : Nat) : (s.foldServed b r).others = s.others := rfl
@[simp] theorem State.foldServed_parked (s : State) (b : BankId) (r : Nat) : (s.foldServed b r).parked = s.parked := rfl
@[simp] theorem State.foldServed_service (s : State) (b : BankId) (r : Nat) : (s.foldServed b r).service = s.service := rfl
@[simp] theorem State.foldServed_mem (s : State) (b : BankId) (r : Nat) : (s.foldServed b r).mem = { s.mem with dramWork := removeFirst (lineInRow b r) s.mem.dramWork } := rfl
@[simp] theorem State.foldServed_dram (s : State) (b : BankId) (r : Nat) : (s.foldServed b r).dram = s.dram := rfl
@[simp] theorem State.foldServed_tiles (s : State) (b : BankId) (r : Nat) : (s.foldServed b r).tiles = s.tiles := rfl
@[simp] theorem State.foldServed_eng (s : State) (b : BankId) (r : Nat) : (s.foldServed b r).eng = s.eng := rfl
@[simp] theorem State.foldServed_drover (s : State) (b : BankId) (r : Nat) : (s.foldServed b r).drover = s.drover := rfl
@[simp] theorem State.foldServed_ursol (s : State) (b : BankId) (r : Nat) : (s.foldServed b r).ursol = s.ursol := rfl
@[simp] theorem State.foldServed_sched (s : State) (b : BankId) (r : Nat) : (s.foldServed b r).sched = s.sched := rfl
@[simp] theorem State.foldServed_now (s : State) (b : BankId) (r : Nat) : (s.foldServed b r).now = s.now := rfl
@[simp] theorem State.foldServed_tick0 (s : State) (b : BankId) (r : Nat) : (s.foldServed b r).tick0 = s.tick0 := rfl
@[simp] theorem State.foldServed_free (s : State) (b : BankId) (r : Nat) : (s.foldServed b r).free = s.free := rfl
@[simp] theorem State.foldServed_seq (s : State) (b : BankId) (r : Nat) : (s.foldServed b r).seq = s.seq := rfl

/-! ### State.foldUsedBus -/

@[simp] theorem State.foldUsedBus_core (s : State) (b : BankId) (t : Nat) : (s.foldUsedBus b t).core = s.core := rfl
@[simp] theorem State.foldUsedBus_others (s : State) (b : BankId) (t : Nat) : (s.foldUsedBus b t).others = s.others := rfl
@[simp] theorem State.foldUsedBus_parked (s : State) (b : BankId) (t : Nat) : (s.foldUsedBus b t).parked = s.parked := rfl
@[simp] theorem State.foldUsedBus_service (s : State) (b : BankId) (t : Nat) : (s.foldUsedBus b t).service = s.service := rfl
@[simp] theorem State.foldUsedBus_mem (s : State) (b : BankId) (t : Nat) : (s.foldUsedBus b t).mem = s.mem := rfl
@[simp] theorem State.foldUsedBus_tiles (s : State) (b : BankId) (t : Nat) : (s.foldUsedBus b t).tiles = s.tiles := rfl
@[simp] theorem State.foldUsedBus_eng (s : State) (b : BankId) (t : Nat) : (s.foldUsedBus b t).eng = s.eng := rfl
@[simp] theorem State.foldUsedBus_drover (s : State) (b : BankId) (t : Nat) : (s.foldUsedBus b t).drover = s.drover := rfl
@[simp] theorem State.foldUsedBus_ursol (s : State) (b : BankId) (t : Nat) : (s.foldUsedBus b t).ursol = s.ursol := rfl
@[simp] theorem State.foldUsedBus_sched (s : State) (b : BankId) (t : Nat) : (s.foldUsedBus b t).sched = s.sched := rfl
@[simp] theorem State.foldUsedBus_now (s : State) (b : BankId) (t : Nat) : (s.foldUsedBus b t).now = s.now := rfl
@[simp] theorem State.foldUsedBus_tick0 (s : State) (b : BankId) (t : Nat) : (s.foldUsedBus b t).tick0 = s.tick0 := rfl
@[simp] theorem State.foldUsedBus_free (s : State) (b : BankId) (t : Nat) : (s.foldUsedBus b t).free = s.free := rfl
@[simp] theorem State.foldUsedBus_seq (s : State) (b : BankId) (t : Nat) : (s.foldUsedBus b t).seq = s.seq := rfl

@[simp] theorem State.foldUsedBus_bank (s : State) (b k : BankId) (t : Nat) : (s.foldUsedBus b t).bank k = s.bank k := rfl

/-! ### State.beginTransfers -/

@[simp] theorem State.beginTransfers_core (s : State) : (s.beginTransfers).core = s.core := rfl
@[simp] theorem State.beginTransfers_others (s : State) : (s.beginTransfers).others = s.others := rfl
@[simp] theorem State.beginTransfers_parked (s : State) : (s.beginTransfers).parked = s.parked := rfl
@[simp] theorem State.beginTransfers_service (s : State) : (s.beginTransfers).service = s.service := rfl
@[simp] theorem State.beginTransfers_mem (s : State) : (s.beginTransfers).mem = s.mem := rfl
@[simp] theorem State.beginTransfers_tiles (s : State) : (s.beginTransfers).tiles = s.tiles := rfl
@[simp] theorem State.beginTransfers_eng (s : State) : (s.beginTransfers).eng = s.eng := rfl
@[simp] theorem State.beginTransfers_drover (s : State) : (s.beginTransfers).drover = s.drover := rfl
@[simp] theorem State.beginTransfers_ursol (s : State) : (s.beginTransfers).ursol = s.ursol := rfl
@[simp] theorem State.beginTransfers_sched (s : State) : (s.beginTransfers).sched = s.sched := rfl
@[simp] theorem State.beginTransfers_now (s : State) : (s.beginTransfers).now = s.now := rfl
@[simp] theorem State.beginTransfers_tick0 (s : State) : (s.beginTransfers).tick0 = s.tick0 := rfl
@[simp] theorem State.beginTransfers_free (s : State) : (s.beginTransfers).free = s.free := rfl
@[simp] theorem State.beginTransfers_seq (s : State) : (s.beginTransfers).seq = s.seq := rfl

/-! ### State.noteTransfers -/

@[simp] theorem State.noteTransfers_core (s : State) : (s.noteTransfers).core = s.core := rfl
@[simp] theorem State.noteTransfers_others (s : State) : (s.noteTransfers).others = s.others := rfl
@[simp] theorem State.noteTransfers_parked (s : State) : (s.noteTransfers).parked = s.parked := rfl
@[simp] theorem State.noteTransfers_service (s : State) : (s.noteTransfers).service = s.service := rfl
@[simp] theorem State.noteTransfers_mem (s : State) : (s.noteTransfers).mem = s.mem := rfl
@[simp] theorem State.noteTransfers_tiles (s : State) : (s.noteTransfers).tiles = s.tiles := rfl
@[simp] theorem State.noteTransfers_eng (s : State) : (s.noteTransfers).eng = s.eng := rfl
@[simp] theorem State.noteTransfers_drover (s : State) : (s.noteTransfers).drover = s.drover := rfl
@[simp] theorem State.noteTransfers_ursol (s : State) : (s.noteTransfers).ursol = s.ursol := rfl
@[simp] theorem State.noteTransfers_sched (s : State) : (s.noteTransfers).sched = s.sched := rfl
@[simp] theorem State.noteTransfers_now (s : State) : (s.noteTransfers).now = s.now := rfl
@[simp] theorem State.noteTransfers_tick0 (s : State) : (s.noteTransfers).tick0 = s.tick0 := rfl
@[simp] theorem State.noteTransfers_free (s : State) : (s.noteTransfers).free = s.free := rfl
@[simp] theorem State.noteTransfers_seq (s : State) : (s.noteTransfers).seq = s.seq := rfl

@[simp] theorem State.noteTransfers_bank (s : State) (b : BankId) : (s.noteTransfers).bank b = s.bank b := rfl
@[simp] theorem State.noteTransfers_cmds (s : State) : (s.noteTransfers).dram.cmds = s.dram.cmds := rfl

/-! ### State.countRing -/

@[simp] theorem State.countRing_core (s : State) : (s.countRing).core = s.core := by unfold State.countRing; split <;> rfl
@[simp] theorem State.countRing_others (s : State) : (s.countRing).others = s.others := by unfold State.countRing; split <;> rfl
@[simp] theorem State.countRing_parked (s : State) : (s.countRing).parked = s.parked := by unfold State.countRing; split <;> rfl
@[simp] theorem State.countRing_service (s : State) : (s.countRing).service = s.service := by unfold State.countRing; split <;> rfl
@[simp] theorem State.countRing_dram (s : State) : (s.countRing).dram = s.dram := by unfold State.countRing; split <;> rfl
@[simp] theorem State.countRing_tiles (s : State) : (s.countRing).tiles = s.tiles := by unfold State.countRing; split <;> rfl
@[simp] theorem State.countRing_eng (s : State) : (s.countRing).eng = s.eng := by unfold State.countRing; split <;> rfl
@[simp] theorem State.countRing_drover (s : State) : (s.countRing).drover = s.drover := by unfold State.countRing; split <;> rfl
@[simp] theorem State.countRing_ursol (s : State) : (s.countRing).ursol = s.ursol := by unfold State.countRing; split <;> rfl
@[simp] theorem State.countRing_sched (s : State) : (s.countRing).sched = s.sched := by unfold State.countRing; split <;> rfl
@[simp] theorem State.countRing_now (s : State) : (s.countRing).now = s.now := by unfold State.countRing; split <;> rfl
@[simp] theorem State.countRing_tick0 (s : State) : (s.countRing).tick0 = s.tick0 := by unfold State.countRing; split <;> rfl
@[simp] theorem State.countRing_free (s : State) : (s.countRing).free = s.free := by unfold State.countRing; split <;> rfl
@[simp] theorem State.countRing_seq (s : State) : (s.countRing).seq = s.seq := by unfold State.countRing; split <;> rfl

/-! ### State.emptyTlbs -/

@[simp] theorem State.emptyTlbs_core (s : State) (k : Fin 8) : (s.emptyTlbs k).core = s.core := rfl
@[simp] theorem State.emptyTlbs_others (s : State) (k : Fin 8) : (s.emptyTlbs k).others = s.others := rfl
@[simp] theorem State.emptyTlbs_parked (s : State) (k : Fin 8) : (s.emptyTlbs k).parked = s.parked := rfl
@[simp] theorem State.emptyTlbs_service (s : State) (k : Fin 8) : (s.emptyTlbs k).service = s.service := rfl
@[simp] theorem State.emptyTlbs_dram (s : State) (k : Fin 8) : (s.emptyTlbs k).dram = s.dram := rfl
@[simp] theorem State.emptyTlbs_tiles (s : State) (k : Fin 8) : (s.emptyTlbs k).tiles = s.tiles := rfl
@[simp] theorem State.emptyTlbs_eng (s : State) (k : Fin 8) : (s.emptyTlbs k).eng = s.eng := rfl
@[simp] theorem State.emptyTlbs_drover (s : State) (k : Fin 8) : (s.emptyTlbs k).drover = s.drover := rfl
@[simp] theorem State.emptyTlbs_ursol (s : State) (k : Fin 8) : (s.emptyTlbs k).ursol = s.ursol := rfl
@[simp] theorem State.emptyTlbs_sched (s : State) (k : Fin 8) : (s.emptyTlbs k).sched = s.sched := rfl
@[simp] theorem State.emptyTlbs_now (s : State) (k : Fin 8) : (s.emptyTlbs k).now = s.now := rfl
@[simp] theorem State.emptyTlbs_tick0 (s : State) (k : Fin 8) : (s.emptyTlbs k).tick0 = s.tick0 := rfl
@[simp] theorem State.emptyTlbs_free (s : State) (k : Fin 8) : (s.emptyTlbs k).free = s.free := rfl
@[simp] theorem State.emptyTlbs_seq (s : State) (k : Fin 8) : (s.emptyTlbs k).seq = s.seq := rfl

@[simp] theorem State.emptyTlbs_cells (s : State) (k : Fin 8) : (s.emptyTlbs k).mem.cells = s.mem.cells := rfl

/-! ### State.leaveGate -/

@[simp] theorem State.leaveGate_core (s : State) (k : Fin 8) : (s.leaveGate k).core = s.core := rfl
@[simp] theorem State.leaveGate_others (s : State) (k : Fin 8) : (s.leaveGate k).others = s.others := rfl
@[simp] theorem State.leaveGate_parked (s : State) (k : Fin 8) : (s.leaveGate k).parked = s.parked := rfl
@[simp] theorem State.leaveGate_service (s : State) (k : Fin 8) : (s.leaveGate k).service = s.service := rfl
@[simp] theorem State.leaveGate_mem (s : State) (k : Fin 8) : (s.leaveGate k).mem = s.mem := rfl
@[simp] theorem State.leaveGate_dram (s : State) (k : Fin 8) : (s.leaveGate k).dram = s.dram.blank k := rfl
@[simp] theorem State.leaveGate_tiles (s : State) (k : Fin 8) : (s.leaveGate k).tiles = s.tiles.blank k := rfl
@[simp] theorem State.leaveGate_eng (s : State) (k : Fin 8) : (s.leaveGate k).eng = s.eng := rfl
@[simp] theorem State.leaveGate_drover (s : State) (k : Fin 8) : (s.leaveGate k).drover = s.drover := rfl
@[simp] theorem State.leaveGate_ursol (s : State) (k : Fin 8) : (s.leaveGate k).ursol = { s.ursol with fenced := s.ursol.fenced.filter fun (c : Nat × Bool) => c.1 / 64 != k.val } := rfl
@[simp] theorem State.leaveGate_sched (s : State) (k : Fin 8) : (s.leaveGate k).sched = s.sched := rfl
@[simp] theorem State.leaveGate_now (s : State) (k : Fin 8) : (s.leaveGate k).now = s.now := rfl
@[simp] theorem State.leaveGate_tick0 (s : State) (k : Fin 8) : (s.leaveGate k).tick0 = if s.tick0.isNone then some s.now else s.tick0 := rfl
@[simp] theorem State.leaveGate_free (s : State) (k : Fin 8) : (s.leaveGate k).free = s.free := rfl
@[simp] theorem State.leaveGate_seq (s : State) (k : Fin 8) : (s.leaveGate k).seq = s.seq := rfl

/-! ### State.endWait -/

@[simp] theorem State.endWait_others (s : State) : (s.endWait).others = s.others := rfl
@[simp] theorem State.endWait_parked (s : State) : (s.endWait).parked = s.parked := rfl
@[simp] theorem State.endWait_service (s : State) : (s.endWait).service = s.service := rfl
@[simp] theorem State.endWait_mem (s : State) : (s.endWait).mem = s.mem := rfl
@[simp] theorem State.endWait_dram (s : State) : (s.endWait).dram = s.dram := rfl
@[simp] theorem State.endWait_tiles (s : State) : (s.endWait).tiles = s.tiles := rfl
@[simp] theorem State.endWait_eng (s : State) : (s.endWait).eng = s.eng := rfl
@[simp] theorem State.endWait_drover (s : State) : (s.endWait).drover = s.drover := rfl
@[simp] theorem State.endWait_ursol (s : State) : (s.endWait).ursol = s.ursol := rfl
@[simp] theorem State.endWait_sched (s : State) : (s.endWait).sched = s.sched := rfl
@[simp] theorem State.endWait_now (s : State) : (s.endWait).now = s.now := rfl
@[simp] theorem State.endWait_tick0 (s : State) : (s.endWait).tick0 = s.tick0 := rfl
@[simp] theorem State.endWait_free (s : State) : (s.endWait).free = s.free := rfl
@[simp] theorem State.endWait_seq (s : State) : (s.endWait).seq = s.seq := rfl

/-! ### State.keepSizes -/

@[simp] theorem State.keepSizes_core (s : State) : (s.keepSizes).core = s.core := rfl
@[simp] theorem State.keepSizes_others (s : State) : (s.keepSizes).others = s.others := rfl
@[simp] theorem State.keepSizes_parked (s : State) : (s.keepSizes).parked = s.parked := rfl
@[simp] theorem State.keepSizes_service (s : State) : (s.keepSizes).service = s.service := rfl
@[simp] theorem State.keepSizes_mem (s : State) : (s.keepSizes).mem = s.mem.trim := rfl
@[simp] theorem State.keepSizes_dram (s : State) : (s.keepSizes).dram = s.dram := rfl
@[simp] theorem State.keepSizes_tiles (s : State) : (s.keepSizes).tiles = s.tiles := rfl
@[simp] theorem State.keepSizes_eng (s : State) : (s.keepSizes).eng = s.eng := rfl
@[simp] theorem State.keepSizes_drover (s : State) : (s.keepSizes).drover = s.drover := rfl
@[simp] theorem State.keepSizes_ursol (s : State) : (s.keepSizes).ursol = s.ursol := rfl
@[simp] theorem State.keepSizes_sched (s : State) : (s.keepSizes).sched = s.sched := rfl
@[simp] theorem State.keepSizes_now (s : State) : (s.keepSizes).now = s.now := rfl
@[simp] theorem State.keepSizes_tick0 (s : State) : (s.keepSizes).tick0 = s.tick0 := rfl
@[simp] theorem State.keepSizes_free (s : State) : (s.keepSizes).free = s.free := rfl
@[simp] theorem State.keepSizes_seq (s : State) : (s.keepSizes).seq = s.seq := rfl

/-! ### State.dropCore -/

@[simp] theorem State.dropCore_core (s : State) (t : TaskId) : (s.dropCore t).core = if s.core.id = .task t then {} else s.core := rfl
@[simp] theorem State.dropCore_others (s : State) (t : TaskId) : (s.dropCore t).others = s.others.filter fun c => c.id != .task t := rfl
@[simp] theorem State.dropCore_parked (s : State) (t : TaskId) : (s.dropCore t).parked = s.parked := rfl
@[simp] theorem State.dropCore_service (s : State) (t : TaskId) : (s.dropCore t).service = s.service := rfl
@[simp] theorem State.dropCore_mem (s : State) (t : TaskId) : (s.dropCore t).mem = s.mem := rfl
@[simp] theorem State.dropCore_dram (s : State) (t : TaskId) : (s.dropCore t).dram = s.dram := rfl
@[simp] theorem State.dropCore_tiles (s : State) (t : TaskId) : (s.dropCore t).tiles = s.tiles := rfl
@[simp] theorem State.dropCore_ursol (s : State) (t : TaskId) : (s.dropCore t).ursol = s.ursol := rfl
@[simp] theorem State.dropCore_sched (s : State) (t : TaskId) : (s.dropCore t).sched = s.sched := rfl
@[simp] theorem State.dropCore_now (s : State) (t : TaskId) : (s.dropCore t).now = s.now := rfl
@[simp] theorem State.dropCore_tick0 (s : State) (t : TaskId) : (s.dropCore t).tick0 = s.tick0 := rfl
@[simp] theorem State.dropCore_free (s : State) (t : TaskId) : (s.dropCore t).free = s.free := rfl
@[simp] theorem State.dropCore_seq (s : State) (t : TaskId) : (s.dropCore t).seq = s.seq := rfl

/-! ### What Safety names -/

@[simp] theorem wentTo_core (s : State) (p : VAddr) : (wentTo s p).core = { s.core with pc := p } := rfl
@[simp] theorem wentTo_others (s : State) (p : VAddr) : (wentTo s p).others = s.others := rfl
@[simp] theorem wentTo_parked (s : State) (p : VAddr) : (wentTo s p).parked = s.parked := rfl
@[simp] theorem wentTo_service (s : State) (p : VAddr) : (wentTo s p).service = s.service := rfl
@[simp] theorem wentTo_mem (s : State) (p : VAddr) : (wentTo s p).mem = s.mem := rfl
@[simp] theorem wentTo_dram (s : State) (p : VAddr) : (wentTo s p).dram = s.dram := rfl
@[simp] theorem wentTo_tiles (s : State) (p : VAddr) : (wentTo s p).tiles = s.tiles := rfl
@[simp] theorem wentTo_eng (s : State) (p : VAddr) : (wentTo s p).eng = s.eng := rfl
@[simp] theorem wentTo_drover (s : State) (p : VAddr) : (wentTo s p).drover = s.drover := rfl
@[simp] theorem wentTo_ursol (s : State) (p : VAddr) : (wentTo s p).ursol = s.ursol := rfl
@[simp] theorem wentTo_sched (s : State) (p : VAddr) : (wentTo s p).sched = s.sched := rfl
@[simp] theorem wentTo_now (s : State) (p : VAddr) : (wentTo s p).now = s.now := rfl
@[simp] theorem wentTo_tick0 (s : State) (p : VAddr) : (wentTo s p).tick0 = s.tick0 := rfl
@[simp] theorem wentTo_free (s : State) (p : VAddr) : (wentTo s p).free = s.free := rfl
@[simp] theorem wentTo_seq (s : State) (p : VAddr) : (wentTo s p).seq = s.seq := rfl

@[simp] theorem wroteTo_core (s : State) (d : Reg) (v : W64) (p : VAddr) : (wroteTo s d v p).core = { s.core.setReg d v with pc := p } := rfl
@[simp] theorem wroteTo_others (s : State) (d : Reg) (v : W64) (p : VAddr) : (wroteTo s d v p).others = s.others := rfl
@[simp] theorem wroteTo_parked (s : State) (d : Reg) (v : W64) (p : VAddr) : (wroteTo s d v p).parked = s.parked := rfl
@[simp] theorem wroteTo_service (s : State) (d : Reg) (v : W64) (p : VAddr) : (wroteTo s d v p).service = s.service := rfl
@[simp] theorem wroteTo_mem (s : State) (d : Reg) (v : W64) (p : VAddr) : (wroteTo s d v p).mem = s.mem := rfl
@[simp] theorem wroteTo_dram (s : State) (d : Reg) (v : W64) (p : VAddr) : (wroteTo s d v p).dram = s.dram := rfl
@[simp] theorem wroteTo_tiles (s : State) (d : Reg) (v : W64) (p : VAddr) : (wroteTo s d v p).tiles = s.tiles := rfl
@[simp] theorem wroteTo_eng (s : State) (d : Reg) (v : W64) (p : VAddr) : (wroteTo s d v p).eng = s.eng := rfl
@[simp] theorem wroteTo_drover (s : State) (d : Reg) (v : W64) (p : VAddr) : (wroteTo s d v p).drover = s.drover := rfl
@[simp] theorem wroteTo_ursol (s : State) (d : Reg) (v : W64) (p : VAddr) : (wroteTo s d v p).ursol = s.ursol := rfl
@[simp] theorem wroteTo_sched (s : State) (d : Reg) (v : W64) (p : VAddr) : (wroteTo s d v p).sched = s.sched := rfl
@[simp] theorem wroteTo_now (s : State) (d : Reg) (v : W64) (p : VAddr) : (wroteTo s d v p).now = s.now := rfl
@[simp] theorem wroteTo_tick0 (s : State) (d : Reg) (v : W64) (p : VAddr) : (wroteTo s d v p).tick0 = s.tick0 := rfl
@[simp] theorem wroteTo_free (s : State) (d : Reg) (v : W64) (p : VAddr) : (wroteTo s d v p).free = s.free := rfl
@[simp] theorem wroteTo_seq (s : State) (d : Reg) (v : W64) (p : VAddr) : (wroteTo s d v p).seq = s.seq := rfl

@[simp] theorem wrote_core (s : State) (d : Reg) (v : W64) : (wrote s d v).core = { s.core.setReg d v with pc := s.core.pc + 4 } := rfl
@[simp] theorem wrote_others (s : State) (d : Reg) (v : W64) : (wrote s d v).others = s.others := rfl
@[simp] theorem wrote_parked (s : State) (d : Reg) (v : W64) : (wrote s d v).parked = s.parked := rfl
@[simp] theorem wrote_service (s : State) (d : Reg) (v : W64) : (wrote s d v).service = s.service := rfl
@[simp] theorem wrote_mem (s : State) (d : Reg) (v : W64) : (wrote s d v).mem = s.mem := rfl
@[simp] theorem wrote_dram (s : State) (d : Reg) (v : W64) : (wrote s d v).dram = s.dram := rfl
@[simp] theorem wrote_tiles (s : State) (d : Reg) (v : W64) : (wrote s d v).tiles = s.tiles := rfl
@[simp] theorem wrote_eng (s : State) (d : Reg) (v : W64) : (wrote s d v).eng = s.eng := rfl
@[simp] theorem wrote_drover (s : State) (d : Reg) (v : W64) : (wrote s d v).drover = s.drover := rfl
@[simp] theorem wrote_ursol (s : State) (d : Reg) (v : W64) : (wrote s d v).ursol = s.ursol := rfl
@[simp] theorem wrote_sched (s : State) (d : Reg) (v : W64) : (wrote s d v).sched = s.sched := rfl
@[simp] theorem wrote_now (s : State) (d : Reg) (v : W64) : (wrote s d v).now = s.now := rfl
@[simp] theorem wrote_tick0 (s : State) (d : Reg) (v : W64) : (wrote s d v).tick0 = s.tick0 := rfl
@[simp] theorem wrote_free (s : State) (d : Reg) (v : W64) : (wrote s d v).free = s.free := rfl
@[simp] theorem wrote_seq (s : State) (d : Reg) (v : W64) : (wrote s d v).seq = s.seq := rfl

@[simp] theorem completed_core (s : State) (c : Core) : (completed s c).core = { c with task := c.task.pastWord } := rfl
@[simp] theorem completed_others (s : State) (c : Core) : (completed s c).others = s.others := rfl
@[simp] theorem completed_parked (s : State) (c : Core) : (completed s c).parked = s.parked := rfl
@[simp] theorem completed_service (s : State) (c : Core) : (completed s c).service = s.service := rfl
@[simp] theorem completed_mem (s : State) (c : Core) : (completed s c).mem = s.mem := rfl
@[simp] theorem completed_dram (s : State) (c : Core) : (completed s c).dram = s.dram := rfl
@[simp] theorem completed_tiles (s : State) (c : Core) : (completed s c).tiles = s.tiles := rfl
@[simp] theorem completed_eng (s : State) (c : Core) : (completed s c).eng = s.eng := rfl
@[simp] theorem completed_drover (s : State) (c : Core) : (completed s c).drover = s.drover := rfl
@[simp] theorem completed_ursol (s : State) (c : Core) : (completed s c).ursol = s.ursol := rfl
@[simp] theorem completed_sched (s : State) (c : Core) : (completed s c).sched = s.sched := rfl
@[simp] theorem completed_now (s : State) (c : Core) : (completed s c).now = s.now := rfl
@[simp] theorem completed_tick0 (s : State) (c : Core) : (completed s c).tick0 = s.tick0 := rfl
@[simp] theorem completed_free (s : State) (c : Core) : (completed s c).free = s.free := rfl
@[simp] theorem completed_seq (s : State) (c : Core) : (completed s c).seq = s.seq := rfl

/-! ### Cores -/

@[simp] theorem Core.setReg_id (c : Core) (d : Reg) (v : W64) : (c.setReg d v).id = c.id := by unfold Core.setReg; split <;> rfl
@[simp] theorem Core.setReg_pc (c : Core) (d : Reg) (v : W64) : (c.setReg d v).pc = c.pc := by unfold Core.setReg; split <;> rfl
@[simp] theorem Core.setReg_asid (c : Core) (d : Reg) (v : W64) : (c.setReg d v).asid = c.asid := by unfold Core.setReg; split <;> rfl
@[simp] theorem Core.setReg_flags (c : Core) (d : Reg) (v : W64) : (c.setReg d v).flags = c.flags := by unfold Core.setReg; split <;> rfl
@[simp] theorem Core.setReg_epc (c : Core) (d : Reg) (v : W64) : (c.setReg d v).epc = c.epc := by unfold Core.setReg; split <;> rfl
@[simp] theorem Core.setReg_cause (c : Core) (d : Reg) (v : W64) : (c.setReg d v).cause = c.cause := by unfold Core.setReg; split <;> rfl
@[simp] theorem Core.setReg_info (c : Core) (d : Reg) (v : W64) : (c.setReg d v).info = c.info := by unfold Core.setReg; split <;> rfl
@[simp] theorem Core.setReg_sup (c : Core) (d : Reg) (v : W64) : (c.setReg d v).sup = c.sup := by unfold Core.setReg; split <;> rfl
@[simp] theorem Core.setReg_task (c : Core) (d : Reg) (v : W64) : (c.setReg d v).task = c.task := by unfold Core.setReg; split <;> rfl
@[simp] theorem Core.orFlags_id (c : Core) (f : Byte) : (c.orFlags f).id = c.id := rfl
@[simp] theorem Core.orFlags_x (c : Core) (f : Byte) : (c.orFlags f).x = c.x := rfl
@[simp] theorem Core.orFlags_pc (c : Core) (f : Byte) : (c.orFlags f).pc = c.pc := rfl
@[simp] theorem Core.orFlags_asid (c : Core) (f : Byte) : (c.orFlags f).asid = c.asid := rfl
@[simp] theorem Core.orFlags_epc (c : Core) (f : Byte) : (c.orFlags f).epc = c.epc := rfl
@[simp] theorem Core.orFlags_cause (c : Core) (f : Byte) : (c.orFlags f).cause = c.cause := rfl
@[simp] theorem Core.orFlags_info (c : Core) (f : Byte) : (c.orFlags f).info = c.info := rfl
@[simp] theorem Core.orFlags_sup (c : Core) (f : Byte) : (c.orFlags f).sup = c.sup := rfl
@[simp] theorem Core.orFlags_task (c : Core) (f : Byte) : (c.orFlags f).task = c.task := rfl

/-- A farm that is set is read back, and no other farm changes. -/
theorem State.farm?_setFarm (s : State) (n m : Nat) (f : Farm) :
    (s.setFarm n f).farm? m = if m = n then some f else s.farm? m := by
  simp [State.farm?, flook_finsert]

/-- A change of a farm that is there. -/
theorem State.mapFarm_some {s : State} {n : Nat} {f : Farm} (h : s.farm? n = some f) (g : Farm → Farm) :
    s.mapFarm n g = s.setFarm n (g f) := by
  simp [State.mapFarm, h]

theorem State.mapFarm_none {s : State} {n : Nat} (h : s.farm? n = none) (g : Farm → Farm) : s.mapFarm n g = s := by
  simp [State.mapFarm, h]

/-- A change of a farm changes nothing but the Drover. -/
theorem State.mapFarm_frame (s : State) (n : Nat) (g : Farm → Farm) : { s.mapFarm n g with drover := s.drover } = s := by
  unfold State.mapFarm
  split <;> rfl

/-- No task waits for its engine operations: none ends by itself (R110). -/
theorem State.endDue_none {s : State} (h : s.drover.ending = []) : s.endDue = s := by simp [State.endDue, h]

/-- A queue that is set is read back, and no other queue changes. -/
theorem State.queue_setQueue (s : State) (n m : Nat) (q : Queue) : (s.setQueue n q).queue m = if m = n then q else s.queue m := by
  simp [State.queue, fget_finsert]

end Sys2Proof.Machine
end

