-- ==== Sys2Proof/Laws/Ops.lean ====
section
/-!
SUPPORT. What each shared operation of the instructions can do, said once: waiting for a block, retiring,
the checks of engine commands and of element instructions, and where element loops write.
-/
namespace Sys2Proof.Machine
open Sys2Proof Sys2Proof.Safety

/-! ## Registers and fields of a core -/

/-- x0 reads as zero and takes no write; any other register reads back what was written, and no other changes. -/
theorem Core.reg_setReg (c : Core) (d r : Reg) (v : W64) :
    (c.setReg d v).reg r = if r = 0 then 0 else if r = d then v else c.reg r := by
  unfold Core.reg Core.setReg
  by_cases hr : r = 0
  · simp [hr]
  · by_cases hd : d = 0
    · subst hd; simp [hr]
    · simp only [hr, hd, if_false, fget_fset, Fin.ext_iff]

@[simp] theorem Core.setReg_zero (c : Core) (v : W64) : c.setReg 0 v = c := rfl

/-! ## Waiting for a block (R102) -/

theorem afterBlock_noBlock {s : State} (h : NoBlock s) (k : Out) : afterBlock s k = k := by
  simp [afterBlock, Core.inBlock, h]

theorem afterBlock_inBlock {s : State} (h : s.core.inBlock = true) (k : Out) : afterBlock s k = .next s := by
  simp [afterBlock, h]

theorem scalarRuns_mayRun {s : State} {rs : List Reg} (h : MayRun s rs) (k : Out) : scalarRuns s rs k = k := by
  unfold scalarRuns MayRun at *
  split <;> simp_all

theorem scalarRuns_waits {s : State} {rs : List Reg} (h : ¬ MayRun s rs) (k : Out) : scalarRuns s rs k = .next s := by
  unfold scalarRuns MayRun at *
  split <;> simp_all

theorem MayRun_of_noBlock {s : State} (h : NoBlock s) (rs : List Reg) : MayRun s rs := by simp [MayRun, h]

theorem hartOnly_task {s : State} (h : s.core.id.isTask = true) (i : Instr) (k : Out) : hartOnly s i k = k := by
  cases hc : s.core.id <;> simp_all [hartOnly, CoreId.isTask, CoreId.isSup]

theorem hartOnly_sup {s : State} (h : s.core.id.isSup = true) (i : Instr) (k : Out) : hartOnly s i k = .next (s.illegalInstr i) := by
  simp [hartOnly, h]

/-! ## Retiring -/

/-- With no trap after it an instruction leaves only the pc changed. -/
theorem retire_quiet {s : State} (h : Quiet s) (p : VAddr) : retire s p = .next (wentTo s p) := by
  unfold retire wentTo
  dsimp only
  split
  · rename_i hh; obtain ⟨ha, hb⟩ := h hh; simp [ha, hb]
  · rfl

theorem retireNext_quiet {s : State} (h : Quiet s) : retireNext s = .next (wentTo s (s.core.pc + 4)) := retire_quiet h _

theorem Quiet_setReg {s : State} (h : Quiet s) (d : Reg) (v : W64) : Quiet { s with core := s.core.setReg d v } := by
  simpa [Quiet] using h

theorem retireWith_quiet {s : State} (h : Quiet s) (d : Reg) (v : W64) : retireWith s d v = .next (wrote s d v) := by
  unfold retireWith
  rw [retireNext_quiet (Quiet_setReg h d v)]
  simp [wrote, wroteTo, wentTo]

/-- With no trap after it an element instruction leaves its block past its word and vstart 0. -/
theorem retireE_quiet {s : State} (h : QuietE s) : retireE s = .next (completed s s.core) := by
  unfold retireE completed
  simp [h.1, h.2]

/-- A supervisor core's trap (R132). -/
theorem takeTrap_sup {s : State} {k : Fin 8} (h : s.core.id = .sup k) (i : TrapInfo) : s.takeTrap i = s.supTrap k i := by
  simp [State.takeTrap, h]

theorem takeTrap_task {s : State} {t : TaskId} (h : s.core.id = .task t) (i : TrapInfo) : s.takeTrap i = s.parkTrap t i := by
  simp [State.takeTrap, h]

/-! ## Engine commands at issue -/

/-- A command with a good object, or none, goes on in its own state (R261). -/
theorem withObject_named {s : State} (hb : NoBlock s) {c : Reg} {obj : Option Nat} (h : NamesObject s c obj) (i : Instr)
    (k : State → Option Nat → Out) : withObject s i c k = k s obj := by
  unfold withObject
  rw [afterBlock_noBlock hb]
  unfold NamesObject at h
  split
  · rename_i hc; rw [if_pos hc] at h; rw [h]
  · rename_i hc
    rw [if_neg hc] at h
    obtain ⟨h1, h2⟩ := h
    obtain ⟨pa, rfl⟩ := Option.isSome_iff_exists.1 h1
    simp [h2]

theorem failedCheck_none (l : List Bool) : ∀ n, (∀ b ∈ l, b = false) → failedCheck n l = none := by
  induction l with
  | nil => intro n _; rfl
  | cons b r ih =>
    intro n h
    rw [failedCheck, h b (by simp)]
    exact ih (n + 1) fun c hc => h c (List.mem_cons_of_mem _ hc)

/-- Checks none of which fails let the command go on. -/
theorem withChecks_pass {s : State} {l : List Bool} (h : ∀ b ∈ l, b = false) (k : Out) : withChecks s l k = k := by
  simp [withChecks, failedCheck_none l 1 h]

/-- Checks of which one fails trap with a number, and do nothing else (R299). -/
theorem withChecks_next (s : State) (l : List Bool) (k : Out) :
    withChecks s l k = k ∨ ∃ n, withChecks s l k = .next (s.trapAt 0x0002 (BitVec.ofNat 64 n)) := by
  unfold withChecks
  split
  · rename_i n _; exact .inr ⟨n, rfl⟩
  · exact .inl rfl

/-- A full queue lets the command wait, and changes nothing (R300). -/
theorem issueOp_full {s : State} {n : Nat} (h : 16 ≤ n) (o : OpHdr) (push : State → State) : issueOp s o n push = .next s := by
  simp [issueOp, queuePlaces, h]

theorem issueOp_room {s : State} {n : Nat} (h : n < 16) (o : OpHdr) (push : State → State) :
    issueOp s o n push = retireIssued (push s.forked) o := by
  simp [issueOp, queuePlaces, Nat.not_le.2 h]

/-! ## Element instructions -/

theorem withOperands_held {s : State} {l : List (Ty × VOp)} (h : s.core.task.holdsAll l = true) (k : Out) : withOperands s l k = k := by
  simp [withOperands, h]

theorem withOperands_bad {s : State} {l : List (Ty × VOp)} (h : s.core.task.holdsAll l = false) (k : Out) :
    withOperands s l k = .next s.operandE := by
  simp [withOperands, h]

/-- With its token delivered an instruction goes on from the state the token left. -/
theorem tokenFrom_feeds {s u : State} {start : Nat} {ops : List VOp} {toks : List W32} (h : Feeds s start ops u toks)
    (k : State → List W32 → Out) : tokenFrom s start ops k = k u toks := by
  unfold tokenFrom
  unfold Feeds at h
  split
  · rename_i hf; rw [hf] at h; rw [h.1, h.2]
  · rename_i st v hf
    rw [hf] at h
    dsimp only at h ⊢
    split
    · rename_i hv; rw [if_pos hv] at h; rw [h.1, h.2]
    · rename_i hv
      rw [if_neg hv] at h
      obtain ⟨t, h1, h2⟩ := h
      rw [h1, h2]

@[simp] theorem TaskPart.setCell_cell (t : TaskPart) (k j : Nat) (v : W32) :
    (t.setCell k v).cell j = if j = k then v else t.cell j := by
  simp only [TaskPart.setCell, TaskPart.cell, fget_fset]

/-! ## Completion objects (R259) -/

/-- An object whose fields fit is read back from its 128 bits. -/
theorem Obj.ofNat_toNat (o : Obj) (h1 : o.count < 2 ^ 32) (h2 : o.status < 2 ^ 16) (h3 : o.flags < 2 ^ 8) (h4 : o.rsv < 2 ^ 8)
    (h5 : o.progress < 2 ^ 32) (h6 : o.fidx < 2 ^ 32) : Obj.ofNat o.toNat = o := by
  obtain ⟨c, st, fl, rs, pr, fi⟩ := o
  simp only [Obj.ofNat, Obj.toNat, Obj.mk.injEq] at *
  omega

/-- Every field of an object that is read fits. -/
theorem Obj.ofNat_fits (v : Nat) : (Obj.ofNat v).count < 2 ^ 32 ∧ (Obj.ofNat v).status < 2 ^ 16 ∧ (Obj.ofNat v).flags < 2 ^ 8 ∧
    (Obj.ofNat v).progress < 2 ^ 32 ∧ (Obj.ofNat v).fidx < 2 ^ 32 := by
  simp only [Obj.ofNat]
  omega

/-! ## The canonical form of memory, for operations of the whole state -/

theorem objFar_wf {ms : MemSys} (h : ms.Canonical) (who pa : Nat) (f : Obj → Obj) (nc : Bool := false) :
    (objFar ms who pa f nc).1.Canonical := by
  unfold objFar
  dsimp only
  exact farUpdate_wf h _ _ _ _ _

theorem objUpdate_inv {s : State} (h : Inv s) (who pa : Nat) (f : Obj → Obj) (nc : Bool := false) : Inv (s.objUpdate who pa f nc) := by
  have h1 := objFar_wf h who pa f nc
  unfold State.objUpdate
  split
  · exact h1
  · exact h

theorem objUpdateAs_inv {s : State} (h : Inv s) (who : Nat) (asid : BitVec 14) (pa : Nat) (f : Obj → Obj) (nc : Bool) :
    Inv (s.objUpdateAs who asid pa f nc) := objUpdate_inv h who pa f nc

theorem forked_inv {s : State} (h : Inv s) : Inv s.forked := releaseWide_wf h _

theorem loseDram_inv {s : State} (h : Inv s) (k : Fin 8) : Inv (s.loseDram k) := wf_filter h _

theorem signalObject_inv {s : State} (h : Inv s) (asid : BitVec 14) (pa : Option Nat) (va : W64) (f : Obj → Obj) (nc : Bool) :
    Inv (s.signalObject asid pa va f nc) := by
  unfold State.signalObject
  split
  · split
    · exact objUpdateAs_inv h _ _ _ _ _
    · exact h
  · exact h

theorem mapFarm_inv {s : State} (h : Inv s) (n : Nat) (g : Farm → Farm) : Inv (s.mapFarm n g) := by
  unfold State.mapFarm
  split <;> exact h

theorem withScalarWord_inv {s : State} (h : Inv s) (w : Nat) : Inv (s.withScalarWord w) := wf_writeBytes _ h _

theorem withElementWord_inv {s : State} (h : Inv s) (w : Nat) : Inv (s.withElementWord w) := wf_writeBytes _ h _

end Sys2Proof.Machine
end

