-- ==== Sys2Proof/Laws/Translate.lean ====
section
/-!
SUPPORT. What a translation can change (R199-R204, R219): its walker's reads are Reads at a home, so it keeps the
canonical form of memory, and where no agent holds a copy it leaves every byte as it is; so for objects and for a
core's checks.
-/
namespace Sys2Proof.Machine
open Sys2Proof Sys2Proof.Safety

/-! ## A Read where no agent holds a copy -/

/-- A memory stays without copies, and keeps its bytes. -/
abbrev Undisturbed (ms t : MemSys) : Prop := NoCopies ms → NoCopies t ∧ t.cells = ms.cells

theorem Undisturbed.refl (ms : MemSys) : Undisturbed ms ms := fun h => ⟨h, rfl⟩

theorem Undisturbed.trans {a b c : MemSys} (h : Undisturbed a b) (g : Undisturbed b c) : Undisturbed a c := fun ha =>
  ⟨(g (h ha).1).1, (g (h ha).1).2.trans (h ha).2⟩

/-- Where no agent holds a copy every directory entry says so. -/
theorem noCopies_dirOf {ms : MemSys} (h : NoCopies ms) (line : Nat) :
    (dirOf ms line).own = 31 ∧ (dirOf ms line).shr = 0 ∧ (dirOf ms line).nr = 31 := by
  unfold dirOf fget
  cases hf : flook ms.dir line with
  | none => simp
  | some e => exact h.2.2.2 (line, e) (flook_mem hf)

theorem putDir_own (ms : MemSys) (line : Nat) : Undisturbed ms (putDir ms line (dirOf ms line)) := by
  intro h
  have hd := noCopies_dirOf h line
  obtain ⟨h1, h2, h3, h4⟩ := h
  refine ⟨?_, by simp⟩
  have hq : ∀ (p : BitVec 16) (c : Bool), ∀ q ∈ finsert ms.dir line { dirOf ms line with poison := p, changed := c },
      q.2.own = 31 ∧ q.2.shr = 0 ∧ q.2.nr = 31 := by
    intro p c q hq
    rcases mem_finsert _ _ _ _ hq with h | h
    · rw [h]; exact hd
    · exact h4 q h
  unfold putDir
  split <;> exact ⟨h1, h2, h3, hq _ _⟩

theorem watchApply_undisturbed (ms : MemSys) (line : Nat) (w : BitVec 16) (who : Nat) (n r : Bool) :
    Undisturbed ms (watchApply ms line w who n r) := by
  intro h
  refine ⟨?_, by simp⟩
  unfold watchApply
  split <;> exact h

theorem drainLine_noReqs {ms : MemSys} (h : ms.reqs = []) (line : Nat) : drainLine ms line = ms := by
  simp [drainLine, h, drainN]

theorem noticesArrive_none {ms : MemSys} (h : ms.notices = []) (a line : Nat) : noticesArrive ms a line = ms := by
  cases ms
  simp_all [noticesArrive]

/-- A Read finds home's bytes, asks nobody and leaves them (R225). -/
theorem runReq_read (ms : MemSys) (who line : Nat) (w : BitVec 16) : Undisturbed ms (runReq ms who line (.read w)) := by
  intro h
  have ho := (noCopies_dirOf h line).1
  have ha : homeAsks ms who line (.read w) = [] := by simp [homeAsks, ho]
  simp only [runReq, noticesArrive_none h.2.2.1, ha, List.foldl_nil, homeAct]
  exact (putDir_own ms line).trans (watchApply_undisturbed _ _ _ _ _ _) h

theorem ferase_undisturbed (ms : MemSys) (line : Nat) : Undisturbed ms { ms with dir := ferase ms.dir line } := by
  intro h
  refine ⟨⟨h.1, h.2.1, h.2.2.1, ?_⟩, rfl⟩
  intro q hq
  exact h.2.2.2 q (mem_of_mem_ferase hq)

theorem engineRead_undisturbed (ms : MemSys) (who pa n : Nat) (nc : Bool := false) : Undisturbed ms (engineRead ms who pa n nc).1 := by
  unfold engineRead
  dsimp only
  generalize piecesOf pa n = l
  induction l generalizing ms with
  | nil => exact .refl _
  | cons p r ih =>
    rw [List.foldl_cons]
    refine Undisturbed.trans ?_ (ih _)
    intro h
    rw [drainLine_noReqs h.2.1]
    unfold runReqAs
    split
    · unfold runReqNc
      split
      · exact runReq_read _ _ _ _ h
      · exact (runReq_read _ _ _ _).trans (ferase_undisturbed _ _) h
    · exact runReq_read _ _ _ _ h

/-! ## The walker -/

theorem fillLine_undisturbed (ms : MemSys) (line : Nat) (nc : Bool) : Undisturbed ms (fillLine ms line nc) := by
  intro h
  unfold fillLine
  split
  · exact ⟨h, rfl⟩
  · rename_i hn
    split
    · exact ⟨h, rfl⟩
    · have hd : dirOf ms line = {} := by
        unfold dirOf fget
        cases hf : flook ms.dir line <;> simp_all
      have := putDir_own ms line h
      rwa [hd] at this

theorem meetPoison_undisturbed (ms : MemSys) (ps : List (Nat × Nat)) (nc : Bool := false) : Undisturbed ms (meetPoison ms ps nc) := by
  intro h
  unfold meetPoison
  split
  · rw [drainLine_noReqs h.2.1]; exact fillLine_undisturbed _ _ _ h
  · exact ⟨h, rfl⟩

theorem walkRead_wf {ms : MemSys} (h : ms.Canonical) (u : Ursol) (k : Fin 8) (pa : Nat) : (walkRead ms u k pa).1.Canonical := by
  unfold walkRead
  split
  · exact h
  · split
    · dsimp only
      split
      · exact meetPoison_wf h _ _
      · exact h
    · exact engineRead_wf h _ _ _

theorem walkRead_undisturbed (ms : MemSys) (u : Ursol) (k : Fin 8) (pa : Nat) : Undisturbed ms (walkRead ms u k pa).1 := by
  unfold walkRead
  split
  · exact .refl _
  · split
    · dsimp only
      split
      · exact meetPoison_undisturbed _ _
      · exact .refl _
    · exact engineRead_undisturbed _ _ _ _

/-- What a walk keeps: every property of memory that each read of it keeps. -/
theorem walkFrom_keeps {P : MemSys → Prop} (u : Ursol) (k : Fin 8) (hr : ∀ ms pa, P ms → P (walkRead ms u k pa).1) (asid : BitVec 14) (va : W64) :
    ∀ (n : Nat) (ms : MemSys) (table : Nat) (acc : List WalkEntry), P ms → P (walkFrom u k asid va n ms table acc).ms
  | 0, ms, table, acc, h => by
    have h1 := hr ms (table + 8 * (va.toNat / leafSize 0 % 1024)) h
    unfold walkFrom
    dsimp only
    split <;> (try split) <;> (try split) <;> exact h1
  | n + 1, ms, table, acc, h => by
    have h1 := hr ms (table + 8 * (va.toNat / leafSize (n + 1) % 1024)) h
    unfold walkFrom
    split
    · exact walkFrom_keeps u k hr asid va n _ _ _ h
    · dsimp only
      split
      · exact h1
      · exact h1
      · split
        · exact h1
        · split
          · exact h1
          · split
            · exact h1
            · exact walkFrom_keeps u k hr asid va n _ _ _ h1

theorem walk_keeps {P : MemSys → Prop} (u : Ursol) (k : Fin 8) (hr : ∀ ms pa, P ms → P (walkRead ms u k pa).1) (asid : BitVec 14) (va : W64)
    {ms : MemSys} (h : P ms) : P (walk ms u k asid va).ms := by
  have h1 : P (asidRoot ms u k asid va).1 := hr _ _ (hr _ _ (hr _ _ h))
  unfold walk
  dsimp only
  split
  · exact h1
  · exact walkFrom_keeps u k hr asid va 3 _ _ _ h1

/-- A property of memory that neither a walker's reads nor the TLBs, walk caches and queues of misses touch. -/
structure KeptByWalks (u : Ursol) (P : MemSys → Prop) : Prop where
  read : ∀ ms k pa, P ms → P (walkRead ms u k pa).1
  fields : ∀ (ms : MemSys) (tlb : List TlbEntry) (wc : List WalkEntry) (q w v : List Miss), P ms →
    P { ms with tlb := tlb, walkCache := wc, walkQ := q, walks := w, walkWait := v }

theorem KeptByWalks.runWalk {u : Ursol} {P : MemSys → Prop} (hp : KeptByWalks u P) {ms : MemSys} (h : P ms) (k : Fin 8) (asid : BitVec 14)
    (va : W64) (units : List TlbUnit) : P (runWalk ms u k asid va units).1 := by
  have h1 : P (walk ms u k asid va).ms := walk_keeps u k (fun ms pa => hp.read ms k pa) asid va h
  have hf : ∀ (m : MemSys) (e : TlbEntry), P m → P (tlbFill m e) := fun m e hm => hp.fields m _ m.walkCache m.walkQ m.walks m.walkWait hm
  have h2 : ∀ b : Bool, P (if b then (walk ms u k asid va).ms else walkCacheFill (walk ms u k asid va).ms k (walk ms u k asid va).ptrs) := by
    intro b; split
    · exact h1
    · exact hp.fields _ _ _ _ _ _ h1
  unfold Machine.runWalk
  dsimp only
  split
  · exact h1
  · split
    · exact h2 _
    · exact foldl_keeps (P := P) (fun m t hm => hf m _ hm) _ _ (hf _ _ (h2 _))

theorem KeptByWalks.admitted {u : Ursol} {P : MemSys → Prop} (hp : KeptByWalks u P) {ms : MemSys} (h : P ms) (k : Fin 8) : P (admitWaiting ms k) := by
  have ha : ∀ (b : MemSys) (m : Miss), P b → P (admitMiss b m) := by
    intro b m hb
    unfold admitMiss
    split
    · exact hp.fields b _ _ _ _ _ hb
    · split <;> exact hp.fields b _ _ _ _ _ hb
  exact foldl_keeps (P := P) ha _ _ (hp.fields ms _ _ _ _ _ h)

theorem KeptByWalks.finish {u : Ursol} {P : MemSys → Prop} (hp : KeptByWalks u P) {ms : MemSys} (h : P ms) (k : Fin 8) : P (finishWalk ms u k) := by
  unfold finishWalk
  split
  · exact h
  · exact hp.admitted (hp.runWalk (hp.fields ms _ _ _ _ _ h) _ _ _ _) k

theorem KeptByWalks.start {u : Ursol} {P : MemSys → Prop} (hp : KeptByWalks u P) {ms : MemSys} (h : P ms) (k : Fin 8) : P (startWalk ms k) := by
  unfold startWalk
  split
  · exact h
  · split
    · exact hp.fields ms _ _ _ _ _ h
    · exact h

theorem KeptByWalks.await {u : Ursol} {P : MemSys → Prop} (hp : KeptByWalks u P) (k : Fin 8) : ∀ (n : Nat) {ms : MemSys}, P ms → P (awaitWalker n ms u k)
  | 0, _, h => h
  | n + 1, _, h => by
    unfold awaitWalker
    split
    · exact hp.await k n (hp.finish h k)
    · split
      · exact hp.await k n (hp.start h k)
      · exact h

theorem KeptByWalks.miss {u : Ursol} {P : MemSys → Prop} (hp : KeptByWalks u P) {ms : MemSys} (h : P ms) (c : XCtx) (va : W64) :
    P (walkMiss ms u c va).1 := by
  unfold walkMiss
  dsimp only
  have h1 := hp.await c.stk (2 * (ms.walkQ.length + ms.walkWait.length) + 2) h
  split
  · exact hp.runWalk (hp.fields _ _ _ _ _ _ h1) _ _ _ _
  · exact hp.runWalk h1 _ _ _ _

/-- A translation keeps what its walks keep. -/
theorem KeptByWalks.translate {u : Ursol} {P : MemSys → Prop} (hp : KeptByWalks u P) {ms : MemSys} (h : P ms) (c : XCtx) (va : W64) (k : AccKind) :
    P (translate ms u c va k).1 := by
  have h1 : P (lookupLeaf ms u c va).1 := by
    unfold lookupLeaf
    split
    · exact h
    · split
      · exact hp.fields ms _ _ _ _ _ h
      · dsimp only
        split
        · exact hp.miss h _ _
        · exact hp.runWalk h _ _ _ _
  unfold Machine.translate
  split
  · exact h
  · split
    · split
      · exact h
      · split <;> exact h
    · dsimp only
      split
      · exact h1
      · split <;> exact h1

theorem KeptByWalks.objCheck {u : Ursol} {P : MemSys → Prop} (hp : KeptByWalks u P) {ms : MemSys} (h : P ms) (c : XCtx) (va : W64) :
    P (objCheck ms u c va).1 := by
  have h1 := hp.translate h c va .store
  unfold Machine.objCheck
  split
  · exact h
  · dsimp only
    split
    · exact h1
    · exact h1
    · split <;> exact h1

/-! ## The two properties -/

theorem canonical_keptByWalks (u : Ursol) : KeptByWalks u MemSys.Canonical :=
  ⟨fun _ _ _ h => walkRead_wf h _ _ _, fun _ _ _ _ _ _ h => h⟩

theorem undisturbed_keptByWalks (u : Ursol) (ms : MemSys) : KeptByWalks u (Undisturbed ms) :=
  ⟨fun _ _ _ h => h.trans (walkRead_undisturbed _ _ _ _), fun _ _ _ _ _ _ h hn => h hn⟩

theorem translate_wf {ms : MemSys} (h : ms.Canonical) (u : Ursol) (c : XCtx) (va : W64) (k : AccKind) : (translate ms u c va k).1.Canonical :=
  (canonical_keptByWalks u).translate h c va k

theorem objCheck_wf {ms : MemSys} (h : ms.Canonical) (u : Ursol) (c : XCtx) (va : W64) : (objCheck ms u c va).1.Canonical :=
  (canonical_keptByWalks u).objCheck h c va

theorem translate_undisturbed (ms : MemSys) (u : Ursol) (c : XCtx) (va : W64) (k : AccKind) : Undisturbed ms (translate ms u c va k).1 :=
  (undisturbed_keptByWalks u ms).translate (.refl ms) c va k

theorem objCheck_undisturbed (ms : MemSys) (u : Ursol) (c : XCtx) (va : W64) : Undisturbed ms (objCheck ms u c va).1 :=
  (undisturbed_keptByWalks u ms).objCheck (.refl ms) c va

end Sys2Proof.Machine
end

