-- ==== Sys2Proof/Tests/Slice0.lean ====
section
/-!
SUPPORT. Tests: words of every encoding, terms that are refused, results the manual works out, and for
every statement with hypotheses a state that meets them.
-/
namespace Sys2Proof.Tests
open Sys2Proof Sys2Proof.Machine Sys2Proof.Safety
set_option Elab.async false

/-! ## Helpers -/

/-- A running task on stack 0, with data mapped at 0 to 64 MiB and code above it. -/
def base : State := State.reset.withTask

/-- The same state with some registers set. -/
def regs (s : State) (l : List (Reg × W64)) : State := { s with core := l.foldl (fun c q => c.setReg q.1 q.2) s.core }

/-- The same state with some bytes of memory set. -/
def holds (s : State) (l : List (Nat × List Byte)) : State :=
  { s with mem := { s.mem with cells := l.foldl (fun m p => writeBytes m p.1 p.2) s.mem.cells } }

/-- The same state with its task part changed. -/
def task (s : State) (f : TaskPart → TaskPart) : State := { s with core := { s.core with task := f s.core.task } }

/-- A supervisor core in the place of the task. -/
def sup : State := { base with core := { id := .sup 0, pc := 0x4000000, sup := { svec := 0x5000, inh := false } } }

/-- The task with a block running. -/
def inBlock : State := task base fun t => { t with block := some ⟨0x4000100, 0x4000100, [], []⟩ }

/-- The value of a read that succeeds. -/
def okVal {α ε β : Type} (r : α × Except ε β) : Option β :=
  match r.2 with
  | .ok v => some v
  | .error _ => none

theorem okWith {α ε β : Type} {r : α × Except ε β} {v : β} (h : okVal r = some v) : r = (r.1, .ok v) := by
  obtain ⟨a, b⟩ := r
  cases b <;> simp_all [okVal]

theorem okSome {α ε β : Type} {r : α × Except ε β} {v : β} (h : okVal r = some v) : ∃ u, r = (u, .ok v) := ⟨r.1, okWith h⟩

theorem okAt {α ε β : Type} {r : α × Except ε β} {u : α} {v : β} (a : r.1 = u) (h : okVal r = some v) : r = (u, .ok v) := by
  rw [← a]
  exact okWith h

theorem errAt {α ε β : Type} {r : α × Except ε β} {u : α} (a : r.1 = u) (h : (okVal r).isNone = true) : ∃ f, r = (u, .error f) := by
  obtain ⟨x, y⟩ := r
  cases y <;> simp_all [okVal]

/-- The error of a read that fails. -/
def errVal {α ε β : Type} (r : α × Except ε β) : Option ε :=
  match r.2 with
  | .ok _ => none
  | .error e => some e

theorem errWith {α ε β : Type} {r : α × Except ε β} {e : ε} (h : errVal r = some e) : ∃ u, r = (u, .error e) := by
  obtain ⟨a, b⟩ := r
  cases b <;> simp_all [errVal]

theorem errAt' {α ε β : Type} {r : α × Except ε β} {e : ε} (h : errVal r = some e) : r = (r.1, .error e) := by
  obtain ⟨a, b⟩ := r
  cases b <;> simp_all [errVal]

theorem eqPair {α β : Type} {r : α × β} {v : β} (h : r.2 = v) : r = (r.1, v) := by rw [← h]

/-- A decoder's answer is this instruction. -/
def okIs {ε : Type} (r : Except ε Instr) (i : Instr) : Bool :=
  match r with
  | .ok j => j == i
  | .error _ => false

theorem pairSome {α β : Type} {r : α × β} {v : β} (h : r.2 = v) : ∃ u, r = (u, v) := ⟨r.1, by rw [← h]⟩

/-- What a test reads of the state an instruction leaves. -/
def after {α : Type} (o : Out) (f : State → α) : Option α :=
  match o with
  | .next t => some (f t)
  | _ => none

/-- A byte of the data leaf is found in stack 0's TLB, at its own address, in DRAM that answers. -/
theorem leaf_at (s : State) (va : W64) (o : Nat) (hm : s.mem.tlb = base.mem.tlb) (hu : s.ursol.stackSts = base.ursol.stackSts)
    (hf : s.ursol.fenced = []) (h : va.toNat + o < 2 ^ 26) :
    tlbFind s.mem 0 .stack 1 (va.toNat + o) = some (demoLeaf 0 2) ∧ reachable s.ursol (leafPa (demoLeaf 0 2) va + o) = true ∧
    leafPa (demoLeaf 0 2) (va + BitVec.ofNat 64 o) = leafPa (demoLeaf 0 2) va + o := by
  have hl : ∀ v : W64, v.toNat < 2 ^ 26 → leafPa (demoLeaf 0 2) v = v.toNat := by
    intro v hv
    have : ptePa (demoLeaf 0 2).pte = 0 := by decide +kernel
    unfold leafPa
    rw [this]
    show 0 + v.toNat % 2 ^ 26 = _
    omega
  refine ⟨?_, ?_, ?_⟩
  · have hb : base.mem.tlb = [demoLeaf 0 2, demoLeaf 1 3] := rfl
    unfold tlbFind
    rw [hm, hb, List.find?_cons_of_pos]
    have : (va.toNat + o) / leafSize (demoLeaf 0 2).level = 0 := by
      show (va.toNat + o) / 2 ^ 26 = 0
      omega
    simp [this]
    decide
  · rw [hl va (by omega)]
    have : stackOf (va.toNat + o) = 0 := by unfold stackOf; omega
    unfold reachable
    rw [this]
    have h1 : isDram (va.toNat + o) = true := by
      have : (2 : Nat) ^ 26 ≤ dramEnd := by decide +kernel
      unfold isDram
      exact decide_eq_true (by omega)
    have h2 : serves s.ursol 0 = true := by
      unfold serves stackState
      rw [hu]
      decide +kernel
    have h3 : isFenced s.ursol (va.toNat + o) = false := by simp [isFenced, hf, fget, flook]
    simp [h1, h2, h3]
  · have : (va + BitVec.ofNat 64 o).toNat = va.toNat + o := by
      rw [BitVec.toNat_add, BitVec.toNat_ofNat]; omega
    rw [hl _ (by omega), hl _ (by omega), this]

/-- The frame of a task whose record stands in the data leaf is ready for a save. -/
theorem frame_ready (s : State) (t : TaskId) (hm : s.mem.tlb = base.mem.tlb) (hu : s.ursol.stackSts = base.ursol.stackSts)
    (hf : s.ursol.fenced = []) (hc : (s.frameCtx t).stk = 0 ∧ (s.frameCtx t).unit = .stack ∧ (s.frameCtx t).asid = 1)
    (h : NoCopies s.mem ∧ (s.tiles.runs.all fun r => r.hdr.core != .task t) = true ∧ s.core.task.buf.length ≤ 2048 ∧ s.core.task.sq + s.core.task.scr ≤ 1024)
    (hn : (s.frameVa t).toNat + (0xA000 + 4096 * (s.core.task.sq + s.core.task.scr)) ≤ 2 ^ 26) : FrameReady s t (demoLeaf 0 2) := by
  refine ⟨h.1, h.2.1, h.2.2.1, h.2.2.2, ?_, by decide +kernel, by decide +kernel, ?_⟩
  · have : (2 : Nat) ^ 26 ≤ scratchBase := by decide +kernel
    exact Nat.le_trans hn this
  · intro o ho
    rw [hc.1, hc.2.1, hc.2.2]
    exact leaf_at s _ o hm hu hf (Nat.lt_of_lt_of_le (Nat.add_lt_add_left ho _) hn)

/-- Bytes of the data leaf are in reach of the Crook of stack 0. -/
theorem crook_reaches (u : State) (h : OpHdr) (va : W64) (n : Nat) (hm : u.mem.tlb = base.mem.tlb) (hu : u.ursol.stackSts = base.ursol.stackSts)
    (hf : u.ursol.fenced = []) (hs : h.stk = 0 ∧ h.asid = 1) (hn : va.toNat + n ≤ 2 ^ 26) : CrookReaches u h va n := by
  refine ⟨Nat.le_trans hn (by decide +kernel), demoLeaf 0 2, by decide +kernel, by decide +kernel, fun o ho => ?_⟩
  rw [hs.1, hs.2]
  exact leaf_at u va o hm hu hf (Nat.lt_of_lt_of_le (Nat.add_lt_add_left ho _) hn)

/-! ## Decoding: words written out from the fields of R60, R61, R70-R75, R148, R167, R241 and R347 -/

theorem test_decode_registers : ∀ q ∈ ([
      (0x00249481, .add 9 9 18), (0x103B0701, .sub 14 16 29), (0x20137981, .and 19 23 9), (0x3029EC01, .or 24 30 20),
      (0x403E6E81, .xor 29 6 31), (0x5016D181, .shl 3 13 11), (0x602D4401, .shr 8 20 22), (0x7005B681, .sra 13 27 2),
      (0x801A3901, .slt 18 3 13), (0x9030AB81, .sltn 23 10 24), (0xA0091E01, .min 28 17 4), (0xB01F8101, .max 2 24 15),
      (0xC035F381, .minn 7 31 26), (0xD00C7601, .maxn 12 7 6), (0x0022E882, .mul 17 14 17), (0x10395B02, .mulh 22 21 28),
      (0x2011CD82, .mulhn 27 28 8), (0x30264082, .div 1 4 19), (0x403CB302, .divn 6 11 30), (0x50152582, .rem 11 18 10),
      (0x602B9802, .remn 16 25 21), (0xEAC21A81, .fshl 21 1 1 43), (0xFB188D01, .fshr 26 8 12 44), (0x7000FF82, .clz 31 15),
      (0x80016282, .ctz 5 22), (0x9001D502, .popc 10 29), (0xA6C05782, .sext 15 5 27), (0xB700CA02, .zext 20 12 28)] : List (Nat × Instr)),
    decodeTableWord 32 q.1 = some q.2 := by decide +kernel

theorem test_decode_immediates : ∀ q ∈ ([
      (0x850B3C83, .addi 25 19 0x4285), (0x8675AF04, .andi 30 26 0x433a), (0x86DE2205, .ori 4 2 0x436f),
      (0x87389486, .xori 9 9 0x439c), (0x87A3070A, .slti 14 16 0x43d1), (0x0053EC07, .shli 24 30 41), (0x00586E88, .shri 29 6 44),
      (0x005ED189, .srai 3 13 47), (0xFEDCB88B, .lih 17 0xFEDCB)] : List (Nat × Instr)),
    decodeTableWord 32 q.1 = some q.2 := by decide +kernel

theorem test_decode_branches : ∀ q ∈ ([
      (0x800D7997, .jalr 19 23 0x4006), (0xFE876A10, .beq 20 22 0x7f43), (0xFE7C2D91, .bne 27 2 0x7f3e),
      (0xFE6AD192, .blt 3 13 0x7f35), (0xFE618513, .bge 10 24 0x7f30), (0xFE5E4894, .bltn 17 4 0x7f2f),
      (0xFE54FC15, .bgen 24 15 0x7f2a), (0x80001096, .jal 1 0x80001)] : List (Nat × Instr)),
    decodeTableWord 32 q.1 = some q.2 := by decide +kernel

theorem test_decode_memory : ∀ q ∈ ([
      (0x8413F398, .ld 7 31 .bn .own 33), (0x88247619, .st 12 7 .h .wt 34), (0x8D3AE89A, .lda 17 14 .wn .sis .svp 35),
      (0x92CD5B1B, .stl 22 21 .d .wis .sys 36), (0x4009CD9C, .amoSwap 27 28 .w .plain .near),
      (0x848A409C, .amoAdd 1 4 .wn .hart .far), (0x090CB31C, .amoAnd 6 11 .d .svp .auto), (0x4D89259C, .amoOr 11 18 .w .stack .near),
      (0x920B981C, .amoXor 16 25 .wn .pkg .far), (0x168C1A9C, .amoMin 21 1 .d .sys .auto), (0x58088D1C, .amoMax 26 8 .w .plain .near),
      (0x9C8AFF9C, .amoMinn 31 15 .wn .hart .far), (0x210D629C, .amoMaxn 5 22 .d .svp .auto), (0x7189D51D, .cas 10 29 14 .w .stack),
      (0xCA0A579E, .casNear 15 5 25 .wn .pkg), (0x2A8CCA1F, .casFar 20 12 5 .d .sys)] : List (Nat × Instr)),
    decodeTableWord 32 q.1 = some q.2 := by decide +kernel

theorem test_decode_system : ∀ q ∈ ([
      (0x000A0D20, .cwr 26 0x005), (0x40133020, .cww 19 0x9), (0x8011A020, .cws 26 0x8), (0xC2022020, .cwc 2 0x101),
      (0x0FC00021, .trap 63), (0x10000021, .eret), (0x20800021, .fence .svp), (0x22C00021, .fenceAcq .stack),
      (0x25000021, .fenceRel .pkg), (0x27400021, .fenceFetch .sys), (0x30000021, .tfence), (0x60000021, .etrig), (0x70000021, .exit),
      (0x80000021, .yield), (0x400004A1, .scommit 9), (0x50000721, .sabort 14), (0x903BEFA1, .vsetl 31 30 29),
      (0xC0003022, .vf 0xC0003)] : List (Nat × Instr)),
    decodeTableWord 32 q.1 = some q.2 := by decide +kernel

theorem test_decode_engines : ∀ q ∈ ([
      (0x001379A8, .launch 19 23 9), (0x1629EC29, .arrive 24 24 30 20), (0x183E6EA9, .csigSig 29 6 31), (0x1840D1A9, .csigSet 3 13),
      (0x006D442A, .rowact 1 8 20 22), (0x0801B6AA, .rowcls 13 27), (0x001A392B, .cbld 18 3 13), (0x0A70ABAB, .tbld 23 10 24 9),
      (0x15891E2B, .lka 28 17 4 22), (0x1801812B, .aclr 2 24), (0x2035F3AB, .adrn 7 31 26), (0x0000762C, .kvlook 12 7),
      (0x0B22E8AC, .kvins 17 14 17 12), (0x10395B2C, .kvpin 22 21 28), (0x1811CDAC, .kvunpin 27 28 8), (0x252640AC, .kvapp 1 4 19 20),
      (0x2800B32C, .kvsig 6 11), (0x3015202C, .kvbindBind 18 10), (0x072B982D, .cpy 16 25 21 28), (0x0A821AAD, .cpys 21 1 1 10),
      (0x0382D529, .wait 14 10 13 true), (0x08C05229, .poll 3 4 5 false), (0x301CD52A, .rowcon true false 10 13 14),
      (0x281CD52A, .rowcon false true 10 13 14)] : List (Nat × Instr)),
    decodeTableWord 32 q.1 = some q.2 := by decide +kernel

theorem test_decode_elements : ∀ q ∈ ([
      (0x0000000000000201, .stop true),
      (0x0144615205480610, .vadd ⟨true, 1⟩ .i8 (.vec 5 .col 4) (.vec 10 .diag 8) (.vec 17 .row 12) true),
      (0x0071D22488946811, .vsub ⟨false, 2⟩ .n16 (.vec 8 .diag 10) (.vec 17 .row 18) (.vec 28 .col 26) false),
      (0x019E330E8B1CCE12, .vmul ⟨true, 3⟩ .i64 (.vec 11 .row 14) (.vec 24 .col 26) (.vec 39 .diag 6) true),
      (0x00C8A3F10E68B013, .vmulh ⟨false, 4⟩ .n32 (.vec 14 .col 20) (.vec 31 .diag 4) (.vec 50 .row 20)),
      (0x000504C311B05614, .vmin ⟨true, 5⟩ .i16 (.vec 17 .diag 24) (.vec 38 .row 12) (.vec 1 .col 0)),
      (0x003275AD943CD815, .vmax ⟨false, 6⟩ .i64 (.vec 20 .row 30) (.vec 45 .col 22) (.vec 12 .diag 14)),
      (0x00F8D69797443E16, .vminn ⟨true, 7⟩ .n8 (.vec 23 .col 2) (.vec 52 .diag 30) (.vec 62 .row 26)),
      (0x008947621A90E017, .vmaxn ⟨false, 0⟩ .n64 (.vec 26 .diag 8) (.vec 59 .row 8) (.vec 34 .col 8)),
      (0x00B6A0CC1D180618, .vand ⟨true, 1⟩ .i8 (.vec 29 .row 12) (.vec 6 .col 16) (.vec 45 .diag 20)),
      (0x00E011B6A0646819, .vor ⟨false, 2⟩ .n16 (.vec 32 .col 18) (.vec 13 .diag 26) (.vec 56 .row 2)),
      (0x001D7280A3AC8E1A, .vxor ⟨true, 3⟩ .i32 (.vec 35 .diag 22) (.vec 20 .row 2) (.vec 7 .col 14)),
      (0x004AE36B2638F01B, .vshl ⟨false, 4⟩ .n64 (.vec 38 .row 28) (.vec 27 .col 12) (.vec 18 .diag 28)),
      (0x007444552940561C, .vshr ⟨true, 5⟩ .i16 (.vec 41 .col 0) (.vec 34 .diag 20) (.vec 29 .row 8)),
      (0x00A1B527AC8C381D, .vsra ⟨false, 6⟩ .n8 (.vec 44 .diag 6) (.vec 41 .row 30) (.vec 40 .col 22)),
      (0x1FCE1609AF14BE1E, .vfshl ⟨true, 7⟩ .n32 (.vec 47 .row 10) (.vec 48 .col 6) (.vec 51 .diag 2) 31),
      (0x3F0886F43260C01F, .vfshr ⟨false, 0⟩ .i64 (.vec 50 .col 16) (.vec 55 .diag 16) (.vec 2 .row 16) 63),
      (0x0000004635A82620, .vpopc ⟨true, 1⟩ .n8 (.vec 53 .diag 20) (.vec 2 .row 24)),
      (0x00000128B834C821, .vclz ⟨false, 2⟩ .i64 (.vec 56 .row 26) (.vec 9 .col 2)),
      (0x00000212BB7C4E22, .vabs ⟨true, 3⟩ .i16 (.vec 59 .col 30) (.vec 16 .diag 10)),
      (0x510002E502889023, .vsatn ⟨false, 4⟩ .i32 (.vec 2 .diag 4) (.vec 23 .row 20) 17 true),
      (0x00E683CF00029624, .vcmp ⟨true, 5⟩ .i32 (.mask 1) (.vec 30 .col 28) (.vec 57 .diag 16) .eq),
      (0x11F8F4B1885C3824, .vcmp ⟨false, 6⟩ .n8 (.vec (.vec 8 .col 14)) (.vec 37 .diag 6) (.vec 62 .row 30) .ne),
      (0x024D558380069E24, .vcmp ⟨true, 7⟩ .i32 (.mask 3) (.vec 44 .row 14) (.vec 19 .col 10) .lt),
      (0x137AC66E0E302024, .vcmp ⟨false, 0⟩ .n8 (.vec (.vec 14 .row 24)) (.vec 51 .col 24) (.vec 30 .diag 24) .ge),
      (0x04A42750000A8624, .vcmp ⟨true, 1⟩ .i32 (.mask 5) (.vec 58 .diag 0) (.vec 41 .row 4) .gt),
      (0x15D190A294842824, .vcmp ⟨false, 2⟩ .n8 (.vec (.vec 20 .diag 2)) (.vec 5 .row 10) (.vec 52 .col 18) .le),
      (0x000EF18C970CEE25, .vsel ⟨true, 3⟩ .n64 (.vec 23 .row 6) (.vec 12 .col 18) (.vec 3 .diag 30)),
      (0x000002771A58B026, .vmov ⟨false, 4⟩ .n32 (.vec 26 .col 12) (.vec 19 .diag 28)),
      (0x7FFF88001DA01627, .vmovx ⟨true, 5⟩ .i8 (.vec 29 .diag 16) 17 0x7F),
      (0x3F00042BBFD26228, .vext true .n16 9 (.vec 33 .col 14) 0x3F),
      (0xFD00042BA02C5829, .vidx ⟨false, 6⟩ .i16 (.vec 32 .row 22) (.vec 33 .col 14) 0xFD),
      (0x0000300000061E30, .vmand ⟨true, 7⟩ 3 0 6), (0x0000300000060031, .vmor ⟨false, 0⟩ 3 0 6),
      (0x0000300000060632, .vmxor ⟨true, 1⟩ 3 0 6), (0x00000000800E0833, .vmnot ⟨false, 2⟩ 7 2),
      (0x000000017FEA0E34, .vmcnt ⟨true, 3⟩ 21 5), (0x000000013FFC1035, .vmfirst ⟨false, 4⟩ 30 4)] : List (Nat × Instr)),
    decodeTableWord 64 q.1 = some q.2 := by decide +kernel

theorem test_decode_floats : ∀ q ∈ ([
      (0x00F802D335711640, .vfadd ⟨true, 5⟩ .fp32 (.vec 53 .col 24) (.vec 22 .diag 12) (.vec 62 .row 0) .rne),
      (0x011173A5B8BD3841, .vfsub ⟨false, 6⟩ .fp16 (.vec 56 .diag 30) (.vec 29 .row 22) (.vec 4 .col 14) .rtz),
      (0x023ED48FBB055E42, .vfmul ⟨true, 7⟩ .bf16 (.vec 59 .row 2) (.vec 36 .col 30) (.vec 15 .diag 26) .rdn),
      (0x0368457202510043, .vfma ⟨false, 0⟩ .fp32 (.vec 2 .col 8) (.vec 43 .diag 8) (.vec 26 .row 8) .rup),
      (0x0495A64405992646, .vfdiv ⟨true, 1⟩ .fp16 (.vec 5 .diag 12) (.vec 50 .row 16) (.vec 37 .col 20) .rmm),
      (0x00C2172E88254844, .vfmin ⟨false, 2⟩ .bf16 (.vec 8 .row 18) (.vec 57 .col 26) (.vec 48 .diag 2)),
      (0x00EC70908B6D2E45, .vfmax ⟨true, 3⟩ .fp16 (.vec 11 .col 22) (.vec 4 .diag 2) (.vec 59 .row 14)),
      (0x040001630EB91047, .vfrcp ⟨false, 4⟩ .fp32 (.vec 14 .diag 28) (.vec 11 .row 12) .rmm),
      (0x0300024D11013648, .vfrsq ⟨true, 5⟩ .fp16 (.vec 17 .row 0) (.vec 18 .col 20) .rup),
      (0x02000337944D5849, .vfexp2 ⟨false, 6⟩ .bf16 (.vec 20 .col 6) (.vec 25 .diag 30) .rdn),
      (0x0100040197951E4A, .vflog2 ⟨true, 7⟩ .fp32 (.vec 23 .diag 10) (.vec 32 .row 6) .rtz),
      (0x00DA84EC0003004B, .vfcmp ⟨false, 0⟩ .fp32 (.mask 1) (.vec 39 .col 16) (.vec 54 .diag 16) .eq),
      (0x1114E5D61D69264B, .vfcmp ⟨true, 1⟩ .fp16 (.vec (.vec 29 .col 20)) (.vec 46 .diag 24) (.vec 5 .row 28) .ne),
      (0x024156A08007084B, .vfcmp ⟨false, 2⟩ .fp32 (.mask 3) (.vec 53 .row 2) (.vec 16 .col 10) .lt),
      (0x136EB78AA33D2E4B, .vfcmp ⟨true, 3⟩ .fp16 (.vec (.vec 35 .row 30)) (.vec 60 .col 10) (.vec 27 .diag 22) .ge),
      (0x04F820F5000B104B, .vfcmp ⟨false, 4⟩ .fp32 (.mask 5) (.vec 7 .diag 20) (.vec 62 .row 4) .gt),
      (0x15C581C72991364B, .vfcmp ⟨true, 5⟩ .fp16 (.vec (.vec 41 .diag 8)) (.vec 14 .row 28) (.vec 49 .col 16) .le),
      (0x06F2F2A9800F184B, .vfcmp ⟨false, 6⟩ .fp32 (.mask 7) (.vec 21 .col 6) (.vec 60 .diag 30) .un),
      (0xC1000393AF657E4C, .vfcvt ⟨true, 7⟩ .e4m3 (.vec 47 .col 18) (.vec 28 .diag 14) .rtz .fp32 3),
      (0x5A00005872B1204C, .vfcvt ⟨false, 0⟩ .fp16 (.vec 50 .diag 24) (.stream 2 true) .rdn .e4m3 1),
      (0x030005483538C64D, .vicvt ⟨true, 1⟩ .i64 (.vec 53 .row 28) (.vec 42 .col 0) .rup .fp32 0),
      (0x4C000632B845A84D, .vicvt ⟨false, 2⟩ .o4 (.vec 56 .col 2) (.vec 49 .diag 10) .rmm .n8 1)] : List (Nat × Instr)),
    decodeTableWord 64 q.1 = some q.2 := by decide +kernel

theorem test_decode_crossLane : ∀ q ∈ ([
      (0x01000704BFE84E50, .vrsum ⟨true, 3⟩ .i16 20 (.vec 56 .row 18) true),
      (0x0000006F3FEEF051, .vrmax ⟨false, 4⟩ .n64 23 (.vec 3 .col 28)),
      (0x000001513FF41652, .vrmin ⟨true, 5⟩ .i8 26 (.vec 10 .diag 4)),
      (0x00FF6223BFFA7853, .vrmaxi ⟨false, 6⟩ .n16 29 (.vec 17 .row 14) 12),
      (0x00FFBB0DBFC29E54, .vrmini ⟨true, 7⟩ .i32 1 (.vec 24 .col 22) 23),
      (0x000003F03FC82055, .vrand ⟨false, 0⟩ .n8 4 (.vec 31 .diag 0)), (0x000004C23FCEC656, .vror ⟨true, 1⟩ .i64 7 (.vec 38 .row 8)),
      (0x000005ACBFD4A857, .vrxor ⟨false, 2⟩ .n32 10 (.vec 45 .col 18)),
      (0x0B000696BFDB4E58, .vfrsum ⟨true, 3⟩ .bf16 13 (.vec 52 .diag 26) .rup true),
      (0x000007613FE13059, .vfrmax ⟨false, 4⟩ .fp16 16 (.vec 59 .row 4)),
      (0x430000CB1D30165A, .vgred ⟨true, 5⟩ .i8 (.vec 29 .row 24) (.vec 6 .col 12) .g8 .sum true),
      (0x110001B5A07D385A, .vgred ⟨false, 6⟩ .fp16 (.vec 32 .col 30) (.vec 13 .diag 22) .g2 .min false),
      (0x041DD287A3843E60, .vshuf ⟨true, 7⟩ .n8 (.vec 35 .diag 2) (.vec 20 .row 30) (.vec 7 .col 26) .g16),
      (0x02FF2B6A26104061, .vslup ⟨false, 0⟩ .i16 (.vec 38 .row 8) (.vec 27 .col 8) 5 .g4),
      (0x00FF34542958E662, .vsldn ⟨true, 1⟩ .n64 (.vec 41 .col 12) (.vec 34 .diag 16) 6 .g32),
      (0x01FF3D26ACA48863, .vbcast ⟨false, 2⟩ .i32 (.vec 44 .diag 18) (.vec 41 .row 26) 7 .g2),
      (0x00002E08AF2CA264, .vcmprs true .n32 (.vec 47 .row 22) (.vec 48 .col 2) 5),
      (0x00000E08AF2CE065, .vexpnd false .n64 (.vec 47 .row 22) (.vec 48 .col 2) 1),
      (0x6B000608AF2C8E66, .vscan ⟨true, 3⟩ .i32 (.vec 47 .row 22) (.vec 48 .col 2) .g8 .xor true false)] : List (Nat × Instr)),
    decodeTableWord 64 q.1 = some q.2 := by decide +kernel

theorem test_decode_squares : ∀ q ∈ ([
      (0x01FF406909019070, .opa ⟨false, 4⟩ .e5m2 9 (.vec 3 .col 4) (.scalar 8) true), (0x000000003E000071, .sqz false 62),
      (0x010005200D000272, .sqcp true 13 41 true), (0x0400012008016273, .sqcvt true .e4m3 8 9 .rmm)] : List (Nat × Instr)),
    decodeTableWord 64 q.1 = some q.2 := by decide +kernel

theorem test_decode_vectorMemory : ∀ q ∈ ([
      (0x4C0007FA7580B680, .vld ⟨true, 5⟩ .n32 (.vec 53 .diag 0) 9 ⟨.wis, .hart, true, false⟩),
      (0xABFFDFFBB80CF881, .vlds ⟨false, 6⟩ .n64 (.vec 56 .row 6) 14 27 ⟨.sis, .sys, false, true⟩),
      (0xD1B097FCFB54BE82, .vldx ⟨true, 7⟩ .n32 (.vec 59 .col 10) 19 (.vec 44 .row 18) ⟨.own, .svp, true, true⟩),
      (0x420007FE02A0E084, .vst ⟨false, 0⟩ .n64 (.vec 2 .diag 16) 24 ⟨.wt, true⟩),
      (0x01FF1FFF4528A685, .vsts ⟨true, 1⟩ .n32 (.vec 5 .row 20) 29 3 ⟨.own, false⟩),
      (0x435017F8C874E886, .vstx ⟨false, 2⟩ .n64 (.vec 8 .col 26) 3 (.vec 20 .row 2) ⟨.sis, true⟩),
      (0x040AFFFA0BBCAE87, .vstb ⟨true, 3⟩ (.vec 11 .diag 30) 8 (.vec 2 .diag 31) ⟨.wis, false⟩),
      (0x68240FFBFFDCB088, .vamo ⟨false, 4⟩ .n32 (.scalar 14) 15 (.vec 9 .row 1) .maxn .far true)] : List (Nat × Instr)),
    decodeTableWord 64 q.1 = some q.2 := by decide +kernel

theorem test_decode_keyValue : ∀ q ∈ ([
      (0x00FF60A07FD6A290, .kvhash true 11 (.vec 5 .row 1) 12), (0x003000C1C4476291, .vsign true (.vec 4 .col 3) (.vec 6 .row 7) 12),
      (0x000F008005017692, .qkdot ⟨true, 5⟩ (.vec 5 .row 0) (.vec 4 .row 0) 3),
      (0x0007082087197893, .pvacc ⟨false, 6⟩ 7 12 (.vec 1 .row 2) 1)] : List (Nat × Instr)),
    decodeTableWord 64 q.1 = some q.2 := by decide +kernel

/-! ## Words that are no instruction, and terms that no word encodes -/

/-- op7 0x00 and 0x7F, the E-form codes 0x000 and 0x002, an AMO with place code 3, a non-zero k in ADD,
a STOP with other bits and a LAUNCH with a function code (R60, R71, R73, R74, R75). -/
theorem test_refused_words :
    (∀ w ∈ ([0x00000000, 0x0000007F, 0xC000001C, 0x02000001, 0x00000038 + 2 ^ 31] : List Nat), decodeTableWord 32 w = none) ∧
    (∀ w ∈ ([0x000, 0x002, 0x100000001] : List Nat), decodeTableWord 64 w = none) := by decide +kernel

theorem test_illFormed_size : (Instr.st 1 2 .bn .dflt 0).check = some .badSize := by decide +kernel
theorem test_illFormed_scope : (Instr.fence .plain).check = some .badScope := by decide +kernel
theorem test_illFormed_controlWord : (Instr.cwr 1 0x7).check = some .badControlWord := by decide +kernel
theorem test_illFormed_destination : (Instr.vmand ⟨false, 0⟩ 0 1 2).check = some .badDestination := by decide +kernel
theorem test_illFormed_type : (Instr.vabs ⟨false, 0⟩ .n8 (.vec 0 .row 1) (.vec 0 .row 2)).check = some .badType := by decide +kernel
theorem test_illFormed_operand :
    (Instr.vadd ⟨false, 0⟩ .i64 (.vec 0 .row 4) (.stream 0 false) (.vec 0 .row 2) false).check = some .badOperand := by decide +kernel
theorem test_illFormed_immediate : (Instr.vsatn ⟨false, 0⟩ .i8 (.vec 0 .row 1) (.vec 0 .row 2) 9 false).check = some .badImmediate := by
  decide +kernel

/-- q3.r[5] and q3.c[9] overlap, q3.r[5] and q3.r[6] do not, and an i64 operand q3.r[4] overlaps q3.r[5]
(the examples of R63); a VSHUF may not overlap (R68). -/
theorem test_illFormed_overlap :
    (Instr.vshuf ⟨false, 0⟩ .n32 (.vec 3 .row 5) (.vec 3 .col 9) (.vec 0 .row 0) .g32).check = some .overlap ∧
    (Instr.vshuf ⟨false, 0⟩ .n32 (.vec 3 .row 5) (.vec 3 .row 6) (.vec 0 .row 0) .g32).check = none ∧
    overlapAny (VOp.ref? .i64 (.vec 3 .row 4)) (VOp.ref? .n32 (.vec 3 .row 5)) = true := by decide +kernel

/-- The operand examples of R61. -/
theorem test_operandFields : VOp.code (.scalar 7) = 0x1FE7 ∧ VOp.code (.stream 1 true) = 0x00E1 := by decide +kernel

/-- The words the manual writes out beside R118, R122 and R131. -/
theorem test_manual_words :
    decodeTableWord 32 0xF316A481 = some (.fshr 9 10 11 12) ∧ decodeTableWord 32 0x2468A38B = some (.lih 7 0x2468A) ∧
    decodeTableWord 32 0xCF127385 = some (.ori 7 7 0x6789) ∧ decodeTableWord 32 0x01400021 = some (.trap 5) := by decide +kernel

/-! ## Results the manual works out -/

/-- The value an instruction leaves in a scalar register. -/
def left (s : State) (d : Reg) (i : Instr) : Option W64 := after (exec i s) fun t => t.core.reg d

/-- The examples of R119. -/
theorem test_division :
    left (regs base [(1, BitVec.ofInt 64 (-7)), (2, 2)]) 3 (.div 3 1 2) = some (BitVec.ofInt 64 (-3)) ∧
    left (regs base [(1, BitVec.ofInt 64 (-7)), (2, 2)]) 3 (.rem 3 1 2) = some (BitVec.allOnes 64) ∧
    left (regs base [(1, 7)]) 3 (.divn 3 1 2) = some (BitVec.allOnes 64) ∧
    left (regs base [(1, 7)]) 3 (.remn 3 1 2) = some 7 ∧
    left (regs base [(1, BitVec.intMin 64), (2, BitVec.allOnes 64)]) 3 (.div 3 1 2) = some (BitVec.intMin 64) ∧
    left (regs base [(1, BitVec.intMin 64), (2, BitVec.allOnes 64)]) 3 (.rem 3 1 2) = some 0 := by decide +kernel

/-- The examples beside R118, R121 and R122. -/
theorem test_scalar_examples :
    left (regs base [(10, 0xABC), (11, 0x123456789ABCDEF0)]) 9 (.fshr 9 10 11 12) = some 0xABC123456789ABCD ∧
    left base 7 (.lih 7 0x2468A) = some 0x0000000123450000 ∧
    left (regs base [(7, 0x0000000123450000)]) 7 (.ori 7 7 0x6789) = some 0x0000000123456789 ∧
    left (regs base [(1, 0x1234567F)]) 2 (.andi 2 1 0x7FF8) = some 0x12345678 := by decide +kernel

/-- R118 where a slip would show: an arithmetic shift, a signed high product, the comparisons' signs. -/
theorem test_scalar_signs :
    left (regs base [(1, 0x8000000000000000), (2, 0x104)]) 3 (.sra 3 1 2) = some 0xF800000000000000 ∧
    left (regs base [(1, BitVec.allOnes 64), (2, 2)]) 3 (.mulh 3 1 2) = some (BitVec.allOnes 64) ∧
    left (regs base [(1, BitVec.allOnes 64), (2, 2)]) 3 (.mulhn 3 1 2) = some 1 ∧
    left (regs base [(1, BitVec.allOnes 64), (2, 2)]) 3 (.slt 3 1 2) = some 1 ∧
    left (regs base [(1, BitVec.allOnes 64), (2, 2)]) 3 (.sltn 3 1 2) = some 0 ∧
    left (regs base [(1, 0x1FF)]) 3 (.sext 3 1 7) = some (BitVec.allOnes 64) ∧
    left base 3 (.clz 3 1) = some 64 ∧ left base 0 (.addi 0 0 5) = some 0 := by decide +kernel

/-- R123 to R125: a taken branch moves by four bytes a unit, and JALR x1, x1, 0 returns and links. -/
theorem test_control_flow :
    after (exec (.bne 1 2 0x7FFF) (regs base [(1, 1)])) (fun t => t.core.pc) = some (base.core.pc - 4) ∧
    after (exec (.jalr 1 1 0) (regs base [(1, 0x4000800)])) (fun t => (t.core.pc, t.core.reg 1)) =
      some (0x4000800, 0x4000000 + 4) := by decide +kernel

/-- A clear of the flags of 0x31 by 0x11 leaves 0x20 (R130). -/
theorem test_clear_flags :
    after (exec (.cwc 1 0x8) { (regs base [(1, 0x11)]) with core := { (regs base [(1, 0x11)]).core with flags := 0x31 } })
      (fun t => t.core.flags) = some 0x20 := by decide +kernel

/-- TRAP 5 on the supervisor core saves its own address, code and argument and goes to svec (R131, R132). -/
theorem test_trap :
    after (exec (.trap 5) sup) (fun t => (t.core.epc, t.core.info, t.core.pc, t.core.sup.inh)) = some (0x4000000, 5, 0x5000, true) := by
  decide +kernel

/-- Lanes with some vector length, start, masks and cells, in a running block. -/
def vecState (vl : BitVec 6) (vstart : BitVec 5) (m cells : FMap W32) (bc : FMap W64) : State :=
  task base fun t => { t with sq := 64, vl := vl, vstart := vstart, m := m, cells := cells, block := some ⟨0x4000100, 0x4000108, [7, 8], bc⟩ }

/-- A row of square q, keyed. -/
def row (q i : Nat) (l : List W32) : FMap W32 := l.zipIdx.map fun (e : W32 × Nat) => (1024 * q + 32 * i + e.2, e.1)

/-- The values of cells of a row after an instruction. -/
def rowAfter (s : State) (i : Instr) (q r n : Nat) : Option (List W32) :=
  after (exec i s) fun t => (List.range n).map fun k => t.core.task.cell (1024 * q + 32 * r + k)

/-- The example of R143: cells 2, 3 and 5 are written and vstart ends at 0. -/
theorem test_vadd_loop :
    rowAfter (vecState 6 2 [(1, 0x2D)] (row 0 0 [1, 2, 3, 4, 5, 6, 7] ++ row 1 0 [10, 10, 10, 10, 10, 10, 10] ++ row 2 0 [9, 9, 9, 9, 9, 9, 9]) [])
      (.vadd ⟨false, 1⟩ .i32 (.vec 2 .row 0) (.vec 0 .row 0) (.vec 1 .row 0) false) 2 0 7 = some [9, 9, 13, 14, 9, 16, 9] ∧
    after (exec (.vadd ⟨false, 1⟩ .i32 (.vec 2 .row 0) (.vec 0 .row 0) (.vec 1 .row 0) false) (vecState 6 2 [] [] []))
      (fun t => t.core.task.vstart) = some 0 := by decide +kernel

/-- The shift count of VSHL.i8 is taken modulo 8 (the example of R153). -/
theorem test_vshl :
    rowAfter (vecState 1 0 [] (row 0 0 [0x81]) [(7, 9)]) (.vshl ⟨false, 0⟩ .i8 (.vec 2 .row 0) (.vec 0 .row 0) (.scalar 7)) 2 0 1 = some [0x02] := by
  decide +kernel

/-- The example of R162. -/
theorem test_mask_counts :
    left (vecState 12 0 [(3, 0xC30)] [] []) 9 (.vmcnt ⟨false, 0⟩ 9 3) = some 4 ∧
    left (vecState 12 0 [(3, 0xC30)] [] []) 10 (.vmfirst ⟨false, 0⟩ 10 3) = some 4 ∧
    left (vecState 12 0 [(2, 0x800), (3, 0xC30)] [] []) 9 (.vmcnt ⟨false, 2⟩ 9 3) = some 1 ∧
    left (vecState 12 0 [(2, 0x800), (3, 0xC30)] [] []) 10 (.vmfirst ⟨false, 2⟩ 10 3) = some 11 := by decide +kernel

/-- The identities of R178. -/
theorem test_reduction_identities :
    left (vecState 4 0 [] [] []) 9 (.vrmax ⟨false, 1⟩ .i8 9 (.vec 0 .row 0)) = some 0xFFFFFFFFFFFFFF80 ∧
    left (vecState 4 0 [] [] []) 9 (.vrand ⟨false, 1⟩ .n16 9 (.vec 0 .row 0)) = some 0xFFFF := by decide +kernel

/-- The example of R179. -/
theorem test_vrmini :
    left (vecState 6 0 [(1, 0x2F)] (row 0 0 [7, 3, 9, 3, 2, 4]) [(8, 0xFFFFFFFF)]) 9 (.vrmini ⟨false, 1⟩ .n32 9 (.vec 0 .row 0) 8) =
      some 0x0000000100000003 ∧
    left (vecState 6 0 [] (row 0 0 [7, 3, 9, 3, 2, 4]) [(8, 0xFFFFFFFF)]) 9 (.vrmini ⟨false, 1⟩ .n32 9 (.vec 0 .row 0) 8) =
      some (BitVec.allOnes 64) := by decide +kernel

/-- The example of R174: part 1 puts cell 0 at element 32, and 500.0 becomes 448 with overflow and inexact. -/
theorem test_vfcvt :
    rowAfter (vecState 32 0 [] (row 1 0 [0x43FA0000]) []) (.vfcvt ⟨false, 0⟩ .e4m3 (.vec 2 .row 0) (.vec 1 .row 0) .rne .fp32 1) 2 0 9 =
      some [0, 0, 0, 0, 0, 0, 0, 0, 0x7E] ∧
    after (exec (.vfcvt ⟨false, 0⟩ .e4m3 (.vec 2 .row 0) (.vec 1 .row 0) .rne .fp32 1) (vecState 32 0 [] (row 1 0 [0x43FA0000]) []))
      (fun t => t.core.flags) = some (Flag.overflow.bit ||| Flag.inexact.bit) := by decide +kernel

/-- The examples of R40, R43 and R44. -/
theorem test_formats :
    (∀ rm ∈ [Rm.rne, .rtz, .rdn, .rup, .rmm], roundFp .e4m3 rm false 500 0 = (0x7E, Flag.overflow.bit ||| Flag.inexact.bit) ∧
      (roundFp .e4m3 rm false 464 0).1 = 0x7E) ∧
    (List.range 8).map (o4Elem 0x0000F3A8) = [-32, 0, 3, -1, 0, 0, 0, 0] ∧
    o4Encode 5 (-300) false false = (0x8D, Flag.inexact.bit) ∧ (o4Encode 12 3 false false).1 = 0x18 := by decide +kernel

/-- The rounding modes split where a tie and a sign show it (R37, R38): 1 + 2^-24 in fp32, and 65520 in fp16. -/
theorem test_rounding :
    roundFp .fp32 .rne false (2 ^ 24 + 1) (-24) = (0x3F800000, Flag.inexact.bit) ∧
    roundFp .fp32 .rmm false (2 ^ 24 + 1) (-24) = (0x3F800001, Flag.inexact.bit) ∧
    roundFp .fp32 .rdn true (2 ^ 24 + 1) (-24) = (0xBF800001, Flag.inexact.bit) ∧
    roundFp .fp16 .rne false 65519 0 = (0x7BFF, Flag.inexact.bit) ∧
    roundFp .fp16 .rup false 65505 0 = (0x7C00, Flag.overflow.bit ||| Flag.inexact.bit) := by decide +kernel

/-- The example of R41: n16 65,535 to fp16. -/
theorem test_integer_overflow :
    intToFp .fp16 .rne 65535 = (0x7C00, Flag.overflow.bit ||| Flag.inexact.bit) ∧
    intToFp .fp16 .rtz 65535 = (0x7BFF, Flag.overflow.bit ||| Flag.inexact.bit) ∧
    intToFp .fp16 .rtz (-65504) = (0xFBFF, 0) := by decide +kernel

/-- The example of R54: five elements sum as ((c0 + c1) + (c2 + c3)) + c4: 2^24, 2^24 + 2, and a tie to 2^24 + 4. -/
theorem test_vfrsum :
    left (vecState 5 0 [] (row 0 0 [0x4B800000, 0x3F800000, 0x3F800000, 0x3F800000, 0x3F800000]) []) 9
      (.vfrsum ⟨false, 0⟩ .fp32 9 (.vec 0 .row 0) .rne false) = some 0x4B800002 := by decide +kernel

/-- The example of R85: three tasks a stack over stacks 2 to 5. -/
theorem test_rectangle :
    (List.range 12).map (fun i => (({ demoFarm.lrec with xlo := 0, xhi := 1, ylo := 1, yhi := 2, tps := 3 } : LaunchRec).stackOfTask i).val) =
      [2, 2, 2, 3, 3, 3, 4, 4, 4, 5, 5, 5] := by decide +kernel

/-- The coordinate beside R320: sequence 5, layer 2, head 1, position 40. -/
theorem test_coordinate :
    (kvSeqNo 0x0000050201000028, kvLayer 0x0000050201000028, kvHead 0x0000050201000028, kvPos 0x0000050201000028) = (5, 2, 1, 40) := by
  decide +kernel

/-- The compressed payload beside R366 decodes; with a distance before the window it is rejected. -/
theorem test_packet :
    expand 7 [0x02, 0x41, 0x42, 0x43, 0xBA, 0x02, 0x00] [] =
      some ((List.replicate 21 [0x41, 0x42, 0x43]).flatten ++ [(0x41 : Byte)]) ∧
    rejects 64 [0x02, 0x41, 0x42, 0x43, 0xBA, 0x04, 0x00] = true := by decide +kernel

/-! ## The hypotheses of the statements can be met -/

theorem witness_ScalarRegisterForms :
    (Quiet base ∧ MayRun base [1, 2, 3] ∧ MayRun base [1, 2]) ∧
    (Quiet sup ∧ MayRun sup [1, 2, 3] ∧ MayRun sup [1, 2]) ∧
    (let s := holds inBlock [(0x4000100, bytesOf 8 1)]
     s.core.inBlock = true ∧ Quiet s ∧ MayRun s [1, 2, 3] ∧ MayRun s [1, 2]) := by decide +kernel

theorem witness_ScalarDivision :
    (Quiet base ∧ MayRun base [1, 2, 3] ∧ base.core.reg 3 = 0) ∧
    (let s := regs base [(2, 7), (3, 2)]; Quiet s ∧ MayRun s [1, 2, 3] ∧ s.core.reg 3 ≠ 0) ∧
    (let s := regs base [(2, BitVec.ofInt 64 (-2 ^ 63)), (3, BitVec.allOnes 64)]
     Quiet s ∧ MayRun s [1, 2, 3] ∧ s.core.reg 2 = BitVec.ofInt 64 (-2 ^ 63) ∧ s.core.reg 3 = BitVec.allOnes 64) := by decide +kernel

theorem witness_ScalarImmediates : Quiet base ∧ MayRun base [1, 2] ∧ MayRun base [1] := by decide +kernel

theorem witness_Branches : Quiet base ∧ MayRun base [2, 3] := by decide +kernel

theorem witness_Jumps :
    let t := fun (v : W64) => BitVec.ofInt 64 (((regs base [(2, v)]).core.reg 2).toNat + (0 : BitVec 15).toInt)
    Quiet (regs base [(2, 0xFFFFFFFFFFFFFC)]) ∧ MayRun (regs base [(2, 0xFFFFFFFFFFFFFC)]) [1] ∧
    MayRun (regs base [(2, 0xFFFFFFFFFFFFFC)]) [1, 2] ∧
    ((t 0xFFFFFFFFFFFFFC).toNat % 4 = 0 ∧ (t 0xFFFFFFFFFFFFFC).toNat < 2 ^ 56) ∧ (t 0x2002).toNat % 4 ≠ 0 ∧ 2 ^ 56 ≤ (t 0x100000000000000).toNat := by
  decide +kernel

/-- x2 at the last double of the 64 pages of the scratchpad window. -/
def atWindow : State := regs base [(2, BitVec.ofNat 64 (scratchBase + 4096 * 64 - 8))]

theorem witness_ScratchpadLoads :
    (atWindow.core.id.isTask = true ∧ NoBlock atWindow ∧ Quiet atWindow ∧ Unwatched atWindow ∧ atWindow.core.task.buf = []) ∧
    (effAddr atWindow 2 .d 0).toNat = scratchBase + (4096 * 64 - 8) ∧ (4096 * 64 - 8) % sizeBytes .d = 0 ∧
    (4096 * 64 - 8) + sizeBytes .d ≤ 4096 * atWindow.core.task.scr ∧ atWindow.core.task.scr ≤ 1024 := by decide +kernel

theorem witness_ScratchpadStores :
    (atWindow.core.id.isTask = true ∧ NoBlock atWindow ∧ Quiet atWindow ∧ Unwatched atWindow ∧ atWindow.core.task.buf = []) ∧
    ((effAddr atWindow 2 .b 7).toNat = scratchBase + (4096 * 64 - 1) ∧ (4096 * 64 - 1) % sizeBytes .b = 0 ∧
     (4096 * 64 - 1) + sizeBytes .b ≤ 4096 * atWindow.core.task.scr ∧ atWindow.core.task.scr ≤ 1024) ∧
    atWindow.mem.lines = [] ∧ atWindow.mem.notices = [] := by decide +kernel

theorem witness_ScratchpadAtomics :
    atWindow.core.id.isTask = true ∧ NoBlock atWindow ∧ Quiet atWindow ∧ Unwatched atWindow ∧ atWindow.core.task.buf = [] ∧
    (atWindow.core.reg 2).toNat = scratchBase + (4096 * 64 - 8) ∧ (4096 * 64 - 8) % sizeBytes .d = 0 ∧
    (4096 * 64 - 8) + sizeBytes .d ≤ 4096 * atWindow.core.task.scr ∧ atWindow.core.task.scr ≤ 1024 ∧
    atWindow.mem.lines = [] ∧ atWindow.mem.notices = [] := by decide +kernel

/-- x2 at an aligned double of memory. -/
def atHome : State := regs base [(2, 0x2008), (3, 0x1122334455667788)]

theorem witness_HomeLoadsAndStores :
    (NoBlock atHome ∧ Quiet atHome ∧ Unwatched atHome ∧ atHome.core.task.buf = [] ∧ 0x2008 % sizeBytes .d = 0 ∧ NoCopies atHome.mem) ∧
    (∃ ms, checkAccess atHome (effAddr atHome 2 .d 0) (sizeBytes .d) .store .dflt false = (ms, .ok (.mem 0x2008 .wt))) ∧
    (∃ ms, checkAccess atHome (effAddr atHome 2 .d 0) (sizeBytes .d) .load .dflt false = (ms, .ok (.mem 0x2008 .wt))) :=
  ⟨by decide +kernel, okSome (by decide +kernel), okSome (by decide +kernel)⟩

/-- The data leaf stands in the TLB of the task's own cluster too. -/
def near (s : State) : State := { s with mem := { s.mem with tlb := { demoLeaf 0 2 with unit := .svp } :: s.mem.tlb } }

theorem witness_HomeAtomics :
    (NoBlock (near atHome) ∧ Quiet (near atHome) ∧ Unwatched (near atHome) ∧ (near atHome).core.task.buf = [] ∧ 0x2008 % sizeBytes .d = 0 ∧
     NoCopies (near atHome).mem ∧ (near atHome).core.agent < 17) ∧
    checkAccess (near atHome) ((near atHome).core.reg 2) (sizeBytes .d) .atomic .dflt false = ((near atHome).mem, .ok (.mem 0x2008 .wt)) :=
  ⟨by decide +kernel, okAt (by decide +kernel) (by decide +kernel)⟩

theorem witness_StoreThenLoad : 0x2008 % 8 = 0 ∧ NoCopies atHome.mem := by decide +kernel

theorem witness_AddressFaults :
    let low := scratchBase + 4096 * 64
    let at' := fun (v : Nat) => regs base [(2, BitVec.ofNat 64 v)]
    (NoBlock (at' (2 ^ 56)) ∧ 2 ^ 56 ≤ (effAddr (at' (2 ^ 56)) 2 .d 0).toNat) ∧
    (scratchBase ≤ (effAddr (at' low) 2 .d 0).toNat ∧ (effAddr (at' low) 2 .d 0).toNat < 2 ^ 56 ∧ (at' low).core.id.isTask = true ∧
     scratchBase + 4096 * (at' low).core.task.scr ≤ (effAddr (at' low) 2 .d 0).toNat) ∧
    ((effAddr (at' (low - 1)) 2 .d 0).toNat < scratchBase + 4096 * (at' (low - 1)).core.task.scr ∧
     (effAddr (at' (low - 1)) 2 .d 0).toNat % sizeBytes .d ≠ 0) := by decide +kernel

/-- A block that writes x4: VMCNT x4, m0 and STOP. -/
def writesX4 : State := holds inBlock [(0x4000100, bytesOf 8 0x3FC80034 ++ bytesOf 8 1)]

theorem witness_WaitingForABlock :
    writesX4.core.inBlock = true ∧ writesX4.core.id.isTask = true ∧ ¬ MayRun writesX4 [4, 2] ∧ ¬ MayRun writesX4 [4, 2, 3] ∧
    ¬ MayRun writesX4 [2, 4] ∧ ¬ MayRun writesX4 [4] ∧ MayRun writesX4 [1, 2] := by decide +kernel

/-! ### Exceptions and control words -/

def inHandler : State := { sup with core := { sup.core with sup := { sup.core.sup with inh := true } } }

theorem witness_SupervisorExceptions :
    (sup.core.id = .sup 0 ∧ NoBlock sup ∧ sup.core.sup.inh = false) ∧
    (inHandler.core.id = .sup 0 ∧ NoBlock inHandler ∧ inHandler.core.sup.inh = true) := by decide +kernel

/-- The same state with its pages unmapped: no page table, no TLB. -/
def unmapped (s : State) : State := { s with mem := { s.mem with tlb := [] } }

/-- What the save of a task's context answers, and its resume object. -/
def savedAs (s : State) (i : TrapInfo) : Bool × Bool :=
  let c := s.core.trapWords i
  let r := ({ s with core := c, mem := releaseWide s.mem c.agent } : State).unseat ⟨0, 0⟩ i.resume i.level i.kind
  (r.2, (r.1.resumeObject ⟨0, 0⟩).2.isSome)

theorem witness_HartExceptions :
    (base.core.id = .task ⟨0, 0⟩ ∧ (base.farm? 0).isSome = true ∧ NoBlock base ∧ savedAs base { code := 3, info := 0, epc := 0x4000000, resume := 0x4000004 } = (true, true)) ∧
    ((unmapped base).core.id = .task ⟨0, 0⟩ ∧ ((unmapped base).farm? 0).isSome = true ∧ NoBlock (unmapped base) ∧ (savedAs (unmapped base) { code := 3, info := 0, epc := 0x4000000, resume := 0x4000004 }).1 = false) ∧
    FrameReady base ⟨0, 0⟩ (demoLeaf 0 2) :=
  ⟨by decide +kernel, by decide +kernel, frame_ready _ _ rfl rfl rfl (by decide +kernel) (by decide +kernel) (by decide +kernel)⟩

/-- x2 at a double whose last byte a watch range of two bytes covers, for the kinds of the mask. -/
def watching (kind : BitVec 2) : State := task (regs base [(2, 0x2008)]) fun t => { t with watches := [(0, ⟨1, kind, 0x200F⟩)] }

theorem witness_DebugTraps :
    (∀ k ∈ [(1 : BitVec 2), 2],
      let s := watching k
      s.core.id.isTask = true ∧ s.core.task.watchHit = none ∧ NoBlock s ∧ s.core.task.step = false ∧
      ∃ w ∈ s.core.task.watches, w.2.kind = k ∧ w.2.va.toNat / 2 ^ w.2.lg.toNat * 2 ^ w.2.lg.toNat < (effAddr s 2 .d 0).toNat + sizeBytes .d ∧
        (effAddr s 2 .d 0).toNat < w.2.va.toNat / 2 ^ w.2.lg.toNat * 2 ^ w.2.lg.toNat + 2 ^ w.2.lg.toNat) ∧
    (∀ k ∈ [(1 : BitVec 2), 2], ∃ u, coreLoad (watching k) (effAddr (watching k) 2 .d 0) (sizeBytes .d) .dflt false = (u, .ok 0)) ∧
    (∃ u, coreStore (watching 2) (effAddr (watching 2) 2 .d 0) (sizeBytes .d) 5 .dflt = (u, .done)) ∧
    (let s := task base fun t => { t with step := true }
     s.core.id.isTask = true ∧ s.core.task.watchHit = none ∧ NoBlock s ∧ s.core.task.step = true ∧ s.core.task.joinOp = none) ∧
    (let s := task inBlock fun t => { t with step := true }
     s.core.task.watchHit = none ∧ s.core.task.block = some ⟨0x4000100, 0x4000100, [], []⟩ ∧ s.core.task.step = true) := by
  refine ⟨by decide +kernel, ?_, ⟨_, eqPair (by decide +kernel)⟩, by decide +kernel⟩
  intro k h
  obtain rfl | rfl : k = 1 ∨ k = 2 := by simpa using h
  · exact okSome (by decide +kernel)
  · exact okSome (by decide +kernel)

theorem witness_IllegalInstructions :
    NoBlock base ∧ inBlock.core.task.block = some ⟨0x4000100, 0x4000100, [], []⟩ ∧ sup.core.id.isSup = true := by decide +kernel

theorem witness_ControlWordReads :
    (NoBlock base ∧ Quiet base ∧ base.core.id = .task ⟨0, 0⟩) ∧ (NoBlock sup ∧ Quiet sup ∧ sup.core.id.isSup = true) := by decide +kernel

theorem witness_RefreshPhaseWord :
    let at' := fun (n : Nat) => ({ base with now := n } : State)
    (NoBlock (at' 0) ∧ Quiet (at' 0)) ∧ (at' (60 * 63 + 349)).sinceTick0 = 3900 * 0 + 60 * 63 + 349 ∧
    (at' (60 * 63 + 350)).sinceTick0 = 3900 * 0 + 60 * 63 + 350 ∧ (at' (3900 * 17 + 3899)).sinceTick0 = 3900 * 17 + 60 * 0 + 3899 := by decide +kernel

theorem witness_ControlWordWrites :
    (NoBlock base ∧ Quiet base ∧ base.core.id.isTask = true ∧ base.core.reg 2 = 0 ∧ cwForbidden base.core 0x008 = false) ∧
    (NoBlock sup ∧ Quiet sup ∧ sup.core.id.isSup = true) ∧
    ((regs base [(2, 32)]).core.reg 2).toNat ≤ 32 ∧ ¬ ((regs base [(2, 33)]).core.reg 2).toNat ≤ 32 ∧
    (regs base [(2, 32)]).core.reg 2 ≠ 0 := by decide +kernel

/-- The task's agent holds a line at 0x2000 in U whose first eight bytes it has stored under .sis. -/
def unpublished : State :=
  let c : CacheLine := ⟨.u, 0xFFFF, 0, 0, 0xFF, 0x1122334455667788⟩
  { base with mem := { base.mem with lines := [(32 * 0x80 + base.core.agent, c)], dir := [(0x80, {})] } }

theorem witness_Fences :
    (NoBlock unpublished ∧ Quiet unpublished ∧ unpublished.core.agent < 17 ∧ scopeWide .stack = true ∧ scopeWide .svp = false) ∧
    ((findCopy unpublished.mem unpublished.core.agent (0x2000 / 64)).map fun c => (c.mode, c.sdirty)) = some (.u, 0xFF) ∧
    (unpublished.mem.reqs = [] ∧ unpublished.mem.notices = [] ∧ ∀ e ∈ unpublished.mem.dir, e.2.own = 31 ∧ e.2.nr = 31) := by decide +kernel

/-! ### Strips and tasks -/

theorem witness_VsetlAndVf :
    (base.core.id.isTask = true ∧ NoBlock base ∧ Quiet base) ∧
    (BitVec.ofInt 56 ((base.core.pc.toNat : Int) + (2 : BitVec 20).toInt * 4)).toNat % 8 = 0 ∧
    (BitVec.ofInt 56 ((base.core.pc.toNat : Int) + (1 : BitVec 20).toInt * 4)).toNat % 8 ≠ 0 := by decide +kernel

/-- The farm with an undelivered fault record of the task. -/
def faulted : State := base.setFarm 0 { demoFarm with recs := [⟨0, 0, 1, none, 0x0101, false⟩] }

/-- A buffered store of a word. -/
def elem : BufElem := ⟨0, 0, false, .store, .dflt, [⟨0x2008, .mem 0x2008 .wt, [some 1, some 2, some 3, some 4]⟩], false⟩

theorem witness_StripEnds :
    (base.core.id = .task ⟨0, 0⟩ ∧ base.farm? 0 = some demoFarm ∧ NoBlock base ∧ Quiet base ∧ base.core.task.held = true ∧ base.core.task.buf = [] ∧
     NoCopies base.mem ∧ demoFarm.trigPa = none) ∧
    -- with a store buffered, and three tasks in the farm
    (let f := { demoFarm with lrec := { demoRec with tps := 3 } }
     let s := (task base fun t => { t with buf := [elem] }).setFarm 0 f
     s.core.id = .task ⟨0, 0⟩ ∧ s.farm? 0 = some f ∧ NoBlock s ∧ Quiet s ∧ s.core.task.held = true ∧ s.core.task.buf ≠ [] ∧ f.triggered.length + 1 ≠ f.lrec.tasks) ∧
    (let s := task base fun t => { t with held := false }
     s.core.id = .task ⟨0, 0⟩ ∧ s.farm? 0 = some demoFarm ∧ NoBlock s ∧ Quiet s ∧ s.core.task.held = false) := by decide +kernel

theorem witness_StripCommit :
    let s := task base fun t => { t with buf := [elem] }
    s.core.id = .task ⟨0, 0⟩ ∧ s.farm? 0 = some demoFarm ∧ NoBlock s ∧ Quiet s ∧ s.core.task.held = true ∧ s.core.task.buf = [elem] ∧
    elem.kind = .store ∧ elem.stale = false ∧ elem.parts = [⟨0x2008, .mem 0x2008 .wt, ([1, 2, 3, 4] : List Byte).map some⟩] ∧
    0x2008 % 4 = 0 ∧ reachable s.ursol 0x2008 = true ∧ NoCopies s.mem := by decide +kernel

theorem witness_Trigger : base.core.id = .task ⟨0, 0⟩ ∧ (base.farm? 0).isSome = true ∧ NoBlock base ∧ Quiet base := by decide +kernel

/-- A LAUNCH of the task is under way. -/
def launching : State := { base with eng := { base.eng with launches := [{ core := .task ⟨0, 0⟩ }] } }

theorem witness_TaskExit :
    (base.core.id = .task ⟨0, 0⟩ ∧ base.farm? 0 = some demoFarm ∧ NoBlock base ∧ base.opsPending ⟨0, 0⟩ = false ∧ 0 ∉ demoFarm.ended) ∧
    launching.opsPending ⟨0, 0⟩ = true := by decide +kernel

/-- A farm of a higher priority with a ready task. -/
def urgentFarm : Farm :=
  { demoFarm with
    lrec := { demoRec with entry := 0x8008, args := 77, iters := 10, slen := 3, sbase := 0x9000, ssz := 256, tps := 3, prio := 20, hw := 1, poolw := BitVec.ofNat 32 (3 + 4 * 2 ^ 8 + 2 ^ 18) }
    prio := 20, nextBase := 9, nextTid := 2 }

def urgent : State := { base with drover := { base.drover with farms := finsert base.drover.farms 2 urgentFarm, ready := [⟨⟨2, 1⟩, false⟩] } }

theorem witness_Yielding :
    (base.core.id = .task ⟨0, 0⟩ ∧ (base.farm? 0).isSome = true ∧ NoBlock base ∧ Quiet base ∧ base.yieldWanted base.core = false) ∧
    (NoBlock urgent ∧ Quiet urgent ∧ urgent.yieldWanted urgent.core = true ∧ (urgent.unseat ⟨0, 0⟩ (urgent.core.pc + 4) 0 0).2 = true) ∧
    ((unmapped urgent).yieldWanted urgent.core = true ∧ ((unmapped urgent).unseat ⟨0, 0⟩ (urgent.core.pc + 4) 0 0).2 = false) ∧
    FrameReady urgent ⟨0, 0⟩ (demoLeaf 0 2) :=
  ⟨by decide +kernel, by decide +kernel, by decide +kernel, frame_ready _ _ rfl rfl rfl (by decide +kernel) (by decide +kernel) (by decide +kernel)⟩

/-! ### Objects and commands -/

/-- x2 names an object at 0x2000 whose count is 5, x3 holds 5, x4 holds 6. -/
def atObject : State := holds (regs base [(2, 0x2000), (3, 5), (4, 6)]) [(0x2000, bytesOf 16 5)]

theorem witness_WaitAndPoll :
    (NoBlock atObject ∧ Quiet atObject ∧ homeCheck atObject.mem atObject.ursol (atObject.core.reg 2) 0x2000 (wordsTouched (accessBytes 0 16)) = none ∧
     NoCopies atObject.mem ∧ 0x2000 % 16 = 0 ∧ atObject.pendingRecord (some (atObject.core.reg 2)) = none) ∧
    (∃ ms, objCheck atObject.mem atObject.ursol atObject.core.xctx (atObject.core.reg 2) = (ms, .ok 0x2000)) ∧
    ((atObject.core.reg 3).toNat % 2 ^ 32 ≤ natOf (readBytes atObject.mem.cells 0x2000 16) % 2 ^ 32 ∧
     ¬ (atObject.core.reg 4).toNat % 2 ^ 32 ≤ natOf (readBytes atObject.mem.cells 0x2000 16) % 2 ^ 32) :=
  ⟨by decide +kernel, pairSome (by decide +kernel), by decide +kernel⟩

theorem witness_ObjectUpdates :
    (NoBlock atObject ∧ Quiet atObject ∧ homeCheck atObject.mem atObject.ursol (atObject.core.reg 2) 0x2000 (wordsTouched (accessBytes 0 16)) = none ∧
     NoCopies atObject.mem ∧ 0x2000 % 16 = 0) ∧
    (∃ ms, objCheck atObject.mem atObject.ursol atObject.core.xctx (atObject.core.reg 2) = (ms, .ok 0x2000)) :=
  ⟨by decide +kernel, pairSome (by decide +kernel)⟩

theorem witness_LaunchIssue :
    (NoBlock atObject ∧ Quiet atObject ∧ QuietE atObject ∧ (atObject.core.reg 2).toNat % 128 = 0 ∧ (atObject.core.reg 3).toNat % 128 ≠ 0) ∧
    (∃ ms, objCheck atObject.mem atObject.ursol atObject.core.xctx (atObject.core.reg 2) = (ms, .ok 0x2000)) :=
  ⟨by decide +kernel, pairSome (by decide +kernel)⟩

/-- The translation of x2, in a page of rows. -/
def rowPage : State :=
  let s := regs base [(2, 0x20000), (3, 0)]
  { s with mem := { s.mem with tlb := s.mem.tlb.map fun e => { e with unit := .tile 0, pte := e.pte ||| 2 ^ 5 } } }

theorem witness_OperationEnds :
    ({ core := .task ⟨0, 0⟩ } : OpHdr).obj = none ∧ ({ core := .task ⟨0, 0⟩, obj := some 0x2000 } : OpHdr).obj = some 0x2000 ∧
    (0x2000 % 16 = 0 ∧ reachable base.ursol 0x2000 = true ∧ NoCopies base.mem) ∧ ({ core := .sup 0 } : OpHdr).core.isTask = false ∧
    (let h : OpHdr := { core := .task ⟨0, 0⟩, obj := some 0x2000 }
     (base.farm? 0).isSome = true ∧ 0 ∉ (base.farm 0).ended ∧ (base.farm 0).freeRecord 0 = some 0 ∧ (base.writeRecord ⟨0, 0⟩ h .tile 0x101 0 0).2 = true ∧
     ((unmapped base).writeRecord ⟨0, 0⟩ h .tile 0x101 0 0).2 = false) ∧
    FrameReady base ⟨0, 0⟩ (demoLeaf 0 2) :=
  ⟨by decide +kernel, by decide +kernel, by decide +kernel, by decide +kernel, by decide +kernel,
    frame_ready _ _ rfl rfl rfl (by decide +kernel) (by decide +kernel) (by decide +kernel)⟩

theorem witness_TrapFence :
    (base.core.id = .task ⟨0, 0⟩ ∧ NoBlock base ∧ Quiet base ∧ (base.farm 0).undelivered 0 = [] ∧ base.core.flags &&& base.core.task.tmask = 0) ∧
    ((faulted.farm 0).undelivered 0).head?.isSome = true ∧ (faulted.farm? 0).isSome = true ∧
    (let s := { base with core := { base.core with flags := 0x21, task := { base.core.task with tmask := 0x20 } } }
     (s.farm 0).undelivered 0 = [] ∧ s.core.flags &&& s.core.task.tmask ≠ 0) ∧
    ((faulted.frameWrite ⟨0, 0⟩ 0x309 [1]).2 = true ∧ ((unmapped faulted).frameWrite ⟨0, 0⟩ 0x309 [1]).2 = false) ∧
    FrameReady faulted ⟨0, 0⟩ (demoLeaf 0 2) :=
  ⟨by decide +kernel, by decide +kernel, by decide +kernel, by decide +kernel, by decide +kernel,
    frame_ready _ _ rfl rfl rfl (by decide +kernel) (by decide +kernel) (by decide +kernel)⟩

theorem witness_FullBuffer :
    base.core.id = .task ⟨0, 0⟩ ∧ base.farm? 0 = some demoFarm ∧ base.core.task.held = true ∧ demoFarm.aborted = false ∧
    demoFarm.nextBase < demoFarm.lrec.iters ∧ 0 ∈ { demoFarm with triggered := [0] }.triggered ∧
    (base.setFarm 0 { demoFarm with triggered := [0] }).farm? 0 = some { demoFarm with triggered := [0] } := by decide +kernel

theorem witness_RowActivation :
    (NoBlock rowPage ∧ Quiet rowPage ∧ QuietE rowPage ∧ NamesObject rowPage 0 none ∧ (rowPage.core.reg 3).toNat < 64) ∧
    (∃ pte : W64, translate rowPage.mem rowPage.ursol { rowPage.core.xctx with unit := .tile (Fin.ofNat 64 (rowPage.core.reg 3).toNat) } (rowPage.core.reg 2) .load
        = (rowPage.mem, .ok (Xl.leaf 0x20000 pte)) ∧ pteRow pte = true) ∧
    ((rowPage.core.reg 2).toNat % 2048 = 0 ∧ isDram 0x20000 = true ∧ stackOf 0x20000 = rowPage.core.stack.val ∧
     0x20000 / 2 ^ 11 % 64 = (rowPage.core.reg 3).toNat ∧ isFenced rowPage.ursol 0x20000 = false) ∧
    (let bk := bankOf 0x20000
     ((rowPage.bank bk).st = .idle ∧ rowPage.inRefresh bk = false ∧ rowPage.refreshWithin bk 32 = false ∧ (rowPage.budget bk).length < 8) ∧
     (let k := (rowPage.setBank bk ⟨.open, rowOf 0x20000, some 1, 0, 5, false, false, 0, []⟩).bank bk
      k.active = true ∧ k.row = rowOf 0x20000 ∧ k.asid = some rowPage.core.asid ∧ k.closing = false)) :=
  ⟨by decide +kernel, ⟨_, okAt (by decide +kernel) (by decide +kernel : okVal _ = some (Xl.leaf 0x20000 (3 + 8 + 2 ^ 5 + 2 * 2 ^ 9))), by decide +kernel⟩, by decide +kernel⟩

/-- x2 is a handle of the open row of layer 1 of column 0, x4 one whose tag is old. -/
def atRow : State :=
  (regs base [(2, 5 * 2 ^ 32 + 2 ^ 16), (3, 3), (4, 4 * 2 ^ 32 + 2 ^ 16)]).setBank ⟨0, 0, 1⟩ ⟨.open, 9, some 1, 0, 5, false, false, 0, []⟩

theorem witness_RowCommands :
    let bk := (handleOf (atRow.core.reg 2)).bank atRow.core.stack
    let k := atRow.bank bk
    (NoBlock atRow ∧ QuietE atRow ∧ NamesObject atRow 0 none ∧ handleClean (atRow.core.reg 2) = true ∧ atRow.columnFenced bk = false) ∧
    ((atRow.core.reg 3).toNat < 4 ∧ (handleOf (atRow.core.reg 2)).tag ≠ 0 ∧ (handleOf (atRow.core.reg 2)).tag = k.tag ∧ k.asid = some atRow.core.asid ∧
     k.lost = false ∧ k.closing = false ∧ k.st = .open ∧ k.active = true) ∧
    (handleClean (atRow.core.reg 4) = true ∧ (handleOf (atRow.core.reg 4)).tag ≠ k.tag) := by decide +kernel

/-- x4 is the shape word of a table of one group, x5 that of too wide a pattern, x6 the command word 64. -/
def building : State := regs base [(2, 0x2000), (3, 0), (4, 512), (5, 24 + 64), (6, 64)]

def full (s : State) : State :=
  { s with
    eng := { s.eng with buildQ := [(0, List.replicate 16 ⟨false, {}⟩)], kvQ := [(0, List.replicate 16 { op := .look, hdr := {} })],
                        copyQ := [(0, List.replicate 16 { hdr := {}, rows := 1, rlen := 1, dstr := 0, sstr := 0 })] }
    tiles := { s.tiles with cmds := List.replicate 16 { tile := ⟨0, 0⟩, op := .lka, hdr := {} } } }

theorem witness_BuilderIssue :
    (NoBlock building ∧ QuietE building ∧ NamesObject building 0 none ∧ (fget building.eng.buildQ 0 []).length < 16) ∧
    ((building.core.reg 3).toNat < 64 ∧ (building.core.reg 3).toNat / 8 % 2 = 0 ∧ building.shapeDenied 1 false false = false) ∧
    (let x := (building.core.reg 4).toNat
     x < 2 ^ 30 ∧ (x / 8 % 4 + 1) * 2 ^ (x / 32 % 4) ≤ 8 ∧ building.shapeDenied (x / 8 % 4 + 1) (x / 128 % 2 == 1) false = false ∧
     1 ≤ x / 512 % 2 ^ 11 ∧ x / 2 ^ 20 + x / 512 % 2 ^ 11 * 1 ≤ 1024 ∧ x / 256 % 2 = 0) ∧
    16 ≤ (fget (full building).eng.buildQ 0 []).length ∧ 64 ≤ (building.core.reg 6).toNat ∧
    ((building.core.reg 5).toNat < 2 ^ 30 ∧ 8 < ((building.core.reg 5).toNat / 8 % 4 + 1) * 2 ^ ((building.core.reg 5).toNat / 32 % 4)) := by
  decide +kernel

/-- x3 is the shape word of a lookup of one column and one group, x4 the command word of a drain of one cell. -/
def looking : State := regs base [(2, 0), (3, 2 ^ 42 + 3 * 2 ^ 32 + 2 ^ 21 + 2 ^ 10 + 1), (4, 2 ^ 16), (5, 0x2000)]

theorem witness_TileIssue :
    (NoBlock looking ∧ QuietE looking ∧ NamesObject looking 0 none ∧ looking.tiles.cmds = []) ∧
    (let v := (looking.core.reg 2).toNat
     let w := (looking.core.reg 3).toNat
     let p := (w / 2 ^ 36 % 4 + 1) * 2 ^ (w / 2 ^ 38 % 4)
     let K := w / 2 ^ 21 % 2 ^ 11
     let G := w / 2 ^ 10 % 2 ^ 11
     let C := w % 2 ^ 10
     let lgL := w / 2 ^ 32 % 16
     v < 2 ^ 48 ∧ v / 2 ^ 31 % 2 = 0 ∧ w < 2 ^ 50 ∧ p ≤ 8 ∧
     looking.shapeDenied (w / 2 ^ 36 % 4 + 1) (w / 2 ^ 40 % 2 == 1) (w / 2 ^ 41 % 2 == 1) = false ∧ 3 ≤ lgL ∧ lgL ≤ 10 ∧ 1 ≤ C ∧ 1 ≤ K ∧ K ≤ G ∧
     C * G ≤ 16384 / p ∧ v / 2 ^ 12 % 2 ^ 10 + G * 1 ≤ 1024 ∧ v / 2 ^ 22 % 2 ^ 9 + C ≤ 512 ∧ w / 2 ^ 42 = (K + 2 ^ lgL - 1) / 2 ^ lgL ∧
     (looking.core.reg 5).toNat % 4 = 0) ∧
    (let v := (looking.core.reg 2).toNat
     v < 2 ^ 48 ∧ v / 2 ^ 22 % 2 ^ 9 = 0 ∧ v / 2 ^ 12 % 2 ^ 10 = 0 ∧ v / 2 ^ 6 % 4 = 0 ∧ v / 2 ^ 31 % 2 = 0) ∧
    (let w := (looking.core.reg 4).toNat
     w < 2 ^ 40 ∧ w / 2 ^ 25 % 2 ^ 7 = 0 ∧ w / 2 ^ 13 % 8 = 0 ∧ w / 2 ^ 6 % 4 = 0 ∧ 1 ≤ w / 2 ^ 16 % 2 ^ 9 ∧
     w / 2 ^ 32 + w / 2 ^ 16 % 2 ^ 9 ≤ 256 ∧ w / 2 ^ 8 % 2 ^ 5 + (w / 2 ^ 16 % 2 ^ 9 + 31) / 32 ≤ 32 ∧ w % 2 ^ 6 < looking.core.task.sq) ∧
    16 ≤ ((full looking).tiles.cmds.filter fun d => d.tile == ⟨0, 0⟩ && (d.op == .lka || d.op == .aclr || d.op == .adrn)).length := by decide +kernel

/-- The checks of BuilderIssue and TileIssue, on the values of the operands. -/
def badC (s : State) (w : Nat) : List Bool := [decide (64 ≤ w ∨ w / 8 % 2 = 1), s.shapeDenied (w / 16 % 4 + 1) false false]

def badT (s : State) (a x : Nat) : List Bool :=
  let bits := x / 8 % 4 + 1
  let g := 2 ^ (x / 32 % 4)
  let banks := if x / 128 % 2 = 1 ∧ bits * g = 8 then 2 else 1
  [decide (2 ^ 30 ≤ x), decide (8 < bits * g), s.shapeDenied bits (x / 128 % 2 == 1) false,
   decide (x / 512 % 2 ^ 11 = 0 ∨ 1024 < x / 2 ^ 20 % 2 ^ 10 + x / 512 % 2 ^ 11 * banks), decide (x / 256 % 2 = 1 ∧ a % 4 ≠ 0)]

def badL (s : State) (v w e : Nat) : List Bool :=
  let p := (w / 2 ^ 36 % 4 + 1) * 2 ^ (w / 2 ^ 38 % 4)
  let banks := if w / 2 ^ 40 % 2 = 1 ∧ p = 8 then 2 else 1
  let K := w / 2 ^ 21 % 2 ^ 11
  let G := w / 2 ^ 10 % 2 ^ 11
  let C := w % 2 ^ 10
  let lgL := w / 2 ^ 32 % 16
  [decide (2 ^ 48 ≤ v ∨ v / 2 ^ 31 % 2 = 1 ∨ 2 ^ 50 ≤ w), decide (8 < p), s.shapeDenied (w / 2 ^ 36 % 4 + 1) (w / 2 ^ 40 % 2 == 1) (w / 2 ^ 41 % 2 == 1),
   decide (lgL < 3 ∨ 10 < lgL), decide (C = 0 ∨ G = 0 ∨ K = 0 ∨ G < K ∨ 16384 / p < C * G), decide (1024 < v / 2 ^ 12 % 2 ^ 10 + G * banks),
   decide ((if w / 2 ^ 41 % 2 = 1 then 256 else 512) < v / 2 ^ 22 % 2 ^ 9 + C), decide (w / 2 ^ 42 % 2 ^ 8 ≠ (K + 2 ^ lgL - 1) / 2 ^ lgL), decide (e % 4 ≠ 0)]

def badD (s : State) (v w : Nat) : List Bool :=
  let plain := v < 2 ^ 48 ∧ v / 2 ^ 22 % 2 ^ 9 = 0 ∧ v / 2 ^ 12 % 2 ^ 10 = 0 ∧ v / 2 ^ 6 % 4 = 0
  [decide ¬(plain ∧ w < 2 ^ 40 ∧ w / 2 ^ 25 % 2 ^ 7 = 0 ∧ w / 2 ^ 13 % 8 = 0 ∧ w / 2 ^ 6 % 4 = 0),
   decide (w / 2 ^ 16 % 2 ^ 9 = 0 ∨ 256 < w / 2 ^ 32 % 2 ^ 8 + w / 2 ^ 16 % 2 ^ 9), decide (32 < w / 2 ^ 8 % 2 ^ 5 + (w / 2 ^ 16 % 2 ^ 9 + 31) / 32),
   decide (s.core.task.sq ≤ w % 2 ^ 6)]

/-- The n-th check is the first that fails. -/
def failsAt (bad : List Bool) (n : Nat) : Bool := bad[n]? == some true && (List.range n).all fun m => bad[m]? == some false

/-- A task whose farm may use one-bit tables only, and 16 squares. -/
def capped : State := (task base fun t => { t with sq := 16 }).setFarm 0 { demoFarm with lrec := { demoRec with smaxb := 1 } }

/-- Operands at which each numbered check is the first that fails. -/
theorem witness_failingChecks :
    let w := fun (K G C lgL g nsc : Nat) => C + 2 ^ 10 * G + 2 ^ 21 * K + 2 ^ 32 * lgL + 2 ^ 38 * g + 2 ^ 42 * nsc
    (failsAt (badC capped 64) 0 ∧ failsAt (badC capped 16) 1) ∧
    (failsAt (badT capped 0 (2 ^ 30)) 0 ∧ failsAt (badT capped 0 (24 + 64)) 1 ∧ failsAt (badT capped 0 (8 + 512)) 2 ∧ failsAt (badT capped 0 0) 3 ∧
     failsAt (badT capped 2 (512 + 256)) 4) ∧
    (failsAt (badL capped (2 ^ 31) (w 1 1 1 3 0 1) 0) 0 ∧ failsAt (badL capped 0 (w 1 1 1 3 3 1 + 2 ^ 36) 0) 1 ∧ failsAt (badL capped 0 (w 1 1 1 3 0 1 + 2 ^ 36) 0) 2 ∧
     failsAt (badL capped 0 (w 1 1 1 2 0 1) 0) 3 ∧ failsAt (badL capped 0 (w 2 1 1 3 0 1) 0) 4 ∧ failsAt (badL capped (2 ^ 12 * 1023) (w 2 2 1 3 0 1) 0) 5 ∧
     failsAt (badL capped (2 ^ 22 * 511) (w 1 1 2 3 0 1) 0) 6 ∧ failsAt (badL capped 0 (w 9 9 1 3 0 1) 0) 7 ∧ failsAt (badL capped 0 (w 9 9 1 3 0 2) 2) 8) ∧
    (failsAt (badD capped 64 (2 ^ 16)) 0 ∧ failsAt (badD capped 0 0) 1 ∧ failsAt (badD capped 0 (2 ^ 8 * 31 + 2 ^ 16 * 33)) 2 ∧ failsAt (badD capped 0 (2 ^ 16 + 16)) 3) := by
  decide +kernel

/-- x2 is a line, x3 to x6 hold 0 to 3, x7 a page. -/
def keys : State := regs base [(2, 0x2000), (3, 0), (4, 1), (5, 2), (6, 3), (7, 0x3000)]

theorem witness_CrookIssue :
    (NoBlock keys ∧ QuietE keys ∧ NamesObject keys 0 none ∧ (fget keys.eng.kvQ 0 []).length < 16) ∧
    16 ≤ (fget (full keys).eng.kvQ 0 []).length ∧
    ((keys.core.reg 2).toNat % 32 = 0 ∧ (keys.core.reg 3).toNat = 0 ∧ 1 ≤ (keys.core.reg 4).toNat ∧ (keys.core.reg 4).toNat ≤ 65535) ∧
    (let s := { keys with core := { keys.core with id := .sup 0 } }
     s.core.id.isSup = true ∧ (s.core.reg 4).toNat = 1 ∧ (s.core.reg 7).toNat % 4096 = 0 ∧ (s.core.reg 6).toNat = 3 ∧ (s.core.reg 3).toNat = 0) ∧
    (let v := (keys.core.reg 4).toNat
     v < 2 ^ 21 ∧ v / 2 ^ 13 % 8 = 0 ∧ v / 2 ^ 6 % 4 = 0 ∧ (keys.core.reg 3).toNat < 2 ^ 60 ∧ v % 64 < keys.core.task.sq) := by decide +kernel

/-- A KV space whose sequence 0 has one shared block, at 0x40000: the directory, the descriptor, the
sequence record, its block list and the block's entry. -/
def space (ctl : Nat) : State :=
  holds base [(32, bytesOf 8 1), (48, bytesOf 8 0x4000),
    (0x4000, bytesOf 8 0x8000 ++ bytesOf 8 0x10000 ++ bytesOf 8 0x14000 ++ bytesOf 8 0x15000 ++ bytesOf 8 (6 + 2 ^ 24 * 3 + 2 ^ 28 * 7) ++ bytesOf 8 4),
    (0x8000 + 128 * 5 + 0x48, bytesOf 8 0x40000 ++ bytesOf 8 ctl), (0x10000, bytesOf 8 0x12000 ++ bytesOf 8 0 ++ bytesOf 4 1 ++ bytesOf 4 8 ++ bytesOf 4 20),
    (0x12000, bytesOf 4 5), (0x40000, [1, 2, 3])]

/-- The record of a stream at token 0 of that sequence, in 64 bytes, with its end at token 10. -/
def streamNat : Nat := 10 * 2 ^ 64 + 2 ^ 448

def binding : State := holds (regs (space 1) [(2, 0x3000), (3, BitVec.ofNat 64 scratchBase), (4, 0x3004)]) [(0x3000, bytesOf 64 streamNat)]

theorem witness_StreamBinding :
    (binding.core.id.isTask = true ∧ NoBlock binding ∧ Quiet binding ∧ Unwatched binding ∧ binding.core.task.buf = [] ∧ 3 < 4) ∧
    (((binding.core.reg 2).toNat % 64 = 0 ∧ 2 * boundWith binding.core.task (Fin.ofNat 4 3) ≤ binding.core.task.stg) ∧
     ∃ u q, coreLoad binding (binding.core.reg 2) 64 .dflt false = (u, .ok streamNat) ∧ bindBad u streamNat = (q, false)) ∧
    (scratchBase ≤ (binding.core.reg 3).toNat ∧ (binding.core.reg 3).toNat + 64 ≤ scratchBase + 4096 * binding.core.task.scr ∧
     binding.core.task.scr ≤ 1024 ∧ (binding.core.reg 3).toNat % 64 = 0) ∧ (binding.core.reg 4).toNat % 64 ≠ 0 :=
  ⟨by decide +kernel, ⟨by decide +kernel, _, _, okWith (by decide +kernel), eqPair (by decide +kernel)⟩, by decide +kernel⟩

/-- x2 and x3 are memory, x4 the length 64 and x5 the address of a stride record of two rows of 8 bytes, x6
the scratchpad, x7 0x3001, x8 2^32, x9 the address of a record without rows. -/
def copying : State :=
  holds (regs base [(2, 0x2000), (3, 0x2800), (4, 64), (5, 0x3000), (6, BitVec.ofNat 64 scratchBase), (7, 0x3001), (8, 2 ^ 32), (9, 0x3040)])
    [(0x3000, bytesOf 32 (16 + 32 * 2 ^ 64 + 8 * 2 ^ 128 + 2 * 2 ^ 160))]

theorem witness_CopyIssue :
    let strides := 16 + 32 * 2 ^ 64 + 8 * 2 ^ 128 + 2 * 2 ^ 160
    let one := fun (d : Reg) (s : State) => ({ hdr := s.opHdr (.cpy 0 d 3 4) d 3 4 none 0, rows := 1, rlen := (s.core.reg 4).toNat, dstr := 0, sstr := 0 } : CopyCmd)
    let many : CopyCmd := { hdr := copying.opHdr (.cpys 0 2 3 5) 2 3 5 none 0, rows := 2, rlen := 8, dstr := BitVec.ofNat 64 strides, sstr := BitVec.ofNat 64 (strides / 2 ^ 64) }
    (NoBlock copying ∧ QuietE copying ∧ NamesObject copying 0 none ∧ (fget copying.eng.copyQ 0 []).length < 16 ∧
     16 ≤ (fget (full copying).eng.copyQ 0 []).length) ∧
    ((copying.core.reg 4).toNat < 2 ^ 32 ∧ (copying.core.reg 4).toNat ≠ 0 ∧ (one 2 copying).banks = [] ∧ (copying.core.reg 1).toNat = 0 ∧
     2 ^ 32 ≤ (copying.core.reg 8).toNat) ∧
    (((copying.core.reg 5).toNat % 32 = 0 ∧ strides < 2 ^ 192 ∧ strides / 2 ^ 160 % 2 ^ 32 = 2 ∧ strides / 2 ^ 128 % 2 ^ 32 = 8 ∧ 2 * 8 < 2 ^ 32 ∧
      many.banks = [] ∧ Unwatched copying) ∧ ∃ u, coreLoad copying (copying.core.reg 5) 32 .dflt false = (u, .ok strides)) ∧
    ((copying.core.reg 9).toNat % 32 = 0 ∧ ∃ u, coreLoad copying (copying.core.reg 9) 32 .dflt false = (u, .ok 0)) ∧
    ((copying.core.reg 7).toNat % 32 ≠ 0 ∧ copying.core.id.isTask = true ∧ (one 6 copying).banks ≠ [] ∧
     ∀ j ∈ (one 6 copying).banks, (fget copying.core.task.aps j {}).armed = false) :=
  ⟨by decide +kernel, by decide +kernel, ⟨by decide +kernel, okSome (by decide +kernel)⟩, ⟨by decide +kernel, okSome (by decide +kernel)⟩,
    by decide +kernel⟩

/-! ### Blocks and the element stream -/

/-- A block of one convoy of two instructions, VADD.i32 q2.r[1], q0.r[1], q1.r[1] and VSUB into q3.r[1],
ended by STOP; and one whose second word writes what its first one writes. -/
def convoy (second : Nat) : State :=
  holds inBlock [(0x4000100, bytesOf 8 0x0004080042028210 ++ bytesOf 8 second ++ bytesOf 8 1)]

def vaddW : W64 := 0x0004080042028210
def vsubW : W64 := 0x0004080043028011
def clashW : W64 := 0x0004080042028011

def vaddI : Instr := .vadd ⟨true, 0⟩ .i32 (.vec 2 .row 1) (.vec 0 .row 1) (.vec 1 .row 1) false
def vsubI (q : SqNo) : Instr := .vsub ⟨false, 0⟩ .i32 (.vec q .row 1) (.vec 0 .row 1) (.vec 1 .row 1) false

/-- The states that the fetches of a convoy leave. -/
def fetches (s : State) : Nat → State
  | 0 => s
  | n + 1 => (coreFetch (fetches s n) (0x4000100 + BitVec.ofNat 56 (8 * n)) 8).1

theorem witness_ConvoyCheck :
    (inBlock.core.task.block = some ⟨0x4000100, 0x4000100, [], []⟩ ∧ withinLimits [vaddI, vsubI 3] = true ∧
     (edest vaddI).clash (edest (vsubI 3)) = false ∧ (edest vaddI).clash (edest (vsubI 2)) = true) ∧
    (∀ w : W64, w = vsubW ∨ w = clashW →
      let us := fetches (convoy w.toNat)
      coreFetch (us 0) (0x4000100 + BitVec.ofNat 56 (8 * 0)) 8 = (us 1, .ok vaddW.toNat) ∧
      coreFetch (us 1) (0x4000100 + BitVec.ofNat 56 (8 * 1)) 8 = (us 2, .ok w.toNat) ∧
      coreFetch (us 2) (0x4000100 + BitVec.ofNat 56 (8 * 2)) 8 = (us 3, .ok (1 : W64).toNat)) ∧
    (isStopOp vaddW = false ∧ isStopOp vsubW = false ∧ startsConvoy vsubW = false ∧ isStopOp clashW = false ∧ startsConvoy clashW = false ∧ isStopOp 1 = true) ∧
    okIs (decodeE vaddW.toNat) vaddI = true ∧ okIs (decodeE vsubW.toNat) (vsubI 3) = true ∧ okIs (decodeE clashW.toNat) (vsubI 2) = true := by
  refine ⟨by decide +kernel, ?_, by decide +kernel⟩
  rintro w (rfl | rfl) <;> exact ⟨okWith (by decide +kernel), okWith (by decide +kernel), okWith (by decide +kernel)⟩

theorem witness_BlockEnd :
    inBlock.core.task.block = some ⟨0x4000100, 0x4000100, [], []⟩ ∧ inBlock.core.task.step = false ∧
    (task inBlock fun t => { t with step := true }).core.task.step = true := by decide +kernel

/-- The element stream at its second cell, with mask m1, some cells set and x1 captured. -/
def lanes : State :=
  task base fun t => { t with
    vl := 20, vstart := 1, m := [(1, 0xFFFF0)], cells := [(32, 0x40490FDB), (33, 0x7F800001), (64, 5)]
    block := some ⟨0x4000100, 0x4000108, [7, 8], [(1, 9)]⟩ }

/-- The same with stream record 0 bound and exhausted. -/
def streaming : State := task lanes fun t => { t with streams := [(0, { bound := true })] }

theorem witness_VectorIntegers :
    (Element lanes ∧ Ty.isInt .i32 = true ∧
     lanes.core.task.holdsAll [(.i32, .vec 0 .row 1), (.i32, .vec 0 .row 2), (.i32, .scalar 1)] = true ∧
     Feeds lanes lanes.core.task.vstart.toNat [.vec 0 .row 2, .scalar 1] lanes []) ∧
    (Element streaming ∧ streaming.core.task.holdsAll [(.i32, .vec 0 .row 1), (.i32, .vec 0 .row 2), (.i32, .stream 0 false)] = true ∧
     Feeds streaming streaming.core.task.vstart.toNat [.vec 0 .row 2, .stream 0 false] (streaming.nextToken 0 false).1 (List.replicate 32 0)) :=
  ⟨⟨by decide +kernel, by decide +kernel, by decide +kernel, rfl, rfl⟩, by decide +kernel, by decide +kernel,
    .exhausted, eqPair (by decide +kernel), rfl⟩

theorem witness_VectorMoves :
    (Element lanes ∧ Ty.isInt .i16 = true ∧
     lanes.core.task.holdsAll [(.i16, .vec 0 .row 1), (.i16, .vec 0 .row 2), (.i16, .scalar 1)] = true ∧
     1 ≤ (16 : BitVec 6).toNat ∧ (16 : BitVec 6).toNat ≤ Ty.bits .i16 ∧ (63 : BitVec 8).toNat < 32 * Ty.perCell .i16) ∧
    Feeds lanes lanes.core.task.vstart.toNat [.vec 0 .row 2] lanes [] ∧ Feeds lanes lanes.core.task.vstart.toNat [.vec 0 .row 2, .scalar 1] lanes [] :=
  ⟨by decide +kernel, ⟨rfl, rfl⟩, rfl, rfl⟩

theorem witness_MaskResults :
    (Element lanes ∧ (1 : MaskNo) ≠ 0 ∧ Ty.isInt .n32 = true ∧ Ty.perCell .n32 = 1 ∧
     lanes.core.task.holdsAll [(.n32, .vec 0 .row 1), (.n32, .vec 0 .row 2)] = true) ∧
    Feeds lanes lanes.core.task.vstart.toNat [.vec 0 .row 1, .vec 0 .row 2] lanes [] := ⟨by decide +kernel, rfl, rfl⟩

theorem witness_ElementToScalar :
    (Element lanes ∧ Ty.isInt .i8 = true ∧ lanes.core.task.holdsAll [(.i8, .vec 0 .row 1)] = true) ∧ Feeds lanes 0 [.vec 0 .row 1] lanes [] :=
  ⟨by decide +kernel, rfl, rfl⟩

theorem witness_VectorFloats :
    Element lanes ∧ (∀ ty ∈ [Ty.fp32, .fp16, .bf16], ty.isFlt = true ∧
      lanes.core.task.holdsAll [(ty, .vec 0 .row 1), (ty, .vec 0 .row 2), (ty, .scalar 1)] = true) ∧
    (VOp.vec 0 .row 2).isSrc = true ∧ (VOp.scalar 1).isSrc = true ∧ (1 : MaskNo) ≠ 0 := by decide +kernel

theorem witness_FloatLaws :
    (∀ ty ∈ [Ty.fp32, .fp16, .bf16, .e4m3, .e5m2], ty.isPrd = true ∧ 0x7F < 2 ^ ty.bits) ∧
    ((decodeFp .fp32 0x3F800000).isNan = false ∧ (decodeFp .fp32 0x7FC00000).isNan = true) ∧
    (Ty.isFlt .fp32 = true ∧ 0x80000000 % 2 ^ (Ty.bits .fp32 - 1) = 0 ∧ 0x3F800000 % 2 ^ (Ty.bits .fp32 - 1) ≠ 0 ∧
     decodeFp .fp32 0x3F800000 ≠ .inf true ∧ decodeFp .fp32 0x3F800000 ≠ .inf false) := by decide +kernel

theorem witness_Conversions :
    (Element lanes ∧ (1 : Fin 4).val < max (Ty.perCell .e4m3) (Ty.perCell .fp32) / min (Ty.perCell .e4m3) (Ty.perCell .fp32) ∧
     lanes.core.task.holdsAll [(.e4m3, .vec 1 .row 1), (.fp32, .vec 0 .row 1)] = true) ∧
    (2 ≤ Ty.perCell .fp16 ∧ (3 : Fin 4).val < 8 / Ty.perCell .fp16 ∧ lanes.core.task.holdsAll [(.o4, .vec 1 .row 1), (.fp16, .vec 0 .row 1)] = true) ∧
    Feeds lanes lanes.core.task.vstart.toNat [.vec 0 .row 1] lanes [] := ⟨by decide +kernel, by decide +kernel, rfl, rfl⟩

theorem witness_ConvertedValues :
    (Ty.isInt .i8 = true ∧ Ty.isPrd .e4m3 = true ∧ Ty.isFlt .fp16 = true ∧ (Ty.fp32 ≠ .fp16 ∧ (65519 : Int).natAbs < 65520)) ∧
    (RoundedTo .rne false 5 2 2 ∧ RoundedTo .rmm false 5 2 3 ∧ RoundedTo .rdn true 5 2 3) ∧
    ((fmtOf .fp16).low ≤ 1 - 10 ∧ 2 ^ (fmtOf .fp16).frac ≤ 2047 ∧ (1 - 10 - (fmtOf .fp16).low).toNat * 2 ^ (fmtOf .fp16).frac + 2047 ≤ (fmtOf .fp16).top ∧
     (fmtOf .fp16).top < (6 - (fmtOf .fp16).low).toNat * 2 ^ (fmtOf .fp16).frac + 1024) :=
  ⟨by decide +kernel, ⟨by simp [RoundedTo], by simp [RoundedTo], by simp [RoundedTo]⟩, by decide +kernel⟩

theorem witness_OutlierPairs :
    ((7 : Int).natAbs ≤ 7 ∧ (-7 : Int).natAbs ≤ 7) ∧
    (∀ q ∈ [(3, (8 : Int)), (3, 11), (4, 12), (9, 767), (10, 768), (10, -1024)], 8 ≤ q.2.natAbs ∧ 3 ≤ q.1 ∧ q.1 ≤ 10 ∧ ¬ 1024 < q.2.natAbs ∧
      3 * 2 ^ q.1 ≤ 4 * q.2.natAbs ∧ 2 * q.2.natAbs < 3 * 2 ^ q.1) ∧ 1024 < (1025 : Int).natAbs := by decide +kernel

theorem witness_Reductions :
    Element lanes ∧ (VOp.vec 0 .row 1).isSrc = true ∧
    (∀ ty ∈ [Ty.i8, .n64, .fp32, .bf16], lanes.core.task.holdsAll [(ty, .vec 0 .row 2)] = true) ∧
    (Ty.isInt .i8 = true ∧ Ty.is64 .i8 = false) ∧ Ty.isFlt .bf16 = true ∧ Ty.bf16 ≠ .fp32 := by decide +kernel

theorem witness_Tree :
    (∀ n ∈ [1, 3, 5, 200, 256], (List.replicate n (some 1)).length ≤ 256) ∧ (2 ^ 2 < (List.replicate 5 (some 1)).length ∧ (List.replicate 5 (some 1)).length ≤ 2 * 2 ^ 2) ∧
    (2 ^ 7 < (List.replicate 256 (some 1)).length ∧ (List.replicate 256 (some 1)).length ≤ 2 * 2 ^ 7) := by decide +kernel

theorem witness_CrossLane :
    (Element lanes ∧ Ty.isInt .n32 = true ∧ Ty.isBit .n32 = true ∧ (VOp.vec 0 .row 2).isSrc = true ∧
     lanes.core.task.holdsAll [(.n32, .vec 1 .row 1), (.n32, .vec 0 .row 2), (.n32, .vec 0 .row 1)] = true) ∧
    (Ty.isFlt .fp16 = true ∧ lanes.core.task.holdsAll [(.fp16, .vec 1 .row 1), (.fp16, .vec 0 .row 1)] = true) := by decide +kernel

theorem witness_SquareInstructions :
    Element lanes ∧ (2 : SqNo).val < lanes.core.task.sq ∧ (3 : SqNo).val < lanes.core.task.sq ∧ Ty.isPrd .e4m3 = true ∧ Ty.isNrw .fp16 = true ∧
    lanes.core.task.holdsPair (.vec 0 .row 2) = true ∧ lanes.core.task.holdsPair (.scalar 1) = true := by decide +kernel

/-- A loop over two cells of the scratchpad, x1 captured at its base, x2 beyond every address, x3 one word. -/
def scratchLanes : State :=
  task base fun t => { t with
    vl := 2, vstart := 0, block := some ⟨0x4000100, 0x4000108, [7, 8], [(1, BitVec.ofNat 64 scratchBase), (2, 2 ^ 56), (3, BitVec.ofNat 64 (2 ^ 56 - scratchBase))]⟩ }

theorem witness_VectorLoads :
    (Element scratchLanes ∧ scratchLanes.core.id.isTask = true ∧ Unwatched scratchLanes ∧ scratchLanes.core.task.buf = [] ∧
     scratchLanes.core.task.scr ≤ 1024 ∧ Ty.isBit .n32 = true ∧
     scratchLanes.core.task.holdsAll [(.n32, .vec 0 .row 1), (.n32, .vec 0 .row 2)] = true) ∧
    (scratchLanes.core.task.execCells 0 = [0] ++ 1 :: [] ∧
     (∀ k ∈ scratchLanes.core.task.execCells 0, (unitAddr scratchLanes.core .n32 1 k).toNat = scratchBase + 4 * k ∧ 4 * k % 4 = 0 ∧
       4 * k + 4 ≤ 4096 * scratchLanes.core.task.scr)) ∧
    ((strideAddr scratchLanes.core 1 3 0).toNat = scratchBase + 0 ∧ 2 ^ 56 ≤ (strideAddr scratchLanes.core 1 3 1).toNat) ∧
    (∀ j, (fget scratchLanes.core.task.aps j {}).armed = false) ∧
    -- in memory, x1 captured at 0x2000
    (let s := near (task scratchLanes fun t => { t with block := some ⟨0x4000100, 0x4000108, [7, 8], [(1, 0x2000)]⟩ })
     Element s ∧ NoCopies s.mem ∧ Sound s.mem ∧ s.mem.poison = [] ∧
     ∀ k ∈ s.core.task.execCells 0, AtHand s (unitAddr s.core .n32 1 k) 4 { demoLeaf 0 2 with unit := .svp }) :=
  ⟨by decide +kernel, by decide +kernel, by decide +kernel, fun _ => rfl, by decide +kernel⟩

/-- The first bank of the scratchpad is armed and no byte has arrived. -/
def armed : State := task scratchLanes fun t => { t with aps := [(0, { armed := true, ap := 0 })] }

theorem witness_VectorLoads_chase :
    armed.core.task.execCells 0 = 0 :: [1] ∧ armed.core.task.chaseWaits (unitAddr armed.core .n32 1 0) 4 = true := by decide +kernel

theorem witness_VectorStores :
    (Element scratchLanes ∧ scratchLanes.core.id.isTask = true ∧ Unwatched scratchLanes ∧ (VOp.vec 0 .row 1).isSrc = true ∧
     scratchLanes.core.task.holdsAll [(.n32, .vec 0 .row 1), (.n32, .vec 0 .row 2)] = true ∧ scratchLanes.core.task.held = true ∧
     (task scratchLanes fun t => { t with held := false }).core.task.held = false) ∧
    (scratchLanes.core.task.buf.length + 2 ≤ 2048 ∧
     2048 < (task scratchLanes fun t => { t with buf := List.replicate 2047 elem }).core.task.buf.length + 2) ∧
    (∀ k, k < 2 → stagePart scratchLanes (unitAddr scratchLanes.core .n32 1 k) 4 .store .dflt = (scratchLanes.mem, .ok (.scratch (4 * k)))) ∧
    (∃ f, stagePart scratchLanes (unitAddr scratchLanes.core .n32 2 0) 4 .store .dflt = (scratchLanes.mem, .error f)) := by
  refine ⟨by decide +kernel, by decide +kernel, ?_, ?_⟩
  · intro k h
    obtain rfl | rfl : k = 0 ∨ k = 1 := by omega
    all_goals exact okAt (by decide +kernel) (by decide +kernel)
  · exact errAt (by decide +kernel) (by decide +kernel)

/-! ### KV instructions -/

theorem witness_HashAndSign :
    Element lanes ∧ (VOp.vec 0 .row 2).isSrc = true ∧ (3 : SqNo).val < lanes.core.task.sq ∧
    lanes.core.task.holdsAll [(.e4m3, .vec 1 .row 1), (.e4m3, .vec 0 .row 2), (.n32, .vec 0 .row 2)] = true := by decide +kernel

/-- One cell, and stream record 0 at token 0 of the sequence of `space`. -/
def consuming : State :=
  task (space 1) fun t => { t with
    vl := 1, vstart := 0, streams := [(0, { bound := true, fin := 10 })], block := some ⟨0x4000100, 0x4000108, [7, 8], []⟩ }

/-- The same where the ASID has no KV space. -/
def lost : State := task base fun _ => consuming.core.task

theorem witness_StreamConsumers :
    (Element streaming ∧ (VOp.vec 0 .row 2).isSrc = true ∧
     streaming.core.task.holdsAll [(.e4m3, .vec 1 .row 4), (.e4m3, .vec 0 .row 2), (.e4m3, .stream 0 false), (.fp32, .vec 1 .row 4), (.fp32, .vec 0 .row 1)] = true ∧
     (fget streaming.core.task.streams 0 {}).fin.toNat ≤ kvPos (fget streaming.core.task.streams 0 {}).cur) ∧
    (Element consuming ∧ consuming.core.task.loopCells = [0] ∧ consuming.core.task.maskBit 0 0 = true ∧
     consuming.core.task.holdsAll [(.e4m3, .vec 1 .row 4), (.e4m3, .vec 0 .row 2), (.e4m3, .stream 0 false), (.fp32, .vec 1 .row 4), (.fp32, .vec 0 .row 1)] = true) ∧
    (∃ u, consuming.nextToken 0 false = (u, .token (.data ([1, 2, 3] ++ List.replicate 125 0)))) ∧
    (∃ u bs, consuming.nextToken 0 true = (u, .token (.data bs))) ∧
    (lost.core.task.loopCells ≠ [] ∧ (∃ u code, lost.nextToken 0 false = (u, .fault code)) ∧ ∃ u code, lost.nextToken 0 true = (u, .fault code)) :=
  ⟨by decide +kernel, by decide +kernel, pairSome (by decide +kernel), ⟨_, List.replicate 128 0, eqPair (by decide +kernel)⟩, by decide +kernel,
    ⟨_, 0x001A, eqPair (by decide +kernel)⟩, _, 0x001A, eqPair (by decide +kernel)⟩


/-- The stream of `consuming` over a block of some state, with a descriptor, a list and a tail of some kind. -/
def walking (ctl : Nat) (l : List (Nat × List Byte)) : State := holds { space ctl with core := consuming.core } l

/-- The state and the descriptor that a walk's first read gives. -/
def opened (s : State) : State := (s.kvDesc 0 1).1
def openedAt (s : State) : KvDesc := (okVal (s.kvDesc 0 1)).getD default

/-- What holds of each walk: its record, its descriptor, and its sequence's record in reach. -/
theorem witness_StreamWalk : ∀ s ∈ [walking 0 [], walking 1 [], walking 2 [], walking 3 [], walking 12 [], walking 1 [(0x12000, bytesOf 4 64)],
      walking 1 [(0x10010, bytesOf 4 0)], walking 1 [(0x10008, bytesOf 8 0x50000), (0x10010, bytesOf 4 0)]],
    NoCopies s.mem ∧ Sound s.mem ∧ (fget s.core.task.streams 0 {}).fin = 10 ∧ s.kvDesc 0 s.core.asid = (opened s, .ok (openedAt s)) ∧
    (0 < (openedAt s).nseq ∧ 0 < (openedAt s).nl ∧ 0 < (openedAt s).nh) ∧ CrookReaches (opened s) { stk := 0, asid := 1 } ((openedAt s).seqVa 0) 128 ∧
    CrookReaches (opened s) { stk := 0, asid := 1 } 0x12000 4 ∧ CrookReaches (opened s) { stk := 0, asid := 1 } ((openedAt s).entryVa 5) 128 ∧
    CrookReaches (opened s) { stk := 0, asid := 1 } ((openedAt s).sigVa 5 0 0) 32 ∧
    (∀ o, o < 128 → reachable (opened s).ursol (0x40000 + o) = true ∧ reachable (opened s).ursol (0x50000 + o) = true) := by
  intro s h
  have hs : s.mem.tlb = base.mem.tlb ∧ NoCopies s.mem ∧ Sound s.mem ∧ (fget s.core.task.streams 0 {}).fin = 10 ∧ s.core.asid = 1 ∧
      (okVal (s.kvDesc 0 1)).isSome = true ∧ (opened s).mem.tlb = base.mem.tlb ∧ (opened s).ursol.stackSts = base.ursol.stackSts ∧ (opened s).ursol.fenced = [] ∧
      (0 < (openedAt s).nseq ∧ 0 < (openedAt s).nl ∧ 0 < (openedAt s).nh) ∧ ((openedAt s).seqVa 0).toNat + 128 ≤ 2 ^ 26 ∧
      ((openedAt s).entryVa 5).toNat + 128 ≤ 2 ^ 26 ∧ ((openedAt s).sigVa 5 0 0).toNat + 32 ≤ 2 ^ 26 := by
    revert s
    decide +kernel
  obtain ⟨-, h1, h2, h3, h4, h5, h6, h7, h8, h9, h10, h11, h12⟩ := hs
  refine ⟨h1, h2, h3, ?_, h9, crook_reaches _ _ _ _ h6 h7 h8 ⟨rfl, rfl⟩ h10, crook_reaches _ _ _ _ h6 h7 h8 ⟨rfl, rfl⟩ (by decide +kernel),
    crook_reaches _ _ _ _ h6 h7 h8 ⟨rfl, rfl⟩ h11, crook_reaches _ _ _ _ h6 h7 h8 ⟨rfl, rfl⟩ h12, fun o ho => ?_⟩
  · rw [h4]
    obtain ⟨d, hd⟩ := Option.isSome_iff_exists.mp h5
    unfold openedAt
    rw [hd]
    exact okWith hd
  · have f : ∀ pa : W64, pa.toNat + o < 2 ^ 26 → leafPa (demoLeaf 0 2) pa = pa.toNat → reachable (opened s).ursol (pa.toNat + o) = true := by
      intro pa hp he
      have := (leaf_at (opened s) pa o h6 h7 h8 hp).2.1
      rwa [he] at this
    exact ⟨f 0x40000 (by show 0x40000 + o < 2 ^ 26; omega) (by decide +kernel), f 0x50000 (by show 0x50000 + o < 2 ^ 26; omega) (by decide +kernel)⟩

/-- What the walks above find: their list entry, its state, a far signature, and a list that is empty or has a tail. -/
theorem witness_StreamWalk_cases :
    let q := fun (s : State) => seqOf (crookBytes (opened s) { stk := 0, asid := 1 } s.mem.cells ((openedAt s).seqVa 0) 128)
    let e := fun (s : State) => crookEntry (opened s) { stk := 0, asid := 1 } (openedAt s) s.mem.cells 5
    ((∀ k ∈ [0, 1, 2, 3], (e (walking k [])).state = k) ∧ (e (walking 12 [])).state = 4 ∧ (e (walking 12 [])).sigv = true) ∧
    ((q (walking 1 [])).nb = 1 ∧ (q (walking 1 [])).list = 0x12000 ∧ crookNum (opened (walking 1 [])) { stk := 0, asid := 1 } (walking 1 []).mem.cells 0x12000 4 = 5 ∧
     5 < 2 ^ (openedAt (walking 1 [])).lgsz ∧ 2 ^ (openedAt (walking 1 [])).lgsz ≤ 64) ∧
    (q (walking 1 [(0x10010, bytesOf 4 0)])).nb = 0 ∧
    (let s := walking 1 [(0x10008, bytesOf 8 0x50000), (0x10010, bytesOf 4 0)]
     (q s).nb = 0 ∧ (q s).tail = 0x50000 ∧ 0 < (q s).len) ∧
    (let r : StreamRec := { bound := true, sig := true, qsig := 1, fin := 10 }
     r.clr = false ∧ r.sig = true ∧ r.rad.toNat < popCount (0 ^^^ r.qsig.toNat) 256 ∧ min (16 * (0 + 1)) r.fin.toNat = r.fin.toNat ∧
     min (16 * (0 + 1)) { r with fin := 17 }.fin.toNat ≠ { r with fin := 17 }.fin.toNat) ∧
    (errVal (lost.kvDesc 0 1) = some 0x0201 ∧ errVal ({ lost with ursol := { lost.ursol with fenced := [(0, true)] } }.kvDesc 0 1) = some 0x0207) := by
  decide +kernel

/-! ### Banks, tables and tiles -/

def bank1 : BankId := ⟨0, 0, 1⟩

def bankIn (k : Bank) (now : Nat) : State := { base.setBank bank1 k with now := now }

def rowClose : RowCmd := ⟨{ core := .task ⟨0, 0⟩ }, bank1, 5, true, none, 0, 9⟩

def rowCon : RowCmd := ⟨{ core := .task ⟨0, 0⟩, asid := 1, seq := 1 }, bank1, 5, true, some 3, 0, 9⟩

def withRows (s : State) (l : List RowCmd) : State := { s with dram := { s.dram with cmds := l } }

/-- The first line of row 9 of bank 1. -/
def rowLine : Nat := 9 * 2 ^ 15 + 2 ^ 11

def withWork (s : State) : State := { s with mem := { s.mem with dramWork := [7, rowLine] } }

theorem witness_BankMoves_work :
    ((withWork base).mem.dramWork = [7] ++ rowLine :: [] ∧ (rowLine / 2 ^ 30 % 8 = bank1.stk.val ∧ rowLine / 2 ^ 5 % 64 = bank1.col.val ∧
       rowLine / 2 ^ 11 % 16 = bank1.layer.val ∧ rowLine / 2 ^ 15 % 2 ^ 15 = (9 : Fin 32768).val) ∧ ¬ 7 / 2 ^ 11 % 16 = bank1.layer.val ∧
     base.mem.dramWork = [] ∧ ({} : Bank).active = false) ∧
    (let b : BankId := ⟨0, 0, 2⟩
     let t := (withRows (bankIn ⟨.open, 9, some 1, 0, 5, false, false, 16, []⟩ 20) [rowCon]).setBank b ⟨.open, 3, none, 0, 0, false, true, 16, []⟩
     t.heldTransfers bank1 = [rowCon] ∧ t.transferStart rowCon = some 20 ∧ (t.bank b).byFold = true ∧ (t.bank b).active = true ∧
     (t.bank b).tAct + 20 ≤ t.now ∧ fget t.dram.busUntil 0 0 ≤ (t.bank b).tAct + 16 ∧ t.foldTakesBus bank1 = false) := by decide +kernel

theorem witness_BankMoves :
    (let s := bankIn ⟨.act, 9, some 1, 0, 5, false, false, 0, []⟩ 16
     (s.bank bank1).st = .act ∧ (s.bank bank1).tAct + 16 ≤ s.now ∧ (s.bank bank1).byFold = false ∧ (s.bank bank1).objs = []) ∧
    (let s := bankIn ⟨.act, 9, none, 0, 5, false, true, 0, []⟩ 16
     (s.bank bank1).st = .act ∧ (s.bank bank1).tAct + 16 ≤ s.now ∧ (s.bank bank1).byFold = true) ∧
    (let s := bankIn ⟨.open, 9, some 1, 0, 5, false, false, 16, []⟩ 2000
     (s.bank bank1).active = true ∧ (s.bank bank1).objs = [] ∧ s.dram.cmds = [] ∧ (s.bank bank1).tAct + 2000 ≤ s.now ∧
     (withRows s [rowCon]).dram.cmds = [rowCon] ∧ rowCon.bank = bank1 ∧ rowCon.slot = some 3) ∧
    (let s := bankIn ⟨.open, 9, some 1, 0, 5, false, false, 16, [{ core := .task ⟨0, 0⟩, obj := some 0x2000 }]⟩ 2000
     (s.bank bank1).active = true ∧ (s.bank bank1).objs = [{ core := .task ⟨0, 0⟩, obj := some 0x2000 }] ∧ s.dram.cmds = [] ∧ (s.bank bank1).tAct + 2000 ≤ s.now) ∧
    (let s := bankIn ⟨.open, 9, some 1, 3800, 5, false, false, 3816, []⟩ 3888
     (s.bank bank1).active = true ∧ s.refreshWithin bank1 13 = true) ∧
    (let s := bankIn {} 3900
     (s.bank bank1).st = .idle ∧ s.inRefresh bank1 = true) ∧
    (let s := bankIn { st := .ref, tIn := 3900 } 4250
     (s.bank bank1).st = .ref ∧ (s.bank bank1).tIn + 350 ≤ s.now) ∧
    (let s := bankIn { st := .close, tIn := 3900 } 3912
     (s.bank bank1).st = .close ∧ (s.bank bank1).tIn + 12 ≤ s.now) ∧
    (let s := withRows (bankIn ⟨.open, 9, some 1, 0, 5, false, false, 16, []⟩ 20) [rowClose]
     s.dram.cmds = [rowClose] ∧ rowClose.bank = bank1 ∧ rowClose.tag = (s.bank bank1).tag ∧ rowClose.slot = none ∧ rowClose.close = true ∧
     (s.bank bank1).st = .open ∧ rowCon.tag = (s.bank bank1).tag ∧ rowCon.hdr.seq < { rowClose with hdr := { rowClose.hdr with seq := 2 } }.hdr.seq ∧
     serves s.ursol bank1.stk.val = true ∧ serves s.ursol (1 : Fin 8).val = false) ∧
    -- the Fold
    (let s := bankIn ⟨.open, 9, some 1, 0, 5, false, false, 16, []⟩ 20
     (s.bank bank1).byFold = false ∧ (s.bank bank1).row = (9 : Fin 32768).val ∧ s.foldTakesBus bank1 = true ∧
     fget s.dram.busUntil (64 * bank1.stk.val + bank1.col.val) 0 ≤ s.now ∧ s.foldSlots bank1.stk bank1.col = [] ∧ s.heldTransfers bank1 = []) ∧
    (let s := withRows (bankIn ⟨.open, 9, some 1, 0, 5, false, false, 16, []⟩ 20) [rowCon]
     let t := { s with dram := { s.dram with busFold := [(0, true)] } }
     t.heldTransfers bank1 = [rowCon] ∧ t.transferStart rowCon = some 16 ∧ fget t.dram.busFold 0 false = true ∧ t.foldTakesBus bank1 = false) ∧
    (let s := bankIn ⟨.open, 9, none, 0, 5, false, true, 16, []⟩ 20
     (s.bank bank1).st = .open ∧ (s.bank bank1).byFold = true ∧ (s.bank bank1).row = (9 : Fin 32768).val ∧ (s.bank bank1).tAct + 20 ≤ s.now) ∧
    (let s := bankIn {} 100
     (s.bank bank1).st = .idle ∧ s.inRefresh bank1 = false ∧ s.refreshWithin bank1 32 = false ∧ (s.budget bank1).length < 8 ∧
     s.foldSlots bank1.stk bank1.col = []) := by decide +kernel

def transferring : State :=
  { base with now := 20, dram := { (bankIn ⟨.open, 9, some 1, 0, 5, false, false, 16, []⟩ 20).dram with cmds := [rowCon] } }

theorem witness_RowTransfers :
    transferring.dram.cmds = [rowCon] ∧ rowCon.bank.stk = 0 ∧ rowCon.bank.col = 0 ∧ rowCon.slot = some 3 ∧ transferring.transferable rowCon = true ∧
    -- its row with a bad word and a weak one
    (let w := (9 * 2 ^ 21 + 2 ^ 17) / 8
     (transferring.bank bank1).row % 2 ^ 15 = 9 ∧ { transferring.mem with bad := [w + 255], weak := [w] }.bad.contains (w + 255) = true) := by decide +kernel

def hdr (a b e : Nat) : OpHdr := { core := .task ⟨0, 0⟩, asid := 1, va := BitVec.ofNat 64 a, vb := BitVec.ofNat 64 b, ve := BitVec.ofNat 64 e, seq := 3 }

/-- Two codes are in memory at 0x2000. -/
def builderHas (l : List BuildCmd) (r : Option TbldRun) : State :=
  { holds base [(0x2000, [3, 5])] with eng := { base.eng with buildQ := finsert base.eng.buildQ 0 l, buildRun := [(0, r)] } }

theorem witness_BuilderSteps :
    (let h := hdr 0x2000 7 0
     let s := builderHas [⟨false, h⟩] none
     (NoVictims s ∧ s.buildAside 0 = [] ∧ s.building 0 = none ∧ s.buildWaiting 0 = [⟨false, h⟩]) ∧
     (∃ u, (s.setBuildQ 0 []).opRead h h.va 2 = (u, .ok [3, 5])) ∧ (∃ u, (unmapped (s.setBuildQ 0 [])).opRead h h.va 2 = (u, .error false))) ∧
    (let h := hdr 0x2000 1 (2 * 512)
     let s := builderHas [⟨true, h⟩] none
     NoVictims s ∧ s.buildAside 0 = [] ∧ s.building 0 = none ∧ s.buildWaiting 0 = [⟨true, h⟩] ∧ fget s.tiles.codebookTag (8 * 0 + h.ve.toNat % 8) 0 = 0 ∧
     fget { s.tiles with codebookTag := [(0, 3)] }.codebookTag (8 * 0 + h.ve.toNat % 8) 0 ≠ h.asid.toNat + 1) ∧
    -- the first and the last group of two
    (∀ j ∈ [0, 1],
      let h := hdr 0x2000 1 (2 * 512)
      let s := builderHas [] (some ⟨h, j, false, []⟩)
      (s.building 0 = some ⟨h, j, false, []⟩ ∧ NoVictims s ∧ h.stk = 0 ∧ j < h.ve.toNat / 512 % 2 ^ 11 ∧ h.ve.toNat / 256 % 2 = 0 ∧
       (h.ve.toNat / 8 % 4 + 1) * 2 ^ (h.ve.toNat / 32 % 4) ≤ 8 ∧ h.ve.toNat / 2 ^ 20 % 2 ^ 10 + 2 * 1 ≤ 1024 ∧
       (∀ t ∈ maskTiles 0 h.vb, s.groupAllowed t h (h.ve.toNat / 2 ^ 20 % 2 ^ 10 + j * 1) 1 = true) ∧ maskTiles 0 h.vb = [⟨0, 0⟩]) ∧
      s.nextTbld 0 = some ⟨h, j, false, []⟩ ∧ (∃ v, s.opRead h (actRange h j).1 (actRange h j).2 = (v, .ok [if j = 0 then 3 else 5])) ∧
      (unmapped s).nextTbld 0 = some ⟨h, j, false, []⟩ ∧ ∃ v, (unmapped s).opRead h (actRange h j).1 (actRange h j).2 = (v, .error false)) := by
  refine ⟨⟨by decide +kernel, okSome (by decide +kernel), errWith (by decide +kernel)⟩, by decide +kernel, ?_⟩
  intro j h
  obtain rfl | rfl : j = 0 ∨ j = 1 := by simpa using h
  all_goals exact ⟨by decide +kernel, by decide +kernel, okSome (by decide +kernel), by decide +kernel, errWith (by decide +kernel)⟩

def tile0 : TileId := ⟨0, 0⟩

def tileHas (d : TileCmd) : State := { base with tiles := { base.tiles with cmds := [d] } }

theorem witness_TileSteps :
    (let d : TileCmd := { tile := tile0, op := .lka, hdr := hdr 0 (2 ^ 42 + 3 * 2 ^ 32 + 2 ^ 21 + 2 ^ 10 + 1) 0x2000 }
     let s := tileHas d
     (s.nextStart tile0 = some d ∧ d.hdr.obj = none ∧ lkaFault s.tiles tile0 d.hdr (lkaShape d.hdr.vb) (natOf (readBytes s.tiles.slots 0 2048)) = none) ∧
     ∃ u, (s.dropTileCmd d.hdr).opRead d.hdr d.hdr.ve (4 * (((lkaShape d.hdr.vb).nsc + 7) / 8)) = (u, .ok [0, 0, 0, 0])) ∧
    (let d : TileCmd := { tile := tile0, op := .aclr, hdr := hdr 0 0 0 }
     (tileHas d).nextStart tile0 = some d ∧ d.hdr.obj = none) ∧
    (let d : TileCmd := { tile := tile0, op := .adrn, hdr := hdr 0 (2 ^ 16) 0 }
     (tileHas d).nextStart tile0 = some d ∧ d.hdr.obj = none ∧ fget (tileHas d).tiles.accTag 0 0 = 0 ∧ (tileHas d).tiles.badAcc = []) :=
  ⟨⟨by decide +kernel, okSome (by decide +kernel)⟩, by decide +kernel, by decide +kernel⟩

def tileRun (op : TileOp) : TileRun :=
  { tile := tile0, op := op, hdr := hdr 0 0 0, blk := 0, status := 0, progress := 0, fidx := 0, sat := false, setTag := true, acc := [(0, 9)], cells := [(1024, 5)] }

theorem witness_TileEnds :
    (∀ op ∈ [TileOp.lka, .adrn],
      let s := { base with tiles := { base.tiles with runs := [tileRun op] } }
      s.tiles.runs = [tileRun op] ∧ (tileRun op).tile = tile0 ∧ (tileRun op).status = 0 ∧ (tileRun op).hdr.obj = none ∧ (tileRun op).op = op ∧
      s.core.id = (tileRun op).hdr.core) ∧
    (let d : TileCmd := { tile := tile0, op := .adrn, hdr := hdr 0 (2 ^ 16) 0, waited := 1000000 }
     let s := { tileHas d with tiles := { (tileHas d).tiles with runs := [tileRun .lka] } }
     s.tiles.cmds = [d] ∧ d.tile = tile0 ∧ d.op = .adrn ∧ 1000000 ≤ d.waited ∧ d.hdr.obj = none ∧ s.tiles.runs = [tileRun .lka]) := by decide +kernel

/-! ### The Crook and the copies -/

def crookHas (ctl : Nat) (op : KvOp) (va vb : Nat) : State :=
  { space ctl with eng := { base.eng with kvQ := finsert base.eng.kvQ 0 [{ op := op, hdr := { hdr va vb 0 with core := .sup 0 } }] } }

def served (s : State) : State := { s with eng := { s.eng with kvQ := finsert s.eng.kvQ (0 : Fin 8).val [] } }

theorem witness_CrookService :
    (∀ q ∈ [(KvOp.look, 0), (.ins, 0), (.ins, 1), (.ins, 2), (.ins, 3), (.ins, 4), (.pin, 1), (.unpin, 1), (.app, 0), (.sig, 0)],
       (crookHas 1 q.1 5 q.2).kvWaiting 0 = [{ op := q.1, hdr := { hdr 5 q.2 0 with core := .sup 0 } }]) ∧
    (∃ u d, (served (crookHas 1 .look 5 0)).kvDesc 0 1 = (u, .ok d)) ∧
    (∃ u, (served { crookHas 1 .look 5 0 with mem := base.mem }).kvDesc 0 1 = (u, .error 0x0201)) ∧ NoVictims (crookHas 1 .look 5 0) := by
  refine ⟨by decide +kernel, ?_, ?_⟩
  · obtain ⟨d, h⟩ : ∃ d, okVal ((served (crookHas 1 .look 5 0)).kvDesc 0 1) = some d := Option.isSome_iff_exists.mp (by decide +kernel)
    exact ⟨_, d, okWith h⟩
  · exact ⟨errWith (by decide +kernel), by decide +kernel⟩

/-- A command of the supervisor core at the head of the Crook's queue, in a KV space with these bytes besides. -/
def crookCmd (op : KvOp) (va vb ve : Nat) : KvCmd :=
  { op := op, hdr := { hdr va vb ve with core := .sup 0 }, kRow := List.replicate 128 1, vRow := List.replicate 128 2 }

def crookWith (c : KvCmd) (ctl : Nat) (l : List (Nat × List Byte)) : State :=
  { holds (space ctl) l with eng := { base.eng with kvQ := finsert base.eng.kvQ 0 [c] } }

/-- The bytes of a lookup record of one block, and of the record of sequence 0 with a tail. -/
def lookBytes : List (Nat × List Byte) := [(0x3000, bytesOf 8 0x3100 ++ bytesOf 8 0x3800 ++ bytesOf 4 0xFFFFFFFF ++ bytesOf 2 1 ++ bytesOf 2 1)]
def tailBytes (len : Nat) : List (Nat × List Byte) := [(0x10008, bytesOf 8 0x50000 ++ bytesOf 4 1 ++ bytesOf 4 8 ++ bytesOf 4 len)]

/-- A command of each kind meets the hypotheses of the Crook's claims: it is next, and its tables, its lists and its
records are in reach. -/
theorem witness_CrookNext : ∀ q ∈ [(crookCmd .look 0x3000 0 0, lookBytes), (crookCmd .ins 0 0 0, tailBytes 32), (crookCmd .ins 5 1 0x60000, []),
      (crookCmd .ins 5 2 0x60000, []), (crookCmd .pin 0x3000 1 0, [(0x3000, bytesOf 4 5)]), (crookCmd .unpin 0x3000 1 0, [(0x3000, bytesOf 4 5)]),
      (crookCmd .app 0 7 (16 + 3), tailBytes 16), (crookCmd .sig 5 0 0, [])],
    ∀ ctl ∈ [1, 2, 1 + 2 ^ 32], ∃ u d, CrookNext (crookWith q.1 ctl q.2) u 0 q.1 d ∧ (∀ k, k < 2 ^ d.lgsz → CrookReaches u q.1.hdr (d.entryVa k) 128) ∧
      CrookReaches u q.1.hdr 0x3000 32 ∧ CrookReaches u q.1.hdr 0x3100 64 ∧ CrookReaches u q.1.hdr 0x3800 4 ∧ CrookReaches u q.1.hdr (d.seqVa 0) 128 ∧
      CrookReaches u q.1.hdr 0x12000 8 ∧ CrookReaches u q.1.hdr d.proj 4096 ∧ CrookReaches u q.1.hdr (d.sigVa 5 0 0) 32 ∧
      (∀ o, o < 0x20000 → reachable u.ursol (0x40000 + o) = true) := by
  intro q hq ctl hc
  have hs : let r := (served (crookWith q.1 ctl q.2)).kvDesc 0 q.1.hdr.asid
      let d := (okVal r).getD default
      (okVal r).isSome = true ∧ (crookWith q.1 ctl q.2).kvWaiting 0 = [q.1] ∧ NoVictims (crookWith q.1 ctl q.2) ∧ NoCopies r.1.mem ∧ Sound r.1.mem ∧ q.1.prog = .start ∧
      r.1.mem.tlb = base.mem.tlb ∧ r.1.ursol.stackSts = base.ursol.stackSts ∧ r.1.ursol.fenced = [] ∧ q.1.hdr.stk = 0 ∧ q.1.hdr.asid = 1 ∧
      (∀ k, k < 64 → (d.entryVa k).toNat + 128 ≤ 2 ^ 26) ∧ d.lgsz = 6 ∧ (d.seqVa 0).toNat + 128 ≤ 2 ^ 26 ∧ d.proj.toNat + 4096 ≤ 2 ^ 26 ∧
      (d.sigVa 5 0 0).toNat + 32 ≤ 2 ^ 26 := by
    revert ctl
    revert q
    decide +kernel
  obtain ⟨h0, h1, h2, h3, h4, hp, h5, h6, h7, h8, h9, h10, h11, h12, h13, h14⟩ := hs
  obtain ⟨d, hd⟩ := Option.isSome_iff_exists.mp h0
  rw [hd] at h10 h11 h12 h13 h14
  refine ⟨_, d, ⟨⟨[], h1, fun x hx => by rw [List.mem_singleton.mp hx]; exact hp, okWith hd⟩, h2, h8, h3, h4⟩, fun k hk => crook_reaches _ _ _ _ h5 h6 h7 ⟨h8, h9⟩ (h10 k (by
      have h11 : d.lgsz = 6 := h11
      rwa [h11] at hk)),
    crook_reaches _ _ _ _ h5 h6 h7 ⟨h8, h9⟩ (by decide +kernel), crook_reaches _ _ _ _ h5 h6 h7 ⟨h8, h9⟩ (by decide +kernel),
    crook_reaches _ _ _ _ h5 h6 h7 ⟨h8, h9⟩ (by decide +kernel), crook_reaches _ _ _ _ h5 h6 h7 ⟨h8, h9⟩ h12,
    crook_reaches _ _ _ _ h5 h6 h7 ⟨h8, h9⟩ (by decide +kernel), crook_reaches _ _ _ _ h5 h6 h7 ⟨h8, h9⟩ h13, crook_reaches _ _ _ _ h5 h6 h7 ⟨h8, h9⟩ h14, fun o ho => ?_⟩
  have := (leaf_at _ (0x40000 : W64) o h5 h6 h7 (by show 0x40000 + o < 2 ^ 26; omega)).2.1
  rwa [show leafPa (demoLeaf 0 2) 0x40000 = 0x40000 by decide +kernel] at this

/-- The bytes of an entry with predecessor 5 and a control double. -/
def entryBytes (k pred ctl : Nat) : List (Nat × List Byte) := [(0x8000 + 128 * k, bytesOf 4 pred), (0x8000 + 128 * k + 0x50, bytesOf 8 ctl)]

/-- A sequence's record, the block its next seal finds and the slot it would take; what a pin or an unpin of entry 5
ends with; the control double of entry 5. -/
def sealCase (l : List (Nat × List Byte)) : Nat × Nat × Nat × Nat × Option Nat × Option Nat :=
  let c := crookCmd .ins 0 0 0
  let s := served (crookWith c 1 l)
  let m := s.mem.cells
  let q := seqOf (crookBytes (opened s) c.hdr m ((openedAt s).seqVa 0) 128)
  let slots := (List.range 8).map (probeSlot (openedAt s) 5 q.ttok)
  let state := fun (k : Nat) => (crookEntry (opened s) c.hdr (openedAt s) m k).state
  (q.tail, q.nb, q.cap, q.len, (crookProbe (opened s) c.hdr (openedAt s) m 5 q.ttok).filter fun k => state k != 0,
    slots.find? fun k => state k == 0 || state k == 5)

def pinCase (op : KvOp) (un : Bool) (ctl : Nat) : Option (Nat × Nat) :=
  let c := crookCmd op 0x3000 1 0
  let s := served (crookWith c ctl [(0x3000, bytesOf 4 5)])
  ((List.range 1).foldl (pinStep (opened s) c.hdr (openedAt s) un) (s.mem.cells, none)).2

def ctlCase (v : Nat) : Nat :=
  let c := crookCmd .ins 5 1 0x60000
  let s := served (crookWith c v [])
  crookCtl (opened s) c.hdr (openedAt s) s.mem.cells 5

/-- The cases of the Crook's claims: a block that is found, a free slot, a full bucket, a sequence with no tail; entries
that may and may not move; pins that can and cannot change; positions inside and outside the tail. -/
theorem witness_CrookCases :
    (sealCase (tailBytes 32) = (0x50000, 1, 8, 32, none, some 27) ∧ sealCase (tailBytes 32 ++ entryBytes 27 5 1) = (0x50000, 1, 8, 32, some 27, some 28) ∧
     sealCase (tailBytes 32 ++ (List.range 8).flatMap fun r => entryBytes (27 + r) 9 1) = (0x50000, 1, 8, 32, none, none) ∧
     sealCase (tailBytes 31) = (0x50000, 1, 8, 31, none, some 27) ∧ (sealCase []).1 = 0) ∧
    (ctlCase 1 = 1 ∧ ctlCase (1 + 2 ^ 32) = 1 + 2 ^ 32 ∧ ctlCase 2 = 2 ∧ ctlCase 3 = 3 ∧ 2 ^ 6 ≤ 64 ∧ dramEnd ≤ dramEnd - 4096 + 4096) ∧
    (pinCase .pin false 1 = none ∧ pinCase .unpin true (1 + 2 ^ 32) = none ∧ pinCase .pin false 5 = some (0x0204, 0) ∧ pinCase .unpin true 1 = some (0x0205, 0)) ∧
    ((16 + 3) / 16 = 1 ∧ (16 + 3 : Nat) / 2 ^ 40 % 2 ^ 20 < 4) :=
  ⟨⟨by decide +kernel, by decide +kernel, by decide +kernel, by decide +kernel, by decide +kernel⟩, by decide +kernel, by decide +kernel, by decide +kernel⟩

/-- A block whose trailer has no tag is not good; one whose trailer holds its tag and its CRC is. -/
theorem witness_CrookPromotion :
    (let c := crookCmd .ins 5 2 0x60000
     let s := served (crookWith c (2 + 77 * 2 ^ 16) [])
     (openedAt s).nl * (openedAt s).nh = 1 ∧ crookCtl (opened s) c.hdr (openedAt s) s.mem.cells 5 % 8 = 2 ∧
     natOf ((readBytes s.mem.cells 0x61000 12).take 8) ≠ c.hdr.asid.toNat * 2 ^ 48 + 77 * 2 ^ 32 + 5) ∧
    ∀ (block : List Byte) (tag : Nat), tag < 2 ^ 64 →
      natOf ((bytesOf 8 tag ++ bytesOf 4 (crc32c block)).take 8) = tag ∧ natOf (((bytesOf 8 tag ++ bytesOf 4 (crc32c block)).drop 8).take 4) = crc32c block := by
  refine ⟨by decide +kernel, fun block tag h => ?_⟩
  have c : crc32c block < 2 ^ 32 := by
    have step : ∀ c : Nat, c < 2 ^ 32 → crcStep c < 2 ^ 32 := by
      intro c hc
      unfold crcStep
      split
      · exact Nat.xor_lt_two_pow (by omega) (by decide)
      · omega
    have byte : ∀ (l : List Nat) (c : Nat), c < 2 ^ 32 → l.foldl (fun c _ => crcStep c) c < 2 ^ 32 := by
      intro l
      induction l with
      | nil => exact fun _ h => h
      | cons _ _ ih => exact fun c h => ih _ (step c h)
    have all : ∀ (l : List Byte) (c : Nat), c < 2 ^ 32 →
        l.foldl (fun c b => (List.range 8).foldl (fun c _ => crcStep c) (c ^^^ b.toNat)) c < 2 ^ 32 := by
      intro l
      induction l with
      | nil => exact fun _ h => h
      | cons b _ ih => exact fun c h => ih _ (byte _ _ (Nat.xor_lt_two_pow h (by omega)))
    exact Nat.xor_lt_two_pow (all block _ (by decide)) (by decide)
  rw [List.take_left' (bytesOf_length 8 tag), List.drop_left' (bytesOf_length 8 tag), List.take_of_length_le (by simp), natOf_bytesOf, natOf_bytesOf]
  exact ⟨Nat.mod_eq_of_lt h, Nat.mod_eq_of_lt c⟩

def descOf (vb : Nat) : KvDesc := (okVal ((served (crookHas 2 .ins 5 vb)).kvDesc 0 1)).getD default

theorem witness_EntryChanges :
    ∀ vb ∈ [3, 4], ∃ (u : State) (ms : MemSys),
      (served (crookHas 2 .ins 5 vb)).kvDesc 0 1 = (u, .ok (descOf vb)) ∧
      engineTargets u.mem u.ursol ({ hdr 5 vb 0 with core := .sup 0 } : OpHdr).kvCtx .atomic [(((descOf vb).entryVa 5 + 0x50).toNat, 8)] =
        (ms, .ok [(.mem (0x8000 + 128 * 5 + 0x50) .wt, 8)]) ∧
      5 < 2 ^ (descOf vb).lgsz ∧ Sound u.mem ∧ NoCopies u.mem ∧ (0x8000 + 128 * 5 + 0x50) % 8 = 0 := by
  intro vb h
  refine ⟨_, _, okWith ?_, okWith ?_, ?_⟩
  all_goals
    obtain rfl | rfl : vb = 3 ∨ vb = 4 := by simpa using h
    all_goals decide +kernel

def copy0 : CopyCmd := { hdr := hdr 0x3005 0x4003 100, rows := 1, rlen := 100, dstr := 0, sstr := 0 }

def copyHas (q r : List CopyCmd) : State := { base with eng := { base.eng with copyQ := [(0, q)], copyRun := [(0, r)] } }

theorem witness_CopyStarts :
    (copyHas [copy0] []).copyWaiting 0 = [copy0] ∧ NoVictims (copyHas [copy0] []) ∧ copy0.scratch = false ∧ (copyHas [copy0] []).copying 0 = [] ∧
    (copyHas [copy0] (List.replicate 3 copy0)).copying 0 = List.replicate 3 copy0 ∧ copy0.paused = false := by decide +kernel

theorem witness_CopyProgress :
    (let s := copyHas [] [copy0]
     ∃ k, (s.copying 0)[0]? = some copy0 ∧ s.copying 0 = [copy0] ∧ copy0.chunk 0 = some k ∧ s.movesChunks 0 copy0 = true ∧ s.mayLand copy0 0 = true ∧
       copy0.scratch = false ∧ 0 < k.len ∧ NoCopies s.mem ∧ (∀ i, i < k.len → serves s.ursol (stackOf (0x4003 + i)) = true ∧ linePoisoned s.mem (lineOf (0x4003 + i)) = false) ∧
       ∃ m1 m2, copyTargets s.ursol (s.copyCtx copy0.hdr) .engineRead 0x0301 s.mem (pagePieces k.src.toNat (k.len / 2048 + 2) k.len) = (m1, .ok [(.mem 0x4003 .wt, k.len)]) ∧
         copyTargets s.ursol (s.copyCtx copy0.hdr) .engineWrite 0x0302 m1 (pagePieces k.dst.toNat (k.len / 2048 + 2) k.len) = (m2, .ok [(.mem 0x3005 .wt, k.len)])) ∧
    ({ copy0 with got := 100 }.got = copy0.rows * copy0.rlen ∧ copy0.fail = none ∧ copy0.wins = []) ∧
    ({ copy0 with fail := some (0x0301, 0), stop := 3, failed := [0] }.fail = some (0x0301, 0) ∧
      { copy0 with fail := some (0x0301, 0), stop := 3, failed := [0] }.settled true = true) := by
  refine ⟨⟨((copy0.chunk 0).getD ⟨0, 0, 0, 0, 0⟩), by decide +kernel, by decide +kernel, by decide +kernel, by decide +kernel, by decide +kernel, by decide +kernel,
    by decide +kernel, by decide +kernel, by decide +kernel, _, _, okWith (by decide +kernel), okWith (by decide +kernel)⟩, by decide +kernel, by decide +kernel⟩

/-- The task's stream record 0 is bound at token 0 of the sequence of `space`, with its end at token 10. -/
def prefetching : State := task (space 1) fun t => { t with streams := [(0, { bound := true, fin := 10 })] }

theorem witness_StreamHelpers :
    (let r := fget prefetching.core.task.streams (0 : Fin 4).val {}
     let p := prefetching.nextStage ⟨0, 0⟩ 0 32 (kvPos r.cur)
     prefetching.core.id = .task ⟨0, 0⟩ ∧ r.bound = true ∧ p < r.fin.toNat ∧ p < kvPos r.cur + 32 ∧
     ∃ d b kb vb u u' v w, prefetching.kvDesc 0 prefetching.core.asid = (u, .ok d) ∧ u.prefetchBase 0 prefetching.core.asid d r p = (u', some b) ∧
       u'.physRead 0 (b + d.tokOff (kvLayer r.cur) (kvHead r.cur) (p % 16) false) 128 = (v, .ok kb) ∧
       v.physRead 0 (b + d.tokOff (kvLayer r.cur) (kvHead r.cur) (p % 16) true) 128 = (w, .ok vb)) ∧
    (let s := task base fun t => { t with block := some ⟨0x4000100, 0x4000108, [0x040007FA8300A280], []⟩ }
     s.core.id = .task ⟨0, 0⟩ ∧ s.coreRuns = true ∧ s.core.inBlock = true ∧ s.core.eword ≠ 0 ∧
     okIs (decodeE s.core.eword.toNat) (.vld ⟨true, 0⟩ .n32 (.vec 3 .row 0) 10 ⟨.wis, .plain, false, false⟩) = true) := by
  refine ⟨⟨by decide +kernel, by decide +kernel, by decide +kernel, by decide +kernel, (okVal (prefetching.kvDesc 0 prefetching.core.asid)).getD default, 0x40000,
    [1, 2, 3] ++ List.replicate 125 0, List.replicate 128 0, _, _, _, _, okWith (by decide +kernel), eqPair (by decide +kernel), okWith (by decide +kernel),
    okWith (by decide +kernel)⟩, by decide +kernel⟩

/-! ### The Fold, walks and shootdowns -/

def line0 : Nat := 0x3000 / 64

def withCopy (a : Nat) (c : CacheLine) (e : DirEntry) (r : List HomeReq) : State :=
  { base with mem := { base.mem with lines := [(32 * line0 + a, c)], dir := [(line0, e)], reqs := r } }

def ownedLine : CacheLine := ⟨.o, BitVec.allOnes 16, 0x8003, 3, 0, 5⟩
def publishedLine : CacheLine := ⟨.u, BitVec.allOnes 16, 0, 0, 0xFF00, 5⟩
def sharedLine : CacheLine := ⟨.t, BitVec.allOnes 16, 0, 0, 0, 5⟩

theorem witness_FoldRequests :
    (base.mem.ring = none ∧ NoCopies base.mem ∧ base.canAsk 0 line0 = true ∧ base.canAsk (requesterNo (.engine 0 .drover)) line0 = true) ∧
    (60 < 64 ∧ 60 % sizeBytes .w = 0) ∧
    (let s := { withCopy 8 publishedLine {} [] with mem := { (withCopy 8 publishedLine {} []).mem with dir := [] } }
     s.mem.ring = none ∧ s.mem.lines = [(32 * line0 + 8, publishedLine)] ∧ s.mem.dir = [] ∧ s.mem.reqs = [] ∧ s.mem.notices = [] ∧ publishedLine.mode = .u ∧
     publishedLine.sdirty ≠ 0 ∧ s.canAsk 8 line0 = true) ∧
    (let s := withCopy 8 ownedLine { own := 8 } []
     s.mem.ring = none ∧ s.mem.dir = [(line0, { own := 8 })] ∧ s.mem.reqs = [] ∧ s.mem.notices = [] ∧ ownedLine.mode = .o ∧
     homeServes s.ursol line0 = true) ∧
    line0 / 2 ^ 30 % 8 = (0 : Fin 8).val := by decide +kernel

theorem witness_AgentAnswers :
    (let s := withCopy 3 sharedLine { shr := 8 } [⟨33, line0, .write 1 7, [.inv 3], false⟩]
     s.mem.ring = none ∧ s.mem.notices = [] ∧ s.mem.reqs = [⟨33, line0, .write 1 7, [.inv 3], false⟩] ∧ sharedLine.mode = .t ∧ sharedLine.sdirty = 0) ∧
    (∀ q ∈ [(ReqKind.write 1 7, HomeMsg.pull 3 0x8001, false, 33), (.write 1 7, .fwd 3 1 7, true, 33), (.getO false, .recall 3, false, 5)],
       let s := withCopy 3 ownedLine { own := 3 } [⟨q.2.2.2, line0, q.1, [q.2.1], q.2.2.1⟩]
       s.mem.ring = none ∧ s.mem.notices = [] ∧ s.mem.lines = [(32 * line0 + 3, ownedLine)] ∧ s.mem.dir = [(line0, { own := 3 })] ∧ ownedLine.mode = .o) ∧
    (let s := withCopy 3 publishedLine { nr := 3 } [⟨33, line0, .read 1, [.publish 3], false⟩]
     s.mem.ring = none ∧ s.mem.reqs = [⟨33, line0, .read 1, [.publish 3], false⟩] ∧ publishedLine.mode = .u ∧ publishedLine.sdirty ≠ 0 ∧
     ({ nr := 3 } : DirEntry).own = 31 ∧ ({ nr := 3 } : DirEntry).nr.toNat = 3 ∧ ({ nr := 3 } : DirEntry).shr = 0) := by decide +kernel

def miss0 : Miss := ⟨0, 1, 5, [.stack]⟩

/-- A shootdown record of the first two pages of ASID 1 at 0x2040, and one with an unaligned end at 0x2080. -/
def shooting (va : Nat) : State :=
  let s := holds base [(0x2040, bytesOf 8 0 ++ bytesOf 8 0x20000 ++ bytesOf 8 1 ++ bytesOf 8 0x2000),
    (0x2080, bytesOf 8 0 ++ bytesOf 8 0x20001 ++ bytesOf 8 1 ++ bytesOf 8 0x2000)]
  { s with mem := { s.mem with shootQ := [⟨0, BitVec.ofNat 64 va, 1, none⟩] } }

def shot (va : Nat) : State := { shooting va with mem := { (shooting va).mem with shootQ := [] } }

theorem witness_WalksAndShootdowns :
    (let s := { base with mem := { base.mem with walkQ := [miss0], walks := [miss0] } }
     s.mem.walkQ = miss0 :: [] ∧ miss0.stk = 0 ∧ (s.mem.walks.filter fun m => m.stk == 0).length < 32 ∧ s.mem.walks = miss0 :: []) ∧
    (∀ q ∈ [(0x2040, false), (0x2080, true)],
      let r := shootRecOf ((okVal (engineLoad (shot q.1) (engineCtx 0 1 false 0) (BitVec.ofNat 64 q.1) 32)).getD [])
      (shooting q.1).mem.shootQ = ⟨0, BitVec.ofNat 64 q.1, 1, none⟩ :: [] ∧ isOn (shooting q.1).ursol 0 = true ∧
      (okVal (engineLoad (shot q.1) (engineCtx 0 1 false 0) (BitVec.ofNat 64 q.1) 32)).isSome = true ∧
      (objCheck (engineLoad (shot q.1) (engineCtx 0 1 false 0) (BitVec.ofNat 64 q.1) 32).1.mem base.ursol (engineCtx 0 1 false 0) r.cobj).2 = .ok 0x2000 ∧
      isFenced base.ursol 0x2000 = false ∧ r.malformed = q.2 ∧ r.pkg = false) ∧
    (let d : ShootDone := ⟨0, 0x2000, 0, 1, 0xFFFFFFFF, 1, false⟩
     let s := { base with mem := { base.mem with shootDone := [d] } }
     s.mem.shootDone = [d] ∧ d.stk = 0 ∧ d.cobj % 16 = 0 ∧ reachable s.ursol d.cobj = true ∧ NoCopies s.mem ∧ d.progress < 2 ^ 32) ∧
    (base.ursol.boot = .up ∧ (base.mem.shootQ.filter fun q => q.host.isSome).length < 16 ∧ isOn base.ursol (0 : Fin 8).val = true) ∧
    (let s := { base with ursol := { base.ursol with stackSts := [] } }
     ∀ k : Fin 8, isOn s.ursol k.val = false) := by decide +kernel

/-! ### The Drover -/

/-- A launch record as 128 bytes. -/
def recBytes (entry done : Nat) : List Byte :=
  bytesOf 8 entry ++ bytesOf 8 0x77 ++ bytesOf 8 10 ++ bytesOf 4 3 ++ bytesOf 4 0 ++ bytesOf 8 done ++ bytesOf 8 0 ++ bytesOf 8 0x9000 ++ bytesOf 8 0x20000 ++
    List.replicate 48 0 ++ bytesOf 4 256 ++ bytesOf 2 1 ++ bytesOf 1 0 ++ bytesOf 1 5 ++ bytesOf 2 1 ++ bytesOf 1 0 ++ bytesOf 1 28 ++ bytesOf 4 0

def posted (entry done : Nat) : State :=
  { base with drover := { base.drover with hub := writeBytes [] (8192 * 3) (recBytes entry done), tails := [(3, 1)] } }

def launchHdr (q : Nat) : OpHdr := { core := .task ⟨0, 0⟩, asid := 1, va := 0x4000, vb := BitVec.ofNat 64 q, obj := some 0x2000, seq := 1 }

def launched (q entry : Nat) (n : Nat) (asid : BitVec 14) : State :=
  let s := holds base [(0x4000, recBytes entry 0x2000)]
  { s with
    eng := { s.eng with launches := [launchHdr q] }
    drover := { s.drover with queues := [(q, ⟨some (asid, 4), List.replicate n demoRec, false⟩)] } }

theorem witness_LaunchRecords :
    (64 < (65 % 2 ^ 32 + 2 ^ 32 - (fget base.drover.heads 3 0).toNat) % 2 ^ 32 ∧ ¬ 64 < (64 % 2 ^ 32 + 2 ^ 32 - (fget base.drover.heads 3 0).toNat) % 2 ^ 32) ∧
    (∀ q ∈ [(0x8000, 0x2000, true), (0x8001, 0x2000, false), (0x8001, 0, false)],
      let s := posted q.1 q.2.1
      let r := recordOf (readBytes s.drover.hub (8192 * 3 + 128 * 0) 128)
      fget s.drover.tails 3 0 ≠ fget s.drover.heads 3 0 ∧ (s.queue 3).checked = false ∧ r.ok = q.2.2 ∧ r.done = BitVec.ofNat 64 q.2.1 ∧ r.done.toNat % 16 = 0 ∧
      (q.2.1 = 0 ∨ (objCheck s.mem s.ursol r.ctx r.done).2 = .ok 0x2000) ∧ ObjHome s 0x2000) ∧
    (∀ q ∈ [(15, 0x8000, 0, 1), (64, 0x8000, 0, 1), (16, 0x8000, 64, 1), (63, 0x8000, 63, 1), (63, 0x8001, 63, 1), (63, 0x8000, 63, 2)],
      let s := launched q.1 q.2.1 q.2.2.1 q.2.2.2
      s.eng.launches = launchHdr q.1 :: [] ∧ (launchHdr q.1).obj = some 0x2000 ∧ ObjHome s 0x2000 ∧ (s.queue (launchHdr q.1).vb.toNat).recs.length = q.2.2.1) ∧
    (∃ u, { launched 63 0x8000 63 1 with eng := { (launched 63 0x8000 63 1).eng with launches := [] } }.opRead (launchHdr 63) (launchHdr 63).va 128
        = (u, .ok (recBytes 0x8000 0x2000))) ∧
    (recordOf (recBytes 0x8000 0x2000)).ok = true ∧ (recordOf (recBytes 0x8001 0x2000)).ok = false ∧ (recordOf (recBytes 0x8000 0x2000)).asid = 1 :=
  ⟨by decide +kernel, by decide +kernel, by decide +kernel, okSome (by decide +kernel), by decide +kernel⟩

def waitingFarm : Farm :=
  { demoFarm with lrec := { demoRec with done := 0x2000, smaxb := 3, tps := 3 }, donePa := some 0x2000, st := .waiting, deps := [(none, 0, true)], nextBase := 0, nextTid := 0 }

def withFarm (f : Farm) : State := { base with drover := { base.drover with farms := finsert base.drover.farms 2 f } }

theorem witness_FarmLife :
    (let s := { base with drover := { base.drover with queues := [(20, ⟨some (1, 4), [demoRec], false⟩)] } }
     (s.queue 20).recs = demoRec :: [] ∧ (s.queue 20).bound = some (1, 4) ∧ (∀ p, p < 64 → p ≠ 20 → (s.queue p).recs = []) ∧ s.farm? 1 = none ∧
     (∀ j, j < 1 → (s.farm? j).isSome = true) ∧ demoRec.dobj[3]? = some 0) ∧
    (let s := withFarm waitingFarm
     let r := waitingFarm.lrec
     s.farm? 2 = some waitingFarm ∧ waitingFarm.st = .waiting ∧ waitingFarm.aborted = false ∧ (∀ d ∈ waitingFarm.deps, d.2.2 = true) ∧
     r.smaxb ≤ s.ursol.cap.maxb ∧ s.ursol.cap.e16 = true ∧ s.ursol.cap.a32 = true ∧ (∀ k ∈ r.rect, stackState s.ursol k = .on) ∧
     (∀ e, e < 32 → routeHasEdge r.route e = true → fget s.ursol.edgeFenced e false = false ∧ fget s.ursol.edgeDown e false = false) ∧
     waitingFarm.donePa = some 0x2000 ∧ waitingFarm.lrec.trig = 0 ∧ ObjHome s 0x2000) ∧
    (let s := withFarm waitingFarm
     let low := { s with ursol := { s.ursol with cap := ⟨2, true, true⟩ } }
     let wide := { waitingFarm with lrec := { waitingFarm.lrec with xhi := 1 } }
     ¬ waitingFarm.lrec.smaxb ≤ low.ursol.cap.maxb ∧ ObjHome low 0x2000 ∧
     (withFarm wide).farm? 2 = some wide ∧ ObjHome (withFarm wide) 0x2000 ∧ (1 ∈ wide.lrec.rect ∧ stackState (withFarm wide).ursol 1 ≠ .on)) ∧
    (let f := { waitingFarm with st := .running }
     let s := withFarm f
     s.farm? 2 = some f ∧ f.st = .running ∧ f.aborted = false ∧ f.nextTid < f.lrec.tasks ∧ s.drover.ready.length < 4096 ∧ f.nextBase < f.lrec.iters ∧
     4096 ≤ { s.drover with ready := List.replicate 4096 ⟨⟨0, 0⟩, false⟩ }.ready.length ∧
     (let g := { f with nextBase := 4 }
      g.lrec.iters ≤ g.nextBase ∧ g.nextTid ∉ g.ended)) ∧
    (let f := { waitingFarm with st := .closing, ended := [0, 2, 1], discarded := [2, 1] }
     let s := withFarm f
     s.farm? 2 = some f ∧ f.st = .closing ∧ f.ended.length = f.lrec.tasks ∧ s.opHdrs = [] ∧ f.donePa = some 0x2000 ∧ f.lrec.trig = 0 ∧ ObjHome s 0x2000 ∧
     1 ∈ f.discarded ∧ ∀ b ∈ f.discarded, 1 ≤ b) :=
  ⟨by decide +kernel, by decide +kernel, by decide +kernel, by decide +kernel, by decide +kernel⟩

def place0 : State :=
  { base with
    core := { id := .none }, others := []
    drover := { base.drover with farms := [(2, urgentFarm)], ready := [⟨⟨2, 1⟩, false⟩] } }

def preempt0 : Preempt := ⟨0, ⟨2, 1⟩, 0, 4, [⟨0, 0⟩], [.hart ⟨0, 0⟩], false⟩

theorem witness_Placing :
    (place0.farm? 2 = some urgentFarm ∧ urgentFarm.aborted = false ∧ urgentFarm.nextBase < urgentFarm.lrec.iters ∧
     place0.readyStack ⟨⟨2, 1⟩, false⟩ = 0 ∧ poolShare urgentFarm.lrec.poolw ≤ 1024 ∧ isOn place0.ursol (0 : Fin 8).val = true ∧
     place0.drover.ready = [⟨⟨2, 1⟩, false⟩] ∧ (∀ c ∈ place0.cores, c.id.isTask = false) ∧ place0.drover.loans = [] ∧ place0.drover.preempts = []) ∧
    (urgent.core.id = .task ⟨0, 0⟩ ∧ urgent.core.task.stk = 0 ∧ (∀ d ∈ urgent.others, d.id.isTask = false) ∧ urgent.core.task.cluster = 0 ∧
     urgent.core.task.hw = 0 ∧ urgent.core.task.share ≤ 1024 ∧ urgent.drover.ready = [⟨⟨2, 1⟩, false⟩] ∧ urgent.drover.loans = [] ∧
     urgent.prioOf ⟨0, 0⟩ < urgent.prioOf ⟨2, 1⟩ ∧ urgent.drover.preempts = [] ∧ urgent.farm? 2 = some urgentFarm ∧ urgent.readyStack ⟨⟨2, 1⟩, false⟩ = 0 ∧
     isOn urgent.ursol (0 : Fin 8).val = true ∧ (urgent.farm? 0).isSome = true) ∧
    (preempt0.stk = 0 ∧ preempt0.victims = [⟨0, 0⟩] ∧ .hart ⟨0, 0⟩ ∈ preempt0.due ∧ { preempt0 with due := [] }.due = []) := by decide +kernel

def parkedAs (w : Wake) : State := { base with core := {}, parked := [⟨⟨0, 0⟩, 0, w, [], [], false, none, 0, none, [], [], none, none, false⟩] }

/-- The supervisor core of stack 0 beside two entries of its service queue; the task's frame says that it
single-stepped. -/
def serving : State :=
  { parkedAs (.resume 5 false) with
    service := [(0, [⟨⟨0, 0⟩, 0x100000⟩, ⟨⟨0, 3⟩, 0x110000⟩])]
    mem := { base.mem with cells := writeBytes base.mem.cells 0x100138 (bytesOf 8 0x21) } }

theorem witness_Waking :
    (let w : Waiting := ⟨0, 0x2000, 9, true⟩
     let c := { base.core with task := { base.core.task with waiting := some w } }
     let s := { base with core := c }
     s.findCore (.task ⟨0, 0⟩) = some c ∧ c.task.waiting = some w ∧ (s.farm? 0).isSome = true ∧ s.tiles.runs = [] ∧
     w.age < 8192000 ∧ 8192000 ≤ { w with age := 8192000 }.age) ∧
    (∀ w ∈ [Wake.waitObj 0x2000 9 true true, .waitObj 0x2000 9 true false, .resume 5 true, .resume 5 false],
      (parkedAs w).parked = [⟨⟨0, 0⟩, 0, w, [], [], false, none, 0, none, [], [], none, none, false⟩]) ∧
    (∃ c, serving.findCore (.sup 0) = some c ∧ c.sup.inh = false ∧ c.sup.halted = false) ∧
    (fget serving.service 0 [] = ⟨⟨0, 0⟩, 0x100000⟩ :: [⟨⟨0, 3⟩, 0x110000⟩] ∧ isOn serving.ursol (0 : Fin 8).val = true ∧
     isOn { serving.ursol with stackSts := [] } (0 : Fin 8).val = false) ∧
    (∃ u bs, ({ serving with service := finsert serving.service 0 [⟨⟨0, 3⟩, 0x110000⟩] } : State).frameRead ⟨0, 0⟩ 0x128 32 = (u, some bs) ∧
      wordAt bs 0x10 8 % 2 ^ 17 = 0x21) := by
  refine ⟨by decide +kernel, by decide +kernel, ?_, by decide +kernel, ?_⟩
  · obtain ⟨c, h⟩ : ∃ c, serving.findCore (.sup 0) = some c := Option.isSome_iff_exists.mp (by decide +kernel)
    have p : (serving.findCore (.sup 0)).map (fun c => (c.sup.inh, c.sup.halted)) = some (false, false) := by decide +kernel
    rw [h] at p
    exact ⟨c, h, by simpa using p⟩
  · exact ⟨_, List.replicate 16 0 ++ bytesOf 8 0x21 ++ List.replicate 8 0, eqPair (by decide +kernel), by decide +kernel⟩

/-! ### Links, the host and power -/

theorem witness_Links :
    edgeOf (0 : Fin 8).val (1 : Fin 4).val = none ∧ edgeOf (0 : Fin 8).val (0 : Fin 4).val = some 0 ∧
    1 ≤ ([1, 2] : List Byte).length ∧ ([1, 2] : List Byte).length ≤ 128 ∧ 128 ≤ (0x80 : Byte).toNat ∧ (0x80 : Byte).toNat < 255 ∧
    fget { base.ursol with qps := [(7, some ⟨.rts, 1, 2, 3, 1, 1024, 0, 0, true⟩)] }.qps 7 none = some ⟨.rts, 1, 2, 3, 1, 1024, 0, 0, true⟩ := by decide +kernel


/-- The host may reach 4 KiB at 0x3000 under the grants 77 and 78, and ring 7 has its last buffer free; the tables
that map ASID 1 stand above 4 MiB. -/
def hosting : State :=
  let s := holds base [(32, bytesOf 8 0x400001), (0x400000, bytesOf 8 0x402001), (0x402000, bytesOf 8 0x404001),
    (0x404000, bytesOf 8 (3 + 8 + 2 * 2 ^ 9)), (0x404008, bytesOf 8 (3 + 12 + 2 * 2 ^ 9 + 2 ^ 26))]
  { s with
    ursol := { s.ursol with
      rkeys := [(77, some ⟨1, 0x3000, 0x1000, true, true⟩), (78, some ⟨1, 0x3000, 0x1000, true, true⟩)]
      qps := [(7, some ⟨.rts, 1, 2, 3, 1, 1024, 0, 0, true⟩), (8, some ⟨.rtr, 1, 2, 3, 1, 1024, 0, 0, true⟩)]
      rings := [(7, some ⟨1, 0x5000, 64, 4, 3, 2, 0x8000000⟩)], physRegion := some 5 } }

theorem hostPiece {s : State} {asid : BitVec 14} {k : AccKind} {va n pa : Nat}
    (a : (hostPieces asid k (piecesOf va n) s).1 = s)
    (h : ((hostPieces asid k (piecesOf va n) s).2.map fun l => l.map fun p => (p.pa, p.n)) = some [(pa, n)]) :
    ∃ w, hostPieces asid k (piecesOf va n) s = (s, some [⟨pa, n, w⟩]) := by
  generalize hostPieces asid k (piecesOf va n) s = r at a h
  obtain ⟨x, y⟩ := r
  obtain rfl : x = s := a
  match y, h with
  | some [⟨p, m, w⟩], h =>
    simp at h
    obtain ⟨rfl, rfl⟩ := h
    exact ⟨w, rfl⟩

theorem witness_HostAccesses :
    (base.ursol.boot = .up ∧ (0x1FFF8 : W64).toNat + ([1, 2, 3, 4, 5, 6, 7, 8] : List Byte).length ≤ 0x20000 ∧
     0x21028 < (0x21028 : W64).toNat + ([1] : List Byte).length ∧
     (0x20100 ≤ (0x20178 : W64).toNat ∧ (0x20178 : W64).toNat + 8 ≤ 0x20180 ∧ (0x20178 : W64).toNat % 8 = 0) ∧ 0x20180 < (0x20179 : W64).toNat + 8) ∧
    (∃ rkey, rkey ≠ Config.hubRkey.toNat ∧ fget base.ursol.rkeys rkey none = none ∧
      fget hosting.ursol.rkeys rkey none = some ⟨1, 0x3000, 0x1000, true, true⟩) ∧
    (0x3000 ≤ (0x3FF8 : W64).toNat ∧ (0x3FF8 : W64).toNat + 8 ≤ 0x3000 + 0x1000 ∧ 0x3FF8 % 64 + 8 ≤ 64 ∧ NoCopies hosting.mem) ∧
    (∃ w, hostPieces 1 .engineWrite (piecesOf 0x3FF8 8) hosting = (hosting, some [⟨0x3FF8, 8, w⟩])) ∧
    (∃ w, hostPieces 1 .engineRead (piecesOf 0x3FF8 8) hosting = (hosting, some [⟨0x3FF8, 8, w⟩])) ∧
    (fget hosting.ursol.qps 7 none = some ⟨.rts, 1, 2, 3, 1, 1024, 0, 0, true⟩ ∧ fget hosting.ursol.qps 8 none = some ⟨.rtr, 1, 2, 3, 1, 1024, 0, 0, true⟩ ∧
     fget hosting.ursol.rings 8 none = none ∧ fget hosting.ursol.rings 7 none = some ⟨1, 0x5000, 64, 4, 3, 2, 0x8000000⟩ ∧
     homeStack hosting 1 0x8000000 = none ∧ 64 < 65 ∧ 0x50C0 % 64 + 64 ≤ 64) ∧
    (∃ w, hostPieces 1 .engineWrite (piecesOf (0x5000 + 3 * 64) 64) hosting = (hosting, some [⟨0x50C0, 64, w⟩])) ∧
    (base.ursol.physRegion = none ∧ hosting.ursol.physRegion.isSome = true ∧ hostReaches hosting.ursol 0x3FF8 = true ∧
     linePoisoned hosting.mem (0x3FF8 / 64) = false) := by
  refine ⟨by decide +kernel, ?_, by decide +kernel, hostPiece (by decide +kernel) (by decide +kernel), hostPiece (by decide +kernel) (by decide +kernel),
    by decide +kernel, hostPiece (by decide +kernel) (by decide +kernel), by decide +kernel⟩
  by_cases h : (77 : Nat) = Config.hubRkey.toNat
  · exact ⟨78, by omega, by decide +kernel, by decide +kernel⟩
  · exact ⟨77, h, by decide +kernel, by decide +kernel⟩

theorem witness_Power :
    (∀ b ∈ [Boot.powered, .unpowered, .recovery, .up], { base.ursol with boot := b }.boot = b) ∧
    (let u := { base.ursol with trip := 95, temp := 96 }
     u.trip < u.temp ∧ u.hold = false ∧ u.switching = false ∧ u.boot ≠ .unpowered) ∧
    (let u := { base.ursol with trip := 95, temp := 95 }; u.temp ≤ u.trip) ∧ { base.ursol with switching := true }.switching = true ∧
    (let s := { base with ursol := { base.ursol with stackSts := [(0, .idle)], waking := [(0, 10000)] } }
     fget s.ursol.waking (0 : Fin 8).val 0 = 10000 ∧ s.now < 10000 ∧ stackState s.ursol (0 : Fin 8).val = .idle) := by decide +kernel

/-- Legal arguments of every command but two, and the arguments it takes. -/
theorem witness_HostCommands :
    (base.ursol.boot = .up ∧ base.ursol.switching = false ∧ State.reset.ursol.boot ≠ .up ∧ { base.ursol with switching := true }.switching = true) ∧
    (let a := fun (l : List W64) (k : Nat) => (l.getD k 0).toNat
     (1 ≤ [3].length ∧ a [3] 0 ≤ 3 ∧ ¬ a [4] 0 ≤ 3) ∧ (a [7, 3] 0 ≤ 7 ∧ a [7, 3] 1 ≤ 3) ∧ (a [4, 1, 1] 0 ≤ 4 ∧ a [4, 1, 1] 1 ≤ 1) ∧ (a [7, 63] 0 ≤ 7 ∧ a [7, 63] 1 ≤ 63) ∧
     (85 ≤ a [85] 0 ∧ a [105] 0 ≤ 105 ∧ ¬ 85 ≤ a [84] 0) ∧ (isDram (a [0x80000] 0) = true ∧ a [0x80000] 0 % 2 ^ 19 = 0) ∧
     (16 ≤ a [63, 1, 16383, 31] 0 ∧ a [63, 1, 16383, 31] 0 ≤ 63 ∧ a [63, 1, 16383, 31] 1 ≤ 1 ∧ a [63, 1, 16383, 31] 2 ≤ 16383 ∧ a [63, 1, 16383, 31] 3 ≤ 31) ∧
     (let l := [4095, 4, 1, 2, 3, 3, 4096, 5, 6, 1]; l.length = 10 ∧ a l 0 ≤ 4095 ∧ a l 1 ≤ 4 ∧ a l 5 ≤ 3 ∧ a l 6 = 4096 ∧ a l 9 ≤ 1) ∧
     (let l := [510, 1, 3, 4095, 5, 6, 1]; 1 ≤ a l 0 ∧ a l 0 ≤ 510 ∧ a l 1 ≤ 1 ∧ a l 2 ≤ 3 ∧ a l 3 ≤ 4095 ∧ a l 5 < 2 ^ 32 ∧ a l 6 ≤ 1) ∧
     (let l := [0, 16383, 0x10000, 0x10000, 3]; a l 0 = 0 ∧ a l 1 ≤ 16383 ∧ a l 2 % 65536 = 0 ∧ a l 3 % 65536 = 0 ∧ 1 ≤ a l 4 ∧ a l 4 ≤ 3) ∧
     (a [1, 77] 0 = 1 ∧ (fget hosting.ursol.rkeys (a [1, 77] 1) none).isSome = true) ∧
     (let l := [4095, 16383, 0x5000, 64, 4, 0x2000]; a l 0 ≤ 4095 ∧ a l 1 ≤ 16383 ∧ a l 3 % 64 = 0 ∧ a l 5 % 16 = 0) ∧
     (let l := [7, 15, 0x40, 65535, 1]; a l 0 ≤ 7 ∧ a l 1 ≤ 15 ∧ isDram (a l 2) = true ∧ a l 2 % 64 = 0 ∧ a l 3 ≤ 65535 ∧ a l 4 ≤ 1) ∧
     (isDram (a [0x1000, 64] 0) = true ∧ a [0x1000, 64] 0 % 4096 = 0 ∧ 6 ≤ 20 ∧ a [0x1000, 64] 1 = 2 ^ 6) ∧
     (base.farm? 0 = some demoFarm ∧ demoFarm.st ≠ .closing ∧ demoFarm.lrec.asid.toNat = a [1, 0x1000] 0 ∧ demoFarm.lrec.done.toNat = a [1, 0x1000] 1) ∧
     ((edgeOf (a [0, 3] 0) (a [0, 3] 1)).isSome = true ∧ edgeOf (a [0, 1] 0) (a [0, 1] 1) = none)) ∧
    (0x13 < (0x14 : W32).toNat ∧ ({ base.ursol with hold := true, temp := 91 }.trip - 5 < 91 ∧ base.ursol.temp ≤ base.ursol.trip - 5 ∧ base.ursol.grade.val = 0)) ∧
    (stackState base.ursol 0 = .on ∧ stackState base.ursol 1 = .gate ∧ fget base.ursol.waking 1 0 = 0 ∧
     (∃ f ∈ base.drover.farms, f.2.st = .running ∧ 0 ∈ f.2.lrec.rect) ∧ (∀ f ∈ base.drover.farms, f.2.st = .running → 1 ∉ f.2.lrec.rect) ∧
     base.dram.banks = [] ∧ base.dram.cmds = []) ∧
    ((State.reset.queue 16).recs = [] ∧ ((launched 63 0x8000 1 1).queue 63).recs ≠ [] ∧ (∀ k, k < 8 → stackState State.reset.ursol k ≠ .on)) ∧
    (∀ f ∈ base.drover.farms, f.2.st = .running → routeHasEdge f.2.lrec.route 0 = false) :=
  ⟨by decide +kernel, by decide +kernel, by decide +kernel, by decide +kernel, by decide +kernel, by decide +kernel⟩

/-! ### Encodings and steps -/

theorem witness_ScalarEncoding : (Instr.fshl 1 2 3 63).WellFormed ∧ (encode (.fshl 1 2 3 63)).isSome = true ∧ ((encode (.fshl 1 2 3 63)).map (·.1)) = some 32 := by
  decide +kernel

theorem witness_ElementEncoding : vaddI.WellFormed ∧ (encode vaddI).map (·.1) = some 64 := by decide +kernel

/-- ADD x1, x2, x3 stands at the pc. -/
def fetching (w : Nat) : State := base.withFetchWord 32 w

theorem witness_StepRunsDecoded :
    (∀ q ∈ [(0x00062081, some (Instr.add 1 2 3)), (0x0000007F, none)],
      let s := fetching q.1
      s.sched = [] ∧ s.coreRuns = true ∧ s.joinWait.isNone = true ∧ NoBlock s ∧ okVal (coreFetch s s.core.pc 4) = some q.1 ∧
      (match q.2 with
       | some i => okIs (decodeS q.1) i
       | none => (match decodeS q.1 with
         | .ok _ => false
         | .error _ => true)) = true) ∧
    (let s := { base with mem := { base.mem with tlb := [] } }
     s.coreRuns = true ∧ s.joinWait.isNone = true ∧ (okVal (coreFetch s s.core.pc 4)).isNone = true) ∧
    (let s := base.withFetchWord 64 vaddW.toNat
     s.sched = [] ∧ s.coreRuns = true ∧ s.joinWait.isNone = true ∧ (s.core.task.block.map (·.words)) = some [vaddW] ∧ okIs (decodeE vaddW.toNat) vaddI = true) ∧
    (inBlock.core.task.block = some ⟨0x4000100, 0x4000100, [], []⟩ ∧ okVal (coreFetch (convoy 1) 0x4000100 8) = some vaddW.toNat ∧ isStopOp vaddW = false) ∧
    (let s := { base with sched := [⟨5, .step .farmSlotAssign⟩] }
     s.sched = ⟨5, .step .farmSlotAssign⟩ :: [] ∧ encode .farmSlotAssign = none ∧ (({ s with sched := [] } : State).advance 5).eventRuns .farmSlotAssign = true) := by
  decide +kernel

theorem witness_InvStep : Inv base ∧ (after (step (fetching 0x00062081)) fun t => Memory.wf t.mem.cells) = some true ∧ Inv (fetching 0x00062081) := by
  decide +kernel


/-! ### Further clauses of the statements above -/

theorem witness_ConvoyCheck_fault :
    (unmapped inBlock).core.task.block = some ⟨0x4000100, 0x4000100, [], []⟩ ∧
    ∃ u f, coreFetch (unmapped inBlock) (0x4000100 + BitVec.ofNat 56 (8 * 0)) 8 = (u, .error f) := by
  refine ⟨by decide +kernel, ?_⟩
  obtain ⟨f, h⟩ := errAt (r := coreFetch (unmapped inBlock) (0x4000100 + BitVec.ofNat 56 (8 * 0)) 8) rfl (by decide +kernel)
  exact ⟨_, f, h⟩

theorem witness_WalksAndShootdowns_waiting :
    let m := { base.mem with walks := [miss0], walkWait := [miss0] }
    (∀ w ∈ base.mem.walkWait, w.stk ≠ (0 : Fin 8)) ∧ m.walkWait = miss0 :: [] ∧ miss0.stk = 0 ∧ outstanding { m with walks := [] } 0 < 256 ∧ NoCopies m := by
  decide +kernel

theorem witness_LaunchRecords_ports :
    (base.ursol.boot = .up ∧ { base.ursol with boot := .powered }.boot ≠ .up) ∧
    (let s := unmapped (launched 63 0x8000 63 1)
     (s.queue 63).recs.length < 64 ∧ s.eng.launches = launchHdr 63 :: [] ∧
     ∃ u e, { s with eng := { s.eng with launches := [] } }.opRead (launchHdr 63) (launchHdr 63).va 128 = (u, .error e)) ∧
    ({ launchHdr 63 with obj := none }.obj = none) := by
  refine ⟨by decide +kernel, ⟨by decide +kernel, by decide +kernel, ?_⟩, by decide +kernel⟩
  obtain ⟨f, h⟩ := errAt (r := { unmapped (launched 63 0x8000 63 1) with eng := { (unmapped (launched 63 0x8000 63 1)).eng with launches := [] } }.opRead (launchHdr 63) (launchHdr 63).va 128) rfl (by decide +kernel)
  exact ⟨_, f, h⟩

/-- Records at the head of a host queue, of queue 20 of the same priority served last, and of queue 30 of a lower one. -/
def queued : State :=
  { base with drover := { base.drover with
      lastServed := [(4, 20)]
      queues := [(3, ⟨none, [{ demoRec with prio := 4 }], true⟩), (20, ⟨some (1, 4), [{ demoRec with prio := 9 }], false⟩), (30, ⟨some (1, 3), [{ demoRec with prio := 9 }], false⟩)] } }

/-- A state with a farm in each slot of a list. -/
def crowded (l : List Nat) : State := { base with drover := { base.drover with farms := l.map fun j => (j, demoFarm) } }

theorem crowded_full (l : List Nat) (j : Nat) (h : j ∈ l) : ((crowded l).farm? j).isSome = true := by
  change (flook (l.map fun k => (k, demoFarm)) j).isSome = true
  induction l with
  | nil => simp at h
  | cons a l ih =>
    simp only [List.map_cons, flook]
    split
    · rfl
    · rename_i g
      exact ih ((List.mem_cons.mp h).resolve_left fun e => g e.symm)

theorem witness_FarmLife_queues :
    (queued.headOf 3 = some ({ demoRec with prio := 4 }, 4) ∧ queued.headOf 20 = some ({ demoRec with prio := 9 }, 4) ∧
     queued.headOf 30 = some ({ demoRec with prio := 9 }, 3) ∧ fget queued.drover.lastServed 4 63 = 20 ∧
     (∀ p : Fin 64, p.val ≠ 3 → ∀ q ∈ queued.headOf p.val, q.2 < 4 ∨ (q.2 = 4 ∧ (3 + 63 * (20 + 1)) % 64 < (p.val + 63 * (20 + 1)) % 64)) ∧
     queued.farm? 1 = none ∧ (∀ j, j < 1 → (queued.farm? j).isSome = true) ∧ (queued.queue 40).recs = []) ∧
    ∀ j, j < 1024 → ((crowded (List.range 1024)).farm? j).isSome = true :=
  ⟨by decide +kernel, fun j h => crowded_full _ j (List.mem_range.mpr h)⟩

/-- A farm on stacks 0 and 1 waits, both on, and the edge between them is down. -/
def wideFarm : Farm := { waitingFarm with lrec := { waitingFarm.lrec with xhi := 1 } }
def untrained : State :=
  { withFarm wideFarm with ursol := { (withFarm wideFarm).ursol with stackSts := [(0, .on), (1, .on)], edgeDown := [(0, true)] } }

theorem witness_FarmLife_routes :
    (untrained.farm? 2 = some wideFarm ∧ wideFarm.lrec.smaxb ≤ untrained.ursol.cap.maxb ∧ untrained.ursol.cap.e16 = true ∧ untrained.ursol.cap.a32 = true ∧
     (∀ k ∈ wideFarm.lrec.rect, stackState untrained.ursol k = .on) ∧ fget untrained.drover.routes wideFarm.lrec.route false = false ∧
     edgeOf 0 0 = some 0 ∧ routeHasEdge wideFarm.lrec.route 0 = true ∧ fget untrained.ursol.edgeDown 0 false = true ∧
     wideFarm.donePa = some 0x2000 ∧ wideFarm.lrec.trig = 0 ∧ ObjHome untrained 0x2000) ∧
    fget { untrained.drover with routes := [(wideFarm.lrec.route, true)] }.routes wideFarm.lrec.route false = true ∧
    (let f := { waitingFarm with lrec := { waitingFarm.lrec with trig := 0x3000 }, st := .running, trigSignalled := true, ended := [0, 2, 1] }
     let s := withFarm f
     s.farm? 2 = some f ∧ f.st = .running ∧ f.ended.length = f.lrec.tasks ∧ s.opHdrs = [] ∧ f.donePa = some 0x2000 ∧ f.trigSignalled = true ∧
     ObjHome s 0x2000 ∧ f.discarded = []) := by decide +kernel

theorem witness_Placing_frames :
    ((⟨2, 1⟩ : TaskId) ≠ ⟨0, 0⟩ ∧ urgent.isEnding ⟨0, 0⟩ = false ∧ (urgent.unseat ⟨0, 0⟩ urgent.core.pc 0 0).2 = true ∧
     ((unmapped urgent).unseat ⟨0, 0⟩ urgent.core.pc 0 0).2 = false) ∧
    FrameReady urgent ⟨0, 0⟩ (demoLeaf 0 2) :=
  ⟨by decide +kernel, frame_ready _ _ rfl rfl rfl (by decide +kernel) (by decide +kernel) (by decide +kernel)⟩

theorem witness_Waking_frames :
    (base.isEnding ⟨0, 0⟩ = false ∧ (base.unseat ⟨0, 0⟩ base.core.pc 0 0).2 = true ∧ ((unmapped base).unseat ⟨0, 0⟩ base.core.pc 0 0).2 = false) ∧
    FrameReady base ⟨0, 0⟩ (demoLeaf 0 2) ∧
    (let s := parkedAs (.resume 5 false)
     ∀ c ∈ s.findCore (.sup 0), { c.sup with inh := true }.inh = true ∧ { c.sup with halted := true }.halted = true) ∧
    (∃ u bs, (({ serving with service := finsert serving.service 0 [⟨⟨0, 3⟩, 0x110000⟩] } : State).mapCore (.sup 0)
        fun d => { d with epc := d.pc, cause := 0x0030, info := 0x100000 }).frameRead ⟨0, 0⟩ 0x128 32 = (u, some bs) ∧ wordAt bs 0x10 8 % 2 ^ 17 = 0x21) :=
  ⟨by decide +kernel, frame_ready _ _ rfl rfl rfl (by decide +kernel) (by decide +kernel) (by decide +kernel), by decide +kernel,
    _, List.replicate 16 0 ++ bytesOf 8 0x21 ++ List.replicate 8 0, eqPair (by decide +kernel), by decide +kernel⟩

def linked (port : BitVec 2) (f2f : Bool) (st : QpSt) : State :=
  { base with ursol := { base.ursol with qps := [(7, some ⟨st, 1, 2, 3, port.toNat, 1024, 0, 0, f2f⟩)] } }

theorem witness_Links_ports :
    (portTakes base.ursol (.mesh 0) 1 = false ∧ portTakes { base.ursol with stackSts := [(0, .on), (1, .selfRefresh)] } (.mesh 0) 0 = true ∧
     portTakes base.ursol (.mesh 0) 0 = false ∧ portTakes base.ursol .hub 0 = true ∧ portTakes base.ursol .hub 2 = false ∧
     portTakes (linked 1 true .rts).ursol (.ether 7) 1 = true ∧ portTakes (linked 1 false .rts).ursol (.ether 7) 1 = false ∧
     portTakes { base.ursol with edgeDown := [(0, true)] } (.mesh 0) 0 = false) ∧
    ((List.replicate 128 (0 : Byte)).length ≤ 128 ∧ (0x80 : Byte).toNat - 128 + 4 = (4 : BitVec 13).toNat ∧ (0xFE : Byte).toNat < 255) := by decide +kernel

/-- The farms are no more, and stack 0 is in some state. -/
def lone (st : StackSt) : State :=
  { base with drover := { base.drover with farms := [] }, ursol := { base.ursol with stackSts := [(0, st)], waking := [] } }

theorem witness_Power_wake :
    (let s := { lone .idle with ursol := { (lone .idle).ursol with waking := [(0, 10000)] }, now := 10000 }
     fget s.ursol.waking (0 : Fin 8).val 0 = 10000 ∧ 10000 ≤ s.now ∧ stackState s.ursol (0 : Fin 8).val = .idle) ∧
    { base.ursol with hold := true }.hold = true := by decide +kernel

theorem witness_HostCommands_stacks :
    (∀ q ∈ [(StackSt.on, StackSt.idle), (.on, .selfRefresh), (.on, .gate), (.idle, .gate), (.idle, .selfRefresh), (.gate, .idle)],
      stackState (lone q.1).ursol 0 = q.1 ∧ q.1 ≠ q.2 ∧ q.2 ≠ .on ∧ portsNeeded (lone q.1).ursol 0 = false ∧
      ∀ f ∈ (lone q.1).drover.farms, f.2.st = .running → 0 ∉ f.2.lrec.rect) ∧
    (∃ k : Fin 8, ∃ j : Fin 8, portsNeeded { base.ursol with stackSts := [(k.val, .idle), (j.val, .on)] } k.val = true ∧
      stackState { base.ursol with stackSts := [(k.val, .idle), (j.val, .on)] } k.val = .idle) ∧
    (∀ q ∈ [(StackSt.gate, 2000000), (.selfRefresh, 50000), (.idle, 10000)], 0 < q.2 ∧
      stackState (lone q.1).ursol 0 = q.1 ∧ fget (lone q.1).ursol.waking 0 0 = 0) ∧
    ({ base.ursol with hold := true, temp := 90 }.temp ≤ base.ursol.trip - 5 ∧ base.ursol.grade.val ≠ 1) := by decide +kernel

/-- The words of a block: VADD, what is no instruction, STOP. -/
def inStream (x : W64) : State := task base fun t => { t with block := some ⟨0x4000100, 0x4000108, [x, 1], []⟩ }

theorem witness_StepRunsDecoded_streams :
    -- an illegal word beside a running block, and at its side a task that awaits an operation
    (let s := { fetching 0x0000007F with core := { (fetching 0x0000007F).core with task := inBlock.core.task } }
     s.coreRuns = true ∧ s.joinWait.isNone = true ∧ s.core.task.entryHigh = 0 ∧ okVal (coreFetch s s.core.pc 4) = some 0x7F ∧
     s.core.task.block = some ⟨0x4000100, 0x4000100, [], []⟩ ∧ s.core.id.isTask = true) ∧
    (let s := task base fun t => { t with entryHigh := 0x80 }
     s.coreRuns = true ∧ s.joinWait.isNone = true ∧ s.core.task.entryHigh ≠ 0) ∧
    (let s := task base fun t => { t with joinOp := some ⟨9, 0x4000000, none⟩ }
     s.coreRuns = true ∧ s.joinWait.isSome = true) ∧
    (inBlock.coreRuns = true ∧ inBlock.joinWait.isNone = true ∧ (unmapped inBlock).coreRuns = true ∧ (unmapped inBlock).joinWait.isNone = true ∧
     (okVal (coreFetch (unmapped inBlock) 0x4000100 8)).isNone = true) ∧
    (let s := holds inBlock [(0x4000100, bytesOf 8 1)]
     okVal (coreFetch s 0x4000100 8) = some 1 ∧ isStopOp 1 = true ∧ okIs (decodeE 1) (.stop false) = true) ∧
    ((inStream vaddW).core.task.block = some ⟨0x4000100, 0x4000108, [vaddW, 1], []⟩ ∧ okIs (decodeE vaddW.toNat) vaddI = true ∧
     (match decodeE 0xFF with
      | .ok _ => false
      | .error _ => true) = true) := by decide +kernel

theorem witness_StepRunsDecoded_schedule :
    (let s := { base with sched := [⟨5, .core (.task ⟨0, 0⟩) .scalar⟩] }
     (({ s with sched := [] } : State).advance 5).focus (.task ⟨0, 0⟩) = some (({ s with sched := [] } : State).advance 5) ∧
     ((({ s with sched := [] } : State).advance 5).focus (.task ⟨9, 0⟩)).isNone = true) ∧
    (let s := { base with ursol := { base.ursol with switching := true } }
     s.coreRuns = false ∧ s.eventRuns (.readyTaskCreate 0) = false) ∧
    (encode (.readyTaskCreate 0) = none ∧ base.eventRuns (.readyTaskCreate 0) = true) ∧
    (base.drover.ending = [] ∧ base.mem.ring = none ∧ base.mem.fits = true) := by decide +kernel

/-- The leaf of data, and the one of code, stand in the TLB of the task's own cluster. -/
theorem witness_AddressFaults_leaves :
    let at' := fun (v : Nat) => near (regs base [(2, BitVec.ofNat 64 v)])
    let code := { near base with mem := { base.mem with tlb := [{ demoLeaf 1 3 with unit := .svp }] } }
    (tlbFind (at' 0x2009).mem (at' 0x2009).core.xctx.stk (at' 0x2009).core.xctx.unit (at' 0x2009).core.xctx.asid 0x2009 =
        some { demoLeaf 0 2 with unit := .svp } ∧ (at' 0x2009).core.reg 2 = 0x2009 ∧
      ∀ k ∈ [AccKind.load, .store, .atomic], pteAllows (demoLeaf 0 2).pte (leafPa (demoLeaf 0 2) 0x2009) (at' 0x2009).core.xctx k = true) ∧
    (tlbFind code.mem code.core.xctx.stk code.core.xctx.unit code.core.xctx.asid 0x4000000 = some { demoLeaf 1 3 with unit := .svp } ∧
      ∀ k ∈ [AccKind.store, .atomic], pteAllows (demoLeaf 1 3).pte (leafPa (demoLeaf 1 3) 0x4000000) code.core.xctx k = false) := by
  decide +kernel

/-- Watched accesses of the other kinds, and instructions that single-step. -/
theorem witness_DebugTraps_kinds :
    (∃ u, coreLoad (watching 1) (effAddr (watching 1) 2 .d 0) (sizeBytes .d) .dflt true = (u, .ok 0)) ∧
    (∃ u, releaseStore (watching 2) (effAddr (watching 2) 2 .d 0) (sizeBytes .d) 5 .dflt .pkg = (u, .done)) ∧
    (let s := near (watching 1)
     ∃ ms t u, checkAccess s (s.core.reg 2) (sizeBytes .d) .atomic .dflt false = (ms, .ok t) ∧
       coreAtomic { s with mem := releaseAt ms s.core.agent .plain } (s.core.reg 2) (sizeBytes .d) (.amo .add (s.core.reg 3)) .auto false = (u, .ok 0)) ∧
    (let s := task (regs base [(2, 0x2008), (4, 0x4000100)]) fun t => { t with step := true }
     s.core.task.step = true ∧ s.core.task.joinOp = none ∧ s.core.task.buf = [] ∧ s.core.task.sjoin = false ∧
     (∀ i ∈ [Instr.ld 3 2 .d .dflt 0, .st 3 2 .d .dflt 0, .scommit 3, .cwr 3 8],
        after (exec i (stepOff s)) (fun t => (t.core.id, t.core.pc)) = some (s.core.id, s.core.pc + 4)) ∧
     (let t := BitVec.ofInt 64 (((s.core.reg 4).toNat : Int) + (0 : BitVec 15).toInt); t.toNat % 4 = 0 ∧ t.toNat < 2 ^ 56)) ∧
    (let s := task lanes fun t => { t with step := true }
     s.core.task.block = some ⟨0x4000100, 0x4000108, [7, 8], [(1, 9)]⟩ ∧
     after (exec (.vadd ⟨false, 0⟩ .i32 (.vec 2 .row 0) (.vec 0 .row 0) (.vec 1 .row 0) false) (stepOff s)) (fun t => (t.core.id, t.core.task.block)) =
       some (s.core.id, some ⟨0x4000100, 0x4000110, [8], [(1, 9)]⟩)) :=
  ⟨okSome (by decide +kernel), ⟨_, eqPair (by decide +kernel)⟩,
    ⟨_, _, _, okWith (by decide +kernel : okVal _ = some (Target.mem 0x2008 .wt)), okWith (by decide +kernel)⟩, by decide +kernel, by decide +kernel⟩

theorem witness_RefreshPhaseWord_before : base.sinceTick0 < 60 * 63 ∧ (63 : Nat) < 64 := by decide +kernel

/-- The bank of the row at 0x20000, in some state at some time; the banks of its column are in their window at 0. -/
def rowAt (k : Bank) (now : Nat) : State := { rowPage.setBank (bankOf 0x20000) k with now := now }

theorem witness_RowActivation_defers :
    let b := bankOf 0x20000
    let free := fun (s : State) => s.inRefresh b = false ∧ s.refreshWithin b 32 = false
    let hits := fun (s : State) => (s.bank b).active = true ∧ (s.bank b).row = rowOf 0x20000 ∧ (s.bank b).asid = some s.core.asid ∧ (s.bank b).closing = false
    (let s := rowAt {} 3900; s.inRefresh b = true ∧ ¬ hits s) ∧
    (let s := rowAt {} 3880; s.inRefresh b = false ∧ s.refreshIn b = some 20 ∧ (20 : Nat) < 32 ∧ ¬ hits s) ∧
    (let s := rowAt { st := .ref, tIn := 600 } 1000; free s ∧ (s.bank b).st = .ref ∧ ¬ hits s) ∧
    (let s := rowAt { st := .close, tIn := 990 } 1000; free s ∧ (s.bank b).st = .close ∧ ¬ hits s) ∧
    (let s := rowAt ⟨.open, 9, none, 0, 5, false, true, 16, []⟩ 20; free s ∧ (s.bank b).active = true ∧ (s.bank b).byFold = true ∧ ¬ hits s) ∧
    (let s := rowAt ⟨.open, 9, some 1, 0, 5, false, false, 16, []⟩ 20; free s ∧ (s.bank b).active = true ∧ (s.bank b).byFold = false ∧ ¬ hits s) ∧
    (let s := { rowAt {} 1000 with dram := { (rowAt {} 1000).dram with acts := List.replicate 8 (16 * b.stk.val + b.layer.val, 990) } }
     free s ∧ (s.bank b).st = .idle ∧ s.budget b = 990 :: List.replicate 7 990 ∧ ¬ hits s) := by decide +kernel

/-- The tile's TLB holds a page of rows at 0x20000, and at 0x4000000 one that is not; v is in x2 and tile n in x3. -/
def rowWith (v : W64) (n : Nat) : State := regs rowPage [(2, v), (3, BitVec.ofNat 64 n)]

/-- The same with pages that are not of rows. -/
def plainPages (s : State) : State := { s with mem := { s.mem with tlb := base.mem.tlb.map fun e => { e with unit := .tile 0 } } }

def rowAnswer (s : State) (v : W64) : Option Nat :=
  match (translate s.mem s.ursol { s.core.xctx with unit := .tile (Fin.ofNat 64 (s.core.reg 3).toNat) } v .load).2 with
  | .ok (.leaf pa pte) => some (pa + if pteRow pte then 1 else 0)
  | .ok (.scratch _) => some 2
  | .error f => some (f.code * 16 + 3)


/-- The conditions of ROWCON's first failing check, for a row command on x2 and x3. -/
def badR (s : State) (w : Bool) : List Bool :=
  let bk := (handleOf (s.core.reg 2)).bank s.core.stack
  let k := s.bank bk
  let tag := (handleOf (s.core.reg 2)).tag
  [s.columnFenced bk, tag == 0, tag != k.tag, k.asid != some s.core.asid, k.lost, k.closing || !k.active, !w && k.st == .act]

theorem witness_RowFaults :
    (NoBlock rowPage ∧ NamesObject rowPage 0 none ∧ 64 ≤ ((rowWith 0 64).core.reg 3).toNat ∧ handleClean 0x4000 = false ∧ handleClean (atRow.core.reg 2) = true) ∧
    (rowAnswer (rowWith (2 ^ 56) 0) (2 ^ 56) = some (0x0008 * 16 + 3) ∧ rowAnswer (rowWith (BitVec.ofNat 64 scratchBase) 0) (BitVec.ofNat 64 scratchBase) = some 2 ∧
     rowAnswer (rowWith 0x20008 0) 0x20008 = some 0x20009 ∧ rowAnswer (plainPages (rowWith 0x20000 0)) 0x20000 = some 0x20000 ∧
     rowAnswer (rowWith 0x20800 0) 0x20800 = some 0x20801 ∧ 0x20800 / 2 ^ 11 % 64 ≠ 0 ∧
     isFenced { rowPage.ursol with fenced := [(columnOf 0x20000, true)] } 0x20000 = true) ∧
    (let k : Bank := ⟨.open, 9, some 1, 0, 5, false, false, 0, []⟩
     let on := fun (k : Bank) => atRow.setBank ⟨0, 0, 1⟩ k
     failsAt (badR { atRow with ursol := { atRow.ursol with fenced := [(columnOf 0x20000, true)] } } false) 0 = true ∧
     failsAt (badR (regs atRow [(2, 2 ^ 16)]) false) 1 = true ∧ failsAt (badR (regs atRow [(2, 4 * 2 ^ 32 + 2 ^ 16)]) false) 2 = true ∧
     failsAt (badR (on { k with asid := some 2 }) false) 3 = true ∧ failsAt (badR (on { k with lost := true }) false) 4 = true ∧
     failsAt (badR (on { k with closing := true }) false) 5 = true ∧ failsAt (badR (on { k with st := .act }) false) 6 = true) := by
  decide +kernel

/-- A square the task does not have, an odd index of a 64-bit pair, and an unbound record. -/
theorem witness_MissingOperands :
    (task lanes fun t => { t with sq := 16 }).core.task.sq ≤ (16 : SqNo).val ∧ (Ty.is64 .i64 = true ∧ (1 : Fin 32).val % 2 = 1) ∧ (fget lanes.core.task.streams 0 {}).bound = false := by
  decide +kernel

/-- The checks of CrookIssue on values of the operands, each the first that fails. -/
theorem witness_CrookIssue_refuses :
    let ins := fun (w x : Nat) (isTask : Bool) => [decide (5 ≤ w), decide (1 ≤ w ∧ w ≤ 3 ∧ isTask = true), decide (if w = 1 ∨ w = 2 then x % 4096 ≠ 0 else x ≠ 0)]
    let pins := fun (v w : Nat) => [decide (v % 4 ≠ 0), decide (w = 0 ∨ 65535 < w)]
    let app := fun (v x : Nat) => [decide (2 ^ 21 ≤ v ∨ v / 2 ^ 13 % 8 ≠ 0 ∨ v / 2 ^ 6 % 4 ≠ 0 ∨ 2 ^ 60 ≤ x), decide (capped.core.task.sq ≤ v % 64)]
    (1 : Nat) % 32 ≠ 0 ∧ (failsAt (ins 5 0 true) 0 ∧ failsAt (ins 1 0 true) 1 ∧ failsAt (ins 1 1 false) 2 ∧ failsAt (ins 4 1 true) 2) ∧
    (failsAt (pins 1 0) 0 ∧ failsAt (pins 4 0) 1 ∧ failsAt (pins 4 65536) 1) ∧ (failsAt (app (2 ^ 21) 0) 0 ∧ failsAt (app 63 0) 1) := by decide +kernel

/-- Records that fail check 3 by themselves, by their cursor, and with no KV space; one that fails check 4; a save to memory. -/
theorem witness_StreamBinding_checks :
    (let bad := fun (v : Nat) => v / 2 ^ 60 % 2 ^ 4 ≠ 0 ∨ v / 2 ^ 97 % 2 ^ 31 ≠ 0 ∨ v / 2 ^ 451 % 2 ^ 61 ≠ 0 ∨ 256 < (StreamRec.ofNat v).rad.toNat ∨
       (StreamRec.ofNat v).fin.toNat < (StreamRec.ofNat v).cur.toNat % 2 ^ 24
     bad (streamNat + 2 ^ 451) ∧ bad 1 ∧ ¬ bad streamNat) ∧
    (let d := (okVal (binding.kvDesc binding.core.stack binding.core.asid)).getD default
     (okVal (binding.kvDesc binding.core.stack binding.core.asid)).isSome = true ∧ d.nseq ≤ (2 ^ 59) / 2 ^ 40 % 2 ^ 20 ∧
     ¬ (d.nseq ≤ 0 / 2 ^ 40 % 2 ^ 20 ∨ d.nl ≤ 0 / 2 ^ 32 % 2 ^ 8 ∨ d.nh ≤ 0 / 2 ^ 24 % 2 ^ 8) ∧
     (task binding fun t => { t with stg := 1 }).core.task.stg < 2 * boundWith binding.core.task (Fin.ofNat 4 3)) ∧
    (∃ u e, lost.kvDesc lost.core.stack lost.core.asid = (u, .error e)) ∧
    (∃ u g, coreLoad { binding with mem := { binding.mem with tlb := [] } } 0x3000 64 .dflt false = (u, .error g)) ∧
    (let s := regs binding [(4, 0x3040)]
     ((s.core.reg 4).toNat < scratchBase ∧ (s.core.reg 4).toNat % 64 = 0 ∧ NoCopies s.mem) ∧
     ∃ ms, checkAccess s (s.core.reg 4) 64 .store .dflt false = (ms, .ok (.mem 0x3040 .wt))) ∧
    ∃ ms g, checkAccess { binding with mem := { binding.mem with tlb := [] } } 0x3040 64 .store .dflt false = (ms, .error g) :=
  ⟨by decide +kernel, by decide +kernel, ⟨_, 0x0201, errAt' (by decide +kernel)⟩, ⟨_, errAt rfl (by decide +kernel)⟩,
    ⟨by decide +kernel, okSome (by decide +kernel)⟩, _, errAt rfl (by decide +kernel)⟩

/-- A stride record too long, one with reserved bits, and one into the scratchpad, whose bank may be armed. -/
theorem witness_CopyIssue_strides :
    let rec_ := fun (rows rlen extra : Nat) => 16 + 32 * 2 ^ 64 + rlen * 2 ^ 128 + rows * 2 ^ 160 + extra
    let many : CopyCmd := { hdr := copying.opHdr (.cpys 0 6 3 5) 6 3 5 none 0, rows := 2, rlen := 8, dstr := 16, sstr := 32 }
    (2 ^ 192 ≤ rec_ 2 8 (2 ^ 192) ∧ 2 ^ 32 ≤ 2 ^ 16 * 2 ^ 16 ∧ rec_ (2 ^ 16) (2 ^ 16) 0 < 2 ^ 192) ∧
    (copying.core.id.isTask = true ∧ many.banks ≠ [] ∧ (∀ j ∈ many.banks, (fget copying.core.task.aps j {}).armed = false) ∧
     ∃ j ∈ many.banks, (fget (task copying fun t => { t with aps := [(0, { armed := true, ap := 0 })] }).core.task.aps j {}).armed = true) ∧
    ({ copying with core := { copying.core with id := .sup 0 } }.core.id.isTask = false) ∧
    (∃ u f, coreLoad (unmapped copying) 0x3000 32 .dflt false = (u, .error f)) :=
  ⟨by decide +kernel, by decide +kernel, by decide +kernel, _, errAt rfl (by decide +kernel)⟩

/-- The loop of `consuming` over two cells: the state before its k-th cell for QKDOT, and for PVACC. -/
def twoCells : State := task consuming fun t => { t with vl := 2 }
def qkBefore : Nat → State
  | 0 => twoCells
  | k + 1 =>
    let u := ((qkBefore k).nextToken 0 false).1
    let c := u.core
    let tok := Token.data (if k = 0 then [1, 2, 3] ++ List.replicate 125 0 else List.replicate 128 0)
    let r := score ((List.range 128).map fun e => decodeFp .e4m3 (c.elem [] .e4m3 (.vec 0 .row 2) (e / 4) (e % 4))) tok
    { u with core := if u.core.task.maskBit 0 k = true then { c.orFlags r.2 with task := (c.orFlags r.2).task.setVec .n32 (.vec 1 .row 4) k r.1 } else c }
def pvBefore : Nat → State
  | 0 => twoCells
  | k + 1 =>
    let u := ((pvBefore k).nextToken 0 true).1
    let c := u.core
    { u with core := if u.core.task.maskBit 0 k = true then c.accumulate 1 4 (decodeFp .fp32 (c.src [] .fp32 (.vec 0 .row 1) k)) (List.replicate 128 0) else c }

/-- Two tokens follow one another in a loop of two cells; a block that is absent is masked. -/
theorem witness_StreamConsumers_loops :
    twoCells.core.task.loopCells = [0, 1] ∧
    (∀ k, k < 2 → ((qkBefore k).nextToken 0 false).2 = .token (.data (if k = 0 then [1, 2, 3] ++ List.replicate 125 0 else List.replicate 128 0))) ∧
    (∀ k, k < 2 → ((pvBefore k).nextToken 0 true).2 = .token (.data (List.replicate 128 0))) ∧
    (∃ u, (walking 4 []).nextToken 0 false = (u, .token .masked)) ∧ (∃ u, (walking 4 []).nextToken 0 true = (u, .token .masked)) ∧
    (let s := task (walking 4 []) fun t => { t with streams := [(0, { bound := true })] }
     s.core.task.loopCells = [0] ∧ s.core.task.maskBit 0 0 = true ∧ ∃ u, s.nextToken 0 false = (u, .token .exhausted)) := by
  refine ⟨by decide +kernel, ?_, ?_, pairSome (by decide +kernel), pairSome (by decide +kernel), by decide +kernel, by decide +kernel, pairSome (by decide +kernel)⟩
  all_goals
    intro k h
    obtain rfl | rfl : k = 0 ∨ k = 1 := by omega
    all_goals decide +kernel

/-- A queued or running walk of the piece that a waiting miss needs, and a full stack. -/
theorem witness_WalksAndShootdowns_joins :
    let other : Miss := ⟨0, 1, 6, [.stack]⟩
    (let m := { base.mem with walks := [other, miss0], walkWait := [miss0] }
     m.walks = other :: [miss0] ∧ m.walkWait = miss0 :: [] ∧ (miss0.stk, miss0.asid, miss0.va64k) = (miss0.stk, miss0.asid, miss0.va64k) ∧ miss0 ∈ [miss0]) ∧
    (let m := { base.mem with walks := [other], walkWait := [miss0] }
     outstanding { m with walks := [] } 0 < 256 ∧ ¬ ((other.stk, other.asid, other.va64k) = (miss0.stk, miss0.asid, miss0.va64k))) ∧
    (let m := { base.mem with walks := [other], walkQ := List.replicate 256 other, walkWait := [miss0] }
     256 ≤ outstanding { m with walks := [] } 0) := by decide +kernel

/-- Queue pairs that take requests, and some that do not. -/
theorem witness_HostAccesses_pairs :
    (fget hosting.ursol.qps (7 : Fin 4096).val none = some ⟨.rts, 1, 2, 3, 1, 1024, 0, 0, true⟩ ∧ hosting.ursol.boot = .up) ∧
    (∀ st ∈ [QpSt.reset, .init, .error], (fget (linked 1 true st).ursol.qps 7 none).isSome = true ∧ st ≠ .rtr ∧ st ≠ .rts) ∧
    (let r := { hosting.ursol with rings := [(7, some ⟨1, 0x5000, 64, 4, 3, 0, 0x8000000⟩)] }.rings
     fget r 7 none = some ⟨1, 0x5000, 64, 4, 3, 0, 0x8000000⟩) := by decide +kernel

theorem witness_Power_switching :
    (let u := { base.ursol with trip := 95, temp := 96, switching := true, grade := 1 }; u.trip < u.temp ∧ u.hold = false ∧ u.boot ≠ .unpowered) ∧
    ({ base.ursol with switching := true, hold := true }.switching = true ∧ base.ursol.switching = false) ∧
    ¬ ({ base.ursol with switching := true, hold := true }.switching = true ∧ { base.ursol with switching := true, hold := true }.hold = false) ∧
    ({ base.ursol with hold := true, temp := 90, switching := true }.temp ≤ base.ursol.trip - 5) := by decide +kernel

/-- LKA runs that fail: no scales, a table of another ASID; drains of a bad cell, of another's block, and a clearing one. -/
theorem witness_TileSteps_fails :
    (let d : TileCmd := { tile := tile0, op := .lka, hdr := hdr 0 (2 ^ 42 + 3 * 2 ^ 32 + 2 ^ 21 + 2 ^ 10 + 1) 0x2000 }
     let s := unmapped (tileHas d)
     (s.nextStart tile0 = some d ∧ ∃ u, (s.dropTileCmd d.hdr).opRead d.hdr d.hdr.ve (4 * (((lkaShape d.hdr.vb).nsc + 7) / 8)) = (u, .error false)) ∧
     (lkaFault { base.tiles with tableTag := [(0, 9)] } tile0 d.hdr (lkaShape d.hdr.vb) 0).isSome = true) ∧
    (let d : TileCmd := { tile := tile0, op := .adrn, hdr := hdr (2 ^ 31) (4 * 2 ^ 16) 0 }
     let s := tileHas d
     let t := { s with tiles := { s.tiles with badAcc := [1] } }
     s.nextStart tile0 = some d ∧ d.hdr.va.toNat / 2 ^ 31 % 2 = 1 ∧ fget { s.tiles with accTag := [(0, 9)] }.accTag 0 0 ≠ d.hdr.asid.toNat + 1 ∧
     t.nextStart tile0 = some d ∧ (4 * 2) / 8 ∈ t.tiles.badAcc ∧ ∀ k, k < 2 → ¬ (4 * k) / 8 ∈ t.tiles.badAcc) := by
  refine ⟨⟨⟨by decide +kernel, errWith (by decide +kernel)⟩, by decide +kernel⟩, by decide +kernel⟩

/-- A transfer under way when its row closes, and one that waits. -/
theorem witness_BankMoves_transfers :
    (let s := { bankIn ⟨.open, 9, some 1, 0, 5, false, false, 16, []⟩ 2000 with
       dram := { (withRows (bankIn ⟨.open, 9, some 1, 0, 5, false, false, 16, []⟩ 2000) [rowCon]).dram with begun := [(0, 1)] } }
     s.dram.cmds = [rowCon] ∧ s.transferring rowCon = true) ∧
    (let s := withRows (bankIn ⟨.act, 9, some 1, 0, 5, false, false, 16, []⟩ 2000) [rowCon]
     (s.bank bank1).active = true ∧ s.transferring rowCon = false) := by decide +kernel

/-- A lookup before the TBLD, which its group waits for, and one of the same hart behind it. -/
theorem witness_BuilderSteps_order :
    let h := hdr 0x2000 1 512
    let look := fun (seq : Nat) => ({ tile := tile0, op := .lka, hdr := { hdr 0 (2 ^ 42 + 3 * 2 ^ 32 + 2 ^ 21 + 2 ^ 10 + 1) 0x2000 with seq := seq } } : TileCmd)
    let s := { builderHas [] (some ⟨h, 0, false, []⟩) with tiles := { base.tiles with cmds := [look 1, { tile := tile0, op := .reserve 0 1, hdr := h }, look 4] } }
    (s.building 0 = some ⟨h, 0, false, []⟩ ∧ tile0 ∈ maskTiles 0 h.vb ∧ s.groupAllowed tile0 h 0 1 = false) ∧
    (h.core = (look 4).hdr.core ∧ h.seq < (look 4).hdr.seq ∧ h.vb.getLsbD (look 4).tile.t.val = true ∧ ¬ h.seq < (look 1).hdr.seq) := by
  decide +kernel

/-! ### Clauses on units, limits, power and reports -/

/-- A command that the Crook has begun, at the head of its queue. -/
def begun (g : KvProg) (ctl : Nat) : KvCmd × State :=
  let c := { crookCmd .ins 0 0 0 with prog := g, desc := openedAt (crookWith (crookCmd .ins 0 0 0) ctl []) }
  (c, crookWith c ctl [])

theorem witness_CrookUnits :
    (∀ g ∈ [KvProg.probed default 5 none (some 5), .matched default 0 5 1 0, .pins 0], ∀ ctl ∈ [0, 1, 2],
      let c := (begun g ctl).1
      let s := (begun g ctl).2
      s.kvWaiting 0 = [c] ∧ NoVictims s ∧ c.prog ≠ .start ∧ c.hdr.stk = 0 ∧ NoCopies s.mem ∧ Sound s.mem ∧ (c.desc.entryVa 5).toNat % 128 = 0) ∧
    (∀ g ∈ [KvProg.probed default 5 none (some 5), .pins 0],
      let c := { (begun g 0).1 with hdr := { (begun g 0).1.hdr with core := .task ⟨0, 0⟩ } }
      let p : Preempt := ⟨0, ⟨2, 1⟩, 0, 4, [⟨0, 0⟩], [.crook], false⟩
      let s := { (begun g 0).2 with eng := { base.eng with kvQ := finsert base.eng.kvQ 0 [c] }, drover := { base.drover with preempts := [p] } }
      s.kvWaiting 0 = [c] ∧ s.drover.preempts = [p] ∧ p.victims = [⟨0, 0⟩] ∧ .crook ∈ p.due ∧ (c.prog.midBlock = true ∨ g = .pins 0)) ∧
    ((begun (.matched default 0 5 1 0) 2).1.desc = openedAt (begun (.matched default 0 5 1 0) 2).2 ∧ (2 % 8 ≠ 1 ∨ 2 / 2 ^ 16 % 2 ^ 16 ≠ 0)) := by
  decide +kernel

/-- The entry that a unit of the Crook changes is in reach. -/
theorem witness_CrookUnits_reach : ∀ g ctl, ctl ∈ [0, 1, 2] → g ∈ [KvProg.probed default 5 none (some 5), .matched default 0 5 1 0] →
    CrookReaches (begun g ctl).2 (begun g ctl).1.hdr ((begun g ctl).1.desc.entryVa 5) 128 := by
  intro g ctl hc hg
  have h : ((begun g ctl).1.desc.entryVa 5).toNat + 128 ≤ 2 ^ 26 := by
    revert ctl
    revert g
    decide +kernel
  exact crook_reaches _ _ _ _ rfl rfl rfl ⟨rfl, rfl⟩ h

/-- The loop of two cells under a limit of one token, and as it goes on. -/
theorem witness_StreamConsumers_limits :
    (consuming.core.task.quota = none ∧ lost.core.task.quota = none) ∧
    (let s := task twoCells fun t => { t with quota := some 1 }
     Element s ∧ s.core.task.loopCells = [0, 1] ∧ s.core.task.loopCells[1]? = some 1 ∧ min (0 + 1) s.core.task.loopCells.length = 1 ∧
     (s.nextToken 0 false).2 = .token (.data ([1, 2, 3] ++ List.replicate 125 0))) ∧
    (let s := task twoCells fun t => { t with vstart := 1, quota := some 0 }
     Element s ∧ s.core.task.loopCells = [1] ∧ (s.nextToken 0 false).2 = .token (.data ([1, 2, 3] ++ List.replicate 125 0))) := by decide +kernel

theorem witness_StepRunsDecoded_limits :
    (let s := { base with sched := [⟨5, .tokens (.task ⟨0, 0⟩) 3⟩] }
     (({ s with sched := [] } : State).advance 5).focus (.task ⟨0, 0⟩) = some (({ s with sched := [] } : State).advance 5)) ∧
    okIs (decodeE 0x0003000002016292) (.qkdot ⟨true, 0⟩ (.vec 2 .row 0) (.vec 0 .row 0) 0) = true ∧
    (let s := inStream 0x0003000002016292
     s.core.task.block = some ⟨0x4000100, 0x4000108, [0x0003000002016292, 1], []⟩ ∧ s.coreRuns = true ∧ s.joinWait.isNone = true) ∧
    (let s := task inBlock fun t => { t with step := true }
     s.coreRuns = true ∧ s.joinWait.isNone = true ∧ s.core.inBlock = true ∧ s.core.task.step = true) ∧
    (∀ c st, Move.badWord 0 ≠ .core c st) := by
  refine ⟨by decide +kernel, by decide +kernel, by decide +kernel, by decide +kernel, fun c st h => by cases h⟩

/-- A line that the Fold alone holds, with bytes that the DRAM lacks; the doubles that a pull of words 0 and 15 asks for. -/
theorem witness_FoldRequests_eviction :
    (let s := { base with mem := { base.mem with dir := [(line0, { changed := true })] } }
     NoCopies s.mem ∧ s.mem.dir = [(line0, { changed := true })] ∧ s.ursol.boot ≠ .unpowered ∧ s.ursol.switching = false) ∧
    ∀ i, i < 16 → (0xC003 : BitVec 16).getLsbD i = ((0x8001 : BitVec 16).getLsbD i || (0x8001 : BitVec 16).getLsbD (i ^^^ 1)) := by decide +kernel

theorem witness_Power_return :
    (∀ q ∈ [(StackSt.selfRefresh, 50000), (.gate, 2000000)],
      let s := { lone q.1 with ursol := { (lone q.1).ursol with waking := [(0, q.2)], fenced := [(3, true), (64, true)] }, now := q.2 }
      fget s.ursol.waking (0 : Fin 8).val 0 = q.2 ∧ q.2 ≤ s.now ∧ stackState s.ursol (0 : Fin 8).val = q.1) ∧
    (base.unitOf (.kvLookup 0) ≠ .own ∧ base.unitOf .launchEnqueue ≠ .own) := by decide +kernel

/-- A column of stack 0 with one open row, which a ROWCON or a ROWACT's object waits for, and no farm that runs there. -/
theorem witness_HostCommands_fences :
    (∀ q ∈ [([], [rowCon]), ([{ core := .task ⟨0, 0⟩, obj := some 0x2000 }], [])],
      let s := withRows ((lone .on).setBank bank1 ⟨.open, 9, some 1, 0, 5, false, false, 16, q.1⟩) q.2
      (s.bank bank1).active = true ∧ (s.bank bank1).objs = q.1 ∧ s.dram.cmds = q.2 ∧ s.transferring rowCon = false ∧
      (∀ l : Fin 16, l ≠ bank1.layer → (s.bank ⟨0, 0, l⟩).active = false) ∧ ∀ f ∈ s.drover.farms, f.2.st = .running → 0 ∉ f.2.lrec.rect) ∧
    (bank1.stk.val = 0 ∧ bank1.col.val = 0 ∧ rowCon.bank = bank1 ∧ rowCon.slot = some 3) ∧
    ({ base.ursol with fwDigest := List.replicate 32 7 }.fwDigest.length = 32 ∧ base.ursol.cap.maxb ≤ 4) ∧
    (reachable base.ursol 0x40 = true ∧ reachable State.reset.ursol 0x40 = false ∧ NoCopies base.mem) := by decide +kernel

/-- Wherever the count of the watch ring lies, a package whose stacks are on, with no column fenced, takes it. -/
theorem witness_HostCommands_count (u : Ursol) (h : ∀ k, k < 8 → stackState u k = .on) (hf : u.fenced = []) (pa : Nat) (hp : isDram pa = true) :
    reachable u pa = true := by
  have hs : serves u (stackOf pa) = true := by
    have := h (stackOf pa) (by unfold stackOf; omega)
    unfold serves
    rw [this]
    rfl
  simp [reachable, hp, hs, isFenced, hf, fget, flook]

/-- Dependences below their count, at it, reached before and not registered; waits that an update ends, and one it does not. -/
theorem witness_FarmLife_reports :
    (let f := { waitingFarm with deps := [(some 0x2000, 3, false), (some 0x2000, 4, false), (some 0x2000, 9, true), (some 0x2000, 1, false)], unreg := [3] }
     let s := holds (withFarm f) [(0x2000, bytesOf 4 3)]
     s.drover.ending = [] ∧ NoCopies s.mem ∧ s.farm? 2 = some f ∧ f.st = .waiting ∧ reachable s.ursol 0x2000 = true ∧
     (Obj.ofNat (natOf (readBytes s.mem.cells 0x2000 16))).count = 3 ∧ 3 ∈ f.unreg ∧ 0 ∉ f.unreg ∧ s.observe.farm? 2 = some { f with
       deps := [(some 0x2000, 3, true), (some 0x2000, 4, false), (some 0x2000, 9, true), (some 0x2000, 1, false)] }) ∧
    (∀ q ∈ [(Wake.resume 0x2000 false, Wake.resume 0x2000 true), (.waitObj 0x2000 3 false false, .waitObj 0x2000 3 false true),
        (.waitObj 0x2000 0xFFFFFFFF true false, .waitObj 0x2000 0xFFFFFFFF true true), (.waitObj 0x2000 4 true false, .waitObj 0x2000 4 true false), (.ready, .ready)],
      let s := holds (parkedAs q.1) [(0x2000, bytesOf 4 3)]
      s.drover.ending = [] ∧ NoCopies s.mem ∧ s.parked.map (·.wake) = [q.1] ∧ s.observe.parked.map (·.wake) = [q.2]) := by decide +kernel

/-- Lookups on what is another ASID's, on a poisoned slot, and over a word with an error in each of the three SRAMs. -/
theorem witness_TileSteps_order :
    let h := hdr 0 (2 ^ 42 + 3 * 2 ^ 32 + 2 ^ 21 + 2 ^ 10 + 1) 0x2000
    let l := lkaShape h.vb
    (l.k = 1 ∧ l.g = 1 ∧ l.c = 1 ∧ l.sh.p = 1 ∧ l.sh.e16 = false ∧ l.a32 = false) ∧
    (∀ q ∈ [({ base.tiles with tableTag := [(0, 9)] }, some (0x0141, 0)), ({ base.tiles with slotTag := [(0, 9)], slotPoison := [(0, true)] }, some (0x0141, 0)),
        ({ base.tiles with accTag := [(0, 9)] }, some (0x0141, 0)), ({ base.tiles with slotPoison := [(0, true)], slotRow := [(0, 77)], badAcc := [0] }, some (0x0140, 77)),
        ({ base.tiles with badAcc := [0] }, some (0x0145, 0)), ({ base.tiles with badSlot := [0] }, some (0x0145, 0)), ({ base.tiles with badTable := [0] }, some (0x0145, 0)),
        ({ base.tiles with badTable := [1], badSlot := [256], badAcc := [1] }, none)],
      lkaFault q.1 tile0 h l 0 = q.2) := by decide +kernel

/-- Sums, products and quotients that are exact, that round, that cancel, and that are out of range. -/
theorem witness_ExactResults :
    (∀ ty : Ty, ty = .fp32 ∨ ty = .fp16 ∨ ty = .bf16 → ty.isFlt = true) ∧
    (addFp .fp16 .rne (.fin false 1 0) (.fin false 1 (-11)) = (0x3C00, 0x10) ∧ addFp .fp16 .rup (.fin false 1 0) (.fin false 1 (-11)) = (0x3C01, 0x10) ∧
     addFp .fp16 .rdn (.fin false 1 0) (.fin true 1 0) = (0x8000, 0) ∧ addFp .fp16 .rne (.fin true 0 3) (.fin true 0 5) = (0x8000, 0)) ∧
    (mulFp .fp16 .rne (.fin false 1 (-13)) (.fin false 1 (-12)) = (0, 0x18) ∧ mulFp .fp16 .rup (.fin false 1 (-13)) (.fin false 1 (-12)) = (1, 0x18) ∧
     fmaFp .fp16 .rne (.fin false 256 0) (.fin false 256 0) (.fin false 1 0) = (0x7C00, 0x14) ∧
     fmaFp .fp16 .rtz (.fin false 256 0) (.fin false 256 0) (.fin false 1 0) = (0x7BFF, 0x14)) ∧
    (divFp .fp32 .rne (.fin false 1 0) (.fin true 3 0) = (0xBEAAAAAB, 0x10) ∧ divFp .fp32 .rtz (.fin false 1 0) (.fin true 3 0) = (0xBEAAAAAA, 0x10)) := by
  refine ⟨?_, by decide +kernel, by decide +kernel, by decide +kernel⟩
  rintro ty (rfl | rfl | rfl) <;> rfl

end Sys2Proof.Tests
end

section
/-!
PROOFS. The scalar register file (R114) and the divisions of scalar registers (R119).
-/
namespace Sys2Proof.Machine
open Sys2Proof Sys2Proof.Safety

/-! ## The register file (R114) -/

/-- A write to a register changes the register table and no other field of the core. -/
theorem Core.setReg_frame (c : Core) (d : Reg) (v : W64) : { c.setReg d v with x := c.x } = c := by
  unfold Core.setReg
  split <;> rfl

/-- Settles O1: the read after a write, the write to x0, and the frame of a write. -/
theorem registerFile : Obligations.RegisterFile := fun c d r v =>
  ⟨Core.reg_setReg c d r v, Core.setReg_zero c v, Core.setReg_frame c d v⟩

/-! ## The values of the divisions (R119) -/

theorem divS_zero (a : W64) : divS a 0 = BitVec.allOnes 64 := rfl
theorem remS_zero (a : W64) : remS a 0 = a := rfl
theorem divN_zero (a : W64) : divN a 0 = BitVec.allOnes 64 := rfl
theorem remN_zero (a : W64) : remN a 0 = a := rfl

/-- The signed quotient, rounded toward zero and taken modulo 2^64. -/
theorem divS_of_ne_zero {b : W64} (h : b ≠ 0) (a : W64) : divS a b = BitVec.ofInt 64 (a.toInt.tdiv b.toInt) := by
  apply BitVec.eq_of_toInt_eq
  rw [divS, if_neg h, BitVec.toInt_sdiv, BitVec.toInt_ofInt]

/-- The signed remainder takes the dividend's sign. -/
theorem remS_of_ne_zero {b : W64} (h : b ≠ 0) (a : W64) : remS a b = BitVec.ofInt 64 (a.toInt.tmod b.toInt) := by
  rw [remS, if_neg h, ← BitVec.toInt_srem, BitVec.ofInt_toInt]

theorem divN_of_ne_zero {b : W64} (h : b ≠ 0) (a : W64) : divN a b = BitVec.ofNat 64 (a.toNat / b.toNat) := by
  rw [divN, if_neg h, ← BitVec.toNat_udiv, BitVec.ofNat_toNat, BitVec.setWidth_eq]

theorem remN_of_ne_zero {b : W64} (h : b ≠ 0) (a : W64) : remN a b = BitVec.ofNat 64 (a.toNat % b.toNat) := by
  rw [remN, if_neg h, ← BitVec.toNat_umod, BitVec.ofNat_toNat, BitVec.setWidth_eq]

/-- The quotient 2^63, which no register holds as i64, comes out as the dividend -2^63. -/
theorem divS_overflow : divS (BitVec.ofInt 64 (-2 ^ 63)) (BitVec.allOnes 64) = BitVec.ofInt 64 (-2 ^ 63) := by decide

theorem remS_overflow : remS (BitVec.ofInt 64 (-2 ^ 63)) (BitVec.allOnes 64) = 0 := by decide

/-! ## The division instructions -/

/-- A two-source instruction that runs, with no trap after it, writes its value and goes to the next word. -/
theorem alu2_runs {s : State} {d a b : Reg} (hq : Quiet s) (hr : MayRun s [d, a, b]) (f : W64 → W64 → W64) :
    alu2 s d a b f = .next (wrote s d (f (s.core.reg a) (s.core.reg b))) := by
  rw [alu2, scalarRuns_mayRun hr, retireWith_quiet hq]

theorem exec_div (d a b : Reg) (s : State) : exec (.div d a b) s = alu2 s d a b divS := rfl
theorem exec_rem (d a b : Reg) (s : State) : exec (.rem d a b) s = alu2 s d a b remS := rfl
theorem exec_divn (d a b : Reg) (s : State) : exec (.divn d a b) s = alu2 s d a b divN := rfl
theorem exec_remn (d a b : Reg) (s : State) : exec (.remn d a b) s = alu2 s d a b remN := rfl

/-- Settles O2: each division retires with the value of its operation, which is split into the divisor zero,
any other divisor, and the one quotient that overflows. -/
theorem scalarDivision : Obligations.ScalarDivision := by
  intro s d a b hq hr
  simp only [exec_div, exec_rem, exec_divn, exec_remn, alu2_runs hq hr]
  refine ⟨fun hb => ?divisorZero, fun hb => ?divisorNonzero, fun ha hb => ?overflow⟩
  case divisorZero =>
    simp only [hb, divS_zero, remS_zero, divN_zero, remN_zero, and_self]
  case divisorNonzero =>
    simp only [divS_of_ne_zero hb, remS_of_ne_zero hb, divN_of_ne_zero hb, remN_of_ne_zero hb, and_self]
  case overflow =>
    simp only [ha, hb, divS_overflow, remS_overflow, and_self]

end Sys2Proof.Machine
end
